-- ==== Sys2Proof/Word.lean ====
section
/-! DEFINITION. Word.lean: the words of the Z7 (R3) and sparse tables with one canonical form.

A `Cells` table is a list of (key, value) pairs, keys strictly rising. What an unlisted key reads as is
the default given at the read, and `Cells.put` with that default removes the entry, so equal tables are
equal lists. -/
namespace Sys2Proof

/-- 8 bits (R3). -/
abbrev Byte := BitVec 8
/-- 16 bits, the half of R3. -/
abbrev Half := BitVec 16
/-- 32 bits, the word of R3. -/
abbrev Word32 := BitVec 32
/-- 64 bits, the dword of R3. -/
abbrev Dword := BitVec 64
/-- One bit per lane of a team of up to 1,024 lanes (R26, R71). -/
abbrev LaneMask := BitVec 1024

/-- A sparse table: (key, value) pairs, keys strictly rising. -/
abbrev Cells (α : Type) := List (Nat × α)

/-- The entry at a key, if one is listed. -/
def Cells.find? {α : Type} (k : Nat) : Cells α → Option α
  | [] => none
  | (k', v) :: m => if k = k' then some v else Cells.find? k m

/-- The value at a key; an unlisted key reads as `d`. -/
def Cells.get {α : Type} (d : α) (m : Cells α) (k : Nat) : α := (m.find? k).getD d

/-- List a value at a key, in place of what stood there. -/
def Cells.insert {α : Type} (k : Nat) (v : α) : Cells α → Cells α
  | [] => [(k, v)]
  | (k', v') :: m =>
    if k < k' then (k, v) :: (k', v') :: m
    else if k = k' then (k, v) :: m
    else (k', v') :: Cells.insert k v m

/-- Remove the entry at a key. -/
def Cells.remove {α : Type} (k : Nat) (m : Cells α) : Cells α := m.filter fun c => c.1 ≠ k

/-- Write a value at a key, keeping the canonical form: the default is never listed. -/
def Cells.put {α : Type} [DecidableEq α] (d : α) (k : Nat) (v : α) (m : Cells α) : Cells α :=
  if v = d then m.remove k else m.insert k v

/-- Keys strictly rising, all above a bound. -/
def Cells.risingFrom {α : Type} : Nat → Cells α → Bool
  | _, [] => true
  | lo, (k, _) :: m => decide (lo ≤ k) && Cells.risingFrom (k + 1) m

/-- Keys strictly rising. -/
def Cells.rising {α : Type} (m : Cells α) : Bool := Cells.risingFrom 0 m

/-- The canonical form: keys strictly rising, no entry equal to what an unlisted key reads as. -/
def Cells.wf {α : Type} [DecidableEq α] (d : α) (m : Cells α) : Bool :=
  m.rising && m.all fun c => decide (c.2 ≠ d)

/-- Bits hi to lo of a number, both ends included (R2). -/
abbrev bitsOf (w hi lo : Nat) : Nat := w / 2 ^ lo % 2 ^ (hi + 1 - lo)

/-- Bits hi to lo of a number as a bit vector of the field's width. -/
abbrev fieldOf (n : Nat) (w lo : Nat) : BitVec n := BitVec.ofNat n (w / 2 ^ lo)

/-- Bit i of a number. -/
abbrev bitOf (w i : Nat) : Bool := w / 2 ^ i % 2 = 1

end Sys2Proof
end

