-- ==== Sys2Proof/Config.lean ====
section
/-! DEFINITION. Config.lean: what an implementation fixes and the manual leaves open, as constants with no body
(log 7). Nothing can be proved about their values. -/
namespace Sys2Proof.Config

/-- A fresh open number: the n-th free value taken (log 7). -/
opaque freeNat : Nat → Nat

/-- The biased exponent, modulo 768, of the d64 zero that a finite value divided by an infinity gives, as a function of
the two patterns: R97 gives that zero no preferred exponent. -/
opaque zeroExponent : Nat → Nat → Nat

/-- Whether a block value nearer to zero than the least level of a block type without a zero takes the level of the other
sign under RTZ, as a function of its pattern: R107 names no level toward zero there. -/
opaque crossesZero : Nat → Bool

/-- The fused device identifier, 16 bytes; bytes 0 to 7 are the package identifier (R404). -/
opaque deviceId : List Byte

/-- The fused rollback counter (R403). -/
opaque rollback : Word32

/-- SHA-512 (R403, R404): a byte string of 64 bytes, whose definition the manual takes from outside. -/
opaque sha512 : List Byte → List Byte

/-- The ECDSA P-521 signature made with the device identity key (R404): 132 bytes. -/
opaque sign : List Byte → List Byte

/-- The bytes of an image's header that are signed: its identifier, security version, length and digest, whose layout the manual does
not give (R403). -/
opaque imageHeader : List Byte → Word32 → Nat → List Byte → List Byte

/-- Whether vendor key n, 0 to 3, is fused and not revoked; and whether it has signed a hash (R403). -/
opaque vendorKey : Nat → Bool
opaque signedBy : Nat → List Byte → List Byte → Bool

/-- The n-th nonce that the root-of-trust core issues for a debug unlock (R405). -/
opaque nonce : Nat → List Byte

/-- Whether a debug token's signature verifies under a vendor key that is fused and not revoked (R405). -/
opaque tokenVerifies : List Byte → Bool

/-- AES-256-GCM encryption of a flit under a key, salt and invocation count (R352). -/
opaque sealFlit : List Byte → Word32 → Nat → List Byte → List Byte

/-- AES-256-GCM decryption of a received flit; none when its authentication fails (R352). -/
opaque openFlit : List Byte → Word32 → Nat → List Byte → Option (List Byte)

/-- The command of a collective's rank on another package (R322, R325): its RANK, KIND, OP, TYPE, RND, LEN, ROOT and N, and its
partition there. -/
structure CollTerms where
  rank : Nat
  kind : Nat
  op : Nat
  ty : Nat
  rnd : Nat
  len : Nat
  root : Nat
  count : Nat
  part : Nat := 0
  deriving DecidableEq, Repr, Inhabited

/-- How what an operation asks of other packages ends, as the outside world has it: as asked; as asked, with the commands of ranks
there; a peer link or an adapter route fails; or a peer refuses it (R319, R325, R351, R355). -/
inductive Far where
  | fine | routeFailed | refused
  | ranks (terms : List CollTerms)
  deriving DecidableEq, Repr, Inhabited

/-- The eight bytes at a machine address of a peer window when they are read at a time (R323). -/
opaque peerTable : Nat → Nat → Nat

/-- The mode of a x16 port (R336): an endpoint port of one x16, two x8 or four x4 ports; a CXL port of one or two; or a peer
port. -/
inductive PortMode where
  | endpoint (ports : Nat) | cxl (ports : Nat) | ntb
  deriving DecidableEq, Repr, Inhabited

/-- An entry of the adapter route table (R355). -/
structure Route where
  handle : Nat
  queueId : Word32
  arrivals : Dword
  deriving DecidableEq, Repr, Inhabited

/-- A firmware image with its header (R403). -/
structure Image where
  ident : List Byte := []
  version : Word32 := 0
  length : Nat := 0
  digest : List Byte := []
  signature : List Byte := []
  body : List Byte := []
  deriving DecidableEq, Repr, Inhabited

/-- What a start step works with: the images that it verifies; and what the signed configuration and host firmware settle at start-up:
the entries of partitions, the mode of each x16 port; each root port's completion
timeout for host threads, where it is not the default; this package's number, its peer number, the packages of the
members of its peer group, and its adapter routes by package number (R323, R336, R337, R351, R355). The manual gives
these tables no place that a program writes (log 50). -/
structure Boot where
  modes : List PortMode := []
  partitions : List (Nat × List Byte) := []
  images : List Image := []
  timeouts : List (Nat × Nat) := []
  package : Nat := 0
  peer : Nat := 0
  members : List (Nat × Nat) := []
  routes : List (Nat × Route) := []
  deriving DecidableEq, Repr, Inhabited

/-- An engine operation that makes its first access, with the bytes of peer windows that its list or its group table lies in, by
machine address, as the outside world has them (R294, R321, R323). -/
structure OpStart where
  id : Nat
  remote : List (Nat × List (Byte × Bool)) := []
  deriving DecidableEq, Repr, Inhabited

/-- What a line is asked for: writing or reading, and the poison indication that a CXL device gives with it (R244, R367). -/
structure LineUse where
  write : Bool
  poison : Bool := false
  deriving DecidableEq, Repr, Inhabited

/-- A root port's error: its header word, and whether DPC is enabled for it and contains the port (R335, R337). -/
structure AerReport where
  header : Word32
  contain : Bool := false
  deriving DecidableEq, Repr, Inhabited

/-- What fails of a stack: a channel, or its one block in a stripe row (R243). -/
structure ChannelLoss where
  channel : Nat
  row : Option Nat := none
  deriving DecidableEq, Repr, Inhabited

/-- An access of another member of the peer group to this package's window (R351): the member, the window offset, the
bytes written with their poison, or none for a read of `len` bytes. -/
structure PeerRequest where
  member : Nat := 0
  offset : Nat := 0
  len : Nat := 0
  data : Option (List (Byte × Bool)) := none
  deriving DecidableEq, Repr, Inhabited

/-- The access that a data flit's payload asks for, if it asks for one: the manual does not lay payloads out. -/
opaque peerRequest : List Byte → Option PeerRequest

/-- The link on which a data flit's payload goes on to another member, if it is for another member (R351). -/
opaque forwardOn : List Byte → Option Nat

/-- The link that carries this package's traffic for a member of its peer group: the peer table has no layout (R351). -/
opaque linkTo : Nat → Nat

/-- The bytes of the root-of-trust core's private ROM (R17). -/
opaque romBytes : Nat

/-- How many LBAs the device of a swap registration has in a slot of 64 KiB (R380). -/
opaque lbasPerSlot : Nat → Nat

/-- The memory channel, 0 to 35, of its stack that holds a data block of a stack offset, and its stripe row (R242). -/
opaque stripeOf : Nat → Nat × Nat

end Sys2Proof.Config
end

