-- ==== Sys2Proof/Syntax.lean ====
section
/-! DEFINITION. Syntax.lean: the steps of the Z7, one constructor per row of spec/opcode_table.json.

The instruction rows carry the fields of their encoding (R47 to R51), at the table's widths: a field of one bit
is a Bool, every other field a bit vector. A row whose mnemonic ends in _EXT, or whose opcode requires an EXT,
carries the EXT's payload fields as well (R50, R51). The event rows (RECONVERGENCE_POP to QUEUE_FULL_TIMEOUT)
are steps that are no instruction words: their arguments say which agent, queue entry or line acts, or carry what
the outside world brings. -/
namespace Sys2Proof

/-- The steps of the Z7. Each constructor cites the rule its row of the table names. -/
inductive Instr where
  /-- SADD (R121). Writes the 64-bit sum of s[sa] and s[sb] to s[sd], wrapping. -/
  | sadd (d : BitVec 7) (a : BitVec 7) (b : BitVec 7)
  /-- SSUB (R121). Writes s[sa] minus s[sb] to s[sd], wrapping. -/
  | ssub (d : BitVec 7) (a : BitVec 7) (b : BitVec 7)
  /-- SMUL (R121). Writes the low 64 bits of the product of s[sa] and s[sb] to s[sd]. -/
  | smul (d : BitVec 7) (a : BitVec 7) (b : BitVec 7)
  /-- SMULH (R121). Writes the high 64 bits of the signed or unsigned 128-bit product to s[sd]. -/
  | smulh (d : BitVec 7) (a : BitVec 7) (b : BitVec 7) (u : Bool)
  /-- SDIV (R122). Writes the truncated signed or unsigned quotient to s[sd]; division by zero gives 0 and raises division by zero. -/
  | sdiv (d : BitVec 7) (a : BitVec 7) (b : BitVec 7) (u : Bool)
  /-- SREM (R122). Writes the signed or unsigned remainder to s[sd]; division by zero gives x and raises division by zero. -/
  | srem (d : BitVec 7) (a : BitVec 7) (b : BitVec 7) (u : Bool)
  /-- SAND (R121). Writes the bitwise AND of s[sa] and s[sb] to s[sd]. -/
  | sand (d : BitVec 7) (a : BitVec 7) (b : BitVec 7)
  /-- SOR (R121). Writes the bitwise OR of s[sa] and s[sb] to s[sd]. -/
  | sor (d : BitVec 7) (a : BitVec 7) (b : BitVec 7)
  /-- SXOR (R121). Writes the bitwise XOR of s[sa] and s[sb] to s[sd]. -/
  | sxor (d : BitVec 7) (a : BitVec 7) (b : BitVec 7)
  /-- SSHL (R121). Shifts s[sa] left by s[sb] bits 5:0 into s[sd]. -/
  | sshl (d : BitVec 7) (a : BitVec 7) (b : BitVec 7)
  /-- SSHR (R121). Shifts s[sa] right by s[sb] bits 5:0 with zeros in. -/
  | sshr (d : BitVec 7) (a : BitVec 7) (b : BitVec 7)
  /-- SSAR (R121). Shifts s[sa] right by s[sb] bits 5:0 with copies of bit 63 in. -/
  | ssar (d : BitVec 7) (a : BitVec 7) (b : BitVec 7)
  /-- SMIN (R121). Writes the signed or unsigned lesser of s[sa] and s[sb]. -/
  | smin (d : BitVec 7) (a : BitVec 7) (b : BitVec 7) (u : Bool)
  /-- SMAX (R121). Writes the signed or unsigned greater of s[sa] and s[sb]. -/
  | smax (d : BitVec 7) (a : BitVec 7) (b : BitVec 7) (u : Bool)
  /-- SCMP (R123). Writes 1 or 0 to s[sd] according to the scalar relation of s[sa] and s[sb]. -/
  | scmp (d : BitVec 7) (a : BitVec 7) (b : BitVec 7) (r : BitVec 3)
  /-- SSEL (R123). Selects s[sa] or s[sb] into s[sd] by the EXT-named condition register. -/
  | ssel (d : BitVec 7) (a : BitVec 7) (b : BitVec 7) (f : Bool) (c : BitVec 7)
  /-- SBITS (R124). Applies a bit function (popcount, clz, ctz, reverse, byte reverse, parity) to s[sa]. -/
  | sbits (d : BitVec 7) (a : BitVec 7) (f : BitVec 3)
  /-- SBFX (R125). Extracts a bit field of s[sa] under control word s[sb], sign- or zero-extended. -/
  | sbfx (d : BitVec 7) (a : BitVec 7) (b : BitVec 7) (s : Bool)
  /-- SBFI (R125). Inserts the low bits of s[sa] into a field of s[sd] under control word s[sb]. -/
  | sbfi (d : BitVec 7) (a : BitVec 7) (b : BitVec 7)
  /-- SMOV (R121). Copies s[sa] to s[sd] carrying its poison. -/
  | smov (d : BitVec 7) (a : BitVec 7)
  /-- SLI (R126). Loads s[sd] with the sign-extended 17-bit immediate, poison clear. -/
  | sli (d : BitVec 7) (i : BitVec 17)
  /-- SLI_EXT (R126). Loads s[sd] with a 41-bit immediate formed with an immediate EXT. -/
  | sliExt (d : BitVec 7) (i : BitVec 17) (p : BitVec 24)
  /-- SLIH (R126). Shifts s[sd] left by 17 and ORs in the zero-extended immediate. -/
  | slih (d : BitVec 7) (i : BitVec 17)
  /-- SADDI (R126). Adds the sign-extended immediate to s[sd]. -/
  | saddi (d : BitVec 7) (i : BitVec 17)
  /-- SADDI_EXT (R126). Adds a 41-bit immediate formed with an immediate EXT to s[sd]. -/
  | saddiExt (d : BitVec 7) (i : BitVec 17) (p : BitVec 24)
  /-- SANDI (R126). ANDs s[sd] with the sign-extended immediate. -/
  | sandi (d : BitVec 7) (i : BitVec 17)
  /-- SORI (R126). ORs s[sd] with the zero-extended immediate. -/
  | sori (d : BitVec 7) (i : BitVec 17)
  /-- SSHLI (R126). Shifts s[sd] left by immediate bits 5:0. -/
  | sshli (d : BitVec 7) (i : BitVec 6)
  /-- SFOP (R127). Performs an f64 add, sub, mul, div, min, max or sqrt on s registers under MODE.RND. -/
  | sfop (d : BitVec 7) (a : BitVec 7) (b : BitVec 7) (f : BitVec 3)
  /-- SFCMP (R128). Compares two f64 values with a float relation and writes 1 or 0. -/
  | sfcmp (d : BitVec 7) (a : BitVec 7) (b : BitVec 7) (r : BitVec 3)
  /-- SFCVT (R129). Converts s[sa] between i64, n64, f64 and f32 under MODE.RND. -/
  | sfcvt (d : BitVec 7) (a : BitVec 7) (f : BitVec 3)
  /-- BRA (R195). Branches unconditionally to a word offset. -/
  | bra (o : BitVec 24)
  /-- BRZ (R195). Branches when s[sa] is zero. -/
  | brz (a : BitVec 7) (o : BitVec 17)
  /-- BRNZ (R195). Branches when s[sa] is not zero. -/
  | brnz (a : BitVec 7) (o : BitVec 17)
  /-- BRV (R196). Divergent branch by mask, pushing join and path entries on the reconvergence stack. -/
  | brv (m : BitVec 4) (o : BitVec 17) (j : BitVec 24)
  /-- BRALL (R195). Branches when every active lane has its bit set in the mask. -/
  | brall (m : BitVec 4) (o : BitVec 17)
  /-- BRANY (R195). Branches when any active lane has its bit set in the mask. -/
  | brany (m : BitVec 4) (o : BitVec 17)
  /-- CALL (R195). Writes the successor to the link register and branches to an offset. -/
  | call (o : BitVec 24)
  /-- CALLI (R195). Writes the successor to the link register and jumps to s[sa]. -/
  | calli (a : BitVec 7)
  /-- RET (R195). Jumps to the address in the link or named register. -/
  | ret (a : BitVec 7)
  /-- JMPI (R195). Jumps to the address in s[sa]. -/
  | jmpi (a : BitVec 7)
  /-- LOOP (R195). Decrements s[sa] and branches while the new value is not zero. -/
  | loop (a : BitVec 7) (o : BitVec 17)
  /-- EXIT (R198). After ink, ends the team or removes the top entry's lanes from the stack. -/
  | exit
  /-- SETMODE (R199). Writes MODE fields under a field mask, keeping LOCK and a locked TRAPEN. -/
  | setmode (a : BitVec 7) (b : BitVec 7)
  /-- GETMODE (R199). Writes the zero-extended MODE to s[sd]. -/
  | getmode (d : BitVec 7)
  /-- YIELD (R201). Hands the team back to the scheduler, writing a YIELDED image and registering on a barrier object. -/
  | yield (a : BitVec 7) (b : BitVec 7)
  /-- TRAP (R208). Raises cause TRAP with the immediate code. -/
  | trap (i : BitVec 17)
  /-- RETT (R209). Drains the replay queue, pops the trap frame and returns to user mode at the resume address. -/
  | rett
  /-- BKPT (R208). Raises cause BKPT with the immediate code. -/
  | bkpt (i : BitVec 17)
  /-- PRCHK (R200). Writes the pre-emption request state and remaining deadline to s[sd]. -/
  | prchk (d : BitVec 7)
  /-- SYSCALL (R208). Raises cause SYSCALL with the immediate code. -/
  | syscall (i : BitVec 17)
  /-- CSRRD (R210). Reads a control and status register into s[sd]. -/
  | csrrd (d : BitVec 7) (n : BitVec 17)
  /-- CSRWR (R210). After ink, writes s[sa] to a writable control and status register. -/
  | csrwr (a : BitVec 7) (n : BitVec 17)
  /-- CTXSAVE (R223). Writes the issuing team's context image to memory and returns a status. -/
  | ctxsave (d : BitVec 7) (a : BitVec 7)
  /-- CTXLOAD (R224). Validates a context image and hands it to the scheduler for placement. -/
  | ctxload (d : BitVec 7) (a : BitVec 7)
  /-- WFI (R202). Holds a host or queue thread until an interrupt is pending. -/
  | wfi
  /-- HALT (R202). After ink, stops the team or thread for good and sends a HALT event. -/
  | halt
  /-- NOP (R202). Has no effect. -/
  | nop
  /-- VADD (R131). Adds integer elements of va and vb into vd in exec lanes. -/
  | vadd (d : BitVec 8) (a : BitVec 8) (b : BitVec 8)
  /-- VSUB (R131). Subtracts integer elements of vb from va into vd. -/
  | vsub (d : BitVec 8) (a : BitVec 8) (b : BitVec 8)
  /-- VMUL (R131). Multiplies integer elements, keeping the low bits. -/
  | vmul (d : BitVec 8) (a : BitVec 8) (b : BitVec 8)
  /-- VMULH (R131). Writes the high half of each integer element product. -/
  | vmulh (d : BitVec 8) (a : BitVec 8) (b : BitVec 8)
  /-- VMAD (R131). Writes x times y plus the EXT register element z. -/
  | vmad (d : BitVec 8) (a : BitVec 8) (b : BitVec 8) (c : BitVec 8)
  /-- VMIN (R131). Writes the lesser integer element by type sign. -/
  | vmin (d : BitVec 8) (a : BitVec 8) (b : BitVec 8)
  /-- VMAX (R131). Writes the greater integer element by type sign. -/
  | vmax (d : BitVec 8) (a : BitVec 8) (b : BitVec 8)
  /-- VABSD (R131). Writes the absolute difference of integer elements. -/
  | vabsd (d : BitVec 8) (a : BitVec 8) (b : BitVec 8)
  /-- VAND (R131). Bitwise AND of lane words or pairs. -/
  | vand (d : BitVec 8) (a : BitVec 8) (b : BitVec 8)
  /-- VOR (R131). Bitwise OR of lane words or pairs. -/
  | vor (d : BitVec 8) (a : BitVec 8) (b : BitVec 8)
  /-- VXOR (R131). Bitwise XOR of lane words or pairs. -/
  | vxor (d : BitVec 8) (a : BitVec 8) (b : BitVec 8)
  /-- VLOGT (R132). Applies an 8-bit truth table to three source registers bit by bit. -/
  | vlogt (d : BitVec 8) (a : BitVec 8) (b : BitVec 8) (c : BitVec 8) (t : BitVec 8)
  /-- VSHL (R131). Shifts integer elements left by y mod w. -/
  | vshl (d : BitVec 8) (a : BitVec 8) (b : BitVec 8)
  /-- VSHR (R131). Shifts integer elements right with zeros in. -/
  | vshr (d : BitVec 8) (a : BitVec 8) (b : BitVec 8)
  /-- VSAR (R131). Shifts integer elements right with sign copies in. -/
  | vsar (d : BitVec 8) (a : BitVec 8) (b : BitVec 8)
  /-- VFUN (R133). Funnel-shifts the concatenation of x and y right by z mod w. -/
  | vfun (d : BitVec 8) (a : BitVec 8) (b : BitVec 8) (c : BitVec 8)
  /-- VBITS (R134). Applies a bit function to each element. -/
  | vbits (d : BitVec 8) (a : BitVec 8) (f : BitVec 8)
  /-- VBFX (R125). Extracts a per-lane bit field from each element. -/
  | vbfx (d : BitVec 8) (a : BitVec 8) (b : BitVec 8)
  /-- VCMP (R135). Writes mask bits with the integer relation of va and vb in exec lanes. -/
  | vcmp (r : BitVec 4) (m : BitVec 4) (a : BitVec 8) (b : BitVec 8)
  /-- VSEL (R136). Selects va or vb per lane by the EXT mask, carrying poison. -/
  | vsel (d : BitVec 8) (a : BitVec 8) (b : BitVec 8) (k : BitVec 4)
  /-- VMOV (R136). Copies va to vd in exec lanes, carrying poison. -/
  | vmov (d : BitVec 8) (a : BitVec 8)
  /-- VBCAST (R136). Broadcasts the low or high half of s[sa] to every exec lane. -/
  | vbcast (d : BitVec 8) (a : BitVec 7) (h : Bool)
  /-- VLI (R136). Writes a sign-extended 16-bit immediate to every exec lane. -/
  | vli (d : BitVec 8) (i : BitVec 16)
  /-- VLI_EXT (R136). Writes a 32-bit immediate formed with an immediate EXT to every exec lane. -/
  | vliExt (d : BitVec 8) (i : BitVec 16) (h : BitVec 16)
  /-- VLIH (R136). Replaces bits 31:16 of vd with the immediate. -/
  | vlih (d : BitVec 8) (i : BitVec 16)
  /-- VADDI (R131). Adds a sign-extended 16-bit immediate to each vd element. -/
  | vaddi (d : BitVec 8) (i : BitVec 16)
  /-- VADDI_EXT (R131). Adds a 32-bit immediate formed with an immediate EXT to each vd element. -/
  | vaddiExt (d : BitVec 8) (i : BitVec 16) (h : BitVec 16)
  /-- VCVT (R137). Converts between integer types with saturation. -/
  | vcvt (d : BitVec 8) (a : BitVec 8) (t : BitVec 5)
  /-- VLANE (R139). Writes a lane, group or team identity value to each exec lane. -/
  | vlane (d : BitVec 8) (f : BitVec 9)
  /-- VSHUF (R140). Writes to each lane the va value of the group lane named by vb. -/
  | vshuf (d : BitVec 8) (a : BitVec 8) (b : BitVec 8)
  /-- VROT (R140). Rotates va across the lanes of each group by n. -/
  | vrot (d : BitVec 8) (a : BitVec 8) (n : BitVec 8)
  /-- VBCL (R140). Broadcasts va of the group lane named by s[sa] to each lane. -/
  | vbcl (d : BitVec 8) (s : BitVec 7) (a : BitVec 8)
  /-- VRED (R141). Reduces each group through the fixed tree and writes the root to exec lanes. -/
  | vred (d : BitVec 8) (a : BitVec 8) (o : BitVec 4)
  /-- VSCAN (R141). Writes each exec lane's inclusive or exclusive tree scan result. -/
  | vscan (d : BitVec 8) (a : BitVec 8) (e : Bool) (o : BitVec 4)
  /-- VTOS (R142). Copies va of a named lane to s[sd], unmasked. -/
  | vtos (a : BitVec 8) (d : BitVec 7) (l : BitVec 9)
  /-- STOV (R142). Writes s[sa] to vd of a named lane when it is in exec. -/
  | stov (d : BitVec 8) (a : BitVec 7) (l : BitVec 9)
  /-- MLOGIC (R143). Combines two masks lane by lane for exec lanes. -/
  | mlogic (o : BitVec 4) (d : BitVec 4) (a : BitVec 4) (b : BitVec 4)
  /-- MCOUNT (R144). Counts the set bits of a mask into s[sd]. -/
  | mcount (d : BitVec 7) (a : BitVec 4)
  /-- MFIRST (R144). Writes the lowest set lane number of a mask, or all ones. -/
  | mfirst (d : BitVec 7) (a : BitVec 4)
  /-- MTOS (R144). Copies a 64-bit dword of a mask to s[sd]. -/
  | mtos (d : BitVec 7) (a : BitVec 4) (i : BitVec 4)
  /-- STOM (R144). Writes s[sa] into a 64-bit dword of a mask. -/
  | stom (m : BitVec 4) (a : BitVec 7) (i : BitVec 4)
  /-- MTOV (R143). Writes 1 or 0 to vd per exec lane from a mask bit. -/
  | mtov (d : BitVec 8) (m : BitVec 4)
  /-- VTOM (R143). Sets mask bits for exec lanes whose va word is non-zero. -/
  | vtom (m : BitVec 4) (a : BitVec 8)
  /-- VFADD (R150). Adds float or d64 elements with one rounding, closing through commit_arith. -/
  | vfadd (d : BitVec 8) (a : BitVec 8) (b : BitVec 8)
  /-- VFSUB (R150). Subtracts float or d64 elements with one rounding. -/
  | vfsub (d : BitVec 8) (a : BitVec 8) (b : BitVec 8)
  /-- VFMUL (R150). Multiplies float or d64 elements with one rounding. -/
  | vfmul (d : BitVec 8) (a : BitVec 8) (b : BitVec 8)
  /-- VFMA (R150). Fused multiply-add x times y plus z with one rounding. -/
  | vfma (d : BitVec 8) (a : BitVec 8) (b : BitVec 8) (c : BitVec 8)
  /-- VFMS (R150). Fused multiply-subtract x times y minus z with one rounding. -/
  | vfms (d : BitVec 8) (a : BitVec 8) (b : BitVec 8) (c : BitVec 8)
  /-- VFNMA (R150). Fused negated multiply-add minus x times y plus z with one rounding. -/
  | vfnma (d : BitVec 8) (a : BitVec 8) (b : BitVec 8) (c : BitVec 8)
  /-- VFDIV (R150). Divides float or d64 elements with one rounding, variable latency. -/
  | vfdiv (d : BitVec 8) (a : BitVec 8) (b : BitVec 8)
  /-- VFSQRT (R150). Square root of float or d64 elements, variable latency. -/
  | vfsqrt (d : BitVec 8) (a : BitVec 8)
  /-- VFRCP (R154). Correctly rounded reciprocal of each element. -/
  | vfrcp (d : BitVec 8) (a : BitVec 8)
  /-- VFRSQ (R154). Correctly rounded reciprocal square root of each element. -/
  | vfrsq (d : BitVec 8) (a : BitVec 8)
  /-- VFMIN (R152). Returns the lesser operand by R88 or by d64 value and exponent. -/
  | vfmin (d : BitVec 8) (a : BitVec 8) (b : BitVec 8)
  /-- VFMAX (R152). Returns the greater operand by R88 or by d64 value and exponent. -/
  | vfmax (d : BitVec 8) (a : BitVec 8) (b : BitVec 8)
  /-- VFABS (R153). Writes the absolute value of each element. -/
  | vfabs (d : BitVec 8) (a : BitVec 8)
  /-- VFNEG (R153). Writes the negation of each element. -/
  | vfneg (d : BitVec 8) (a : BitVec 8)
  /-- VFCMP (R157). Writes mask bits with a float relation of va and vb in exec lanes. -/
  | vfcmp (r : BitVec 4) (m : BitVec 4) (a : BitVec 8) (b : BitVec 8)
  /-- VFCLASS (R158). Writes a class code for each element without signalling. -/
  | vfclass (d : BitVec 8) (a : BitVec 8)
  /-- VFRND (R156). Rounds each binary float element to an integral value. -/
  | vfrnd (d : BitVec 8) (a : BitVec 8)
  /-- VFCVT (R159). Converts between float types, or between d64 and f64. -/
  | vfcvt (d : BitVec 8) (a : BitVec 8) (t : BitVec 5)
  /-- VFI2F (R159). Converts integer elements to a float or d64 type. -/
  | vfi2f (d : BitVec 8) (a : BitVec 8) (t : BitVec 5)
  /-- VFF2I (R159). Converts float or d64 elements to an integer type. -/
  | vff2i (d : BitVec 8) (a : BitVec 8) (t : BitVec 5)
  /-- VFEXP2 (R154). Correctly rounded 2 to the power x of each element. -/
  | vfexp2 (d : BitVec 8) (a : BitVec 8)
  /-- VFLOG2 (R154). Correctly rounded log2 of each element. -/
  | vflog2 (d : BitVec 8) (a : BitVec 8)
  /-- VFSCALB (R155). Scales each element by 2 to the power of the vb integer. -/
  | vfscalb (d : BitVec 8) (a : BitVec 8) (b : BitVec 8)
  /-- VDQNT (R160). Quantizes d64 x to the exponent of y. -/
  | vdqnt (d : BitVec 8) (a : BitVec 8) (b : BitVec 8)
  /-- VDSAME (R161). Writes mask bits with the d64 same-quantum test. -/
  | vdsame (m : BitVec 4) (a : BitVec 8) (b : BitVec 8)
  /-- VDEXP (R162). Writes the d64 exponent as i64. -/
  | vdexp (d : BitVec 8) (a : BitVec 8)
  /-- VDSIG (R162). Writes the d64 coefficient as n64. -/
  | vdsig (d : BitVec 8) (a : BitVec 8)
  /-- VDMAKE (R163). Composes a d64 from an i64 coefficient and exponent. -/
  | vdmake (d : BitVec 8) (a : BitVec 8) (b : BitVec 8)
  /-- VDCANON (R164). Rewrites each d64 into its canonical encoding. -/
  | vdcanon (d : BitVec 8) (a : BitVec 8)
  /-- VBSCALE (R166). Chooses each b4 block's scale byte from its set values. -/
  | vbscale (d : BitVec 8) (a : BitVec 8) (b : BitVec 8)
  /-- VBPACK (R167). Rounds a lane's eight set values into b4 codes. -/
  | vbpack (d : BitVec 8) (a : BitVec 8) (b : BitVec 8)
  /-- VBUNP (R168). Decodes a lane's eight b4 codes into a register set. -/
  | vbunp (d : BitVec 8) (a : BitVec 8) (b : BitVec 8)
  /-- FLAGRD (R169). After older arithmetic commits, reads FLAGS into s[sd]. -/
  | flagrd (d : BitVec 7)
  /-- FLAGCLR (R169). Clears the FLAGS bits named by s[sa]. -/
  | flagclr (a : BitVec 7)
  /-- GANG (R181). Writes the GANG register with a member slot list. -/
  | gang (a : BitVec 7)
  /-- MMA (R177). Matrix multiply-accumulate in acc or ovr mode from register fragments into a tile. -/
  | mma (d : BitVec 4) (t : Bool) (g : Bool) (m : Bool) (a : BitVec 8) (b : BitVec 8)
  /-- MMA_DECAY (R177). Matrix multiply-accumulate with decay factor from the EXT register. -/
  | mmaDecay (d : BitVec 4) (t : Bool) (g : Bool) (a : BitVec 8) (b : BitVec 8) (l : BitVec 7)
  /-- MMAD (R179). Matrix multiply-accumulate in acc or ovr mode from scratchpad descriptors. -/
  | mmad (d : BitVec 4) (t : Bool) (g : Bool) (m : Bool) (a : BitVec 7) (b : BitVec 7)
  /-- MMAD_DECAY (R179). Scratchpad matrix multiply-accumulate with decay factor from the EXT register. -/
  | mmadDecay (d : BitVec 4) (t : Bool) (g : Bool) (a : BitVec 7) (b : BitVec 7) (l : BitVec 7)
  /-- AZERO (R180). Zeroes a tile and clears its poison. -/
  | azero (d : BitVec 4)
  /-- ALD (R180). Loads a tile from the scratchpad by descriptor. -/
  | ald (d : BitVec 4) (s : BitVec 7)
  /-- AST (R180). Stores a tile to the scratchpad by descriptor. -/
  | ast (d : BitVec 4) (s : BitVec 7)
  /-- AMOV (R180). Copies one tile to another with poison. -/
  | amov (d : BitVec 4) (a : BitVec 4)
  /-- ASCL (R180). Scales every tile element by an s register value. -/
  | ascl (d : BitVec 4) (s : BitVec 7)
  /-- AADD (R180). Adds one tile into another element by element. -/
  | aadd (d : BitVec 4) (a : BitVec 4)
  /-- XDEC (R185). Decodes a compressed scratchpad stream per lane in the transform pipe. -/
  | xdec (d : BitVec 8) (a : BitVec 8) (k : BitVec 4) (c : BitVec 8)
  /-- XCRC (R189). Computes a CRC-32 or CRC-32C over each group's lane bytes. -/
  | xcrc (d : BitVec 8) (a : BitVec 8) (b : BitVec 8) (c : BitVec 8)
  /-- VLDB (R253). Loads one byte per exec lane. -/
  | vldb (d : BitVec 8) (a : BitVec 8) (b : BitVec 7) (k : Bool)
  /-- VLDB_EXT (R253). Loads one byte per exec lane with an EXT byte offset. -/
  | vldbExt (d : BitVec 8) (a : BitVec 8) (b : BitVec 7) (k : Bool) (p : BitVec 24)
  /-- VLDH (R253). Loads two bytes per exec lane. -/
  | vldh (d : BitVec 8) (a : BitVec 8) (b : BitVec 7) (k : Bool)
  /-- VLDH_EXT (R253). Loads two bytes per exec lane with an EXT byte offset. -/
  | vldhExt (d : BitVec 8) (a : BitVec 8) (b : BitVec 7) (k : Bool) (p : BitVec 24)
  /-- VLDW (R253). Loads four bytes per exec lane. -/
  | vldw (d : BitVec 8) (a : BitVec 8) (b : BitVec 7) (k : Bool)
  /-- VLDW_EXT (R253). Loads four bytes per exec lane with an EXT byte offset. -/
  | vldwExt (d : BitVec 8) (a : BitVec 8) (b : BitVec 7) (k : Bool) (p : BitVec 24)
  /-- VLDD (R253). Loads eight bytes per exec lane into a pair. -/
  | vldd (d : BitVec 8) (a : BitVec 8) (b : BitVec 7) (k : Bool)
  /-- VLDD_EXT (R253). Loads eight bytes per exec lane with an EXT byte offset. -/
  | vlddExt (d : BitVec 8) (a : BitVec 8) (b : BitVec 7) (k : Bool) (p : BitVec 24)
  /-- VSTB (R254). Stores one byte per exec lane. -/
  | vstb (d : BitVec 8) (a : BitVec 8) (b : BitVec 7) (k : Bool)
  /-- VSTB_EXT (R254). Stores one byte per exec lane with an EXT byte offset. -/
  | vstbExt (d : BitVec 8) (a : BitVec 8) (b : BitVec 7) (k : Bool) (p : BitVec 24)
  /-- VSTH (R254). Stores two bytes per exec lane. -/
  | vsth (d : BitVec 8) (a : BitVec 8) (b : BitVec 7) (k : Bool)
  /-- VSTH_EXT (R254). Stores two bytes per exec lane with an EXT byte offset. -/
  | vsthExt (d : BitVec 8) (a : BitVec 8) (b : BitVec 7) (k : Bool) (p : BitVec 24)
  /-- VSTW (R254). Stores four bytes per exec lane. -/
  | vstw (d : BitVec 8) (a : BitVec 8) (b : BitVec 7) (k : Bool)
  /-- VSTW_EXT (R254). Stores four bytes per exec lane with an EXT byte offset. -/
  | vstwExt (d : BitVec 8) (a : BitVec 8) (b : BitVec 7) (k : Bool) (p : BitVec 24)
  /-- VSTD (R254). Stores eight bytes per exec lane from a pair. -/
  | vstd (d : BitVec 8) (a : BitVec 8) (b : BitVec 7) (k : Bool)
  /-- VSTD_EXT (R254). Stores eight bytes per exec lane with an EXT byte offset. -/
  | vstdExt (d : BitVec 8) (a : BitVec 8) (b : BitVec 7) (k : Bool) (p : BitVec 24)
  /-- SLD (R253). Loads 1 to 8 bytes into s[sd], sign- or zero-extended. -/
  | sld (d : BitVec 7) (z : BitVec 2) (x : Bool) (b : BitVec 7)
  /-- SLD_EXT (R253). Scalar load with an EXT byte offset. -/
  | sldExt (d : BitVec 7) (z : BitVec 2) (x : Bool) (b : BitVec 7) (p : BitVec 24)
  /-- SST (R254). Stores the low 1 to 8 bytes of s[sd]. -/
  | sst (d : BitVec 7) (z : BitVec 2) (b : BitVec 7)
  /-- SST_EXT (R254). Scalar store with an EXT byte offset. -/
  | sstExt (d : BitVec 7) (z : BitVec 2) (b : BitVec 7) (p : BitVec 24)
  /-- VATOM (R257). Applies an atomic operation per exec lane at its address as one event. -/
  | vatom (d : BitVec 8) (a : BitVec 8) (b : BitVec 7) (k : Bool) (v : Bool) (o : BitVec 5)
  /-- SATOM (R257). Applies a scalar atomic operation at s[sb] as one event. -/
  | satom (d : BitVec 7) (z : BitVec 2) (b : BitVec 7) (v : Bool) (o : BitVec 5)
  /-- VCAS (R260). Compares and swaps per exec lane as one event. -/
  | vcas (d : BitVec 8) (a : BitVec 8) (b : BitVec 7) (k : Bool) (c : BitVec 8)
  /-- HRED (R261). Sends each exec lane's contribution to its Hearth bank for a bank operation. -/
  | hred (d : BitVec 8) (a : BitVec 8) (b : BitVec 7) (k : Bool) (o : BitVec 4)
  /-- MWAIT (R263). Arms a monitor on a line or bank row and parks the team until it is written. -/
  | mwait (d : BitVec 7) (b : BitVec 7)
  /-- MWAIT_EXT (R263). MWAIT with an EXT byte offset. -/
  | mwaitExt (d : BitVec 7) (b : BitVec 7) (p : BitVec 24)
  /-- INK (R265). Holds the team until every older access is performed and LDCNT is 0. -/
  | ink
  /-- PREF (R266). Hints that each exec lane's line be brought into L2 and L1. -/
  | pref (a : BitVec 8) (b : BitVec 7) (k : Bool)
  /-- PREF_EXT (R266). Prefetch hint with an EXT byte offset. -/
  | prefExt (a : BitVec 8) (b : BitVec 7) (k : Bool) (p : BitVec 24)
  /-- IORD (R267). After ink and older accesses, reads MMIO as one uncached access. -/
  | iord (d : BitVec 7) (z : BitVec 2) (x : Bool) (b : BitVec 7)
  /-- IORD_EXT (R267). MMIO read with an EXT byte offset. -/
  | iordExt (d : BitVec 7) (z : BitVec 2) (x : Bool) (b : BitVec 7) (p : BitVec 24)
  /-- IOWR (R267). After ink and older accesses, writes MMIO as one uncached access. -/
  | iowr (d : BitVec 7) (z : BitVec 2) (b : BitVec 7)
  /-- IOWR_EXT (R267). MMIO write with an EXT byte offset. -/
  | iowrExt (d : BitVec 7) (z : BitVec 2) (b : BitVec 7) (p : BitVec 24)
  /-- CHKOUT (R270). Queues a check-out of a global range into the grant in SHARED, EXCLUSIVE or MERGE mode. -/
  | chkout (d : BitVec 7) (a : BitVec 7) (b : BitVec 7) (f : Bool) (m : BitVec 2)
  /-- CHKIN (R270). Queues a check-in of a checked-out range. -/
  | chkin (d : BitVec 7) (a : BitVec 7) (b : BitVec 7)
  /-- CINVA (R272). Writes back and drops every line of the ASID overlapping a virtual range. -/
  | cinva (a : BitVec 7) (b : BitVec 7)
  /-- VLDS (R255). Loads words or dword pairs from the team's scratchpad grant under a swizzle. -/
  | vlds (d : BitVec 8) (a : BitVec 8) (b : BitVec 5) (z : BitVec 2) (w : Bool)
  /-- VLDS_EXT (R255). Scratchpad load with an EXT byte offset. -/
  | vldsExt (d : BitVec 8) (a : BitVec 8) (b : BitVec 5) (z : BitVec 2) (w : Bool) (p : BitVec 24)
  /-- VSTS (R255). Stores words or dword pairs to the team's scratchpad grant under a swizzle. -/
  | vsts (d : BitVec 8) (a : BitVec 8) (b : BitVec 5) (z : BitVec 2) (w : Bool)
  /-- VSTS_EXT (R255). Scratchpad store with an EXT byte offset. -/
  | vstsExt (d : BitVec 8) (a : BitVec 8) (b : BitVec 5) (z : BitVec 2) (w : Bool) (p : BitVec 24)
  /-- LAUNCH (R308). Reads and checks a launch descriptor and queues a launch, returning status and handle. -/
  | launch (d : BitVec 7) (a : BitVec 7) (b : BitVec 7)
  /-- SPAWN (R315). Creates one kindling thread per exec lane and writes placement bits to a mask. -/
  | spawn (m : BitVec 4) (a : BitVec 8) (s : BitVec 7)
  /-- TMIG (R316). Migrates the team to a named core and quadrant, returning a status. -/
  | tmig (d : BitVec 7) (a : BitVec 7)
  /-- CPY (R320). Queues a copy-engine copy command. -/
  | cpy (d : BitVec 7) (a : BitVec 7) (b : BitVec 7)
  /-- GATH (R321). Queues a copy-engine gather command. -/
  | gath (d : BitVec 7) (a : BitVec 7) (b : BitVec 7)
  /-- SCAT (R321). Queues a copy-engine scatter command. -/
  | scat (d : BitVec 7) (a : BitVec 7) (b : BitVec 7)
  /-- COLL (R322). Queues a collective-engine command. -/
  | coll (d : BitVec 7) (a : BitVec 7) (b : BitVec 7)
  /-- CHNINIT (R327). Binds a channel of the cluster to the issuing team. -/
  | chninit (d : BitVec 7) (a : BitVec 7) (b : BitVec 7)
  /-- CHNINIT_FREE (R327). Frees a channel bound to the issuing team, unbinding it. -/
  | chninitFree (d : BitVec 7) (b : BitVec 7)
  /-- CHNWAIT (R329). Waits resident until a channel has the requested room or fill. -/
  | chnwait (d : BitVec 7) (a : BitVec 7) (b : BitVec 7) (c : Bool)
  /-- CHNREL (R330). Advances a channel's CONS or PROD counter, clamped. -/
  | chnrel (d : BitVec 7) (a : BitVec 7) (b : BitVec 7) (e : Bool)
  /-- QRSV (R341). Atomically reserves consecutive submission slots on a queue counter object. -/
  | qrsv (d : BitVec 7) (a : BitVec 7) (b : BitVec 7)
  /-- QPOST (R342). After ink and older accesses, hands a filled slot to the doorbell proxy. -/
  | qpost (a : BitVec 7) (b : BitVec 7)
  /-- BARINIT (R389). Initialises a barrier object's COUNT, TARGET and VALID as one event. -/
  | barinit (d : BitVec 7) (a : BitVec 7) (b : BitVec 7)
  /-- BARARR (R389). Makes one arrival on a barrier object. -/
  | bararr (d : BitVec 7) (a : BitVec 7)
  /-- BARWAIT (R390). Waits resident until a barrier object's generation differs from g. -/
  | barwait (d : BitVec 7) (a : BitVec 7) (b : BitVec 7)
  /-- BARTST (R389). Reads a barrier object's generation and count. -/
  | bartst (d : BitVec 7) (a : BitVec 7)
  /-- TIMERD (R391). Reads the package time counter. -/
  | timerd (d : BitVec 7)
  /-- CNTRD (R394). Reads an event counter. -/
  | cntrd (d : BitVec 7) (n : BitVec 17)
  /-- POPPG (R371). Pops a page from the partition's free-page stacks and makes it live and zero. -/
  | poppg (d : BitVec 7) (z : BitVec 3)
  /-- PUSHPG (R371). Returns a page to its free-page stack, dropping its lines and freeing its chunks. -/
  | pushpg (a : BitVec 7) (z : BitVec 3)
  /-- EXT (R50). Prefix that supplies a payload to the next word, issuing together with it. -/
  | ext (p : BitVec 24)
  /-- RECONVERGENCE_POP (R193). Before issue, pops path entries whose rpc equals the PC and restores MODE and PC. -/
  | reconvergencePop (agent : Nat)
  /-- SKETCH_INK (R286). When older accesses are performed and the sketch's loads have data, the sketch inks and releases held stores and pending commands. -/
  | sketchInk (agent : Nat)
  /-- ERASE (R289). Rolls back an open sketch from its tracing and restarts at its first instruction. -/
  | erase (agent kind : Nat)
  /-- SECTOR_RETURN (R252). A returning sector writes destination lane words and decrements LDCNT. -/
  | sectorReturn (agent load sector : Nat)
  /-- VARIABLE_LATENCY_RESULT (R119). A divide or square-root result is written and released on the scoreboard. -/
  | variableLatencyResult (agent k : Nat)
  /-- STORE_PERFORM (R277). A store-queue entry is performed once the directory has invalidated other copies. -/
  | storePerform (agent k : Nat)
  /-- STORE_FAULT (R295). A store translated at L2 miss faults, moving it and younger stores to the replay queue. -/
  | storeFault (agent : Nat)
  /-- MATRIX_OP_COMPLETE (R173). The matrix unit finishes an operation, writes the tile and picks the next operation. -/
  | matrixOpComplete (core : Nat)
  /-- TRANSFORM_REPLY (R187). The transform pipe replies with XDEC or XCRC results. -/
  | transformReply (agent tokens : Nat)
  /-- TRAP_VECTOR (R205). Delivers a raised trap by pushing a trap frame and entering the supervisor handler. -/
  | trapVector (agent : Nat)
  /-- INTR (R206). A pending interrupt of a user-mode host or queue thread is taken at an instruction boundary. -/
  | intr (agent : Nat)
  /-- FORCED_SAVE (R214). On pre-emption deadline expiry, the team is saved to an image-pool slot and its slot freed. -/
  | forcedSave (agent : Nat)
  /-- TEAM_PLACEMENT (R309). When room is freed or a candidate added, the scheduler places candidates on cores. -/
  | teamPlacement (part : Nat)
  /-- YIELD_REACTIVATION (R201). A YIELDed team becomes a candidate once its object's generation moves. -/
  | yieldReactivation (part k : Nat)
  /-- MIGRATION_ARRIVAL (R316). A migrating team arrives on its target core and receives its status. -/
  | migrationArrival (k : Nat)
  /-- FIRMWARE_MIGRATION (R317). Firmware's migration policy moves a team at an eligible boundary. -/
  | firmwareMigration (agent : Nat) (target : Dword)
  /-- BARWAIT_COMPLETE (R390). A waiting BARWAIT reloads after a bank-row write and completes on a generation change. -/
  | barwaitComplete (agent : Nat)
  /-- MWAIT_COMPLETE (R263). A write by another agent, or an eviction, completes a parked MWAIT. -/
  | mwaitComplete (agent : Nat)
  /-- MWAIT_TIMEOUT (R264). The MWAIT timer expires and the team traps with MWAIT_TIMEOUT. -/
  | mwaitTimeout (agent : Nat)
  /-- CHNWAIT_COMPLETE (R329). A waiting CHNWAIT completes when room or fill reaches the count, or on unbinding. -/
  | chnwaitComplete (agent : Nat)
  /-- KINDLING_THREAD_ARRIVAL (R313). A spawned thread reaches the kindling unit and is placed in a bin or the ring. -/
  | kindlingThreadArrival (agent : Nat)
  /-- KINDLING_TIMER (R314). A bin's timer reaches KTIMER and lights up to 32 released threads. -/
  | kindlingTimer (die bin : Nat)
  /-- KINDLING_DROP (R313). A thread that waited 4,096 cycles for room is dropped. -/
  | kindlingDrop (agent : Nat)
  /-- KINDLING_RING_REFILL (R313). The ring head moves into a bin when room or a free bin appears. -/
  | kindlingRingRefill (part : Nat)
  /-- ENGINE_START (R294). A released engine operation makes its first access after the issuer's older accesses. -/
  | engineStart (op : Config.OpStart)
  /-- ENGINE_COMPLETION (R319). An engine operation ends, writes STATUS and arrives on its completion object. -/
  | engineCompletion (op : Nat) (remote : List (Nat × List (Byte × Bool))) (far : Config.Far)
  /-- CHANNEL_FIRE (R328). A channel operation fires when its source fill or destination room suffices. -/
  | channelFire (op : Nat)
  /-- RECALL (R247). After an access waits 25,000 cycles at an EXCLUSIVE range, the check-out is recalled. -/
  | recall (cid : Nat)
  /-- JOIN_ARRIVAL (R332). When a launch's live counts reach zero, the scheduler arrives on JOIN and frees the entry. -/
  | joinArrival (handle : Dword)
  /-- WDOG (R393). The launch-queue watchdog reaches WDOG_LIMIT and sends an event. -/
  | wdog (part cls : Nat)
  /-- TRANSLATION_WALK (R360). An L2 miss is translated at the translation home by TLB or walk, or faults. -/
  | translationWalk (asid : BitVec 16) (va : Dword)
  /-- DIRECTORY_REQUEST (R367). A directory slice serves a line request, invalidating or alias-evicting copies. -/
  | directoryRequest (agent : Nat) (va : Dword) (write : Config.LineUse)
  /-- WRITE_BACK (R373). A dirty line is written back and its granule stored in ZERO, PALETTE or RAW form. -/
  | writeBack (line : Nat) (run : BitVec 29) (fast : Bool)
  /-- PALETTE_INSTALL (R374). After sampling 2^20 write-backs, a new palette is built and installed. -/
  | paletteInstall (part die : Nat)
  /-- HELD_WRITEBACK_RETRY (R376). The balloon engine retries held write-backs as FREE rises. -/
  | heldWritebackRetry (line : Nat) (run : BitVec 29)
  /-- BALLOON_RECODE (R377). The balloon engine recodes old-generation and FAST granules. -/
  | balloonRecode (granule : Nat) (run : BitVec 29)
  /-- BALLOON_ZERO (R377). The balloon engine stores ZERO in place of all-zero FAST granules. -/
  | balloonZero (granule : Nat)
  /-- DEMOTE (R378). The balloon engine moves a cold page to the CXL tier. -/
  | demote (page : Nat)
  /-- PAGE_OUT (R378). The balloon engine writes a cold page to the swap area. -/
  | pageOut (page : Nat)
  /-- BALLOON_REQUEST (R377). The balloon engine asks the host-core supervisor for chunks. -/
  | balloonRequest (part ctrl : Nat)
  /-- HEAT_HALVING (R378). Every 2^24 cycles the HEAT of every page is halved. -/
  | heatHalving
  /-- BALLOON_DEADLINE (R379). An episode lasting BDEAD cycles puts the partition into SPACE_EXHAUSTED. -/
  | balloonDeadline (part : Nat)
  /-- SPACE_STUCK (R379). SPACE_EXHAUSTED lasting SPACELIM cycles sends SPACE_STUCK to host firmware. -/
  | spaceStuck (part : Nat)
  /-- INVALIDATE_COMMAND (R365). One invalidate command drops lines and TLB entries, drains users, and acknowledges. -/
  | invalidateCommand (part : Nat)
  /-- ATS_INVALIDATE_TIMEOUT (R349). A function not completing an ATS invalidate in 62,500 cycles has ATS disabled. -/
  | atsInvalidateTimeout (fn : Nat)
  /-- DOORBELL_TAIL_WRITE (R343). The proxy issues a posted write of PUB to the device's tail doorbell. -/
  | doorbellTailWrite (h : Nat) (portUp : Bool)
  /-- PROXY_HOLE (R344). The hole timer reaches the limit and raises a hole event. -/
  | proxyHole (h : Nat)
  /-- DMA_WRITE (R348). An endpoint DMA write is translated and performed through the directory. -/
  | dmaWrite (port rid : Nat) (pasid : Option (BitVec 20)) (translated : Bool) (addr : Dword) (bytes : List Byte)
  /-- DMA_READ (R348). An endpoint DMA read is translated and served through the directory. -/
  | dmaRead (port rid : Nat) (pasid : Option (BitVec 20)) (translated : Bool) (addr : Dword) (len : Nat)
  /-- ATOMICOP_REQUEST (R335). An endpoint AtomicOp is completed as one atomic event. -/
  | atomicopRequest (port rid : Nat) (pasid : Option (BitVec 20)) (translated : Bool) (addr : Dword) (op size : Nat) (x y : Dword)
  /-- TRANSLATION_REQUEST (R349). An ATS Translation Request is answered from the TLB or a walk. -/
  | translationRequest (port rid : Nat) (pasid : Option (BitVec 20)) (addr : Dword)
  /-- PAGE_REQUEST (R350). A PRI Page Request Message is served by first touch or queued to a queue thread. -/
  | pageRequest (port rid : Nat) (pasid : Option (BitVec 20)) (addr : Dword) (prg : BitVec 9) (rd wr last : Bool)
  /-- MSIX_WRITE (R346). A write to the interrupt-map doorbell becomes a barrier arrival or an INTR. -/
  | msixWrite (port rid : Nat) (data : Word32) (size : Nat)
  /-- MMIO_COMPLETION (R267). An IORD completion returns and writes s[sd]. -/
  | mmioCompletion (agent : Nat) (ok : Bool) (data : Dword)
  /-- IORD_COMPLETION_TIMEOUT (R337). A root port completion timeout returns all ones with poison and records an error. -/
  | iordCompletionTimeout (agent : Nat)
  /-- AER_ERROR (R337). An AER error at a root port writes an error record. -/
  | aerError (port rid : Nat) (header : Config.AerReport)
  /-- EVENT_WRITE (R433). The event writer stores an event record and advances PROD. -/
  | eventWrite
  /-- PROXY_REGISTRATION_WRITE (R339). A firmware write to a proxy registration sets VALID or PAUSED. -/
  | proxyRegistrationWrite (agent addr size : Nat) (value : Dword)
  /-- INTERRUPT_MAP_WRITE (R382). A write to an interrupt map entry; clearing MASK delivers a pending message. -/
  | interruptMapWrite (agent addr size : Nat) (value : Dword)
  /-- PRGRESP (R350). A write to PRGRESP sends a PRG Response to the function. -/
  | prgresp (agent addr size : Nat) (value : Dword)
  /-- INVALIDATE_TAIL_WRITE (R364). A write to the invalidate tail register starts execution of new commands. -/
  | invalidateTailWrite (agent addr size : Nat) (value : Dword)
  /-- BALACK (R378). A swap completion acknowledgement completes or fails a page-out. -/
  | balack (agent addr size : Nat) (value : Dword)
  /-- PARTITION_TABLE_WRITE (R380). A write to a partition-table entry is judged and stored or refused. -/
  | partitionTableWrite (agent addr size : Nat) (value : Dword)
  /-- FUNCTION_BINDING_WRITE (R381). A write to a function binding entry is stored or refused. -/
  | functionBindingWrite (agent addr size : Nat) (value : Dword)
  /-- ASIDTBL_WRITE (R444). A write to ASIDTBL sets its base and VALID or is dropped. -/
  | asidtblWrite (agent addr size : Nat) (value : Dword)
  /-- FRAMETBL_WRITE (R444). A write to FRAMETBL sets its base and VALID or is dropped. -/
  | frametblWrite (agent addr size : Nat) (value : Dword)
  /-- REGISTER_WRITE (R357). A write to an on-chip register with no behaviour of its own, or a dropped access. -/
  | registerWrite (agent addr size : Nat) (value : Dword)
  /-- PRE_EMPT_TEAM (R400). Package command OP 1 sets a team's pre-emption request. -/
  | preEmptTeam (agent : Nat) (part : BitVec 4)
  /-- WITHDRAW_PRE_EMPTION (R400). Package command OP 2 withdraws a team's pre-emption request. -/
  | withdrawPreEmption (agent : Nat) (part : BitVec 4)
  /-- KILL_TEAM (R401). Package command OP 3 orders the kill of a team. -/
  | killTeam (agent : Nat) (part : BitVec 4)
  /-- KILL_LAUNCH (R401). Package command OP 4 kills every team and thread of a launch. -/
  | killLaunch (agent : Nat) (part : BitVec 4)
  /-- RESET_PARTITION (R402). Package command OP 5 starts the reset of a partition. -/
  | resetPartition (agent : Nat) (part : BitVec 4)
  /-- PCMD_RESERVED_OP (R400). A PCMD write with a reserved OP is refused. -/
  | pcmdReservedOp (agent : Nat) (part op : BitVec 4)
  /-- KILL (R401). A team is killed at its next instruction boundary and counts as exited. -/
  | kill (agent : Nat)
  /-- PARTITION_RESET_DONE (R402). After its launches are killed, the partition is cleared and VALID set to 0. -/
  | partitionResetDone (part : Nat)
  /-- FLIT_SEND (R352). A peer link encrypts and sends a flit, advancing the key slot counter. -/
  | flitSend (link kind : Nat) (payload : List Byte)
  /-- DATA_FLIT (R352). A data flit is received, authenticated and applied whole. -/
  | dataFlit (link : Nat) (flit : List Byte)
  /-- MARKER_FLIT (R353). A marker flit switches the receiver to the other key slot. -/
  | markerFlit (link : Nat) (flit : List Byte)
  /-- ACKNOWLEDGE_FLIT (R354). An acknowledge flit releases flits from the replay buffer. -/
  | acknowledgeFlit (link : Nat) (flit : List Byte)
  /-- NEGATIVE_ACKNOWLEDGE (R354). A negative acknowledgement makes the sender replay from the named flit. -/
  | negativeAcknowledge (link : Nat) (flit : List Byte)
  /-- IDLE_FLIT (R352). An idle flit is received. -/
  | idleFlit (link : Nat) (flit : List Byte)
  /-- LINK_TRAINING (R354). Firmware retrains a peer link from DOWN to UP. -/
  | linkTraining (link : Nat) (up : Bool)
  /-- KEY_LOAD (R353). The root-of-trust core loads a key into a slot, setting its counter to 0. -/
  | keyLoad (slot : Nat) (key : List Byte) (salt : Word32)
  /-- PACKAGE_RESET (R409). Power-on, a root-of-trust command or a thermal trip resets the package. -/
  | packageReset
  /-- START_STEP (R408). The root-of-trust core runs a start step by primary or alternate way and records it; `ok` is none where the step fails. -/
  | startStep (i : Nat) (ok : Option Config.Boot)
  /-- THERMAL_TRIP (R410). Junction temperature of 115 C causes a package reset. -/
  | thermalTrip
  /-- THROTTLE (R410). Power above the limit or 105 C makes schedulers withhold issue. -/
  | throttle (on : Bool)
  /-- REPORT_REQUEST (R404). The root-of-trust core builds and signs an attestation report. -/
  | reportRequest (part : Word32) (nonce : List Byte)
  /-- DEBUG_UNLOCK (R405). A signed token wipes key slots, extends M3, sets DEBUG and opens the debug port. -/
  | debugUnlock (token : List Byte)
  /-- STEP_RECORD_CLEAR (R408). At host firmware's request, FAILS, skipped outcomes and ALT are cleared. -/
  | stepRecordClear
  /-- SRAM_ERROR (R232). An uncorrectable SRAM error sets the poison bit of the word it hits. -/
  | sramError (key : Nat) (correctable : Bool)
  /-- CHANNEL_REBUILD (R243). A failed HBM channel is rebuilt online when firmware orders it. -/
  | channelRebuild (stack channel : Nat)
  /-- INVALIDATE_COMPLETION (R349). An ATS Invalidate Completion from a function arrives, and the invalidate command's acknowledgement may proceed once every matching function has completed. -/
  | invalidateCompletion (fn : Nat)
  /-- CHANNEL_FAILURE (R243). An HBM4E channel fails in service, so its stripes run degraded, its reads are rebuilt, and writes keep parity current until firmware orders a rebuild. -/
  | channelFailure (stack : Nat) (channel : Config.ChannelLoss)
  /-- QUEUE_FULL_TIMEOUT (R318). An instruction that has waited 4,096 cycles for room in its queue or resource completes with status 0 and queues nothing; this covers LAUNCH, engine commands, QRSV, CHNINIT, TMIG and detached CTXLOAD. -/
  | queueFullTimeout (agent : Nat)
  deriving DecidableEq, Repr

end Sys2Proof
end

