-- ==== Sys2Proof/WellFormed.lean ====
section
/-! DEFINITION. WellFormed.lean: the checks on an instruction's own fields (R48, R53 to R61): sub-field codes that
are not reserved, the sb field zero under A = 1, registers that must be even by the format alone. What depends on
the team (budgets, MODE.TYPE, privilege) is judged by the machine. -/
namespace Sys2Proof

/-- The address fields of a vector ME word: with A = 1, va is even and sb is zero (R249). -/
def meFieldsOk (a : BitVec 8) (b : BitVec 7) (k : Bool) : Bool :=
  !k || (a.toNat % 2 == 0 && b == 0)

/-- Whether an instruction's own fields hold no reserved code (R54 to R60, R249). Every other instruction has
none to hold. -/
def Instr.wellFormed : Instr → Bool
  | .sbits _ _ f => f.toNat < 6
  | .sfop _ _ b f => f.toNat < 7 && (f.toNat != 6 || b == 0)
  | .sfcvt _ _ f => f.toNat < 6
  | .vbits _ _ f => f.toNat < 6
  | .vcmp r _ _ _ => r.toNat < 6
  | .vfcmp r _ _ _ => r.toNat < 8
  | .vcvt _ _ t => t.toNat < 0x11
  | .vfcvt _ _ t => t.toNat < 0x11
  | .vfi2f _ _ t => t.toNat < 0x11
  | .vff2i _ _ t => t.toNat < 0x11
  | .vlane _ f => f.toNat < 6
  | .vred _ _ o => o.toNat < 6
  | .vscan _ _ _ o => o.toNat < 6
  | .mlogic o _ _ b => o.toNat < 10 && (o.toNat < 8 || b == 0)
  | .chkout _ _ _ _ m => m.toNat < 3
  | .poppg _ z => z.toNat < 3
  | .pushpg _ z => z.toNat < 3
  | .vatom _ a b k v o => o.toNat < 16 && (o.toNat != 0x0E || v) && meFieldsOk a b k
  | .satom _ z _ v o => o.toNat < 16 && (o.toNat != 0x0E || v) && decide (2 ≤ z.toNat)
  | .vcas _ a b k _ => meFieldsOk a b k
  | .hred _ a b k o => o.toNat < 7 && meFieldsOk a b k
  | .vldb _ a b k => meFieldsOk a b k
  | .vldh _ a b k => meFieldsOk a b k
  | .vldw _ a b k => meFieldsOk a b k
  | .vldd d a b k => meFieldsOk a b k && d.toNat % 2 == 0
  | .vstb _ a b k => meFieldsOk a b k
  | .vsth _ a b k => meFieldsOk a b k
  | .vstw _ a b k => meFieldsOk a b k
  | .vstd d a b k => meFieldsOk a b k && d.toNat % 2 == 0
  | .vldbExt _ a b k _ => meFieldsOk a b k
  | .vldhExt _ a b k _ => meFieldsOk a b k
  | .vldwExt _ a b k _ => meFieldsOk a b k
  | .vlddExt d a b k _ => meFieldsOk a b k && d.toNat % 2 == 0
  | .vstbExt _ a b k _ => meFieldsOk a b k
  | .vsthExt _ a b k _ => meFieldsOk a b k
  | .vstwExt _ a b k _ => meFieldsOk a b k
  | .vstdExt d a b k _ => meFieldsOk a b k && d.toNat % 2 == 0
  | .pref a b k => meFieldsOk a b k
  | .prefExt a b k _ => meFieldsOk a b k
  | .vlds d _ _ _ w => !w || d.toNat % 2 == 0
  | .vsts d _ _ _ w => !w || d.toNat % 2 == 0
  | .vldsExt d _ _ _ w _ => !w || d.toNat % 2 == 0
  | .vstsExt d _ _ _ w _ => !w || d.toNat % 2 == 0
  | .spawn _ a _ => a.toNat % 2 == 0
  | .xdec d a _ c => d.toNat % 4 == 0 && a.toNat % 2 == 0 && c.toNat % 2 == 0
  | .xcrc _ _ _ c => c.toNat % 2 == 0
  | .ext _ => false
  | _ => true

end Sys2Proof
end

