-- ==== Sys2Proof/Decode.lean ====
section
/-! DEFINITION. Decode.lean: the decoder and the encoder (R38, R47 to R52, R62).

A word decodes by its primary opcode, bits 31:24. A field that must be zero and is not, an unassigned opcode and a
missing EXT are refused by name; the machine raises ILLEGAL for each (R62). A reserved sub-field code is a code of
a field that exists: it decodes, and the instruction's meaning raises ILLEGAL. Words are read as numbers. -/
namespace Sys2Proof

/-- Why a word is no instruction (R50, R52, R62). -/
inductive DecodeError where
  /-- No word was given. -/
  | noWord
  /-- A primary opcode that R62 lists as never an instruction. -/
  | unassignedOpcode (op : Nat)
  /-- A field that must be zero is not (R48), or the ctl mode of MMA or MMAD is reserved or needs an EXT (R60). -/
  | reservedField (op : Nat)
  /-- A required EXT is missing (R50, R51). -/
  | missingExt (op : Nat)
  deriving DecidableEq, Repr

/-- Opcodes 0x00 to 0x1F (R52). -/
def decodeScalar (op w : Nat) : Except DecodeError Instr :=
  match op with
  | 0x00 => if bitsOf w 2 0 = 0 then .ok (.sadd (fieldOf 7 w 17) (fieldOf 7 w 10) (fieldOf 7 w 3)) else .error (.reservedField op)
  | 0x01 => if bitsOf w 2 0 = 0 then .ok (.ssub (fieldOf 7 w 17) (fieldOf 7 w 10) (fieldOf 7 w 3)) else .error (.reservedField op)
  | 0x02 => if bitsOf w 2 0 = 0 then .ok (.smul (fieldOf 7 w 17) (fieldOf 7 w 10) (fieldOf 7 w 3)) else .error (.reservedField op)
  | 0x03 => if bitsOf w 2 1 = 0 then .ok (.smulh (fieldOf 7 w 17) (fieldOf 7 w 10) (fieldOf 7 w 3) (bitOf w 0)) else .error (.reservedField op)
  | 0x04 => if bitsOf w 2 1 = 0 then .ok (.sdiv (fieldOf 7 w 17) (fieldOf 7 w 10) (fieldOf 7 w 3) (bitOf w 0)) else .error (.reservedField op)
  | 0x05 => if bitsOf w 2 1 = 0 then .ok (.srem (fieldOf 7 w 17) (fieldOf 7 w 10) (fieldOf 7 w 3) (bitOf w 0)) else .error (.reservedField op)
  | 0x06 => if bitsOf w 2 0 = 0 then .ok (.sand (fieldOf 7 w 17) (fieldOf 7 w 10) (fieldOf 7 w 3)) else .error (.reservedField op)
  | 0x07 => if bitsOf w 2 0 = 0 then .ok (.sor (fieldOf 7 w 17) (fieldOf 7 w 10) (fieldOf 7 w 3)) else .error (.reservedField op)
  | 0x08 => if bitsOf w 2 0 = 0 then .ok (.sxor (fieldOf 7 w 17) (fieldOf 7 w 10) (fieldOf 7 w 3)) else .error (.reservedField op)
  | 0x09 => if bitsOf w 2 0 = 0 then .ok (.sshl (fieldOf 7 w 17) (fieldOf 7 w 10) (fieldOf 7 w 3)) else .error (.reservedField op)
  | 0x0A => if bitsOf w 2 0 = 0 then .ok (.sshr (fieldOf 7 w 17) (fieldOf 7 w 10) (fieldOf 7 w 3)) else .error (.reservedField op)
  | 0x0B => if bitsOf w 2 0 = 0 then .ok (.ssar (fieldOf 7 w 17) (fieldOf 7 w 10) (fieldOf 7 w 3)) else .error (.reservedField op)
  | 0x0C => if bitsOf w 2 1 = 0 then .ok (.smin (fieldOf 7 w 17) (fieldOf 7 w 10) (fieldOf 7 w 3) (bitOf w 0)) else .error (.reservedField op)
  | 0x0D => if bitsOf w 2 1 = 0 then .ok (.smax (fieldOf 7 w 17) (fieldOf 7 w 10) (fieldOf 7 w 3) (bitOf w 0)) else .error (.reservedField op)
  | 0x0E => .ok (.scmp (fieldOf 7 w 17) (fieldOf 7 w 10) (fieldOf 7 w 3) (fieldOf 3 w 0))
  | 0x0F => .error (.missingExt op)
  | 0x10 => if bitsOf w 9 3 = 0 then .ok (.sbits (fieldOf 7 w 17) (fieldOf 7 w 10) (fieldOf 3 w 0)) else .error (.reservedField op)
  | 0x11 => if bitsOf w 2 1 = 0 then .ok (.sbfx (fieldOf 7 w 17) (fieldOf 7 w 10) (fieldOf 7 w 3) (bitOf w 0)) else .error (.reservedField op)
  | 0x12 => if bitsOf w 2 0 = 0 then .ok (.sbfi (fieldOf 7 w 17) (fieldOf 7 w 10) (fieldOf 7 w 3)) else .error (.reservedField op)
  | 0x13 => if bitsOf w 9 0 = 0 then .ok (.smov (fieldOf 7 w 17) (fieldOf 7 w 10)) else .error (.reservedField op)
  | 0x14 => .ok (.sli (fieldOf 7 w 17) (fieldOf 17 w 0))
  | 0x15 => .ok (.slih (fieldOf 7 w 17) (fieldOf 17 w 0))
  | 0x16 => .ok (.saddi (fieldOf 7 w 17) (fieldOf 17 w 0))
  | 0x17 => .ok (.sandi (fieldOf 7 w 17) (fieldOf 17 w 0))
  | 0x18 => .ok (.sori (fieldOf 7 w 17) (fieldOf 17 w 0))
  | 0x19 => if bitsOf w 16 6 = 0 then .ok (.sshli (fieldOf 7 w 17) (fieldOf 6 w 0)) else .error (.reservedField op)
  | 0x1A => .ok (.sfop (fieldOf 7 w 17) (fieldOf 7 w 10) (fieldOf 7 w 3) (fieldOf 3 w 0))
  | 0x1B => .ok (.sfcmp (fieldOf 7 w 17) (fieldOf 7 w 10) (fieldOf 7 w 3) (fieldOf 3 w 0))
  | 0x1C => if bitsOf w 9 3 = 0 then .ok (.sfcvt (fieldOf 7 w 17) (fieldOf 7 w 10) (fieldOf 3 w 0)) else .error (.reservedField op)
  | _ => .error (.unassignedOpcode op)

/-- Opcodes 0x20 to 0x3F (R52). -/
def decodeControl (op w : Nat) : Except DecodeError Instr :=
  match op with
  | 0x20 => .ok (.bra (fieldOf 24 w 0))
  | 0x21 => .ok (.brz (fieldOf 7 w 17) (fieldOf 17 w 0))
  | 0x22 => .ok (.brnz (fieldOf 7 w 17) (fieldOf 17 w 0))
  | 0x23 => .error (.missingExt op)
  | 0x24 => if bitsOf w 23 21 = 0 then .ok (.brall (fieldOf 4 w 17) (fieldOf 17 w 0)) else .error (.reservedField op)
  | 0x25 => if bitsOf w 23 21 = 0 then .ok (.brany (fieldOf 4 w 17) (fieldOf 17 w 0)) else .error (.reservedField op)
  | 0x26 => .ok (.call (fieldOf 24 w 0))
  | 0x27 => if bitsOf w 23 17 = 0 ∧ bitsOf w 9 0 = 0 then .ok (.calli (fieldOf 7 w 10)) else .error (.reservedField op)
  | 0x28 => if bitsOf w 23 17 = 0 ∧ bitsOf w 9 0 = 0 then .ok (.ret (fieldOf 7 w 10)) else .error (.reservedField op)
  | 0x29 => if bitsOf w 23 17 = 0 ∧ bitsOf w 9 0 = 0 then .ok (.jmpi (fieldOf 7 w 10)) else .error (.reservedField op)
  | 0x2A => .ok (.loop (fieldOf 7 w 17) (fieldOf 17 w 0))
  | 0x2B => if bitsOf w 23 0 = 0 then .ok .exit else .error (.reservedField op)
  | 0x2C => if bitsOf w 23 17 = 0 ∧ bitsOf w 2 0 = 0 then .ok (.setmode (fieldOf 7 w 10) (fieldOf 7 w 3)) else .error (.reservedField op)
  | 0x2D => if bitsOf w 16 0 = 0 then .ok (.getmode (fieldOf 7 w 17)) else .error (.reservedField op)
  | 0x2E => if bitsOf w 23 17 = 0 ∧ bitsOf w 2 0 = 0 then .ok (.yield (fieldOf 7 w 10) (fieldOf 7 w 3)) else .error (.reservedField op)
  | 0x2F => if bitsOf w 23 17 = 0 then .ok (.trap (fieldOf 17 w 0)) else .error (.reservedField op)
  | 0x30 => if bitsOf w 23 0 = 0 then .ok .rett else .error (.reservedField op)
  | 0x31 => if bitsOf w 23 17 = 0 then .ok (.bkpt (fieldOf 17 w 0)) else .error (.reservedField op)
  | 0x32 => if bitsOf w 16 0 = 0 then .ok (.prchk (fieldOf 7 w 17)) else .error (.reservedField op)
  | 0x33 => if bitsOf w 23 17 = 0 then .ok (.syscall (fieldOf 17 w 0)) else .error (.reservedField op)
  | 0x34 => .ok (.csrrd (fieldOf 7 w 17) (fieldOf 17 w 0))
  | 0x35 => .ok (.csrwr (fieldOf 7 w 17) (fieldOf 17 w 0))
  | 0x36 => if bitsOf w 9 0 = 0 then .ok (.ctxsave (fieldOf 7 w 17) (fieldOf 7 w 10)) else .error (.reservedField op)
  | 0x37 => if bitsOf w 9 0 = 0 then .ok (.ctxload (fieldOf 7 w 17) (fieldOf 7 w 10)) else .error (.reservedField op)
  | 0x38 => if bitsOf w 23 0 = 0 then .ok .wfi else .error (.reservedField op)
  | 0x39 => if bitsOf w 23 0 = 0 then .ok .halt else .error (.reservedField op)
  | 0x3A => if bitsOf w 23 0 = 0 then .ok .nop else .error (.reservedField op)
  | _ => .error (.unassignedOpcode op)

/-- Opcodes 0x40 to 0x6F (R52). -/
def decodeLane (op w : Nat) : Except DecodeError Instr :=
  match op with
  | 0x40 => .ok (.vadd (fieldOf 8 w 16) (fieldOf 8 w 8) (fieldOf 8 w 0))
  | 0x41 => .ok (.vsub (fieldOf 8 w 16) (fieldOf 8 w 8) (fieldOf 8 w 0))
  | 0x42 => .ok (.vmul (fieldOf 8 w 16) (fieldOf 8 w 8) (fieldOf 8 w 0))
  | 0x43 => .ok (.vmulh (fieldOf 8 w 16) (fieldOf 8 w 8) (fieldOf 8 w 0))
  | 0x44 => .error (.missingExt op)
  | 0x45 => .ok (.vmin (fieldOf 8 w 16) (fieldOf 8 w 8) (fieldOf 8 w 0))
  | 0x46 => .ok (.vmax (fieldOf 8 w 16) (fieldOf 8 w 8) (fieldOf 8 w 0))
  | 0x47 => .ok (.vabsd (fieldOf 8 w 16) (fieldOf 8 w 8) (fieldOf 8 w 0))
  | 0x48 => .ok (.vand (fieldOf 8 w 16) (fieldOf 8 w 8) (fieldOf 8 w 0))
  | 0x49 => .ok (.vor (fieldOf 8 w 16) (fieldOf 8 w 8) (fieldOf 8 w 0))
  | 0x4A => .ok (.vxor (fieldOf 8 w 16) (fieldOf 8 w 8) (fieldOf 8 w 0))
  | 0x4B => .error (.missingExt op)
  | 0x4C => .ok (.vshl (fieldOf 8 w 16) (fieldOf 8 w 8) (fieldOf 8 w 0))
  | 0x4D => .ok (.vshr (fieldOf 8 w 16) (fieldOf 8 w 8) (fieldOf 8 w 0))
  | 0x4E => .ok (.vsar (fieldOf 8 w 16) (fieldOf 8 w 8) (fieldOf 8 w 0))
  | 0x4F => .error (.missingExt op)
  | 0x50 => .ok (.vbits (fieldOf 8 w 16) (fieldOf 8 w 8) (fieldOf 8 w 0))
  | 0x51 => .ok (.vbfx (fieldOf 8 w 16) (fieldOf 8 w 8) (fieldOf 8 w 0))
  | 0x52 => .ok (.vcmp (fieldOf 4 w 20) (fieldOf 4 w 16) (fieldOf 8 w 8) (fieldOf 8 w 0))
  | 0x53 => .error (.missingExt op)
  | 0x54 => if bitsOf w 7 0 = 0 then .ok (.vmov (fieldOf 8 w 16) (fieldOf 8 w 8)) else .error (.reservedField op)
  | 0x55 => if bitsOf w 8 1 = 0 then .ok (.vbcast (fieldOf 8 w 16) (fieldOf 7 w 9) (bitOf w 0)) else .error (.reservedField op)
  | 0x56 => .ok (.vli (fieldOf 8 w 16) (fieldOf 16 w 0))
  | 0x57 => .ok (.vlih (fieldOf 8 w 16) (fieldOf 16 w 0))
  | 0x58 => .ok (.vaddi (fieldOf 8 w 16) (fieldOf 16 w 0))
  | 0x59 => if bitsOf w 7 5 = 0 then .ok (.vcvt (fieldOf 8 w 16) (fieldOf 8 w 8) (fieldOf 5 w 0)) else .error (.reservedField op)
  | 0x5A => if bitsOf w 15 9 = 0 then .ok (.vlane (fieldOf 8 w 16) (fieldOf 9 w 0)) else .error (.reservedField op)
  | 0x5B => .ok (.vshuf (fieldOf 8 w 16) (fieldOf 8 w 8) (fieldOf 8 w 0))
  | 0x5C => .ok (.vrot (fieldOf 8 w 16) (fieldOf 8 w 8) (fieldOf 8 w 0))
  | 0x5D => if bitsOf w 8 8 = 0 then .ok (.vbcl (fieldOf 8 w 16) (fieldOf 7 w 9) (fieldOf 8 w 0)) else .error (.reservedField op)
  | 0x5E => if bitsOf w 7 4 = 0 then .ok (.vred (fieldOf 8 w 16) (fieldOf 8 w 8) (fieldOf 4 w 0)) else .error (.reservedField op)
  | 0x5F => if bitsOf w 7 5 = 0 then .ok (.vscan (fieldOf 8 w 16) (fieldOf 8 w 8) (bitOf w 4) (fieldOf 4 w 0)) else .error (.reservedField op)
  | 0x60 => .ok (.vtos (fieldOf 8 w 16) (fieldOf 7 w 9) (fieldOf 9 w 0))
  | 0x61 => .ok (.stov (fieldOf 8 w 16) (fieldOf 7 w 9) (fieldOf 9 w 0))
  | 0x62 => if bitsOf w 7 0 = 0 then .ok (.mlogic (fieldOf 4 w 20) (fieldOf 4 w 16) (fieldOf 4 w 12) (fieldOf 4 w 8)) else .error (.reservedField op)
  | 0x63 => if bitsOf w 9 0 = 0 ∧ bitsOf w 16 14 = 0 then .ok (.mcount (fieldOf 7 w 17) (fieldOf 4 w 10)) else .error (.reservedField op)
  | 0x64 => if bitsOf w 9 0 = 0 ∧ bitsOf w 16 14 = 0 then .ok (.mfirst (fieldOf 7 w 17) (fieldOf 4 w 10)) else .error (.reservedField op)
  | 0x65 => if bitsOf w 2 0 = 0 ∧ bitsOf w 9 7 = 0 ∧ bitsOf w 16 14 = 0 then .ok (.mtos (fieldOf 7 w 17) (fieldOf 4 w 10) (fieldOf 4 w 3)) else .error (.reservedField op)
  | 0x66 => if bitsOf w 23 21 = 0 ∧ bitsOf w 2 0 = 0 ∧ bitsOf w 9 7 = 0 then .ok (.stom (fieldOf 4 w 17) (fieldOf 7 w 10) (fieldOf 4 w 3)) else .error (.reservedField op)
  | 0x67 => if bitsOf w 7 0 = 0 ∧ bitsOf w 15 12 = 0 then .ok (.mtov (fieldOf 8 w 16) (fieldOf 4 w 8)) else .error (.reservedField op)
  | 0x68 => if bitsOf w 23 20 = 0 ∧ bitsOf w 7 0 = 0 then .ok (.vtom (fieldOf 4 w 16) (fieldOf 8 w 8)) else .error (.reservedField op)
  | _ => .error (.unassignedOpcode op)

/-- Opcodes 0x70 to 0x9F (R52). -/
def decodeFloat (op w : Nat) : Except DecodeError Instr :=
  match op with
  | 0x70 => .ok (.vfadd (fieldOf 8 w 16) (fieldOf 8 w 8) (fieldOf 8 w 0))
  | 0x71 => .ok (.vfsub (fieldOf 8 w 16) (fieldOf 8 w 8) (fieldOf 8 w 0))
  | 0x72 => .ok (.vfmul (fieldOf 8 w 16) (fieldOf 8 w 8) (fieldOf 8 w 0))
  | 0x73 => .error (.missingExt op)
  | 0x74 => .error (.missingExt op)
  | 0x75 => .error (.missingExt op)
  | 0x76 => .ok (.vfdiv (fieldOf 8 w 16) (fieldOf 8 w 8) (fieldOf 8 w 0))
  | 0x77 => if bitsOf w 7 0 = 0 then .ok (.vfsqrt (fieldOf 8 w 16) (fieldOf 8 w 8)) else .error (.reservedField op)
  | 0x78 => if bitsOf w 7 0 = 0 then .ok (.vfrcp (fieldOf 8 w 16) (fieldOf 8 w 8)) else .error (.reservedField op)
  | 0x79 => if bitsOf w 7 0 = 0 then .ok (.vfrsq (fieldOf 8 w 16) (fieldOf 8 w 8)) else .error (.reservedField op)
  | 0x7A => .ok (.vfmin (fieldOf 8 w 16) (fieldOf 8 w 8) (fieldOf 8 w 0))
  | 0x7B => .ok (.vfmax (fieldOf 8 w 16) (fieldOf 8 w 8) (fieldOf 8 w 0))
  | 0x7C => if bitsOf w 7 0 = 0 then .ok (.vfabs (fieldOf 8 w 16) (fieldOf 8 w 8)) else .error (.reservedField op)
  | 0x7D => if bitsOf w 7 0 = 0 then .ok (.vfneg (fieldOf 8 w 16) (fieldOf 8 w 8)) else .error (.reservedField op)
  | 0x7E => .ok (.vfcmp (fieldOf 4 w 20) (fieldOf 4 w 16) (fieldOf 8 w 8) (fieldOf 8 w 0))
  | 0x7F => if bitsOf w 7 0 = 0 then .ok (.vfclass (fieldOf 8 w 16) (fieldOf 8 w 8)) else .error (.reservedField op)
  | 0x80 => if bitsOf w 7 0 = 0 then .ok (.vfrnd (fieldOf 8 w 16) (fieldOf 8 w 8)) else .error (.reservedField op)
  | 0x81 => if bitsOf w 7 5 = 0 then .ok (.vfcvt (fieldOf 8 w 16) (fieldOf 8 w 8) (fieldOf 5 w 0)) else .error (.reservedField op)
  | 0x82 => if bitsOf w 7 5 = 0 then .ok (.vfi2f (fieldOf 8 w 16) (fieldOf 8 w 8) (fieldOf 5 w 0)) else .error (.reservedField op)
  | 0x83 => if bitsOf w 7 5 = 0 then .ok (.vff2i (fieldOf 8 w 16) (fieldOf 8 w 8) (fieldOf 5 w 0)) else .error (.reservedField op)
  | 0x84 => if bitsOf w 7 0 = 0 then .ok (.vfexp2 (fieldOf 8 w 16) (fieldOf 8 w 8)) else .error (.reservedField op)
  | 0x85 => if bitsOf w 7 0 = 0 then .ok (.vflog2 (fieldOf 8 w 16) (fieldOf 8 w 8)) else .error (.reservedField op)
  | 0x86 => .ok (.vfscalb (fieldOf 8 w 16) (fieldOf 8 w 8) (fieldOf 8 w 0))
  | 0x87 => .ok (.vdqnt (fieldOf 8 w 16) (fieldOf 8 w 8) (fieldOf 8 w 0))
  | 0x88 => if bitsOf w 23 20 = 0 then .ok (.vdsame (fieldOf 4 w 16) (fieldOf 8 w 8) (fieldOf 8 w 0)) else .error (.reservedField op)
  | 0x89 => if bitsOf w 7 0 = 0 then .ok (.vdexp (fieldOf 8 w 16) (fieldOf 8 w 8)) else .error (.reservedField op)
  | 0x8A => if bitsOf w 7 0 = 0 then .ok (.vdsig (fieldOf 8 w 16) (fieldOf 8 w 8)) else .error (.reservedField op)
  | 0x8B => .ok (.vdmake (fieldOf 8 w 16) (fieldOf 8 w 8) (fieldOf 8 w 0))
  | 0x8C => if bitsOf w 7 0 = 0 then .ok (.vdcanon (fieldOf 8 w 16) (fieldOf 8 w 8)) else .error (.reservedField op)
  | 0x8D => .ok (.vbscale (fieldOf 8 w 16) (fieldOf 8 w 8) (fieldOf 8 w 0))
  | 0x8E => .ok (.vbpack (fieldOf 8 w 16) (fieldOf 8 w 8) (fieldOf 8 w 0))
  | 0x8F => .ok (.vbunp (fieldOf 8 w 16) (fieldOf 8 w 8) (fieldOf 8 w 0))
  | 0x90 => if bitsOf w 16 0 = 0 then .ok (.flagrd (fieldOf 7 w 17)) else .error (.reservedField op)
  | 0x91 => if bitsOf w 23 17 = 0 ∧ bitsOf w 9 0 = 0 then .ok (.flagclr (fieldOf 7 w 10)) else .error (.reservedField op)
  | _ => .error (.unassignedOpcode op)

/-- Opcodes 0xA0 to 0xAF (R52). -/
def decodeMatrix (op w : Nat) : Except DecodeError Instr :=
  match op with
  | 0xA0 => if bitsOf w 23 17 = 0 ∧ bitsOf w 9 0 = 0 then .ok (.gang (fieldOf 7 w 10)) else .error (.reservedField op)
  | 0xA1 => if bitsOf w 17 17 = 0 then .ok (.mma (fieldOf 4 w 20) (bitOf w 19) (bitOf w 18) (bitOf w 16) (fieldOf 8 w 8) (fieldOf 8 w 0)) else .error (.reservedField op)
  | 0xA2 => if bitsOf w 7 7 = 0 ∧ bitsOf w 15 15 = 0 ∧ bitsOf w 17 17 = 0 then .ok (.mmad (fieldOf 4 w 20) (bitOf w 19) (bitOf w 18) (bitOf w 16) (fieldOf 7 w 8) (fieldOf 7 w 0)) else .error (.reservedField op)
  | 0xA3 => if bitsOf w 19 0 = 0 then .ok (.azero (fieldOf 4 w 20)) else .error (.reservedField op)
  | 0xA4 => if bitsOf w 7 0 = 0 ∧ bitsOf w 19 15 = 0 then .ok (.ald (fieldOf 4 w 20) (fieldOf 7 w 8)) else .error (.reservedField op)
  | 0xA5 => if bitsOf w 7 0 = 0 ∧ bitsOf w 19 15 = 0 then .ok (.ast (fieldOf 4 w 20) (fieldOf 7 w 8)) else .error (.reservedField op)
  | 0xA6 => if bitsOf w 19 4 = 0 then .ok (.amov (fieldOf 4 w 20) (fieldOf 4 w 0)) else .error (.reservedField op)
  | 0xA7 => if bitsOf w 7 0 = 0 ∧ bitsOf w 19 15 = 0 then .ok (.ascl (fieldOf 4 w 20) (fieldOf 7 w 8)) else .error (.reservedField op)
  | 0xA8 => if bitsOf w 19 4 = 0 then .ok (.aadd (fieldOf 4 w 20) (fieldOf 4 w 0)) else .error (.reservedField op)
  | 0xA9 => .error (.missingExt op)
  | 0xAA => .error (.missingExt op)
  | _ => .error (.unassignedOpcode op)

/-- Opcodes 0xB0 to 0xCF (R52). -/
def decodeMemory (op w : Nat) : Except DecodeError Instr :=
  match op with
  | 0xB0 => .ok (.vldb (fieldOf 8 w 16) (fieldOf 8 w 8) (fieldOf 7 w 1) (bitOf w 0))
  | 0xB1 => .ok (.vldh (fieldOf 8 w 16) (fieldOf 8 w 8) (fieldOf 7 w 1) (bitOf w 0))
  | 0xB2 => .ok (.vldw (fieldOf 8 w 16) (fieldOf 8 w 8) (fieldOf 7 w 1) (bitOf w 0))
  | 0xB3 => .ok (.vldd (fieldOf 8 w 16) (fieldOf 8 w 8) (fieldOf 7 w 1) (bitOf w 0))
  | 0xB4 => .ok (.vstb (fieldOf 8 w 16) (fieldOf 8 w 8) (fieldOf 7 w 1) (bitOf w 0))
  | 0xB5 => .ok (.vsth (fieldOf 8 w 16) (fieldOf 8 w 8) (fieldOf 7 w 1) (bitOf w 0))
  | 0xB6 => .ok (.vstw (fieldOf 8 w 16) (fieldOf 8 w 8) (fieldOf 7 w 1) (bitOf w 0))
  | 0xB7 => .ok (.vstd (fieldOf 8 w 16) (fieldOf 8 w 8) (fieldOf 7 w 1) (bitOf w 0))
  | 0xB8 => if bitsOf w 23 23 = 0 ∧ bitsOf w 0 0 = 0 ∧ bitsOf w 12 8 = 0 then .ok (.sld (fieldOf 7 w 16) (fieldOf 2 w 14) (bitOf w 13) (fieldOf 7 w 1)) else .error (.reservedField op)
  | 0xB9 => if bitsOf w 23 23 = 0 ∧ bitsOf w 0 0 = 0 ∧ bitsOf w 13 8 = 0 then .ok (.sst (fieldOf 7 w 16) (fieldOf 2 w 14) (fieldOf 7 w 1)) else .error (.reservedField op)
  | 0xBA => .error (.missingExt op)
  | 0xBB => .error (.missingExt op)
  | 0xBC => .error (.missingExt op)
  | 0xBD => .error (.missingExt op)
  | 0xBE => if bitsOf w 23 23 = 0 ∧ bitsOf w 0 0 = 0 ∧ bitsOf w 15 8 = 192 then .ok (.mwait (fieldOf 7 w 16) (fieldOf 7 w 1)) else .error (.reservedField op)
  | 0xBF => if bitsOf w 23 0 = 0 then .ok .ink else .error (.reservedField op)
  | 0xC0 => if bitsOf w 23 16 = 0 then .ok (.pref (fieldOf 8 w 8) (fieldOf 7 w 1) (bitOf w 0)) else .error (.reservedField op)
  | 0xC1 => if bitsOf w 23 23 = 0 ∧ bitsOf w 0 0 = 0 ∧ bitsOf w 12 8 = 0 then .ok (.iord (fieldOf 7 w 16) (fieldOf 2 w 14) (bitOf w 13) (fieldOf 7 w 1)) else .error (.reservedField op)
  | 0xC2 => if bitsOf w 23 23 = 0 ∧ bitsOf w 0 0 = 0 ∧ bitsOf w 13 8 = 0 then .ok (.iowr (fieldOf 7 w 16) (fieldOf 2 w 14) (fieldOf 7 w 1)) else .error (.reservedField op)
  | 0xC3 => .ok (.chkout (fieldOf 7 w 17) (fieldOf 7 w 10) (fieldOf 7 w 3) (bitOf w 2) (fieldOf 2 w 0))
  | 0xC4 => if bitsOf w 2 0 = 0 then .ok (.chkin (fieldOf 7 w 17) (fieldOf 7 w 10) (fieldOf 7 w 3)) else .error (.reservedField op)
  | 0xC5 => if bitsOf w 23 17 = 0 ∧ bitsOf w 2 0 = 0 then .ok (.cinva (fieldOf 7 w 10) (fieldOf 7 w 3)) else .error (.reservedField op)
  | 0xC6 => .ok (.vlds (fieldOf 8 w 16) (fieldOf 8 w 8) (fieldOf 5 w 3) (fieldOf 2 w 1) (bitOf w 0))
  | 0xC7 => .ok (.vsts (fieldOf 8 w 16) (fieldOf 8 w 8) (fieldOf 5 w 3) (fieldOf 2 w 1) (bitOf w 0))
  | _ => .error (.unassignedOpcode op)

/-- Opcodes 0xD0 to 0xFE (R52). -/
def decodeQueue (op w : Nat) : Except DecodeError Instr :=
  match op with
  | 0xD0 => if bitsOf w 2 0 = 0 then .ok (.launch (fieldOf 7 w 17) (fieldOf 7 w 10) (fieldOf 7 w 3)) else .error (.reservedField op)
  | 0xD1 => if bitsOf w 23 20 = 0 ∧ bitsOf w 7 7 = 0 then .ok (.spawn (fieldOf 4 w 16) (fieldOf 8 w 8) (fieldOf 7 w 0)) else .error (.reservedField op)
  | 0xD2 => if bitsOf w 9 0 = 0 then .ok (.tmig (fieldOf 7 w 17) (fieldOf 7 w 10)) else .error (.reservedField op)
  | 0xD3 => if bitsOf w 2 0 = 0 then .ok (.cpy (fieldOf 7 w 17) (fieldOf 7 w 10) (fieldOf 7 w 3)) else .error (.reservedField op)
  | 0xD4 => if bitsOf w 2 0 = 0 then .ok (.gath (fieldOf 7 w 17) (fieldOf 7 w 10) (fieldOf 7 w 3)) else .error (.reservedField op)
  | 0xD5 => if bitsOf w 2 0 = 0 then .ok (.scat (fieldOf 7 w 17) (fieldOf 7 w 10) (fieldOf 7 w 3)) else .error (.reservedField op)
  | 0xD6 => if bitsOf w 2 0 = 0 then .ok (.coll (fieldOf 7 w 17) (fieldOf 7 w 10) (fieldOf 7 w 3)) else .error (.reservedField op)
  | 0xD7 => if bitsOf w 2 0 = 0 then .ok (.chninit (fieldOf 7 w 17) (fieldOf 7 w 10) (fieldOf 7 w 3)) else if bitsOf w 2 0 = 1 ∧ bitsOf w 16 10 = 0 then .ok (.chninitFree (fieldOf 7 w 17) (fieldOf 7 w 3)) else .error (.reservedField op)
  | 0xD8 => if bitsOf w 2 1 = 0 then .ok (.chnwait (fieldOf 7 w 17) (fieldOf 7 w 10) (fieldOf 7 w 3) (bitOf w 0)) else .error (.reservedField op)
  | 0xD9 => if bitsOf w 2 1 = 0 then .ok (.chnrel (fieldOf 7 w 17) (fieldOf 7 w 10) (fieldOf 7 w 3) (bitOf w 0)) else .error (.reservedField op)
  | 0xDA => if bitsOf w 2 0 = 0 then .ok (.qrsv (fieldOf 7 w 17) (fieldOf 7 w 10) (fieldOf 7 w 3)) else .error (.reservedField op)
  | 0xDB => if bitsOf w 23 17 = 0 ∧ bitsOf w 2 0 = 0 then .ok (.qpost (fieldOf 7 w 10) (fieldOf 7 w 3)) else .error (.reservedField op)
  | 0xE0 => if bitsOf w 2 0 = 0 then .ok (.barinit (fieldOf 7 w 17) (fieldOf 7 w 10) (fieldOf 7 w 3)) else .error (.reservedField op)
  | 0xE1 => if bitsOf w 9 0 = 0 then .ok (.bararr (fieldOf 7 w 17) (fieldOf 7 w 10)) else .error (.reservedField op)
  | 0xE2 => if bitsOf w 2 0 = 0 then .ok (.barwait (fieldOf 7 w 17) (fieldOf 7 w 10) (fieldOf 7 w 3)) else .error (.reservedField op)
  | 0xE3 => if bitsOf w 9 0 = 0 then .ok (.bartst (fieldOf 7 w 17) (fieldOf 7 w 10)) else .error (.reservedField op)
  | 0xE4 => if bitsOf w 16 0 = 0 then .ok (.timerd (fieldOf 7 w 17)) else .error (.reservedField op)
  | 0xE5 => .ok (.cntrd (fieldOf 7 w 17) (fieldOf 17 w 0))
  | 0xE6 => if bitsOf w 16 3 = 0 then .ok (.poppg (fieldOf 7 w 17) (fieldOf 3 w 0)) else .error (.reservedField op)
  | 0xE7 => if bitsOf w 23 17 = 0 ∧ bitsOf w 9 3 = 0 then .ok (.pushpg (fieldOf 7 w 10) (fieldOf 3 w 0)) else .error (.reservedField op)
  | _ => .error (.unassignedOpcode op)

/-- The instruction of one word that carries no EXT. -/
def decodeWord (w : Nat) : Except DecodeError Instr :=
  let op := w / 2 ^ 24
  if op < 0x20 then decodeScalar op w
  else if op < 0x40 then decodeControl op w
  else if op < 0x70 then decodeLane op w
  else if op < 0xA0 then decodeFloat op w
  else if op < 0xB0 then decodeMatrix op w
  else if op < 0xD0 then decodeMemory op w
  else decodeQueue op w

/-- The instruction of a consumer word w under an EXT of payload p, where the pair is one (R50, R51). -/
def decodePair (p w : Nat) : Option Instr :=
  match w / 2 ^ 24 with
  | 0x0F => if bitsOf p 23 7 = 0 ∧ bitsOf w 2 1 = 0 then some (.ssel (fieldOf 7 w 17) (fieldOf 7 w 10) (fieldOf 7 w 3) (bitOf w 0) (fieldOf 7 p 0)) else none
  | 0x14 => some (.sliExt (fieldOf 7 w 17) (fieldOf 17 w 0) (fieldOf 24 p 0))
  | 0x16 => some (.saddiExt (fieldOf 7 w 17) (fieldOf 17 w 0) (fieldOf 24 p 0))
  | 0x23 => if bitsOf w 23 21 = 0 then some (.brv (fieldOf 4 w 17) (fieldOf 17 w 0) (fieldOf 24 p 0)) else none
  | 0x44 => if bitsOf p 23 8 = 0 then some (.vmad (fieldOf 8 w 16) (fieldOf 8 w 8) (fieldOf 8 w 0) (fieldOf 8 p 0)) else none
  | 0x4B => if bitsOf p 23 16 = 0 then some (.vlogt (fieldOf 8 w 16) (fieldOf 8 w 8) (fieldOf 8 w 0) (fieldOf 8 p 8) (fieldOf 8 p 0)) else none
  | 0x4F => if bitsOf p 23 8 = 0 then some (.vfun (fieldOf 8 w 16) (fieldOf 8 w 8) (fieldOf 8 w 0) (fieldOf 8 p 0)) else none
  | 0x53 => if bitsOf p 23 4 = 0 then some (.vsel (fieldOf 8 w 16) (fieldOf 8 w 8) (fieldOf 8 w 0) (fieldOf 4 p 0)) else none
  | 0x56 => if bitsOf p 23 16 = 0 then some (.vliExt (fieldOf 8 w 16) (fieldOf 16 w 0) (fieldOf 16 p 0)) else none
  | 0x58 => if bitsOf p 23 16 = 0 then some (.vaddiExt (fieldOf 8 w 16) (fieldOf 16 w 0) (fieldOf 16 p 0)) else none
  | 0x73 => if bitsOf p 23 8 = 0 then some (.vfma (fieldOf 8 w 16) (fieldOf 8 w 8) (fieldOf 8 w 0) (fieldOf 8 p 0)) else none
  | 0x74 => if bitsOf p 23 8 = 0 then some (.vfms (fieldOf 8 w 16) (fieldOf 8 w 8) (fieldOf 8 w 0) (fieldOf 8 p 0)) else none
  | 0x75 => if bitsOf p 23 8 = 0 then some (.vfnma (fieldOf 8 w 16) (fieldOf 8 w 8) (fieldOf 8 w 0) (fieldOf 8 p 0)) else none
  | 0xA1 => if bitsOf p 23 7 = 0 ∧ bitsOf w 17 16 = 2 then some (.mmaDecay (fieldOf 4 w 20) (bitOf w 19) (bitOf w 18) (fieldOf 8 w 8) (fieldOf 8 w 0) (fieldOf 7 p 0)) else none
  | 0xA2 => if bitsOf p 23 7 = 0 ∧ bitsOf w 17 16 = 2 ∧ bitsOf w 15 15 = 0 ∧ bitsOf w 7 7 = 0 then some (.mmadDecay (fieldOf 4 w 20) (bitOf w 19) (bitOf w 18) (fieldOf 7 w 8) (fieldOf 7 w 0) (fieldOf 7 p 0)) else none
  | 0xA9 => if bitsOf p 23 8 = 0 ∧ bitsOf w 7 4 = 0 then some (.xdec (fieldOf 8 w 16) (fieldOf 8 w 8) (fieldOf 4 w 0) (fieldOf 8 p 0)) else none
  | 0xAA => if bitsOf p 23 8 = 0 then some (.xcrc (fieldOf 8 w 16) (fieldOf 8 w 8) (fieldOf 8 w 0) (fieldOf 8 p 0)) else none
  | 0xB0 => some (.vldbExt (fieldOf 8 w 16) (fieldOf 8 w 8) (fieldOf 7 w 1) (bitOf w 0) (fieldOf 24 p 0))
  | 0xB1 => some (.vldhExt (fieldOf 8 w 16) (fieldOf 8 w 8) (fieldOf 7 w 1) (bitOf w 0) (fieldOf 24 p 0))
  | 0xB2 => some (.vldwExt (fieldOf 8 w 16) (fieldOf 8 w 8) (fieldOf 7 w 1) (bitOf w 0) (fieldOf 24 p 0))
  | 0xB3 => some (.vlddExt (fieldOf 8 w 16) (fieldOf 8 w 8) (fieldOf 7 w 1) (bitOf w 0) (fieldOf 24 p 0))
  | 0xB4 => some (.vstbExt (fieldOf 8 w 16) (fieldOf 8 w 8) (fieldOf 7 w 1) (bitOf w 0) (fieldOf 24 p 0))
  | 0xB5 => some (.vsthExt (fieldOf 8 w 16) (fieldOf 8 w 8) (fieldOf 7 w 1) (bitOf w 0) (fieldOf 24 p 0))
  | 0xB6 => some (.vstwExt (fieldOf 8 w 16) (fieldOf 8 w 8) (fieldOf 7 w 1) (bitOf w 0) (fieldOf 24 p 0))
  | 0xB7 => some (.vstdExt (fieldOf 8 w 16) (fieldOf 8 w 8) (fieldOf 7 w 1) (bitOf w 0) (fieldOf 24 p 0))
  | 0xB8 => if bitsOf w 0 0 = 0 ∧ bitsOf w 12 8 = 0 ∧ bitsOf w 23 23 = 0 then some (.sldExt (fieldOf 7 w 16) (fieldOf 2 w 14) (bitOf w 13) (fieldOf 7 w 1) (fieldOf 24 p 0)) else none
  | 0xB9 => if bitsOf w 0 0 = 0 ∧ bitsOf w 13 8 = 0 ∧ bitsOf w 23 23 = 0 then some (.sstExt (fieldOf 7 w 16) (fieldOf 2 w 14) (fieldOf 7 w 1) (fieldOf 24 p 0)) else none
  | 0xBA => if bitsOf p 23 6 = 0 then some (.vatom (fieldOf 8 w 16) (fieldOf 8 w 8) (fieldOf 7 w 1) (bitOf w 0) (bitOf p 5) (fieldOf 5 p 0)) else none
  | 0xBB => if bitsOf p 23 6 = 0 ∧ bitsOf w 23 23 = 0 ∧ bitsOf w 13 8 = 0 ∧ bitsOf w 0 0 = 0 then some (.satom (fieldOf 7 w 16) (fieldOf 2 w 14) (fieldOf 7 w 1) (bitOf p 5) (fieldOf 5 p 0)) else none
  | 0xBC => if bitsOf p 23 8 = 0 then some (.vcas (fieldOf 8 w 16) (fieldOf 8 w 8) (fieldOf 7 w 1) (bitOf w 0) (fieldOf 8 p 0)) else none
  | 0xBD => if bitsOf p 23 4 = 0 then some (.hred (fieldOf 8 w 16) (fieldOf 8 w 8) (fieldOf 7 w 1) (bitOf w 0) (fieldOf 4 p 0)) else none
  | 0xBE => if bitsOf w 0 0 = 0 ∧ bitsOf w 15 8 = 192 ∧ bitsOf w 23 23 = 0 then some (.mwaitExt (fieldOf 7 w 16) (fieldOf 7 w 1) (fieldOf 24 p 0)) else none
  | 0xC0 => if bitsOf w 23 16 = 0 then some (.prefExt (fieldOf 8 w 8) (fieldOf 7 w 1) (bitOf w 0) (fieldOf 24 p 0)) else none
  | 0xC1 => if bitsOf w 0 0 = 0 ∧ bitsOf w 12 8 = 0 ∧ bitsOf w 23 23 = 0 then some (.iordExt (fieldOf 7 w 16) (fieldOf 2 w 14) (bitOf w 13) (fieldOf 7 w 1) (fieldOf 24 p 0)) else none
  | 0xC2 => if bitsOf w 0 0 = 0 ∧ bitsOf w 13 8 = 0 ∧ bitsOf w 23 23 = 0 then some (.iowrExt (fieldOf 7 w 16) (fieldOf 2 w 14) (fieldOf 7 w 1) (fieldOf 24 p 0)) else none
  | 0xC6 => some (.vldsExt (fieldOf 8 w 16) (fieldOf 8 w 8) (fieldOf 5 w 3) (fieldOf 2 w 1) (bitOf w 0) (fieldOf 24 p 0))
  | 0xC7 => some (.vstsExt (fieldOf 8 w 16) (fieldOf 8 w 8) (fieldOf 5 w 3) (fieldOf 2 w 1) (bitOf w 0) (fieldOf 24 p 0))
  | _ => none

/-- The instruction at the head of a list of words. An EXT that forms no instruction with its consumer, or has
none, is the instruction `ext`, whose meaning raises ILLEGAL (R50). -/
def decode : List Word32 → Except DecodeError Instr
  | [] => .error .noWord
  | w :: rest =>
    if w.toNat / 2 ^ 24 = 0xFF then
      match rest with
      | [] => .ok (.ext (fieldOf 24 w.toNat 0))
      | c :: _ =>
        match decodePair (w.toNat % 2 ^ 24) c.toNat with
        | some i => .ok i
        | none => .ok (.ext (fieldOf 24 w.toNat 0))
    else decodeWord w.toNat

/-- A list of bytes as little-endian 32-bit words (R3, R38); bytes short of a word are dropped. -/
def wordsOfBytes : List Byte → List Word32
  | b0 :: b1 :: b2 :: b3 :: rest =>
    BitVec.ofNat 32 (b0.toNat + b1.toNat * 2 ^ 8 + b2.toNat * 2 ^ 16 + b3.toNat * 2 ^ 24) :: wordsOfBytes rest
  | _ => []

/-- The bytes of a word, least significant first (R3). -/
def bytesOfWord (w : Word32) : List Byte :=
  [fieldOf 8 w.toNat 0, fieldOf 8 w.toNat 8, fieldOf 8 w.toNat 16, fieldOf 8 w.toNat 24]

/-- The instruction at the head of any list of bytes, total on every list. -/
def decodeBytes (bs : List Byte) : Except DecodeError Instr := decode (wordsOfBytes bs)

/-- The words, as numbers, of the two words of an instruction whose bits the opcode table numbers from the first
word's bit 0: the first word, then the next one (R47, R50). -/
def tableWords (w : Nat) : List Word32 := [BitVec.ofNat 32 w, BitVec.ofNat 32 (w / 2 ^ 32)]

/-- What the decoder reads from an instruction whose bits are w, bits above nbits zero. -/
def decodeTableWord (nbits w : Nat) : Option Instr :=
  match decodeBytes ((tableWords (w % 2 ^ nbits)).flatMap bytesOfWord) with
  | .ok i => some i
  | .error _ => none


/-- A word from its fixed bits and its fields, each with the number of its lowest bit. -/
def wordOf (fixed : Nat) (fields : List (Nat × Nat)) : Nat :=
  fields.foldl (fun w f => w + f.1 * 2 ^ f.2) fixed

/-- The encoding, as numbers, of an instruction: its EXT first where it has one (R47, R50 to R52). An event is no
instruction word and encodes to nothing. -/
def encodeNat : Instr → List Nat
  | .sadd d a b => [wordOf 0x00000000 [(d.toNat, 17), (a.toNat, 10), (b.toNat, 3)]]
  | .ssub d a b => [wordOf 0x01000000 [(d.toNat, 17), (a.toNat, 10), (b.toNat, 3)]]
  | .smul d a b => [wordOf 0x02000000 [(d.toNat, 17), (a.toNat, 10), (b.toNat, 3)]]
  | .smulh d a b u => [wordOf 0x03000000 [(d.toNat, 17), (a.toNat, 10), (b.toNat, 3), (u.toNat, 0)]]
  | .sdiv d a b u => [wordOf 0x04000000 [(d.toNat, 17), (a.toNat, 10), (b.toNat, 3), (u.toNat, 0)]]
  | .srem d a b u => [wordOf 0x05000000 [(d.toNat, 17), (a.toNat, 10), (b.toNat, 3), (u.toNat, 0)]]
  | .sand d a b => [wordOf 0x06000000 [(d.toNat, 17), (a.toNat, 10), (b.toNat, 3)]]
  | .sor d a b => [wordOf 0x07000000 [(d.toNat, 17), (a.toNat, 10), (b.toNat, 3)]]
  | .sxor d a b => [wordOf 0x08000000 [(d.toNat, 17), (a.toNat, 10), (b.toNat, 3)]]
  | .sshl d a b => [wordOf 0x09000000 [(d.toNat, 17), (a.toNat, 10), (b.toNat, 3)]]
  | .sshr d a b => [wordOf 0x0A000000 [(d.toNat, 17), (a.toNat, 10), (b.toNat, 3)]]
  | .ssar d a b => [wordOf 0x0B000000 [(d.toNat, 17), (a.toNat, 10), (b.toNat, 3)]]
  | .smin d a b u => [wordOf 0x0C000000 [(d.toNat, 17), (a.toNat, 10), (b.toNat, 3), (u.toNat, 0)]]
  | .smax d a b u => [wordOf 0x0D000000 [(d.toNat, 17), (a.toNat, 10), (b.toNat, 3), (u.toNat, 0)]]
  | .scmp d a b r => [wordOf 0x0E000000 [(d.toNat, 17), (a.toNat, 10), (b.toNat, 3), (r.toNat, 0)]]
  | .ssel d a b f c => [wordOf 0xFF000000 [(c.toNat, 0)], wordOf 0x0F000000 [(d.toNat, 17), (a.toNat, 10), (b.toNat, 3), (f.toNat, 0)]]
  | .sbits d a f => [wordOf 0x10000000 [(d.toNat, 17), (a.toNat, 10), (f.toNat, 0)]]
  | .sbfx d a b s => [wordOf 0x11000000 [(d.toNat, 17), (a.toNat, 10), (b.toNat, 3), (s.toNat, 0)]]
  | .sbfi d a b => [wordOf 0x12000000 [(d.toNat, 17), (a.toNat, 10), (b.toNat, 3)]]
  | .smov d a => [wordOf 0x13000000 [(d.toNat, 17), (a.toNat, 10)]]
  | .sli d i => [wordOf 0x14000000 [(d.toNat, 17), (i.toNat, 0)]]
  | .sliExt d i p => [wordOf 0xFF000000 [(p.toNat, 0)], wordOf 0x14000000 [(d.toNat, 17), (i.toNat, 0)]]
  | .slih d i => [wordOf 0x15000000 [(d.toNat, 17), (i.toNat, 0)]]
  | .saddi d i => [wordOf 0x16000000 [(d.toNat, 17), (i.toNat, 0)]]
  | .saddiExt d i p => [wordOf 0xFF000000 [(p.toNat, 0)], wordOf 0x16000000 [(d.toNat, 17), (i.toNat, 0)]]
  | .sandi d i => [wordOf 0x17000000 [(d.toNat, 17), (i.toNat, 0)]]
  | .sori d i => [wordOf 0x18000000 [(d.toNat, 17), (i.toNat, 0)]]
  | .sshli d i => [wordOf 0x19000000 [(d.toNat, 17), (i.toNat, 0)]]
  | .sfop d a b f => [wordOf 0x1A000000 [(d.toNat, 17), (a.toNat, 10), (b.toNat, 3), (f.toNat, 0)]]
  | .sfcmp d a b r => [wordOf 0x1B000000 [(d.toNat, 17), (a.toNat, 10), (b.toNat, 3), (r.toNat, 0)]]
  | .sfcvt d a f => [wordOf 0x1C000000 [(d.toNat, 17), (a.toNat, 10), (f.toNat, 0)]]
  | .bra o => [wordOf 0x20000000 [(o.toNat, 0)]]
  | .brz a o => [wordOf 0x21000000 [(a.toNat, 17), (o.toNat, 0)]]
  | .brnz a o => [wordOf 0x22000000 [(a.toNat, 17), (o.toNat, 0)]]
  | .brv m o j => [wordOf 0xFF000000 [(j.toNat, 0)], wordOf 0x23000000 [(m.toNat, 17), (o.toNat, 0)]]
  | .brall m o => [wordOf 0x24000000 [(m.toNat, 17), (o.toNat, 0)]]
  | .brany m o => [wordOf 0x25000000 [(m.toNat, 17), (o.toNat, 0)]]
  | .call o => [wordOf 0x26000000 [(o.toNat, 0)]]
  | .calli a => [wordOf 0x27000000 [(a.toNat, 10)]]
  | .ret a => [wordOf 0x28000000 [(a.toNat, 10)]]
  | .jmpi a => [wordOf 0x29000000 [(a.toNat, 10)]]
  | .loop a o => [wordOf 0x2A000000 [(a.toNat, 17), (o.toNat, 0)]]
  | .exit => [wordOf 0x2B000000 []]
  | .setmode a b => [wordOf 0x2C000000 [(a.toNat, 10), (b.toNat, 3)]]
  | .getmode d => [wordOf 0x2D000000 [(d.toNat, 17)]]
  | .yield a b => [wordOf 0x2E000000 [(a.toNat, 10), (b.toNat, 3)]]
  | .trap i => [wordOf 0x2F000000 [(i.toNat, 0)]]
  | .rett => [wordOf 0x30000000 []]
  | .bkpt i => [wordOf 0x31000000 [(i.toNat, 0)]]
  | .prchk d => [wordOf 0x32000000 [(d.toNat, 17)]]
  | .syscall i => [wordOf 0x33000000 [(i.toNat, 0)]]
  | .csrrd d n => [wordOf 0x34000000 [(d.toNat, 17), (n.toNat, 0)]]
  | .csrwr a n => [wordOf 0x35000000 [(a.toNat, 17), (n.toNat, 0)]]
  | .ctxsave d a => [wordOf 0x36000000 [(d.toNat, 17), (a.toNat, 10)]]
  | .ctxload d a => [wordOf 0x37000000 [(d.toNat, 17), (a.toNat, 10)]]
  | .wfi => [wordOf 0x38000000 []]
  | .halt => [wordOf 0x39000000 []]
  | .nop => [wordOf 0x3A000000 []]
  | .vadd d a b => [wordOf 0x40000000 [(d.toNat, 16), (a.toNat, 8), (b.toNat, 0)]]
  | .vsub d a b => [wordOf 0x41000000 [(d.toNat, 16), (a.toNat, 8), (b.toNat, 0)]]
  | .vmul d a b => [wordOf 0x42000000 [(d.toNat, 16), (a.toNat, 8), (b.toNat, 0)]]
  | .vmulh d a b => [wordOf 0x43000000 [(d.toNat, 16), (a.toNat, 8), (b.toNat, 0)]]
  | .vmad d a b c => [wordOf 0xFF000000 [(c.toNat, 0)], wordOf 0x44000000 [(d.toNat, 16), (a.toNat, 8), (b.toNat, 0)]]
  | .vmin d a b => [wordOf 0x45000000 [(d.toNat, 16), (a.toNat, 8), (b.toNat, 0)]]
  | .vmax d a b => [wordOf 0x46000000 [(d.toNat, 16), (a.toNat, 8), (b.toNat, 0)]]
  | .vabsd d a b => [wordOf 0x47000000 [(d.toNat, 16), (a.toNat, 8), (b.toNat, 0)]]
  | .vand d a b => [wordOf 0x48000000 [(d.toNat, 16), (a.toNat, 8), (b.toNat, 0)]]
  | .vor d a b => [wordOf 0x49000000 [(d.toNat, 16), (a.toNat, 8), (b.toNat, 0)]]
  | .vxor d a b => [wordOf 0x4A000000 [(d.toNat, 16), (a.toNat, 8), (b.toNat, 0)]]
  | .vlogt d a b c t => [wordOf 0xFF000000 [(c.toNat, 8), (t.toNat, 0)], wordOf 0x4B000000 [(d.toNat, 16), (a.toNat, 8), (b.toNat, 0)]]
  | .vshl d a b => [wordOf 0x4C000000 [(d.toNat, 16), (a.toNat, 8), (b.toNat, 0)]]
  | .vshr d a b => [wordOf 0x4D000000 [(d.toNat, 16), (a.toNat, 8), (b.toNat, 0)]]
  | .vsar d a b => [wordOf 0x4E000000 [(d.toNat, 16), (a.toNat, 8), (b.toNat, 0)]]
  | .vfun d a b c => [wordOf 0xFF000000 [(c.toNat, 0)], wordOf 0x4F000000 [(d.toNat, 16), (a.toNat, 8), (b.toNat, 0)]]
  | .vbits d a f => [wordOf 0x50000000 [(d.toNat, 16), (a.toNat, 8), (f.toNat, 0)]]
  | .vbfx d a b => [wordOf 0x51000000 [(d.toNat, 16), (a.toNat, 8), (b.toNat, 0)]]
  | .vcmp r m a b => [wordOf 0x52000000 [(r.toNat, 20), (m.toNat, 16), (a.toNat, 8), (b.toNat, 0)]]
  | .vsel d a b k => [wordOf 0xFF000000 [(k.toNat, 0)], wordOf 0x53000000 [(d.toNat, 16), (a.toNat, 8), (b.toNat, 0)]]
  | .vmov d a => [wordOf 0x54000000 [(d.toNat, 16), (a.toNat, 8)]]
  | .vbcast d a h => [wordOf 0x55000000 [(d.toNat, 16), (a.toNat, 9), (h.toNat, 0)]]
  | .vli d i => [wordOf 0x56000000 [(d.toNat, 16), (i.toNat, 0)]]
  | .vliExt d i h => [wordOf 0xFF000000 [(h.toNat, 0)], wordOf 0x56000000 [(d.toNat, 16), (i.toNat, 0)]]
  | .vlih d i => [wordOf 0x57000000 [(d.toNat, 16), (i.toNat, 0)]]
  | .vaddi d i => [wordOf 0x58000000 [(d.toNat, 16), (i.toNat, 0)]]
  | .vaddiExt d i h => [wordOf 0xFF000000 [(h.toNat, 0)], wordOf 0x58000000 [(d.toNat, 16), (i.toNat, 0)]]
  | .vcvt d a t => [wordOf 0x59000000 [(d.toNat, 16), (a.toNat, 8), (t.toNat, 0)]]
  | .vlane d f => [wordOf 0x5A000000 [(d.toNat, 16), (f.toNat, 0)]]
  | .vshuf d a b => [wordOf 0x5B000000 [(d.toNat, 16), (a.toNat, 8), (b.toNat, 0)]]
  | .vrot d a n => [wordOf 0x5C000000 [(d.toNat, 16), (a.toNat, 8), (n.toNat, 0)]]
  | .vbcl d s a => [wordOf 0x5D000000 [(d.toNat, 16), (s.toNat, 9), (a.toNat, 0)]]
  | .vred d a o => [wordOf 0x5E000000 [(d.toNat, 16), (a.toNat, 8), (o.toNat, 0)]]
  | .vscan d a e o => [wordOf 0x5F000000 [(d.toNat, 16), (a.toNat, 8), (e.toNat, 4), (o.toNat, 0)]]
  | .vtos a d l => [wordOf 0x60000000 [(a.toNat, 16), (d.toNat, 9), (l.toNat, 0)]]
  | .stov d a l => [wordOf 0x61000000 [(d.toNat, 16), (a.toNat, 9), (l.toNat, 0)]]
  | .mlogic o d a b => [wordOf 0x62000000 [(o.toNat, 20), (d.toNat, 16), (a.toNat, 12), (b.toNat, 8)]]
  | .mcount d a => [wordOf 0x63000000 [(d.toNat, 17), (a.toNat, 10)]]
  | .mfirst d a => [wordOf 0x64000000 [(d.toNat, 17), (a.toNat, 10)]]
  | .mtos d a i => [wordOf 0x65000000 [(d.toNat, 17), (a.toNat, 10), (i.toNat, 3)]]
  | .stom m a i => [wordOf 0x66000000 [(m.toNat, 17), (a.toNat, 10), (i.toNat, 3)]]
  | .mtov d m => [wordOf 0x67000000 [(d.toNat, 16), (m.toNat, 8)]]
  | .vtom m a => [wordOf 0x68000000 [(m.toNat, 16), (a.toNat, 8)]]
  | .vfadd d a b => [wordOf 0x70000000 [(d.toNat, 16), (a.toNat, 8), (b.toNat, 0)]]
  | .vfsub d a b => [wordOf 0x71000000 [(d.toNat, 16), (a.toNat, 8), (b.toNat, 0)]]
  | .vfmul d a b => [wordOf 0x72000000 [(d.toNat, 16), (a.toNat, 8), (b.toNat, 0)]]
  | .vfma d a b c => [wordOf 0xFF000000 [(c.toNat, 0)], wordOf 0x73000000 [(d.toNat, 16), (a.toNat, 8), (b.toNat, 0)]]
  | .vfms d a b c => [wordOf 0xFF000000 [(c.toNat, 0)], wordOf 0x74000000 [(d.toNat, 16), (a.toNat, 8), (b.toNat, 0)]]
  | .vfnma d a b c => [wordOf 0xFF000000 [(c.toNat, 0)], wordOf 0x75000000 [(d.toNat, 16), (a.toNat, 8), (b.toNat, 0)]]
  | .vfdiv d a b => [wordOf 0x76000000 [(d.toNat, 16), (a.toNat, 8), (b.toNat, 0)]]
  | .vfsqrt d a => [wordOf 0x77000000 [(d.toNat, 16), (a.toNat, 8)]]
  | .vfrcp d a => [wordOf 0x78000000 [(d.toNat, 16), (a.toNat, 8)]]
  | .vfrsq d a => [wordOf 0x79000000 [(d.toNat, 16), (a.toNat, 8)]]
  | .vfmin d a b => [wordOf 0x7A000000 [(d.toNat, 16), (a.toNat, 8), (b.toNat, 0)]]
  | .vfmax d a b => [wordOf 0x7B000000 [(d.toNat, 16), (a.toNat, 8), (b.toNat, 0)]]
  | .vfabs d a => [wordOf 0x7C000000 [(d.toNat, 16), (a.toNat, 8)]]
  | .vfneg d a => [wordOf 0x7D000000 [(d.toNat, 16), (a.toNat, 8)]]
  | .vfcmp r m a b => [wordOf 0x7E000000 [(r.toNat, 20), (m.toNat, 16), (a.toNat, 8), (b.toNat, 0)]]
  | .vfclass d a => [wordOf 0x7F000000 [(d.toNat, 16), (a.toNat, 8)]]
  | .vfrnd d a => [wordOf 0x80000000 [(d.toNat, 16), (a.toNat, 8)]]
  | .vfcvt d a t => [wordOf 0x81000000 [(d.toNat, 16), (a.toNat, 8), (t.toNat, 0)]]
  | .vfi2f d a t => [wordOf 0x82000000 [(d.toNat, 16), (a.toNat, 8), (t.toNat, 0)]]
  | .vff2i d a t => [wordOf 0x83000000 [(d.toNat, 16), (a.toNat, 8), (t.toNat, 0)]]
  | .vfexp2 d a => [wordOf 0x84000000 [(d.toNat, 16), (a.toNat, 8)]]
  | .vflog2 d a => [wordOf 0x85000000 [(d.toNat, 16), (a.toNat, 8)]]
  | .vfscalb d a b => [wordOf 0x86000000 [(d.toNat, 16), (a.toNat, 8), (b.toNat, 0)]]
  | .vdqnt d a b => [wordOf 0x87000000 [(d.toNat, 16), (a.toNat, 8), (b.toNat, 0)]]
  | .vdsame m a b => [wordOf 0x88000000 [(m.toNat, 16), (a.toNat, 8), (b.toNat, 0)]]
  | .vdexp d a => [wordOf 0x89000000 [(d.toNat, 16), (a.toNat, 8)]]
  | .vdsig d a => [wordOf 0x8A000000 [(d.toNat, 16), (a.toNat, 8)]]
  | .vdmake d a b => [wordOf 0x8B000000 [(d.toNat, 16), (a.toNat, 8), (b.toNat, 0)]]
  | .vdcanon d a => [wordOf 0x8C000000 [(d.toNat, 16), (a.toNat, 8)]]
  | .vbscale d a b => [wordOf 0x8D000000 [(d.toNat, 16), (a.toNat, 8), (b.toNat, 0)]]
  | .vbpack d a b => [wordOf 0x8E000000 [(d.toNat, 16), (a.toNat, 8), (b.toNat, 0)]]
  | .vbunp d a b => [wordOf 0x8F000000 [(d.toNat, 16), (a.toNat, 8), (b.toNat, 0)]]
  | .flagrd d => [wordOf 0x90000000 [(d.toNat, 17)]]
  | .flagclr a => [wordOf 0x91000000 [(a.toNat, 10)]]
  | .gang a => [wordOf 0xA0000000 [(a.toNat, 10)]]
  | .mma d t g m a b => [wordOf 0xA1000000 [(d.toNat, 20), (t.toNat, 19), (g.toNat, 18), (m.toNat, 16), (a.toNat, 8), (b.toNat, 0)]]
  | .mmaDecay d t g a b l => [wordOf 0xFF000000 [(l.toNat, 0)], wordOf 0xA1020000 [(d.toNat, 20), (t.toNat, 19), (g.toNat, 18), (a.toNat, 8), (b.toNat, 0)]]
  | .mmad d t g m a b => [wordOf 0xA2000000 [(d.toNat, 20), (t.toNat, 19), (g.toNat, 18), (m.toNat, 16), (a.toNat, 8), (b.toNat, 0)]]
  | .mmadDecay d t g a b l => [wordOf 0xFF000000 [(l.toNat, 0)], wordOf 0xA2020000 [(d.toNat, 20), (t.toNat, 19), (g.toNat, 18), (a.toNat, 8), (b.toNat, 0)]]
  | .azero d => [wordOf 0xA3000000 [(d.toNat, 20)]]
  | .ald d s => [wordOf 0xA4000000 [(d.toNat, 20), (s.toNat, 8)]]
  | .ast d s => [wordOf 0xA5000000 [(d.toNat, 20), (s.toNat, 8)]]
  | .amov d a => [wordOf 0xA6000000 [(d.toNat, 20), (a.toNat, 0)]]
  | .ascl d s => [wordOf 0xA7000000 [(d.toNat, 20), (s.toNat, 8)]]
  | .aadd d a => [wordOf 0xA8000000 [(d.toNat, 20), (a.toNat, 0)]]
  | .xdec d a k c => [wordOf 0xFF000000 [(c.toNat, 0)], wordOf 0xA9000000 [(d.toNat, 16), (a.toNat, 8), (k.toNat, 0)]]
  | .xcrc d a b c => [wordOf 0xFF000000 [(c.toNat, 0)], wordOf 0xAA000000 [(d.toNat, 16), (a.toNat, 8), (b.toNat, 0)]]
  | .vldb d a b k => [wordOf 0xB0000000 [(d.toNat, 16), (a.toNat, 8), (b.toNat, 1), (k.toNat, 0)]]
  | .vldbExt d a b k p => [wordOf 0xFF000000 [(p.toNat, 0)], wordOf 0xB0000000 [(d.toNat, 16), (a.toNat, 8), (b.toNat, 1), (k.toNat, 0)]]
  | .vldh d a b k => [wordOf 0xB1000000 [(d.toNat, 16), (a.toNat, 8), (b.toNat, 1), (k.toNat, 0)]]
  | .vldhExt d a b k p => [wordOf 0xFF000000 [(p.toNat, 0)], wordOf 0xB1000000 [(d.toNat, 16), (a.toNat, 8), (b.toNat, 1), (k.toNat, 0)]]
  | .vldw d a b k => [wordOf 0xB2000000 [(d.toNat, 16), (a.toNat, 8), (b.toNat, 1), (k.toNat, 0)]]
  | .vldwExt d a b k p => [wordOf 0xFF000000 [(p.toNat, 0)], wordOf 0xB2000000 [(d.toNat, 16), (a.toNat, 8), (b.toNat, 1), (k.toNat, 0)]]
  | .vldd d a b k => [wordOf 0xB3000000 [(d.toNat, 16), (a.toNat, 8), (b.toNat, 1), (k.toNat, 0)]]
  | .vlddExt d a b k p => [wordOf 0xFF000000 [(p.toNat, 0)], wordOf 0xB3000000 [(d.toNat, 16), (a.toNat, 8), (b.toNat, 1), (k.toNat, 0)]]
  | .vstb d a b k => [wordOf 0xB4000000 [(d.toNat, 16), (a.toNat, 8), (b.toNat, 1), (k.toNat, 0)]]
  | .vstbExt d a b k p => [wordOf 0xFF000000 [(p.toNat, 0)], wordOf 0xB4000000 [(d.toNat, 16), (a.toNat, 8), (b.toNat, 1), (k.toNat, 0)]]
  | .vsth d a b k => [wordOf 0xB5000000 [(d.toNat, 16), (a.toNat, 8), (b.toNat, 1), (k.toNat, 0)]]
  | .vsthExt d a b k p => [wordOf 0xFF000000 [(p.toNat, 0)], wordOf 0xB5000000 [(d.toNat, 16), (a.toNat, 8), (b.toNat, 1), (k.toNat, 0)]]
  | .vstw d a b k => [wordOf 0xB6000000 [(d.toNat, 16), (a.toNat, 8), (b.toNat, 1), (k.toNat, 0)]]
  | .vstwExt d a b k p => [wordOf 0xFF000000 [(p.toNat, 0)], wordOf 0xB6000000 [(d.toNat, 16), (a.toNat, 8), (b.toNat, 1), (k.toNat, 0)]]
  | .vstd d a b k => [wordOf 0xB7000000 [(d.toNat, 16), (a.toNat, 8), (b.toNat, 1), (k.toNat, 0)]]
  | .vstdExt d a b k p => [wordOf 0xFF000000 [(p.toNat, 0)], wordOf 0xB7000000 [(d.toNat, 16), (a.toNat, 8), (b.toNat, 1), (k.toNat, 0)]]
  | .sld d z x b => [wordOf 0xB8000000 [(d.toNat, 16), (z.toNat, 14), (x.toNat, 13), (b.toNat, 1)]]
  | .sldExt d z x b p => [wordOf 0xFF000000 [(p.toNat, 0)], wordOf 0xB8000000 [(d.toNat, 16), (z.toNat, 14), (x.toNat, 13), (b.toNat, 1)]]
  | .sst d z b => [wordOf 0xB9000000 [(d.toNat, 16), (z.toNat, 14), (b.toNat, 1)]]
  | .sstExt d z b p => [wordOf 0xFF000000 [(p.toNat, 0)], wordOf 0xB9000000 [(d.toNat, 16), (z.toNat, 14), (b.toNat, 1)]]
  | .vatom d a b k v o => [wordOf 0xFF000000 [(v.toNat, 5), (o.toNat, 0)], wordOf 0xBA000000 [(d.toNat, 16), (a.toNat, 8), (b.toNat, 1), (k.toNat, 0)]]
  | .satom d z b v o => [wordOf 0xFF000000 [(v.toNat, 5), (o.toNat, 0)], wordOf 0xBB000000 [(d.toNat, 16), (z.toNat, 14), (b.toNat, 1)]]
  | .vcas d a b k c => [wordOf 0xFF000000 [(c.toNat, 0)], wordOf 0xBC000000 [(d.toNat, 16), (a.toNat, 8), (b.toNat, 1), (k.toNat, 0)]]
  | .hred d a b k o => [wordOf 0xFF000000 [(o.toNat, 0)], wordOf 0xBD000000 [(d.toNat, 16), (a.toNat, 8), (b.toNat, 1), (k.toNat, 0)]]
  | .mwait d b => [wordOf 0xBE00C000 [(d.toNat, 16), (b.toNat, 1)]]
  | .mwaitExt d b p => [wordOf 0xFF000000 [(p.toNat, 0)], wordOf 0xBE00C000 [(d.toNat, 16), (b.toNat, 1)]]
  | .ink => [wordOf 0xBF000000 []]
  | .pref a b k => [wordOf 0xC0000000 [(a.toNat, 8), (b.toNat, 1), (k.toNat, 0)]]
  | .prefExt a b k p => [wordOf 0xFF000000 [(p.toNat, 0)], wordOf 0xC0000000 [(a.toNat, 8), (b.toNat, 1), (k.toNat, 0)]]
  | .iord d z x b => [wordOf 0xC1000000 [(d.toNat, 16), (z.toNat, 14), (x.toNat, 13), (b.toNat, 1)]]
  | .iordExt d z x b p => [wordOf 0xFF000000 [(p.toNat, 0)], wordOf 0xC1000000 [(d.toNat, 16), (z.toNat, 14), (x.toNat, 13), (b.toNat, 1)]]
  | .iowr d z b => [wordOf 0xC2000000 [(d.toNat, 16), (z.toNat, 14), (b.toNat, 1)]]
  | .iowrExt d z b p => [wordOf 0xFF000000 [(p.toNat, 0)], wordOf 0xC2000000 [(d.toNat, 16), (z.toNat, 14), (b.toNat, 1)]]
  | .chkout d a b f m => [wordOf 0xC3000000 [(d.toNat, 17), (a.toNat, 10), (b.toNat, 3), (f.toNat, 2), (m.toNat, 0)]]
  | .chkin d a b => [wordOf 0xC4000000 [(d.toNat, 17), (a.toNat, 10), (b.toNat, 3)]]
  | .cinva a b => [wordOf 0xC5000000 [(a.toNat, 10), (b.toNat, 3)]]
  | .vlds d a b z w => [wordOf 0xC6000000 [(d.toNat, 16), (a.toNat, 8), (b.toNat, 3), (z.toNat, 1), (w.toNat, 0)]]
  | .vldsExt d a b z w p => [wordOf 0xFF000000 [(p.toNat, 0)], wordOf 0xC6000000 [(d.toNat, 16), (a.toNat, 8), (b.toNat, 3), (z.toNat, 1), (w.toNat, 0)]]
  | .vsts d a b z w => [wordOf 0xC7000000 [(d.toNat, 16), (a.toNat, 8), (b.toNat, 3), (z.toNat, 1), (w.toNat, 0)]]
  | .vstsExt d a b z w p => [wordOf 0xFF000000 [(p.toNat, 0)], wordOf 0xC7000000 [(d.toNat, 16), (a.toNat, 8), (b.toNat, 3), (z.toNat, 1), (w.toNat, 0)]]
  | .launch d a b => [wordOf 0xD0000000 [(d.toNat, 17), (a.toNat, 10), (b.toNat, 3)]]
  | .spawn m a s => [wordOf 0xD1000000 [(m.toNat, 16), (a.toNat, 8), (s.toNat, 0)]]
  | .tmig d a => [wordOf 0xD2000000 [(d.toNat, 17), (a.toNat, 10)]]
  | .cpy d a b => [wordOf 0xD3000000 [(d.toNat, 17), (a.toNat, 10), (b.toNat, 3)]]
  | .gath d a b => [wordOf 0xD4000000 [(d.toNat, 17), (a.toNat, 10), (b.toNat, 3)]]
  | .scat d a b => [wordOf 0xD5000000 [(d.toNat, 17), (a.toNat, 10), (b.toNat, 3)]]
  | .coll d a b => [wordOf 0xD6000000 [(d.toNat, 17), (a.toNat, 10), (b.toNat, 3)]]
  | .chninit d a b => [wordOf 0xD7000000 [(d.toNat, 17), (a.toNat, 10), (b.toNat, 3)]]
  | .chninitFree d b => [wordOf 0xD7000001 [(d.toNat, 17), (b.toNat, 3)]]
  | .chnwait d a b c => [wordOf 0xD8000000 [(d.toNat, 17), (a.toNat, 10), (b.toNat, 3), (c.toNat, 0)]]
  | .chnrel d a b e => [wordOf 0xD9000000 [(d.toNat, 17), (a.toNat, 10), (b.toNat, 3), (e.toNat, 0)]]
  | .qrsv d a b => [wordOf 0xDA000000 [(d.toNat, 17), (a.toNat, 10), (b.toNat, 3)]]
  | .qpost a b => [wordOf 0xDB000000 [(a.toNat, 10), (b.toNat, 3)]]
  | .barinit d a b => [wordOf 0xE0000000 [(d.toNat, 17), (a.toNat, 10), (b.toNat, 3)]]
  | .bararr d a => [wordOf 0xE1000000 [(d.toNat, 17), (a.toNat, 10)]]
  | .barwait d a b => [wordOf 0xE2000000 [(d.toNat, 17), (a.toNat, 10), (b.toNat, 3)]]
  | .bartst d a => [wordOf 0xE3000000 [(d.toNat, 17), (a.toNat, 10)]]
  | .timerd d => [wordOf 0xE4000000 [(d.toNat, 17)]]
  | .cntrd d n => [wordOf 0xE5000000 [(d.toNat, 17), (n.toNat, 0)]]
  | .poppg d z => [wordOf 0xE6000000 [(d.toNat, 17), (z.toNat, 0)]]
  | .pushpg a z => [wordOf 0xE7000000 [(a.toNat, 10), (z.toNat, 0)]]
  | .ext p => [wordOf 0xFF000000 [(p.toNat, 0)]]
  | .reconvergencePop _ => []
  | .sketchInk _ => []
  | .erase _ _ => []
  | .sectorReturn _ _ _ => []
  | .variableLatencyResult _ _ => []
  | .storePerform _ _ => []
  | .storeFault _ => []
  | .matrixOpComplete _ => []
  | .transformReply _ _ => []
  | .trapVector _ => []
  | .intr _ => []
  | .forcedSave _ => []
  | .teamPlacement _ => []
  | .yieldReactivation _ _ => []
  | .migrationArrival _ => []
  | .firmwareMigration _ _ => []
  | .barwaitComplete _ => []
  | .mwaitComplete _ => []
  | .mwaitTimeout _ => []
  | .chnwaitComplete _ => []
  | .kindlingThreadArrival _ => []
  | .kindlingTimer _ _ => []
  | .kindlingDrop _ => []
  | .kindlingRingRefill _ => []
  | .engineStart _ => []
  | .engineCompletion _ _ _ => []
  | .channelFire _ => []
  | .recall _ => []
  | .joinArrival _ => []
  | .wdog _ _ => []
  | .translationWalk _ _ => []
  | .directoryRequest _ _ _ => []
  | .writeBack _ _ _ => []
  | .paletteInstall _ _ => []
  | .heldWritebackRetry _ _ => []
  | .balloonRecode _ _ => []
  | .balloonZero _ => []
  | .demote _ => []
  | .pageOut _ => []
  | .balloonRequest _ _ => []
  | .heatHalving => []
  | .balloonDeadline _ => []
  | .spaceStuck _ => []
  | .invalidateCommand _ => []
  | .atsInvalidateTimeout _ => []
  | .doorbellTailWrite _ _ => []
  | .proxyHole _ => []
  | .dmaWrite _ _ _ _ _ _ => []
  | .dmaRead _ _ _ _ _ _ => []
  | .atomicopRequest _ _ _ _ _ _ _ _ _ => []
  | .translationRequest _ _ _ _ => []
  | .pageRequest _ _ _ _ _ _ _ _ => []
  | .msixWrite _ _ _ _ => []
  | .mmioCompletion _ _ _ => []
  | .iordCompletionTimeout _ => []
  | .aerError _ _ _ => []
  | .eventWrite => []
  | .proxyRegistrationWrite _ _ _ _ => []
  | .interruptMapWrite _ _ _ _ => []
  | .prgresp _ _ _ _ => []
  | .invalidateTailWrite _ _ _ _ => []
  | .balack _ _ _ _ => []
  | .partitionTableWrite _ _ _ _ => []
  | .functionBindingWrite _ _ _ _ => []
  | .asidtblWrite _ _ _ _ => []
  | .frametblWrite _ _ _ _ => []
  | .registerWrite _ _ _ _ => []
  | .preEmptTeam _ _ => []
  | .withdrawPreEmption _ _ => []
  | .killTeam _ _ => []
  | .killLaunch _ _ => []
  | .resetPartition _ _ => []
  | .pcmdReservedOp _ _ _ => []
  | .kill _ => []
  | .partitionResetDone _ => []
  | .flitSend _ _ _ => []
  | .dataFlit _ _ => []
  | .markerFlit _ _ => []
  | .acknowledgeFlit _ _ => []
  | .negativeAcknowledge _ _ => []
  | .idleFlit _ _ => []
  | .linkTraining _ _ => []
  | .keyLoad _ _ _ => []
  | .packageReset => []
  | .startStep _ _ => []
  | .thermalTrip => []
  | .throttle _ => []
  | .reportRequest _ _ => []
  | .debugUnlock _ => []
  | .stepRecordClear => []
  | .sramError _ _ => []
  | .channelRebuild _ _ => []
  | .invalidateCompletion _ => []
  | .channelFailure _ _ => []
  | .queueFullTimeout _ => []

/-- The words of an instruction (R38, R47). -/
def encode (i : Instr) : List Word32 := (encodeNat i).map (BitVec.ofNat 32)

/-- Whether an instruction is a row of instruction words, and no event. -/
def Instr.isWord (i : Instr) : Bool := !(encodeNat i).isEmpty

/-- Whether an instruction takes an EXT: its encoding has two words (R50). -/
def Instr.hasExt (i : Instr) : Bool := (encodeNat i).length == 2

end Sys2Proof
end

