-- ==== Sys2Proof/Machine/State.lean ====
section
/-! DEFINITION. Machine/State.lean: every piece of state the manual gives the Z7, as plain data, and its value
after package reset (R409). The step is a function of this state alone: which agent acts next and which happening
comes next stand in `turns`, the environment's schedule (log 6). -/
namespace Sys2Proof.Machine

/-- A 32-bit element or word with its poison bit (R71, R244). -/
structure PWord where
  val : Word32 := 0
  poison : Bool := false
  deriving DecidableEq, Repr, Inhabited

/-- A 64-bit value with its poison bit (R71). -/
structure PDword where
  val : Dword := 0
  poison : Bool := false
  deriving DecidableEq, Repr, Inhabited

/-- What kind of agent issues instructions (R17, R25). -/
inductive AgentKind where
  | team | host | queue | root
  deriving DecidableEq, Repr, Inhabited

/-- The kind of a reconvergence stack entry (R192, R220). -/
inductive EntryKind where
  | base | path | frame
  deriving DecidableEq, Repr, Inhabited

/-- A reconvergence stack entry (R192, R220); rpc none is an entry with no reconvergence address. -/
structure StackEntry where
  pc : BitVec 56 := 0
  rpc : Option (BitVec 56) := none
  mode : Word32 := 0
  kind : EntryKind := .base
  mask : LaneMask := 0
  deriving DecidableEq, Repr, Inhabited

/-- The registers that a sketch's tracing restores (R71, R74, R190, R283). `top` is the stack's top entry, whose PC
is the team's PC (R192); `rest` holds the entries below it, the next one first. -/
structure Regs where
  /-- v registers: register n of lane l at key 1024 n + l; unlisted elements are zero with poison clear (R72). -/
  v : Cells PWord := []
  /-- s registers; s0 is never listed (R73). -/
  s : Cells PDword := []
  /-- k registers (R73). -/
  k : Cells PDword := []
  /-- Mask registers (R71). -/
  m : Cells LaneMask := []
  /-- Accumulator tiles: word w of tile t at key 4096 t + w (R170). -/
  a : Cells PWord := []
  mode : Word32 := 0
  flags : Word32 := 0
  gang : Word32 := 0
  /-- True in supervisor mode (R74). -/
  priv : Bool := false
  top : StackEntry := {}
  rest : List StackEntry := []
  deriving DecidableEq, Repr, Inhabited

/-- A register as the scoreboard names it (R43). -/
inductive Reg where
  | v (n : Nat) | s (n : Nat) | k (n : Nat) | m (n : Nat) | a (n : Nat) | mode
  deriving DecidableEq, Repr, Inhabited

/-- One register element to write when a result arrives (R119, R252). -/
structure RegWrite where
  reg : Reg
  lane : Nat := 0
  val : PDword
  deriving DecidableEq, Repr, Inhabited

/-- An item of a sketch's tracing (R283). -/
inductive TraceItem where
  | once | vWord (reg word : Nat) | mReg (n : Nat) | sReg (n : Nat) | kReg (n : Nat) | entry (depth : Nat)
  deriving DecidableEq, Repr, Inhabited

/-- An open sketch (R273, R280 to R284): its first instruction, the registers as they stood when it opened (what the
tracing restores), the items logged, the read set, and what it has issued. -/
structure Sketch where
  first : BitVec 56
  saved : Regs
  /-- TCAUSE, TPC, TADDR and TMASK as they stood when it opened (R74, R83). -/
  record : Word32 × BitVec 56 × Dword × LaneMask := (0, 0, 0, 0)
  logged : List TraceItem := []
  reads : List Nat := []
  loadInstrs : Nat := 0
  holdsStore : Bool := false
  /-- Tiles whose prior state a shadow slot holds (R174, R283). -/
  tiles : List Nat := []
  deriving DecidableEq, Repr, Inhabited

/-- What a store-kind access does when it is performed (R257 to R262, R330, R341, R389). -/
inductive StoreKind where
  | store
  | atomic (op : BitVec 5) (ret : Bool)
  | cas (expect : PDword)
  | hred (op : BitVec 4) (y : Dword)
  | barInit (target : Word32)
  | barArr
  | qrsv (h : Nat) (n : Dword)
  | chnRel (chan : Nat) (prod : Bool) (n : Nat)
  deriving DecidableEq, Repr, Inhabited

/-- A store-kind access that has been issued and not yet performed (R222, R273). -/
structure StoreReq where
  kind : StoreKind
  addr : Dword
  size : Nat
  data : PDword := {}
  /-- The lane, or none for a scalar access (R222 bit SC). -/
  lane : Option Nat := none
  /-- The register that receives the returned value. -/
  ret : Option Reg := none
  /-- A scratchpad offset access, with its swizzle (R255), in place of a window or global address. -/
  swz : Option (BitVec 2) := none
  /-- MODE at issue: the type and rounding of float atomics (R258). -/
  mode : Word32 := 0
  /-- The ASID at issue: a thread's write of its own takes effect from the next instruction (R211). -/
  asid : BitVec 16 := 0
  /-- The issuing instruction's number in its agent's program order. -/
  seq : Nat := 0
  /-- Issued in a sketch that has not inked (R281). -/
  held : Bool := false
  /-- Issued in supervisor mode (R297). -/
  sup : Bool := false
  /-- The byte keys, where they are known at issue: windows, scratchpad offsets, and atomics (R250). -/
  keys : List Nat := []
  /-- The cycle of QRSV's first attempt (R341). -/
  since : Option Nat := none
  /-- What QRSV answers if its last attempt stays the last one (R341). -/
  lastTry : Nat := 0
  deriving DecidableEq, Repr, Inhabited

/-- One lane of a load in flight: the byte keys it reads and the sectors they lie in (R252). -/
structure LaneReq where
  lane : Option Nat := none
  addr : Dword := 0
  keys : List Nat
  /-- Of a lane that spans two lines: the value and poison of the first one's bytes, once they have been read (R227). -/
  got : Option (Nat × Bool) := none
  deriving DecidableEq, Repr, Inhabited

/-- Where a load's value goes (R253, R389). -/
inductive LoadDst where
  /-- v register n, or the pair n, n+1. -/
  | vec (n : Nat) (pair : Bool)
  /-- A scalar register. -/
  | scalar (r : Reg)
  deriving DecidableEq, Repr, Inhabited

/-- A load in flight: lanes not yet written and sectors not yet returned (R252). -/
structure PendingLoad where
  dst : LoadDst
  signed : Bool := false
  lanes : List LaneReq
  sectors : List Nat
  seq : Nat := 0
  inSketch : Bool := false
  deriving DecidableEq, Repr, Inhabited

/-- One lane's stream of XDEC: input position and end, output position and end, window start, table (R185). -/
structure XLane where
  ip : Nat
  ie : Nat
  op : Nat
  oe : Nat
  ws : Nat
  ct : Nat
  deriving DecidableEq, Repr, Inhabited

/-- An XDEC or XCRC that its core's transform pipe runs or will run (R184): the registers pending on it; what XCRC writes;
XDEC's streams as its registers gave them, with vd, mk, its execution mask, MODE and address; the cores whose pipes have yet to
serve it, those whose pipes run it, and the statuses of the lanes that have stopped. -/
structure TransformOp where
  regs : List Reg := []
  writes : List RegWrite := []
  lanes : List (Nat × XLane) := []
  vd : Nat := 0
  maskReg : Nat := 0
  exec : LaneMask := 0
  mode : Word32 := 0
  pc : BitVec 56 := 0
  since : Nat := 0
  cores : List Nat := []
  runningOn : List Nat := []
  stats : List (Nat × Nat) := []
  inSketch : Bool := false
  deriving DecidableEq, Repr, Inhabited

/-- A variable-latency result not yet written (R119, R147). -/
structure VarResult where
  writes : List RegWrite
  flags : Word32 := 0
  inSketch : Bool := false
  deriving DecidableEq, Repr, Inhabited

/-- Why a resident agent does not issue (R33). -/
inductive Wait where
  | none
  /-- For room in a queue or resource, since the given cycle; the instruction issues again (R308, R318). -/
  | room (since : Nat)
  | barwait (d : BitVec 7) (h : Nat) (g : Word32)
  | chnwait (d : BitVec 7) (chan : Nat) (count : Nat) (data : Bool) (unbound : Bool)
  /-- Parked on a unit until another agent writes it, or until the limit passes (R263, R264). -/
  | mwait (next : Nat) (unit : Nat) (addr : Dword) (due : Nat) (fired : Bool)
  /-- YIELD with no free image slot (R201). -/
  | yield (obj : Option Nat) (g : Word32)
  | wfi
  | halted
  /-- Arrived at the rendezvous latch with an MMA or MMAD (R182). -/
  | gang (i : Instr)
  /-- An IORD whose completion has not returned (R267). -/
  | iord (d : BitVec 7) (size : Nat) (signed : Bool) (addr : Nat) (va : Nat) (next : Nat) (since : Nat)
  /-- A SPAWN whose threads are not all placed or dropped (R315). -/
  | spawn (m : BitVec 4)
  deriving DecidableEq, Repr, Inhabited

/-- Who issued a LAUNCH, SPAWN or engine command, and where in its program order: what it starts waits until the older
accesses of that team or thread have been performed (R278, R294). -/
structure Fork where
  agent : Nat := 0
  launch : Dword := 0
  teamid : Word32 := 0
  seq : Nat := 0
  deriving DecidableEq, Repr, Inhabited

/-- A thread made by SPAWN (R30, R315). -/
structure SpawnThread where
  entry : Dword
  arg : Dword
  launch : Dword
  /-- The lane that spawned it, whose bit of md a drop clears. -/
  lane : Nat := 0
  /-- The cycle it reached the kindling unit. -/
  arrived : Option Nat := none
  fork : Fork := {}
  /-- The agent in whose open sketch it was spawned (R293). -/
  pendingOf : Option Nat := none
  deriving DecidableEq, Repr, Inhabited

/-- A compute team, or a host or queue thread, with the state R71, R74, R190, R273 give it. -/
structure Agent where
  kind : AgentKind := .team
  lanes : Nat := 16
  gw : Nat := 16
  bv : Nat := 2
  bs : Nat := 1
  ba : Nat := 0
  /-- Granted scratchpad bytes G, and the physical offset SB of the grant in its cluster (R230). -/
  grant : Nat := 0
  scratchBase : Nat := 0
  part : Nat := 0
  cls : Nat := 0
  asid : BitVec 16 := 0
  launch : Dword := 0
  teamid : Word32 := 0
  admission : Nat := 0
  /-- Global core number g (core 0 of a spanning team), quadrant and slot (R211, R396). -/
  core : Nat := 0
  quad : Nat := 0
  slot : Nat := 0
  /-- Quadrant and slot on core 1 of a spanning team (R25). -/
  span : Option (Nat × Nat) := none
  regs : Regs := {}
  tcause : Word32 := 0
  tpc : BitVec 56 := 0
  tmask : LaneMask := 0
  taddr : Dword := 0
  /-- The supervisor-stop code; 0 when not stopped (R207, R221). -/
  sstop : Word32 := 0
  /-- A raised trap not yet delivered: its resume address, and the stop code when it was raised in supervisor mode,
  otherwise 0 (R205, R207). -/
  pendingTrap : Option (BitVec 56 × Word32) := none
  eraseCnt : Word32 := 0
  specLvl : BitVec 2 := 0
  eraseRun : Nat := 0
  inkRun : Nat := 0
  sketch : Option Sketch := none
  loads : List PendingLoad := []
  storeQ : List StoreReq := []
  replayQ : List StoreReq := []
  varlat : List VarResult := []
  /-- Instructions in the transform pipe, oldest first (R184). -/
  transforms : List TransformOp := []
  /-- A migration of the team waits for the pipe, and cuts an XDEC short (R187). -/
  migrating : Bool := false
  /-- Spawned threads whose transfer to the kindling unit is unfinished, oldest first (R315). -/
  spawnQ : List SpawnThread := []
  /-- Registers pending from fixed-latency producers, with the cycle each is ready: a v or m register for each lane word,
  another register at word 0, and at word 32 the cycle that its producer's latency from issue ends (R43, R44, R64). The cycles are
those of its core's clock (R46). -/
  score : List ((Reg × Nat) × Nat) := []
  /-- The cycle at which every older fixed-latency instruction of opcodes 0x70 to 0x8F has determined its exception sets
  (R148). -/
  excUntil : Nat := 0
  /-- The cycle, of its core's clock, by which every older fixed-latency instruction that determines exception sets has ended its
  latency (R64, R111). -/
  arithUntil : Nat := 0
  /-- The first cycle, of its core's clock, in which the next word may issue (R40, R46). -/
  notBefore : Nat := 0
  /-- The cycle of its last issue, or of its placement (R34). -/
  lastIssue : Nat := 0
  /-- The NS bit of the bundle being issued (R39, R41). -/
  ns : Bool := false
  /-- The load now waiting at SPECLVL 2 has been counted in the ink run (R301). -/
  waited : Bool := false
  wait : Wait := .none
  /-- A pre-emption request: the cycle of its deadline and the image slot reserved for the save (R212). -/
  preq : Option (Nat × Nat) := none
  /-- Ordered killed by firmware (R401). -/
  killed : Bool := false
  intrs : List Nat := []
  hvec : Dword := 0
  upc : Dword := 0
  spill : Dword := 0
  /-- Units read since the last MWAIT completed; true once another agent has written the unit since (R263). -/
  refs : Cells Bool := []
  /-- The C-die of the bin that a kindling team was lit from (R310). -/
  binDie : Option Nat := none
  /-- The number of instructions issued: the model's measure of program order. -/
  seq : Nat := 0
  deriving DecidableEq, Repr, Inhabited

/-- What is kept of a kindling ring's entry beside its bytes (R293, R294, R313): whose open sketch it waits for, and whose older
accesses; and whether it is void, its thread having been erased. -/
structure RingNote where
  pendingOf : Option Nat := none
  fork : Fork := {}
  void : Bool := false
  deriving DecidableEq, Repr, Inhabited

/-- A launch descriptor's fields (R307). -/
structure LaunchDesc where
  entry : Dword := 0
  teams : Nat := 0
  lanes : Nat := 16
  gw : Nat := 16
  ba : Nat := 0
  bv : Nat := 2
  bs : Nat := 1
  cls : Nat := 0
  scr : Nat := 0
  mode : Word32 := 0
  part : Nat := 0
  arg : Dword := 0
  join : Dword := 0
  ktimer : Nat := 0
  deriving DecidableEq, Repr, Inhabited

/-- An entry of a launch queue (R305, R306, R331). -/
structure LaunchEntry where
  handle : Dword
  index : Nat
  desc : LaunchDesc
  /-- No JOIN object: a detached image (R224). -/
  detached : Bool := false
  asid : BitVec 16 := 0
  admission : Nat := 0
  /-- Teams already placed. -/
  placed : Nat := 0
  /-- Teams not yet exited, lit kindling teams among them (R331); threads and engine operations are found in their
  queues. -/
  liveTeams : Nat := 0
  /-- Accepted QPOST slots not yet covered by a performed or dropped tail write (R344). -/
  posts : List (Nat × Word32) := []
  /-- Bins of the launch lit so far (R74). -/
  lit : Nat := 0
  fork : Fork := {}
  pendingOf : Option Nat := none
  deriving DecidableEq, Repr, Inhabited

/-- Where the image of a resume-list record stands: in an image-pool slot, or as CTXLOAD has read it. -/
inductive ImgSource where
  | slot (k : Nat) | loaded (img : List Byte)
  deriving DecidableEq, Repr, Inhabited

/-- A saved or restored team awaiting placement (R305, R312). `object` holds a team still registered on a
barrier object: its Hearth offset and generation (R201). -/
structure ResumeRec where
  source : ImgSource
  part : Nat
  cls : Nat
  launch : Dword
  teamid : Word32
  admission : Nat
  object : Option (Nat × Word32) := none
  /-- Accesses that the save took back and that are not yet performed (R294); those that R222 has no form for are
  restored from here. -/
  taken : List StoreReq := []
  /-- CLUSTER: the one cluster the team may be placed in (R224). -/
  cluster : Option Nat := none
  /-- Its reference points (R263). -/
  refs : Cells Bool := []
  /-- The C-die of its bin, if it is a kindling team (R310). -/
  binDie : Option Nat := none
  /-- Its own admission time, by which R34 orders it: of a kindling team its lighting time (R309). -/
  admitted : Nat := 0
  deriving DecidableEq, Repr, Inhabited

/-- A kindling bin (R30, R305). -/
structure Bin where
  die : Nat
  part : Nat
  launch : Dword
  entry : Dword
  threads : List SpawnThread := []
  deriving DecidableEq, Repr, Inhabited

/-- A lit kindling team awaiting placement (R314). -/
structure LitTeam where
  launch : Dword
  die : Nat
  entry : Dword
  args : List Dword
  litAt : Nat
  seqNo : Nat
  forks : List Fork := []
  deriving DecidableEq, Repr, Inhabited

/-- A candidate for placement (R309): a restored team, a lit kindling team, or the next team of a launch. -/
inductive CandKey where
  | resume (launch : Dword) (teamid : Word32)
  | lit (launch : Dword) (seqNo : Nat)
  | team (handle : Dword) (index : Nat)
  deriving DecidableEq, Repr, Inhabited

/-- A pre-emption request that the scheduler set for a candidate (R311): the team asked to go, and once it has gone
the place it left, which is held for the candidate. -/
structure PreReq where
  cand : CandKey
  part : Nat
  launch : Dword
  teamid : Word32
  gone : Option Agent := none
  deriving DecidableEq, Repr, Inhabited

/-- The kinds of engine operation (R32, R270, R320 to R324). -/
inductive EngineKind where
  | cpy | gath | scat | coll | chkout (mode : BitVec 2) (ff : Bool) | chkin
  deriving DecidableEq, Repr, Inhabited

/-- A command in an engine queue (R318). Queues 0 to 127 are the clusters' copy engines, 128 to 131 the dies'
collective engines. -/
structure EngineOp where
  id : Nat
  kind : EngineKind
  queue : Nat
  agent : Nat
  launch : Dword
  teamid : Word32
  part : Nat
  asid : BitVec 16
  /-- Supervisor privilege at issue (R360). -/
  sup : Bool
  /-- The cluster of its grant, and of its channels. -/
  cluster : Nat
  chanCluster : Nat := 0
  scratchBase : Nat
  grant : Nat
  cmd : Dword
  bytes : List Byte
  completion : Option Nat
  seq : Nat
  pendingOf : Option Nat := none
  fired : Bool := false
  started : Bool := false
  /-- What a started operation read, each byte with its poison; where it writes; the bytes that come from peer
  windows, as index and machine address; and the status it will end with (R319). -/
  data : List (Byte × Bool) := []
  dst : List Nat := []
  peers : List (Nat × Nat) := []
  status : Nat := 1
  /-- The GLOBAL ranges it has translated (R365). -/
  spans : List (Nat × Nat) := []
  /-- GID and N of a collective's group: at its issue, where only N is known, and from its start (R322, R323); the package and
  C-die of each rank, and the contributions of other ranks of this package (R323, R324). -/
  grp : Nat × Nat := (0, 0)
  ranks : List Nat := []
  got : List (Nat × List (Byte × Bool)) := []
  /-- Slots that a collective has posted for adapters, whose tail writes have not been performed (R343, R355). -/
  posts : List (Nat × Word32) := []
  deriving DecidableEq, Repr, Inhabited

/-- A channel descriptor (R326). -/
structure Channel where
  bound : Bool := false
  launch : Dword := 0
  teamid : Word32 := 0
  base : Nat := 0
  log2size : Nat := 0
  prod : Word32 := 0
  cons : Word32 := 0
  /-- Reserved or to be freed by an open sketch's pending CHNINIT (R327). -/
  pendingBind : Option Nat := none
  pendingFree : Option Nat := none
  /-- Freed, and waiting for fired operations to complete (R327). -/
  closing : Bool := false
  deriving DecidableEq, Repr, Inhabited

/-- The state of a directory entry (R366). -/
inductive LineState where
  | shared | owned | held
  deriving DecidableEq, Repr, Inhabited

/-- Page permissions (R359). -/
structure Perms where
  x : Bool := false
  w : Bool := false
  r : Bool := false
  u : Bool := false
  deriving DecidableEq, Repr, Inhabited

/-- A directory entry: one cached machine line (R366), with the page permissions recorded at its fill (R236) and
whether its cached data differ from what was last written back. -/
structure DirEntry where
  st : LineState := .shared
  dies : BitVec 4 := 0
  cl : BitVec 128 := 0
  asid : BitVec 16 := 0
  vline : Nat := 0
  dirty : Bool := false
  perms : Perms := {}
  /-- The leaf level of the page, for LVL (R203). -/
  level : Nat := 0
  /-- Detached from its virtual tag (R365). -/
  detached : Bool := false
  /-- Bytes that the directory wrote into memory for an agent that holds no line, while no cache holds it either: it takes no
  way, and goes when its granule has been stored (R366, R373, R442). -/
  passing : Bool := false
  /-- The C-die whose L2 held the line when its copies were dropped (R236). -/
  lastDie : Nat := 0
  /-- Of a held line: the cycle its hold began, and the L2 slice that holds it (R376). -/
  since : Nat := 0
  slice : Nat := 0
  deriving DecidableEq, Repr, Inhabited

/-- A memory-side TLB entry (R363): the level of the leaf that maps the page; the virtual and the machine page, in
units of 64 KiB for level 0 and of 16 MiB for a 16 MiB leaf or the piece of a 1 GiB leaf. -/
structure TlbEntry where
  home : Nat
  asid : BitVec 16
  level : Nat
  vpage : Nat
  mpage : Nat
  perms : Perms
  deriving DecidableEq, Repr, Inhabited

/-- One check-out in the range table: its pieces and its PRIMARY fields (R368), with the grant placement that its
copy uses (R271). -/
structure RangeRec where
  cid : Nat
  mode : BitVec 2
  recalled : Bool := false
  /-- Held by the balloon engine. -/
  engine : Bool := false
  part : Nat
  cluster : Nat
  launch : Dword
  teamid : Word32
  asid : BitVec 16
  pieces : List (Nat × Nat)
  vbase : Dword
  vlen : Nat
  soff : Nat
  swz : BitVec 2
  scratchBase : Nat
  /-- The cycle since which the oldest access has waited (R247, R368). -/
  waitSince : Option Nat := none
  deriving DecidableEq, Repr, Inhabited

/-- One palette generation (R373). -/
structure Palette where
  vals : List Word32 := []
  lens : List Nat := []
  escLen : Nat := 0
  valid : Bool := false
  count : Nat := 0
  deriving DecidableEq, Repr, Inhabited

/-- A partition's palettes on a C-die and their learning (R374). -/
structure PaletteState where
  gen0 : Palette := {}
  gen1 : Palette := {}
  current : Bool := false
  learning : Bool := false
  /-- A write-back has come since COMP was last set, so that learning has begun with it. -/
  begun : Bool := false
  sampled : Nat := 0
  writeBacks : Nat := 0
  hist : Cells Nat := []
  deriving DecidableEq, Repr, Inhabited

/-- What an invalidate command waits for (R365): accesses, as launch, TEAMID or thread number, and place in program order; and
engine operations. -/
structure Outstanding where
  accs : List (Dword × Word32 × Nat) := []
  ops : List Nat := []
  deriving DecidableEq, Repr, Inhabited

/-- A page move of the balloon engine in progress (R378): 1, its entry is marked MV; 2, its swap entry stands and its write
is in flight. -/
structure Move where
  page : Nat
  pageOut : Bool
  part : Nat
  pteAddr : Nat
  oldPte : Dword
  /-- The swap slot taken. -/
  target : Nat := 0
  phase : Nat := 1
  /-- What the invalidate command of step 2 waits for. -/
  waits : Outstanding := {}
  deriving DecidableEq, Repr, Inhabited

/-- State the device keeps for each partition beside its table entry. -/
structure PartState where
  /-- FREE of the chunk pool at each controller (R375). -/
  free : Cells Nat := []
  /-- The entries of each free-page stack that are held on chip, top first, at most 64: (die, size) at 3 d + z, the CXL stack at
  12; and how many deeper entries stand in its ring in memory (R356, R370). -/
  freePages : Cells (List Nat) := []
  ringCounts : Cells Nat := []
  /-- Launches accepted by each class's queue (R306). -/
  accepted : Cells Nat := []
  /-- Watchdog of each class: the cycle it last stood at 0 (R393); unlisted while it does not count. -/
  wdog : Cells Nat := []
  /-- Start of the current episode, and of SPACE_EXHAUSTED (R376, R379). -/
  episode : Option Nat := none
  exhausted : Option Nat := none
  stuckSent : Bool := false
  /-- The balloon engine has begun for an episode and not yet met its goal at every controller (R377). -/
  working : Bool := false
  /-- Invalidate commands completed, the one in execution having dropped its lines and entries (R365). -/
  invDone : Nat := 0
  invActive : Bool := false
  /-- What the command in execution waits for (R365). -/
  invWaits : Outstanding := {}
  /-- Kindling ring head and tail counts (R313). -/
  ringHead : Nat := 0
  ringTail : Nat := 0
  /-- What is kept of the ring's entries, by their counts. -/
  ringNotes : Cells RingNote := []
  /-- Threads of restored images that wait at the kindling unit of a C-die (R315). -/
  kindling : List (Nat × SpawnThread) := []
  /-- Image-pool slots in use or reserved (R380). -/
  images : List Nat := []
  /-- A reset is in progress (R402). -/
  resetting : Bool := false
  /-- A reset has begun, and the entry has not been made VALID again since (R402). -/
  closed : Bool := false
  deriving DecidableEq, Repr, Inhabited

/-- A matrix operation in a core's unit (R173, R174): what it writes when it completes. -/
structure MatrixOp where
  agent : Nat
  tile : Nat
  result : Cells PWord
  flags : Word32
  cls : Nat
  admission : Nat
  /-- Members of a gang released at completion (R182). -/
  members : List Nat := []
  /-- Holds a shadow slot (R174). -/
  slot : Bool := true
  inSketch : Bool := false
  since : Nat := 0
  /-- What AST writes: words by key, in the order of its rows; empty for an operation on a tile (R180). -/
  stores : List (Nat × PWord) := []
  deriving DecidableEq, Repr, Inhabited

/-- Peer link states (R334). -/
inductive LinkState where
  | down | training | up
  deriving DecidableEq, Repr, Inhabited

/-- A peer link (R334, R352 to R354): replay buffer of unacknowledged flits, oldest first, by sequence number. -/
structure PeerLink where
  st : LinkState := .down
  replay : List (Nat × List Byte) := []
  txSeq : Nat := 0
  rxSeq : Nat := 0
  /-- Failures of the flit now expected (R354). -/
  fails : Nat := 0
  txSlot : Bool := false
  rxSlot : Bool := false
  /-- The highest sequence number seen since the last failure was counted (R354). -/
  ahead : Option Nat := none
  /-- Keys loaded since the link last went down: send, receive (R354). -/
  txFresh : Bool := false
  rxFresh : Bool := false
  deriving DecidableEq, Repr, Inhabited

/-- An event waiting for the event writer (R433, R434). -/
structure EventRec where
  time : Dword
  code : Nat
  part : Byte
  extra : Nat
  operand : Word32
  /-- The stopping PC that a stop event names (R207); its record has no field for it (R434). -/
  pc : BitVec 56 := 0
  deriving DecidableEq, Repr, Inhabited

/-- A write that a root port has accepted for a device (R277, R343). -/
structure DevWrite where
  addr : Nat
  size : Nat
  value : Dword
  /-- Of a word written through a peer window (R319). -/
  poison : Bool := false
  deriving DecidableEq, Repr, Inhabited

/-- An NVMe Write command of the balloon engine (R378): the registration and the queue slot it was posted under, its command
identifier, namespace and first LBA, and the machine page it writes from. -/
structure SwapWrite where
  handle : Nat
  slot : Nat
  cid : Nat
  namespace_ : Nat
  lba : Nat
  page : Nat
  deriving DecidableEq, Repr, Inhabited

/-- What is known of a queue thread's page-request ring (R334, R350): the requests written, and those not yet answered, as PRG
index, requester ID and port in one number. -/
structure PageRing where
  written : Nat := 0
  waiting : List Nat := []
  deriving DecidableEq, Repr, Inhabited

/-- What comes next: an agent issues, or a happening takes place (log 6). -/
inductive Turn where
  | issue (agent : Nat)
  | happen (i : Instr)
  deriving DecidableEq, Repr, Inhabited

/-- What issues instructions at most once in a cycle of its core (R34, R46): a quadrant scheduler, or a host or queue
core. -/
structure IssuePort where
  /-- The first cycle, of its core's clock, in which nothing has issued. -/
  free : Nat := 0
  /-- On a host or queue core, the hardware thread after the one that issued last. -/
  next : Nat := 0
  deriving DecidableEq, Repr, Inhabited

/-- The whole package. -/
structure State where
  /-- The package time counter, in arithmetic cycles (R391). -/
  time : Dword := 0
  /-- The environment's schedule: the cycles that pass, then what comes next (log 6). -/
  turns : List (Nat × Turn) := []
  /-- The agent whose turn it is, and its number: threads 0 to 127 (R206, R382), the team in slot j of global core
  g at 128 + 32 g + j, the root-of-trust core's thread at 2^14 (R17). -/
  meId : Nat := 0
  me : Agent := {}
  others : Cells Agent := []
  /-- Issue ports: quadrant q of core g at 4 g + q, host core h at 1024 + h, queue core c at 1032 + c, the root-of-trust
core at 1080 (R34, R46). -/
  ports : Cells IssuePort := []
  /-- The cycle at which a quadrant's datapath is free, at 4 g + q (R44). -/
  pipes : Cells Nat := []
  /-- Bytes of every memory in one list: machine addresses (main memory, CXL tier and the on-chip tables, R357) at
  their own key, Hearth offset h at 2^48 + h, cluster c's scratchpad offset o at 2^49 + 2^21 c + o, and the root-of-trust core's private
ROM and SRAM from 2^50 on (R17). -/
  mem : List Host.Cell := []
  /-- Poison bits and scratchpad dirty bits, at key div 4 (R232, R244). -/
  poison : Cells Bool := []
  dirty : Cells Bool := []
  /-- Directory entries by machine line number (R366). -/
  dir : Cells DirEntry := []
  tlb : List TlbEntry := []
  ranges : List RangeRec := []
  nextCid : Nat := 0
  /-- Granule metadata by granule number (R372). -/
  granules : Cells Dword := []
  /-- Palettes at 4 p + d for partition p and die d. -/
  palettes : Cells PaletteState := []
  parts : Cells PartState := []
  moves : List Move := []
  /-- Pages taken for demotion waiting for their invalidation, and lines held, are found in `moves` and `dir`. -/
  failedChannels : List (Nat × Nat) := []
  /-- How often the heat of pages has been halved (R378). -/
  halvings : Nat := 0
  /-- Uncorrectable blocks: stack, channel and stripe row (R243). -/
  badBlocks : List (Nat × Nat × Nat) := []
  /-- What the storage of main memory holds: chunk n of controller c at 2^29 c + n (R373). -/
  chunks : Cells (List Byte) := []
  /-- SB_CHECK of each core: global compute cores by g (R190). -/
  sbCheck : Cells Bool := []
  /-- Matrix units by core: the operations that hold the unit or wait for it, the running one first (R173). -/
  matrix : Cells (List MatrixOp) := []
  /-- Channels at 16 c + n of cluster c (R326). -/
  channels : Cells Channel := []
  launches : List LaunchEntry := []
  resume : List ResumeRec := []
  requests : List PreReq := []
  transit : List (Agent × Nat × BitVec 7) := []
  bins : List Bin := []
  lits : List LitTeam := []
  engines : List EngineOp := []
  nextEngine : Nat := 0
  /-- Filled-slot maps: slot i of registration h at 4096 h + i (R334). -/
  filled : Cells Bool := []
  /-- Hole timers: the cycle each counts from (R344). -/
  holes : Cells Nat := []
  /-- Registrations with a tail write to issue (R343). -/
  tails : List Nat := []
  /-- The page-request ring of each queue thread, by its number from 0 (R334, R350). -/
  pageReqs : Cells PageRing := []
  /-- ATS invalidations a command waits for: function binding, partition, cycle sent (R349). -/
  atsWait : List (Nat × Nat × Nat) := []
  links : Cells PeerLink := []
  /-- The mode of each x16 port (R336): endpoint mode until start-up says otherwise, with all 32 ports
there (log 50). -/
  portModes : List Config.PortMode := List.replicate 8 (.endpoint 4)
  /-- Root ports under DPC containment (R335, R345). -/
  contained : List Nat := []
  /-- Completion timeouts of the root ports for host threads, where they are not the default (R337). -/
  ioTimeouts : Cells Nat := []
  /-- This package's number and peer number, the packages of the peer group's members, and the adapter routes by package
  number (R323, R351, R355). -/
  package : Nat := 0
  peerNumber : Nat := 0
  members : List (Nat × Nat) := []
  routes : List (Nat × Config.Route) := []
  /-- Collectives whose ranks disagreed, as GID and SEQ, with how many of their ranks have ended here (R325). -/
  badColls : List (Nat × Nat × Nat) := []
  /-- Event counters: partition counters at 4096 p + n, package counters at n (R395). -/
  counters : Cells Dword := []
  events : List EventRec := []
  /-- Writes the root ports have accepted for devices, oldest first. -/
  devWrites : List DevWrite := []
  /-- Write commands of the balloon engine that devices have not acknowledged, oldest first (R378). -/
  swapWrites : List SwapWrite := []
  /-- What the package has sent, oldest first: completions to endpoints (first byte 0 success, 1 UR, 2 success with
  poisoned data), PRG responses, flits on peer links, and reports. -/
  replies : List (List Byte) := []
  /-- Measurement registers M0 to M3, 64 bytes each, most significant first (R403). -/
  measures : List (List Byte) := List.replicate 4 (List.replicate 64 0)
  lifecycle : Nat := 2
  debugOpen : Bool := false
  throttled : Bool := false
  /-- The step record (R407): nonvolatile. -/
  stepRecord : Cells Word32 := []
  recovery : Bool := false
  /-- The next start step since package reset (R406), 27 when all of 1 to 26 have run; and whether it has begun (R407). -/
  bootStep : Nat := 1
  stepBegun : Bool := false
  /-- How many nonces debug unlocks have spent (R405): nonvolatile. -/
  nonces : Nat := 0
  /-- How many free values have been taken (log 7). -/
  freeCount : Nat := 0
  deriving DecidableEq, Repr, Inhabited

/-- Why the machine stops. -/
inductive Fault where
  /-- Raised by an event row whose conditions do not hold: the manual gives that happening no place in this state.
  Safe: the run stops where the device would not have had the happening. -/
  | notEnabled (row : String)
  deriving DecidableEq, Repr

/-- Why a step has no meaning. -/
inductive Refusal where
  /-- Raised by an arm of exec whose instruction has no meaning yet. Safe. -/
  | notModelled (mnemonic : String)
  deriving DecidableEq, Repr

/-- Host thread or queue thread n as it leaves package reset (R206): supervisor mode, one base entry, TEAMID its
thread number. The image's first bundle, whose address the manual does not give, is taken at 0 (log 2). -/
def resetThread (n : Nat) : Agent :=
  { kind := if n < 32 then .host else .queue
    lanes := 1, gw := 1, bv := 0, bs := 128
    teamid := BitVec.ofNat 32 n
    regs := { priv := true, top := { pc := 4, mask := 1 } } }

/-- The root-of-trust core's one thread (R17), as it leaves package reset: at the start of its ROM, as the host threads at their image's
(log 53). -/
def rootThread : Agent := { kind := .root, lanes := 1, gw := 1, bv := 0, bs := 128, regs := { priv := true, top := { pc := 4, mask := 1 } } }

/-- Its number. -/
abbrev rootId : Nat := 16384

/-- The package right after package reset (R206, R409): every host and queue thread and the root-of-trust core about to issue, no team
resident, no table valid, memory with nothing listed. -/
def State.reset : State :=
  { me := resetThread 0
    others := ((List.range 127).map fun n => (n + 1, resetThread (n + 1))) ++ [(rootId, rootThread)] }

end Sys2Proof.Machine
end

