-- ==== Sys2Proof/Machine/Ops.lean ====
section
/-! DEFINITION. Machine/Ops.lean: the named operations over memory, registers, agents and the stack, taking a trap and
returning from one, and the issue of an instruction. Every meaning is written over these. -/
namespace Sys2Proof.Machine

/-- The answer of a step. -/
abbrev Res := Host.Outcome State Fault Refusal

/-! ### Memory -/

/-- The canonical form of memory: addresses strictly rising, no entry equal to the byte 0 that an unlisted address
reads as (R239, R225; log 4). -/
abbrev Memory.wf (m : List Host.Cell) : Bool := Cells.wf (0 : Byte) m

/-- The byte at a key. -/
def Memory.read (m : List Host.Cell) (k : Nat) : Byte := Cells.get 0 m k

/-- Write one byte. -/
def Memory.write (m : List Host.Cell) (k : Nat) (b : Byte) : List Host.Cell := Cells.put 0 k b m

/-- The bytes at n consecutive keys. -/
def Memory.readBytes (m : List Host.Cell) (k n : Nat) : List Byte := (List.range n).map fun i => Memory.read m (k + i)

/-- Write bytes at consecutive keys. -/
def Memory.writeBytes (m : List Host.Cell) (k : Nat) : List Byte → List Host.Cell
  | [] => m
  | b :: bs => Memory.writeBytes (Memory.write m k b) (k + 1) bs

/-- Make the keys lo to lo + n - 1 read zero. -/
def Memory.clear (m : List Host.Cell) (lo n : Nat) : List Host.Cell := m.filter fun c => c.1 < lo || lo + n ≤ c.1

/-- The number whose bytes, least significant first, are given (R3). -/
def leValue : List Byte → Nat
  | [] => 0
  | b :: bs => b.toNat + 256 * leValue bs

/-- The n bytes of a number, least significant first (R3). -/
def leBytes : Nat → Nat → List Byte
  | 0, _ => []
  | n + 1, v => BitVec.ofNat 8 v :: leBytes n (v / 256)

/-- The number in n bytes at a key. -/
def Memory.readNat (m : List Host.Cell) (k n : Nat) : Nat := leValue (Memory.readBytes m k n)

/-- Write a number into n bytes at a key. -/
def Memory.writeNat (m : List Host.Cell) (k n v : Nat) : List Host.Cell := Memory.writeBytes m k (leBytes n v)

/-- The key of Hearth offset h. -/
abbrev hearthKey (h : Nat) : Nat := 2 ^ 48 + h

/-- The key of physical scratchpad offset o of cluster c. -/
abbrev scratchKey (c o : Nat) : Nat := 2 ^ 49 + 2 ^ 21 * c + o

/-- Which memory a key lies in, and the number of the line, bank row or scratchpad row that holds it, as one
number (R284). -/
def unitOf (k : Nat) : Nat :=
  if k < 2 ^ 48 then k / 128 else if k < 2 ^ 49 then 2 ^ 48 + k / 32 else 2 ^ 49 + k / 256

/-- The 32-byte sector of a key (R252). -/
abbrev sectorOf (k : Nat) : Nat := k / 32

/-! ### Places of tables (R357) -/

abbrev partBase (p : Nat) : Nat := 0x30C000020000 + p * 0x400
abbrev intMapBase (i : Nat) : Nat := 0x30C000040000 + i * 0x10
abbrev bindBase (f : Nat) : Nat := 0x30C000060000 + f * 0x20
abbrev invTailAddr (p : Nat) : Nat := 0x30C000080000 + p * 8
abbrev balAckAddr (p : Nat) : Nat := 0x30C000080200 + p * 8
abbrev asidTblAddr : Nat := 0x30C000080100
abbrev frameTblAddr : Nat := 0x30C000080108
abbrev keySlotBase (k : Nat) : Nat := 0x30C000090000 + k * 0x40
abbrev exportBase (e : Nat) : Nat := 0x30C0000A0000 + e * 0x20
abbrev proxyBase (h : Nat) : Nat := 0x30C000000000 + h * 0x20
abbrev portBlock (n : Nat) : Nat := 0x30C000100000 + n * 0x1000
abbrev pcmdAddr : Nat := 0x30C000100800
abbrev popndAddr : Nat := 0x30C000100808
abbrev pstatAddr : Nat := 0x30C000100810
abbrev evctlAddr : Nat := 0x30C000100818

/-- A field of n bytes at a machine address. -/
abbrev State.rd (s : State) (a n : Nat) : Nat := Memory.readNat s.mem a n

/-- Write a field of n bytes at a machine address. -/
def State.wr (s : State) (a n v : Nat) : State := { s with mem := Memory.writeNat s.mem a n v }

/-- A field of n bytes of partition p's table entry (R380). -/
abbrev State.partField (s : State) (p off n : Nat) : Nat := s.rd (partBase p + off) n

/-- Whether partition p exists (R396). -/
def State.partValid (s : State) (p : Nat) : Bool := s.partField p 0 4 % 2 = 1

/-- A partition field, with its default in place of 0 (R380). -/
def State.partDefault (s : State) (p off n dflt : Nat) : Nat :=
  let v := s.partField p off n
  if v = 0 then dflt else v

/-- What is kept of a partition beside its entry. -/
def State.part (s : State) (p : Nat) : PartState := s.parts.get {} p

/-- Change what is kept of a partition. -/
def State.updPart (s : State) (p : Nat) (f : PartState → PartState) : State :=
  { s with parts := s.parts.put {} p (f (s.part p)) }

/-- Whether a Hearth offset lies in one of the partition's ranges (R228, R380). -/
def State.inHearthRanges (s : State) (p h : Nat) : Bool :=
  (List.range 4).any fun i =>
    let r := s.partField p (0xE0 + 4 * i) 4
    let base := r % 2 ^ 11 * 65536
    decide (base ≤ h ∧ h < base + r / 2 ^ 11 % 2 ^ 11 * 65536)

/-- The ASID table entry of an ASID; none while ASIDTBL is not valid (R358, R444). -/
def State.asidEntry (s : State) (asid : Nat) : Option Nat :=
  let t := s.rd asidTblAddr 8
  if t % 2 = 0 then none else some (s.rd (t / 65536 % 2 ^ 32 * 65536 + 8 * asid) 8)

/-- The partition that owns an ASID, if its entry is valid. -/
def State.asidPart (s : State) (asid : Nat) : Option Nat :=
  match s.asidEntry asid with
  | some e => if bitOf e 4 then some (e % 16) else none
  | none => none

/-! ### Agents -/

/-- The agent with a number. -/
def State.agent? (s : State) (id : Nat) : Option Agent := if id = s.meId then some s.me else s.others.find? id

/-- Put an agent in its place. -/
def State.setAgent (s : State) (id : Nat) (a : Agent) : State :=
  if id = s.meId then { s with me := a } else { s with others := s.others.insert id a }

/-- Change one agent. -/
def State.updAgent (s : State) (id : Nat) (f : Agent → Agent) : State :=
  match s.agent? id with
  | some a => s.setAgent id (f a)
  | none => s

/-- Change the agent whose turn it is. -/
abbrev State.updMe (s : State) (f : Agent → Agent) : State := { s with me := f s.me }

/-- Every agent with its number. -/
def State.agents (s : State) : List (Nat × Agent) := (s.meId, s.me) :: s.others

/-- Give the turn to an agent. -/
def State.switchTo (s : State) (id : Nat) : Option State :=
  if id = s.meId then some s
  else match s.others.find? id with
    | some a => some { s with meId := id, me := a, others := (s.others.remove id).insert s.meId s.me }
    | none => none

/-- Act as another agent, then give the turn back. -/
def State.asAgent (id : Nat) (f : State → State) (s : State) : State :=
  match s.switchTo id with
  | none => s
  | some s' => match (f s').switchTo s.meId with
    | some s'' => s''
    | none => f s'

/-- Take an agent out; the turn passes to the first agent left. Threads are never taken out. -/
def State.removeAgent (s : State) (id : Nat) : State :=
  if id = s.meId then
    match s.others with
    | (n, a) :: rest => { s with meId := n, me := a, others := rest }
    | [] => s
  else { s with others := s.others.remove id }

/-- Whether the agent is a compute team. -/
abbrev Agent.isTeam (a : Agent) : Bool := a.kind = .team

/-- Whether an agent's number is a team's. -/
abbrev isTeamId (n : Nat) : Bool := decide (128 ≤ n ∧ n < rootId)

/-- The partition an agent acts for: a team's own; a thread's is the one that owns its ASID (R434). The root-of-trust core acts for
none (R17). -/
def State.partOf (s : State) (a : Agent) : Option Nat :=
  if a.isTeam then some a.part else if a.kind = .root then none else s.asidPart a.asid.toNat

/-- The cluster of a team's core (R396). -/
abbrev Agent.cluster (a : Agent) : Nat := a.core / 2

/-- The C-die of a team's core (R396). -/
abbrev Agent.die (a : Agent) : Nat := a.core / 64

/-- Add 1 to a partition's event counter (R395). -/
def State.count (s : State) (p : Option Nat) (n : Nat) : State :=
  match p with
  | some p => { s with counters := s.counters.put 0 (4096 * p + n) (s.counters.get 0 (4096 * p + n) + 1) }
  | none => s

/-- Add 1 to a package event counter (R395). -/
def State.countPkg (s : State) (n : Nat) : State :=
  { s with counters := s.counters.put 0 n (s.counters.get 0 n + 1) }

/-- Queue an event for the event writer (R433). -/
def State.sendEvent (s : State) (code : Nat) (part : Option Nat) (extra : Nat) (operand : Word32) (pc : BitVec 56 := 0) : State :=
  { s with events := s.events ++ [{ time := s.time, code := code, part := BitVec.ofNat 8 (part.getD 0xFF),
                                    extra := extra, operand := operand, pc := pc }] }

/-- How an event names an agent (R434); the root-of-trust core's thread as the one after the 128 (log 53). -/
def agentOperand (id : Nat) (a : Agent) : Nat := if a.isTeam then 32 * a.core + a.slot else 2 ^ 30 + (if id = rootId then 128 else id)

/-- Take a fresh free value (log 7). -/
def State.fresh (s : State) : Nat × State := (s.freeCount, { s with freeCount := s.freeCount + 1 })

/-- Whether nothing more happens in this cycle. A timer that reaches its limit in the cycle of an event that would have stopped
it loses to that event, so it takes effect at the cycle's end (R314, R392). -/
def State.cycleOver (s : State) : Bool := match s.turns with | (0, _) :: _ => false | _ => true

/-- Whether a timer takes effect now: its limit is reached, and the cycle is over (R392). -/
def State.expires (s : State) (limit : Nat) : Bool := s.cycleOver && decide (limit ≤ s.time.toNat)

/-- Whether the pre-emption deadline of the agent whose turn it is has passed (R213). -/
def State.deadlinePassed (s : State) : Bool := match s.me.preq with | some (t, _) => decide (t < s.time.toNat) | none => false

/-! ### Registers -/

/-- The mask of the lanes below n. -/
def lanesBelow (n : Nat) : LaneMask := BitVec.ofNat 1024 (2 ^ n - 1)

/-- The lanes of a mask below n, rising. -/
def lanesOf (m : LaneMask) (n : Nat) : List Nat := (List.range n).filter fun l => m.getLsbD l

/-- The mask holding the given lanes. -/
def maskOf (ls : List Nat) : LaneMask := ls.foldl (fun m l => m ||| (1#1024 <<< l)) 0

/-- Which register a number in an s field names (R48, R73). -/
def Agent.sName (a : Agent) (n : Nat) : Reg := if a.regs.priv && decide (112 ≤ n) then .k (n - 112) else .s n

/-- The registers that an s field covers; number 0 is never pending (R43, R73). -/
def Agent.sRegs (a : Agent) (n : Nat) : List Reg := if n = 0 then [] else [a.sName n]

/-- Read a register of an s field: number 0 reads zero with poison clear; in supervisor mode 112 to 127 are k0 to
k15 (R73). -/
def Agent.getS (a : Agent) (n : Nat) : PDword :=
  if n = 0 then {}
  else if a.regs.priv && decide (112 ≤ n) then a.regs.k.get {} (n - 112)
  else a.regs.s.get {} n

/-- Write a register of an s field; a write to number 0 is discarded (R73). -/
def Agent.setS (a : Agent) (n : Nat) (v : PDword) : Agent :=
  if n = 0 then a
  else if a.regs.priv && decide (112 ≤ n) then
    { a with regs := { a.regs with k := a.regs.k.put {} (n - 112) v } }
  else { a with regs := { a.regs with s := a.regs.s.put {} n v } }

/-- Write a register of an s field of the agent whose turn it is. -/
def State.setS (s : State) (n : Nat) (v : PDword) : State := { s with me := s.me.setS n v }

/-- Write a scalar register under its own name. -/
def Agent.setReg (a : Agent) (r : Reg) (v : PDword) : Agent :=
  match r with
  | .k n => { a with regs := { a.regs with k := a.regs.k.put {} n v } }
  | .s n => if n = 0 then a else { a with regs := { a.regs with s := a.regs.s.put {} n v } }
  | _ => a

/-- Read the element of v register n in a lane. -/
def Agent.getV (a : Agent) (n l : Nat) : PWord := a.regs.v.get {} (1024 * n + l)

/-- Write the element of v register n in a lane. -/
def Agent.setV (a : Agent) (n l : Nat) (w : PWord) : Agent :=
  { a with regs := { a.regs with v := a.regs.v.put {} (1024 * n + l) w } }

/-- Read the pair n, n + 1 in a lane; its poison is the OR of the two words' (R81, R244). -/
def Agent.getPair (a : Agent) (n l : Nat) : PDword :=
  { val := (a.getV (n + 1) l).val ++ (a.getV n l).val, poison := (a.getV n l).poison || (a.getV (n + 1) l).poison }

/-- Write the pair n, n + 1 in a lane. -/
def Agent.setPair (a : Agent) (n l : Nat) (d : PDword) : Agent :=
  (a.setV n l { val := d.val.setWidth 32, poison := d.poison }).setV (n + 1) l
    { val := (d.val >>> 32).setWidth 32, poison := d.poison }

/-- Read a mask register; lanes at or above the lane count read zero (R71). -/
def Agent.getM (a : Agent) (n : Nat) : LaneMask := a.regs.m.get 0 n &&& lanesBelow a.lanes

/-- Write a mask register; bits at or above the lane count are ignored (R71). -/
def Agent.setM (a : Agent) (n : Nat) (m : LaneMask) : Agent :=
  { a with regs := { a.regs with m := a.regs.m.put 0 n (m &&& lanesBelow a.lanes) } }

/-- Word w of accumulator tile t. -/
def Agent.getA (a : Agent) (t w : Nat) : PWord := a.regs.a.get {} (4096 * t + w)

/-- Replace the words of tile t by the listed ones. -/
def Agent.setTile (a : Agent) (t : Nat) (ws : Cells PWord) : Agent :=
  let lo := a.regs.a.filter fun c => c.1 < 4096 * t
  let hi := a.regs.a.filter fun c => 4096 * t + 4096 ≤ c.1
  { a with regs := { a.regs with a := lo ++ ws.map (fun c => (4096 * t + c.1, c.2)) ++ hi } }

/-- The words of tile t, by word number. -/
def Agent.tile (a : Agent) (t : Nat) : Cells PWord :=
  (a.regs.a.filter fun c => 4096 * t ≤ c.1 && c.1 < 4096 * t + 4096).map fun c => (c.1 - 4096 * t, c.2)

/-- Whether a register lies within the agent's budgets (R48, R73, R79). -/
def Agent.inBudget (a : Agent) : Reg → Bool
  | .v n => n < a.bv
  | .s n => n < a.bs || (n = 127)
  | .a n => n < a.ba
  | .k _ => true
  | .m _ => true
  | .mode => true

/-- The address of the instruction to issue, its EXT's if it has one (R50, R192). -/
abbrev Agent.pc (a : Agent) : BitVec 56 := a.regs.top.pc

/-- Set the team's PC, the top entry's (R192). -/
def Agent.setPc (a : Agent) (pc : BitVec 56) : Agent := { a with regs := { a.regs with top := { a.regs.top with pc := pc } } }

/-- The successor of the word at an address: flow skips the next bundle's schedule word (R191). -/
def succOf (pc : BitVec 56) : BitVec 56 := if pc.toNat % 32 = 0x1C then pc + 8 else pc + 4

/-- The active mask: the top entry's (R192). -/
abbrev Agent.active (a : Agent) : LaneMask := a.regs.top.mask

/-- The reconvergence stack's depth (R190). -/
abbrev Agent.depth (a : Agent) : Nat := a.regs.rest.length + 1

/-- Whether an entry of kind trap frame stands on the stack (R205). -/
def Agent.hasFrame (a : Agent) : Bool := (a.regs.top :: a.regs.rest).any fun e => e.kind = .frame

/-- A value with its poison clear. -/
abbrev clean (v : Dword) : PDword := { val := v, poison := false }

/-! ### Outstanding work -/

/-- Whether an XDEC of the agent is in the pipe: its younger accesses wait for the reply (R185). -/
def Agent.decoding (a : Agent) : Bool := a.transforms.any fun o => !o.lanes.isEmpty

/-- Whether every access of the agent has been performed: no load outstanding, no store-kind access queued, no XDEC in the
pipe (R185, R277). -/
def Agent.allPerformed (a : Agent) : Bool := a.loads.isEmpty && a.storeQ.isEmpty && !a.decoding

/-- Whether every access older than the open sketch has been performed (R286). -/
def Agent.olderPerformed (a : Agent) : Bool := a.loads.all (·.inSketch) && a.storeQ.all (·.held)

/-- Write a result that arrives while a sketch may be open: one that is older than the sketch is also written in what
the sketch's tracing restores (R252, R289). -/
def Agent.deliver (inSketch : Bool) (f : Agent → Agent) (a : Agent) : Agent :=
  let b := f a
  match b.sketch with
  | some k => if inSketch then b else { b with sketch := some { k with saved := (f { a with regs := k.saved }).regs } }
  | none => b

/-- LDCNT: outstanding sector requests (R74, R252), those of loads, of atomics that return a value and of an IORD. -/
def Agent.ldcnt (a : Agent) : Nat :=
  (a.loads.map fun l => l.sectors.length).sum +
  ((a.storeQ.filter fun r => r.ret.isSome).map fun r => (r.seq, r.addr.toNat / 32)).eraseDups.length +
  (match a.wait with | .iord .. => 1 | _ => 0)

/-- Whether a matrix operation of the agent is in flight (R174). -/
def State.matrixBusy (s : State) (id : Nat) : Bool :=
  s.matrix.any fun c => c.2.any fun o => o.agent = id || o.members.contains id

/-- Whether variable-latency results, matrix operations or transform replies are outstanding (R205, R214). -/
def State.inFlight (s : State) (id : Nat) (a : Agent) : Bool :=
  !a.varlat.isEmpty || !a.transforms.isEmpty || s.matrixBusy id || (match a.wait with | .gang _ => true | _ => false)

/-- An arrival at the rendezvous latch is withdrawn, unless its joint operation is executing (R183). -/
def State.withdrawArrival (s : State) : State :=
  match s.me.wait with
  | .gang _ => if s.matrixBusy s.meId then s else { s with me := { s.me with wait := .none } }
  | _ => s

/-! ### The order of shared units (R173, R184) -/

/-- The order in which a core's units take operations: class, where an operation that has waited 256 cycles counts as class
0; then the team's admission time, TEAMID and launch handle (R173). -/
def State.unitKey (s : State) (agent cls admission since : Nat) : List Nat :=
  let a := s.agent? agent
  [if since + 256 ≤ s.time.toNat then 0 else cls, admission,
   (match a with | some a => a.teamid.toNat | none => 0), (match a with | some a => a.launch.toNat | none => 0)]

/-- The lexicographic order of lists of numbers. -/
def lexLt : List Nat → List Nat → Bool
  | x :: xs, y :: ys => decide (x < y) || (x == y && lexLt xs ys)
  | _, _ => false

/-- Whether the unit takes matrix operation x before y. -/
def State.opBefore (s : State) (x y : MatrixOp) : Bool :=
  lexLt (s.unitKey x.agent x.cls x.admission x.since) (s.unitKey y.agent y.cls y.admission y.since)

/-- Put the operation that the unit takes next first; of one team, the oldest. -/
def State.pickNext (s : State) : List MatrixOp → List MatrixOp
  | [] => []
  | o :: os =>
    let best := os.foldl (fun b x => if s.opBefore x b then x else b) o
    best :: (o :: os).erase best

/-- A core's operations without some of them: where the running one goes, the unit takes its next (R173). -/
def State.withoutOps (s : State) (gone : MatrixOp → Bool) : List MatrixOp → List MatrixOp
  | [] => []
  | o :: os =>
    let left := (o :: os).filter fun x => !gone x
    if gone o then s.pickNext left else left

/-- The core that a lane of a team is on: lanes 512 and above of a team that spans two are on core 1 (R26). -/
def Agent.coreOf (a : Agent) (l : Nat) : Nat := if a.span.isSome && decide (512 ≤ l) then a.core + 1 else a.core

/-- The cores of a team. -/
def Agent.cores (a : Agent) : List Nat := a.core :: if a.span.isSome then [a.core + 1] else []

/-- A core's transform pipe, when it runs nothing, takes the oldest instruction with lanes on that core of the team that comes
first (R184). -/
def State.feedPipe (s : State) (core : Nat) : State :=
  let here (o : TransformOp) : Bool := o.cores.contains core
  let on := s.agents.filter fun c => c.2.isTeam && c.2.transforms.any here
  if on.any fun c => c.2.transforms.any fun o => o.runningOn.contains core then s
  else
    let key (c : Nat × Agent) : List Nat := s.unitKey c.1 c.2.cls c.2.admission (((c.2.transforms.find? here).map (·.since)).getD 0)
    match on.foldl (fun (m : Option (Nat × Agent)) c =>
        match m with | some b => if lexLt (key c) (key b) then some c else m | none => some c) none with
    | some (id, a) => s.updAgent id fun b => { b with
        transforms := b.transforms.modify (a.transforms.findIdx here) fun o => { o with runningOn := o.runningOn ++ [core] } }
    | none => s

/-- The pipes of a team's cores take their next. -/
def State.feedPipes (s : State) (a : Agent) : State := a.cores.foldl State.feedPipe s

/-! ### Traps (R203 to R209) -/

/-- A cause with the fields of TCAUSE and TADDR (R203, R204). -/
structure Cause where
  code : Nat
  addr : Dword := 0
  exc : Nat := 0
  acc : Nat := 0
  lvl : Nat := 0
  imm : Nat := 0
  deriving DecidableEq, Repr, Inhabited

abbrev Cause.illegal : Cause := { code := 0x01 }
abbrev Cause.illegalTarget (t : Dword) : Cause := { code := 0x02, addr := t }
abbrev Cause.privileged : Cause := { code := 0x03 }
abbrev Cause.stallShort : Cause := { code := 0x04 }
/-- POISON, whose TADDR is 0 (R204). -/
abbrev Cause.poison : Cause := { code := 0x05 }
abbrev Cause.arith (e : Nat) : Cause := { code := 0x06, exc := e }
abbrev Cause.stackOver : Cause := { code := 0x0B }

/-- TCAUSE for a cause (R203). -/
def Cause.tcause (c : Cause) : Word32 := BitVec.ofNat 32 (c.code + c.lvl * 2 ^ 15 + c.acc * 2 ^ 17 + c.exc * 2 ^ 19)

/-- The stop code of a cause raised in supervisor mode (R207). -/
def Cause.sstop (c : Cause) : Word32 := BitVec.ofNat 32 (c.code + c.imm * 2 ^ 8)

/-- Whether an address is no place for a control transfer to go: it is not a word, it is a schedule word, or it lies
in a window (R42, R191). -/
def badTarget (t : Dword) : Bool :=
  t.toNat % 4 != 0 || t.toNat % 32 == 0 || decide (2 ^ 56 ≤ t.toNat) ||
  decide (0xFE000000000000 ≤ t.toNat ∧ t.toNat < 0xFE000000200000) ||
  decide (0xFD000000000000 ≤ t.toNat ∧ t.toNat < 0xFD000008000000)

/-- Where the trap vector goes: word 1 of the bundle at the partition's SVENTRY, or at a thread's CR_HVEC (R205, R206). -/
def State.vectorTarget (s : State) : Dword :=
  BitVec.ofNat 64 ((if s.me.isTeam then s.partField s.me.part 8 8 else s.me.hvec.toNat) + 4)

/-- Enter the handler (R205 steps 3 to 5, R206): the top entry keeps the resume address and MODE, a trap frame is
pushed whose mask is TMASK, and the agent issues from the supervisor entry in supervisor mode. -/
def State.enterHandler (s : State) (resume : BitVec 56) : State :=
  let a := s.me
  let mode : Nat := if a.isTeam then s.partField a.part 0x10 4 else 0
  let below := { a.regs.top with pc := resume, mode := a.regs.mode }
  let frame : StackEntry := { pc := s.vectorTarget.setWidth 56, rpc := none, mode := BitVec.ofNat 32 mode,
                              kind := .frame, mask := a.tmask }
  { s with me := { a with pendingTrap := none, wait := .none,
                          regs := { a.regs with top := frame, rest := below :: a.regs.rest, priv := true,
                                                mode := BitVec.ofNat 32 mode } } }

/-- Stop the agent for a cause raised in supervisor mode, and send the stop event with the stopping PC (R207, R434). -/
def State.supervisorStop (s : State) (code : Word32) : State :=
  { s with me := { s.me with sstop := code, pendingTrap := none } }.sendEvent 0x04 (s.partOf s.me) (code.toNat % 256)
    (BitVec.ofNat 32 (agentOperand s.meId s.me + code.toNat / 2 ^ 8 % 2 ^ 17 * 2 ^ 13)) s.me.pc

/-- Whether the trap vector may be delivered: no sketch is open and no result is in flight (R205 steps 1 and 2). -/
def State.vectorReady (s : State) : Bool := s.me.sketch.isNone && !s.inFlight s.meId s.me

/-- Deliver the pending trap (R205). A vector to an address that is no target has no effect but the record of its own cause
(R42, R191). -/
def State.deliverTrap (s : State) : State :=
  match s.me.pendingTrap with
  | some (resume, stop) =>
    if stop != 0 then s.supervisorStop stop
    else if badTarget s.vectorTarget then
      let c := Cause.illegalTarget s.vectorTarget
      { s with me := { s.me with tcause := c.tcause, tpc := s.me.pc, taddr := c.addr, tmask := s.me.active,
                                 pendingTrap := some (s.me.pc, 0) } }
    else s.enterHandler resume
  | none => s

/-- Raise a cause (raise_trap of R70, R205, R207): in user mode TCAUSE, TPC, TADDR and TMASK take the record; in
supervisor mode they keep theirs. An arrival at a latch is withdrawn. The trap is delivered at once when nothing holds it back, and by TRAP_VECTOR
otherwise, which a stack of 32 entries also leaves it to, since its push spills one (R192). -/
def State.raise (s : State) (c : Cause) (lanes : LaneMask) (resume : BitVec 56) : State :=
  let s := s.withdrawArrival
  let a := s.me
  let s' : State :=
    if a.regs.priv then { s with me := { a with pendingTrap := some (resume, c.sstop) } }
    else { s with me := { a with tcause := c.tcause, tpc := a.pc, taddr := c.addr, tmask := lanes,
                                 pendingTrap := some (resume, 0) } }
  if s'.vectorReady && decide (a.depth < 32) then s'.deliverTrap else s'

/-- Count the instruction at the PC as issued (R395): it takes its place in its agent's order. -/
def State.issued (s : State) : State := (s.updMe fun a => { a with seq := a.seq + 1 }).count (s.partOf s.me) 0x100

/-- A trap of the instruction at the PC, which issues, has no effect and resumes at its own address (R205, R395). -/
def trapIn (c : Cause) (lanes : LaneMask) (s : State) : Res := .next (s.issued.raise c lanes s.me.pc)

/-- A trap of a scalar instruction, or of causes 1 to 5 of R63: TMASK is the active mask. -/
def trap (c : Cause) (s : State) : Res := trapIn c s.me.active s

/-! ### Issue -/

/-- An instruction that waits: nothing changes, and it is judged again at the agent's next turn (R33, R43). -/
def hold (s : State) : Res := .next s

/-- Core cycles of an agent in an arithmetic cycle: two host cycles (R4, R46). -/
def Agent.rate (a : Agent) : Nat := if a.kind = .host then 2 else 1

/-- The quadrants a team issues on, at 4 g + q: one, or one on each core of its cluster (R25). -/
def Agent.quads (a : Agent) : List Nat :=
  (4 * a.core + a.quad) :: (match a.span with | some (q, _) => [4 * (a.core + 1) + q] | none => [])

/-- The issue ports of an agent: its quadrants, or its host, queue or root-of-trust core (R17, R25, R46). -/
def Agent.portsOf (id : Nat) (a : Agent) : List Nat :=
  if a.isTeam then a.quads else if a.kind = .root then [1080] else if id < 32 then [1024 + id / 4] else [1032 + (id - 32) / 2]

/-- The cycle of its core's clock in which an agent's next word issues now: not before its stall count has passed, and one
in which none of its ports has issued (R34, R40, R46). -/
def State.slotOf (s : State) (id : Nat) (a : Agent) : Nat :=
  ((a.portsOf id).map fun p => (s.ports.get {} p).free).foldl max (max (a.rate * s.time.toNat) a.notBefore)

/-- The cycle of its core's clock in which the agent whose turn it is issues: on a host core, one of the two host cycles of an
arithmetic cycle (R4, R46). -/
def State.coreNow (s : State) : Nat := if s.me.kind = .host then s.slotOf s.meId s.me else s.time.toNat

/-- Wait until a cycle of its core's clock (R40, R43). -/
def holdUntil (t : Nat) (s : State) : Res :=
  .next { s with me := { s.me with notBefore := max s.me.notBefore t } }

/-- What the issue logic needs of an instruction: whether its fields, its MODE.TYPE and its core make it legal
(R62), whether it is supervisor only, whether it has an EXT (R50), its source and destination registers (R43), and
its latency, 0 where the latency is variable (R64). -/
structure Need where
  legal : Bool := true
  sup : Bool := false
  ext : Bool := false
  reads : List Reg := []
  writes : List Reg := []
  /-- A vector instruction's non-empty lane words (R26, R44); none for another instruction. -/
  words : Option (List Nat) := none
  /-- Its pass cost: the datapath cycles per lane word, 0 where it makes no pass (R64). -/
  pass : Nat := 0
  /-- Its opcode lies in 0x70 to 0x8F (R148). -/
  exc : Bool := false
  /-- It is another instruction that determines exception sets, which FLAGRD waits for (R64, R111). -/
  arith : Bool := false
  /-- What it logs in the tracing beside its destinations (R283). -/
  items : List TraceItem := []
  /-- The lanes it writes, where they are not those of the execution mask. -/
  mask : Option LaneMask := none
  lat : Nat := 1
  deriving DecidableEq, Repr, Inhabited

/-- The first cycle in which no register of a list is pending from a fixed-latency producer (R43). -/
def Agent.readyAt (a : Agent) (now : Nat) (rs : List Reg) : Nat :=
  a.score.foldl (fun t c => if rs.contains c.1.1 then max t c.2 else t) now

/-- Whether a register is written and read lane word by lane word (R44). -/
def Reg.byWord : Reg → Bool
  | .v _ => true
  | .m _ => true
  | _ => false

/-- The first cycle in which lane word w of no register of a list is pending from a fixed-latency producer (R44). -/
def Agent.wordReadyAt (a : Agent) (now w : Nat) (rs : List Reg) : Nat :=
  a.score.foldl (fun t c => if rs.contains c.1.1 && (!c.1.1.byWord || c.1.2 == w) then max t c.2 else t) now

/-- Lane words by the core that runs them: 16 and above of a spanning team are core 1's (R26). -/
def Agent.coreWords (a : Agent) (ws : List Nat) : List (List Nat) :=
  if a.span.isSome then [ws.filter (· < 16), ws.filter (16 ≤ ·)] else [ws]

/-- The first cycle by which every register of an instruction is past its producer's latency, counted from the producer's issue,
which is its first pass (R44, R64). An instruction with an empty execution mask makes no pass and awaits none (R45). -/
def Agent.firstReadyAt (a : Agent) (now : Nat) (n : Need) : Nat :=
  if n.words = some [] then now
  else a.score.foldl (fun t c => if (n.reads ++ n.writes).contains c.1.1 && c.1.2 == 32 then max t c.2 else t) now

/-- The cycle of each pass over some lane words, one after another from a cycle, each when its own lane word is ready (R44,
R64). -/
def Agent.passes (a : Agent) (now : Nat) (n : Need) (ws : List Nat) : List (Nat × Nat) :=
  (ws.foldl (fun (acc : List (Nat × Nat) × Nat) w =>
    let t := a.wordReadyAt acc.2 w (n.reads ++ n.writes)
    (acc.1 ++ [(w, t)], t + n.pass)) ([], now)).1

/-- The first cycle in which the datapaths of a team's quadrants are free (R44). -/
def State.pipeFree (s : State) : Nat := (s.me.quads.map (s.pipes.get 0)).foldl max 0

/-- The registers a load writes. -/
def LoadDst.regs : LoadDst → List Reg
  | .vec n pair => if pair then [.v n, .v (n + 1)] else [.v n]
  | .scalar r => [r]

/-- The second register of the pair that a 64-bit result takes (R48, R257). -/
def Reg.pairOf : Reg → Reg
  | .v n => .v (n + 1)
  | r => r

/-- Whether a register with a result still to come in a lane is one of a list that an instruction covers: a v register only in the
lane words of its passes (R43, R44). -/
def pendingIn (rs : List Reg) (words : Option (List Nat)) (r : Reg) (lane : Nat) : Bool :=
  rs.contains r && match r, words with
    | .v _, some ws => ws.contains (lane / 32)
    | _, _ => true

/-- The lanes of a load whose lane word still needs a sector: that word is written, and released, with its last one (R252). -/
def PendingLoad.unwritten (p : PendingLoad) : List Nat :=
  p.lanes.filterMap fun r =>
    let w := r.lane.getD 0 / 32
    if p.lanes.any fun q => q.lane.getD 0 / 32 = w && q.keys.any fun k => p.sectors.contains (sectorOf k) then some (r.lane.getD 0) else none

/-- Whether a register of a list is pending from a variable-latency producer, in the lane words of a vector instruction's passes
(R43, R44, R252). -/
def State.pendingVar (s : State) (rs : List Reg) (words : Option (List Nat) := none) : Bool :=
  s.me.loads.any (fun l => l.dst.regs.any fun r => l.unwritten.any (pendingIn rs words r)) ||
  s.me.storeQ.any (fun r => match r.ret with
    | some g => (if r.size = 8 then [g, g.pairOf] else [g]).any fun g => pendingIn rs words g (r.lane.getD 0)
    | none => false) ||
  s.me.varlat.any (fun v => v.writes.any fun w => pendingIn rs words w.reg w.lane) ||
  s.me.transforms.any (fun o => o.regs.any rs.contains) ||
  s.matrix.any (fun c => c.2.any fun o => o.agent = s.meId && rs.contains (.a o.tile))

/-- SB_CHECK of the agent's core, core 0's for a team that spans both, of which R43 does not say whose governs (log 47);
threads interlock fully (R43, R46). -/
def State.checking (s : State) : Bool := s.me.isTeam && s.sbCheck.get false s.me.core

/-- The bytes the tracing charges for an item (R283). -/
def TraceItem.bytes : TraceItem → Nat
  | .once => 16
  | .vWord _ _ => 136
  | .mReg _ => 136
  | .sReg _ => 16
  | .kReg _ => 16
  | .entry _ => 168

/-- The core of a spanning team that holds an item: 1 for lane words 16 and above (R26, R283). -/
def TraceItem.core (spanning : Bool) : TraceItem → Nat
  | .vWord _ w => if spanning && decide (16 ≤ w) then 1 else 0
  | _ => 0

/-- The items that a write of a register in the lanes of a mask logs (R283). -/
def traceItems (mask : LaneMask) (lanes : Nat) : Reg → List TraceItem
  | .v n => ((List.range ((lanes + 31) / 32)).filter fun w => (mask >>> (32 * w)).setWidth 32 != 0#32).map (.vWord n)
  | .s n => if n = 0 then [] else [.sReg n]
  | .k n => [.kReg n]
  | .m n => [.mReg n]
  | .a _ => []
  | .mode => []

/-- The bytes charged on a core of the team (R283). -/
def charged (spanning : Bool) (core : Nat) (items : List TraceItem) : Nat :=
  ((items.filter fun i => i.core spanning = core).map TraceItem.bytes).sum

/-- The bytes that an agent's open sketch charges on a core of the package (R283). -/
def Agent.chargedOn (a : Agent) (core : Nat) : Nat :=
  match a.sketch with
  | none => 0
  | some k =>
    (if a.core = core then charged a.span.isSome 0 k.logged else 0) +
    (if a.span.isSome && decide (a.core + 1 = core) then charged true 1 k.logged else 0)

/-- The bytes of a core's 256 KiB tracing buffer that the sketches of its other teams leave free (R14, R285). -/
def State.tracingRoom (s : State) (core : Nat) : Nat :=
  262144 - ((s.others.filter fun c => c.2.isTeam).map fun c => c.2.chargedOn core).sum

/-- Whether a tracing of some items finds room: at most 64 KiB on a core of the team, and on each core no more than its
tracing buffer has free (R283, R285). -/
def State.tracingFits (s : State) (items : List TraceItem) : Bool :=
  let a := s.me
  let c0 := charged a.span.isSome 0 items
  let c1 := charged a.span.isSome 1 items
  decide (c0 ≤ 65536 ∧ c1 ≤ 65536 ∧ c0 ≤ s.tracingRoom a.core) && (a.span.isNone || decide (c1 ≤ s.tracingRoom (a.core + 1)))

/-- The open sketch with items added to its tracing; none when they find no room (R283, R285). -/
def State.logged? (s : State) (items : List TraceItem) : Option (Option Sketch) :=
  match s.me.sketch with
  | none => some none
  | some k =>
    let all := k.logged ++ (items.filter fun i => !k.logged.contains i).eraseDups
    if s.tracingFits all then some (some { k with logged := all }) else none

/-- The execution mask of a vector instruction (R80): the active mask, and the guard mask if there is one. -/
def Agent.exec (a : Agent) : LaneMask :=
  let m := a.active &&& lanesBelow a.lanes
  if a.regs.mode.getLsbD 12 then m &&& a.getM (a.regs.mode.toNat / 256 % 16) else m

/-- Whether TRAPEN is not zero and an older instruction of opcodes 0x70 to 0x8F has not determined its exception sets: no
younger instruction issues (R148). -/
def State.awaitsExceptions (s : State) : Bool :=
  s.me.regs.mode.toNat / 2 ^ 16 % 32 != 0 &&
  (decide (s.time.toNat < s.me.excUntil) ||
   s.me.varlat.any fun v => v.writes.any fun w => match w.reg with | .v _ => true | _ => false)

/-- Whether the instruction makes passes while the datapaths it needs are not free (R44). -/
def State.pipeHeld (s : State) (n : Need) : Bool :=
  n.pass != 0 && n.words.getD [] != [] && decide (s.time.toNat < s.pipeFree)

/-- Issue an instruction (R43, R44, R62, R63, R148, R285): the wait for exception sets comes before everything; then ILLEGAL
and register budgets, the privilege it needs, the datapath, the scoreboard, room in the tracing; then its own meaning. Only
the first pass is judged for STALL_SHORT, against its producers' latency from issue to issue (R64): a pass whose lane word is not yet
written waits, and an instruction that makes no pass waits for every lane word. -/
def issue (n : Need) (body : State → Res) (s : State) : Res :=
  let rs := n.reads ++ n.writes
  let now := s.coreNow
  if s.awaitsExceptions then holdUntil s.me.excUntil s
  else if !(n.legal && rs.all s.me.inBudget) then trap .illegal s
  else if n.sup && !s.me.regs.priv then trap .privileged s
  else if s.pipeHeld n then holdUntil s.pipeFree s
  else if now < s.me.firstReadyAt now n then
    if s.checking then trap .stallShort s else holdUntil (s.me.firstReadyAt now n) s
  else if n.words.isNone && decide (now < s.me.readyAt now rs) then holdUntil (s.me.readyAt now rs) s
  else if s.pendingVar rs n.words then hold s
  else match s.logged? (n.items ++ n.writes.flatMap (traceItems (n.mask.getD s.me.exec) s.me.lanes)) with
    | none => hold s
    | some k => body { s with me := { s.me with sketch := k } }

/-- The address after an instruction, its consumer word's successor (R50, R191). -/
def Agent.next (a : Agent) (ext : Bool) : BitVec 56 := if ext then succOf (a.pc + 4) else succOf a.pc

/-- The passes of an instruction on each quadrant of its team (R26, R44). -/
def Agent.quadPasses (a : Agent) (now : Nat) (n : Need) : List (Nat × List (Nat × Nat)) :=
  (a.quads.zip (a.coreWords (n.words.getD []))).map fun c => (c.1, a.passes now n c.2)

/-- The registers that a fixed-latency instruction leaves pending, with the cycle each is ready (R43, R44, R64): a lane word
at its own pass and the latency, another register at the last pass; at word 32, the latency from its issue (`firstReadyAt`). -/
def Agent.pendings (a : Agent) (now : Nat) (n : Need) : List ((Reg × Nat) × Nat) :=
  let ps := (a.quadPasses now n).flatMap (·.2)
  let last := ps.foldl (fun t p => max t p.2) now
  let lat := a.rate * n.lat
  if n.lat = 0 || n.words = some [] || (lat = 1 && n.pass = 0) then []
  else n.writes.flatMap fun r => ((r, 32), now + lat) ::
    if r.byWord && n.words.isSome then ps.map fun p => ((r, p.1), p.2 + lat) else [((r, 0), last + lat)]

/-- The datapaths after an instruction's passes: each is free after its own last one (R44). -/
def State.pipesAfter (s : State) (n : Need) : Cells Nat :=
  if n.pass = 0 then s.pipes
  else (s.me.quadPasses s.time.toNat n).foldl (fun ps c =>
    match c.2.getLast? with
    | some p => ps.put 0 c.1 (p.2 + n.pass)
    | none => ps) s.pipes

/-- The cycle by which an instruction is past its latency from its last pass (R64, R148). -/
def State.lastEnd (s : State) (n : Need) : Nat :=
  (((s.me.quadPasses s.coreNow n).flatMap (·.2)).foldl (fun t p => max t p.2) s.coreNow) + s.me.rate * n.lat

/-- When every exception set of the instruction, and of those before it, is determined (R148). -/
def State.excAfter (s : State) (n : Need) : Nat :=
  if n.exc && n.lat != 0 then max s.me.excUntil (s.lastEnd n) else s.me.excUntil

/-- When every fixed-latency instruction that determines exception sets has ended its latency (R64, R111). -/
def State.arithAfter (s : State) (n : Need) : Nat :=
  if (n.exc || n.arith) && n.lat != 0 then max s.me.arithUntil (s.lastEnd n) else s.me.arithUntil

/-- Complete an instruction's issue at a given next PC: it is counted, its passes occupy the datapath, and its fixed-latency
results are pending (R43, R44, R64, R148, R395). -/
def retireTo (pc : BitVec 56) (n : Need) (s : State) : State :=
  let a := s.me
  let now := s.coreNow
  { s with pipes := s.pipesAfter n,
           me := { a with seq := a.seq + 1, waited := false, wait := .none,
                          score := (a.score.filter fun (c : (Reg × Nat) × Nat) => decide (now < c.2)) ++ a.pendings now n,
                          excUntil := s.excAfter n, arithUntil := s.arithAfter n,
                          regs := { a.regs with top := { a.regs.top with pc := pc } } } }.count (s.partOf a) 0x100

/-- Complete an instruction's issue; the PC moves to its successor. -/
def retire (n : Need) (s : State) : State := retireTo (s.me.next n.ext) n s

/-- The need of a scalar instruction by its s fields. -/
def Agent.scalarNeed (a : Agent) (dsts srcs : List Nat) (lat : Nat := 1) : Need :=
  { reads := srcs.flatMap a.sRegs, writes := dsts.flatMap a.sRegs, lat := lat }

/-- Wait as wait_ink does (R70). -/
def waitInk (body : State → Res) (s : State) : Res := if s.me.sketch.isSome then hold s else body s

/-- Wait as wait_ink does, then until every older access of the agent has been performed. -/
def waitPerformed (body : State → Res) (s : State) : Res :=
  if s.me.sketch.isSome || !s.me.allPerformed then hold s else body s

/-- Consume the poison of scalar operands (R81, R82). -/
def consume (vs : List PDword) (body : State → Res) (s : State) : Res :=
  if vs.any (·.poison) then trap .poison s else body s

end Sys2Proof.Machine
end

