-- ==== Sys2Proof/Machine/Coherence.lean ====
section
/-! DEFINITION. Machine/Coherence.lean: the machine address map, translation, the directory, the erase of a sketch, and
what a write does to the readers of a line or row (R229, R236 to R247, R284 to R289, R357 to R368).

The caches hold no values of their own: every copy of a line is coherent, so a machine line has one value, in `mem`.
A directory entry keeps which virtual alias is cached, where, with which permissions, and whether its data are newer
than what was written back (log 5). -/
namespace Sys2Proof.Machine

/-! ### The machine address map (R357) -/

/-- What a machine address reaches. -/
inductive Target where
  | hbm | cxl | peer (p : Nat) | device (port : Nat) | chip | unassigned
  deriving DecidableEq, Repr, Inhabited

/-- The rows of on-chip tables and control blocks: base and size. -/
def chipRows : List (Nat × Nat) :=
  [(0x30C000000000, 0x8000), (0x30C000010000, 4), (0x30C000020000, 0x4000), (0x30C000040000, 0x10000),
   (0x30C000060000, 0x20000), (0x30C000080000, 0x80), (0x30C000080100, 0x10), (0x30C000080200, 0x80),
   (0x30C000090000, 0xC00), (0x30C0000A0000, 0x800), (0x30C000100000, 0x20000)]

/-- Classify a machine address. -/
def targetOf (m : Nat) : Target :=
  if m < 0x18000000000 then .hbm
  else if 0x100000000000 ≤ m ∧ m < 0x200000000000 then .cxl
  else if 0x200000000000 ≤ m ∧ m < 0x300000000000 then .peer ((m - 0x200000000000) / 0x20000000000)
  else if 0x300000000000 ≤ m ∧ m < 0x308000000000 then .device ((m - 0x300000000000) / 0x400000000)
  else if 0x308000000000 ≤ m ∧ m < 0x308200000000 then .device ((m - 0x308000000000) / 0x10000000)
  else if chipRows.any (fun r => decide (r.1 ≤ m ∧ m < r.1 + r.2)) then .chip
  else .unassigned

/-- The root port in whose BAR window or ECAM range a machine address lies. -/
def portOf (m : Nat) : Option Nat := match targetOf m with | .device n => some n | _ => none

/-- Whether no row of the map meets a page (R357, R360). -/
def unassignedPage (m size : Nat) : Bool :=
  targetOf m = .unassigned && !(chipRows.any fun r => decide (m < r.1 + r.2 ∧ r.1 < m + size))

/-! ### Frame entries (R369) -/

/-- The address of the frame entry of a machine page; none while FRAMETBL is not valid, or where the page has none.
The entries of CXL pages follow those of HBM pages (log 9). -/
def State.frameAddr (s : State) (m : Nat) : Option Nat :=
  let t := s.rd frameTblAddr 8
  let base := t / 65536 % 2 ^ 32 * 65536
  if t % 2 = 0 then none
  else match targetOf m with
    | .hbm => some (base + 32 * (m / 65536))
    | .cxl => some (base + 32 * (0x1800000 + (m - 0x100000000000) / 65536))
    | _ => none

/-- Write the first word of a frame entry; a write of the device leaves the reserved fields zero (R6). -/
def State.putFrame (s : State) (e w : Nat) : State := ((s.wr e 4 (w % 2 ^ 15)).wr (e + 6) 2 0).wr (e + 0x18) 8 0

/-- The first word of a frame entry, changed. -/
def State.updFrame (s : State) (m : Nat) (f : Nat → Nat) : State :=
  match s.frameAddr m with
  | some e => s.putFrame e (f (s.rd e 4))
  | none => s

/-- Replace bits hi to lo of a number. -/
def setBits (w hi lo v : Nat) : Nat := w / 2 ^ (hi + 1) * 2 ^ (hi + 1) + v % 2 ^ (hi + 1 - lo) * 2 ^ lo + w % 2 ^ lo

/-- The first word of a page's frame entry; 0 where it has none. -/
def State.frame (s : State) (page : Nat) : Nat := match s.frameAddr page with | some e => s.rd e 4 | none => 0

abbrev frameOwner (w : Nat) : Nat := w % 16
abbrev frameState (w : Nat) : Nat := bitsOf w 6 5

/-- The partition that owns a machine page, if one does. -/
def State.pageOwner (s : State) (page : Nat) : Option Nat :=
  let w := s.frame page
  if bitOf w 4 then some (frameOwner w) else none

/-- The 64 KiB pages of a page of size z (R370). -/
def subPages (page z : Nat) : List Nat :=
  (List.range (if z = 0 then 1 else if z = 1 then 256 else 16384)).map fun i => page + 65536 * i

/-- The bytes of a page of size z. -/
abbrev pageBytes (z : Nat) : Nat := if z = 0 then 2 ^ 16 else if z = 1 then 2 ^ 24 else 2 ^ 30

/-- The size-z stack of a die; 12 names the CXL stack. -/
abbrev stackKey (d z : Nat) : Nat := 3 * d + z

/-- A stack's field of the partition entry: its ring's base and capacity, or 0 where it is absent (R370, R380). -/
def State.stackField (s : State) (p k : Nat) : Nat := if k = 12 then s.partField p 0x200 8 else s.partField p (0x1A0 + 8 * k) 8

/-- Whether a stack is present. -/
def State.stackPresent (s : State) (p k : Nat) : Bool := s.stackField p k != 0

/-- The address of a ring's entry, counted from the bottom of its stack (log 11). -/
def State.ringEntry (s : State) (p k i : Nat) : Nat :=
  let f := s.stackField p k
  bitsOf f 47 12 * 2 ^ 12 + 8 * (i % 2 ^ bitsOf f 52 48)

/-- The pages on a stack, top first: the entries on chip, and the deeper ones in its ring (R356, R370). -/
def State.stack (s : State) (p k : Nat) : List Nat :=
  (s.part p).freePages.get [] k ++
    ((List.range ((s.part p).ringCounts.get 0 k)).reverse.map fun i => s.rd (s.ringEntry p k i) 8)

/-- The pages of 64 KiB that change together with the FREE one of a partition that holds a machine address: those of the 16 MiB
or 1 GiB page on its stacks that holds it (R369). -/
def State.freePagesAt (s : State) (p m : Nat) : List Nat :=
  let at_ (z : Nat) : Option Nat :=
    let page := m / pageBytes z * pageBytes z
    if (List.range 4).any fun d => (s.stack p (stackKey d z)).contains page then some page else none
  match at_ 1, at_ 2 with
  | some g, _ => subPages g 1
  | none, some g => subPages g 2
  | none, none => subPages (m / 65536 * 65536) 0

/-- A read or write reaches a page of main memory, the CXL tier having no liveness: a read of a non-live page counts, a
write makes it live through WF, in each 64 KiB entry of its page (R225, R239, R241, R369). -/
def State.touch (s : State) (m : Nat) (write : Bool) : State :=
  match (if targetOf m = .hbm then s.frameAddr m else none) with
  | none => s
  | some e =>
    let w := s.rd e 4
    if bitsOf w 6 5 = 0 && !bitOf w 14 then
      if !write then s.countPkg 0x200
      else match s.pageOwner (m / 65536 * 65536) with
        | some p => (s.freePagesAt p m).foldl (fun s page => s.updFrame page fun w => setBits w 14 14 1) s
        | none => s.putFrame e (w + 2 ^ 14)
    else s

/-! ### Walks (R358 to R361) -/

/-- The kinds of access, as TCAUSE.ACC codes them (R203). -/
abbrev accLoad : Nat := 0
abbrev accStore : Nat := 1
abbrev accAtomic : Nat := 2
abbrev accFetch : Nat := 3

/-- whether permissions allow an access of a kind (R360). -/
def Perms.allows (p : Perms) (kind : Nat) (user : Bool) : Bool :=
  (!user || p.u) && (if kind = 0 then p.r else if kind = 1 then p.w else if kind = 2 then p.r && p.w else p.x)

/-- A walk's answer: a leaf's page address, level, permissions and entry address; a fault's code and level; an
entry that is being moved, which the walk reads again (R360); or an entry that it waits to read (R361). -/
inductive WalkAns where
  | leaf (page level : Nat) (perms : Perms) (entry : Nat)
  | fault (code lvl : Nat)
  | moving
  | held (entry : Nat)
  deriving DecidableEq, Repr, Inhabited

/-- The lowest address bit that a level's index covers (R359). -/
def levelShift (lvl : Nat) : Nat := if lvl = 3 then 43 else if lvl = 2 then 30 else if lvl = 1 then 24 else 16

/-- How many entries a level's node holds (R359). -/
def levelCount (lvl : Nat) : Nat := if lvl = 3 then 8192 else if lvl = 2 then 8192 else if lvl = 1 then 64 else 256

/-- Whether a valid entry is malformed (R360). -/
def malformed (lvl e : Nat) : Bool :=
  let addr := bitsOf e 47 9 * 512
  bitsOf e 63 48 != 0 || bitsOf e 8 6 != 0 ||
  (if bitOf e 1 then
     lvl == 3 || addr % 2 ^ levelShift lvl != 0 || unassignedPage addr (2 ^ levelShift lvl)
   else
     lvl == 0 || decide (0x18000000000 ≤ addr) ||
     (lvl == 3 && addr % 65536 != 0) || (lvl == 1 && addr % 2048 != 0))

/-- Who makes an access: its agent number if it has one, the partition its ASID must belong to (none for a thread,
which acts for the partition that owns its ASID, R434), the ASID, whether it needs user permission, the C-die and
cluster that cache for it, and its name as a check-out holder (R368). -/
structure Who where
  id : Option Nat := none
  part : Option Nat := none
  asid : Nat := 0
  user : Bool := false
  die : Option Nat := none
  cluster : Nat := 0
  holder : Option (Nat × Nat × Dword × Word32) := none
  /-- The root-of-trust core, whose addresses are those of its private memories. -/
  rom : Bool := false
  deriving DecidableEq, Repr, Inhabited

/-- Whether a check-out is an EXCLUSIVE one of another holder that meets some machine bytes (R246). -/
def RangeRec.bars (r : RangeRec) (w : Who) (m n : Nat) : Bool :=
  r.mode.toNat = 1 && !r.recalled && w.holder != some (r.part, r.cluster, r.launch, r.teamid) &&
  r.pieces.any fun p => decide (p.1 < m + n ∧ m < p.1 + p.2)

/-- Whether an access to machine bytes waits at an EXCLUSIVE check-out of another holder, which then counts its wait
(R246, R247). -/
def State.checkedOut (s : State) (w : Who) (m n : Nat) : Bool := s.ranges.any fun r => r.bars w m n

/-- Start the wait count of the EXCLUSIVE check-outs an access waits at (R247, WAITT of R368). -/
def State.markWait (s : State) (w : Who) (m n : Nat) : State :=
  { s with ranges := s.ranges.map fun r =>
      if r.bars w m n && r.waitSince.isNone then { r with waitSince := some s.time.toNat } else r }

/-- Whether a byte at a key of main memory or the CXL tier lies in an EXCLUSIVE check-out of another holder (R246). -/
def State.keyBarred (s : State) (w : Who) (k : Nat) : Bool := !s.ranges.isEmpty && decide (k < 2 ^ 48) && s.checkedOut w k 1

/-- Start the wait counts of the check-outs that bytes lie in. -/
def State.markKeys (s : State) (w : Who) (ks : List Nat) : State :=
  (ks.filter fun k => s.keyBarred w k).foldl (fun s k => s.markWait w k 1) s

/-- The levels of a walk from a node down (R360): each entry is read as an endpoint DMA read is, so it waits at an EXCLUSIVE
check-out (R246, R361). -/
def State.walkFrom (s : State) (va : Nat) : Nat → List Nat → WalkAns
  | _, [] => .fault 0x20 0
  | node, lvl :: lvls =>
    let p := node + 8 * (va / 2 ^ levelShift lvl % levelCount lvl)
    let e := s.rd p 8
    if s.checkedOut {} p 8 then .held p
    else if !bitOf e 0 then
      if lvl = 0 && bitOf e 6 then .moving else .fault 0x20 lvl
    else if malformed lvl e then .fault 0x21 lvl
    else if bitOf e 1 then
      .leaf (bitsOf e 47 9 * 512) lvl { x := bitOf e 5, w := bitOf e 4, r := bitOf e 3, u := bitOf e 2 } p
    else s.walkFrom va (bitsOf e 47 9 * 512) lvls

/-- The agent whose turn it is, as the maker of an access. -/
def State.who (s : State) : Who :=
  let a := s.me
  if a.isTeam then
    { id := some s.meId, part := some a.part, asid := a.asid.toNat, user := !a.regs.priv, die := some a.die,
      cluster := a.cluster, holder := some (a.part, a.cluster, a.launch, a.teamid) }
  else { id := some s.meId, asid := a.asid.toNat, user := !a.regs.priv, rom := a.kind = .root }

/-- What the ASID table says of an access before any page of its ASID is asked (R358): a fault's code, at level 3, or
none. -/
def State.asidFault (s : State) (w : Who) : Option Nat :=
  match s.asidEntry w.asid with
  | none => some 0x20
  | some e =>
    if !bitOf e 4 then some 0x20
    else if (match w.part with | some p => p != e % 16 | none => false) then some 0x21
    else none

/-- Whether the ASID table names another partition than that of an access as the ASID's owner, whether or not the entry is VALID:
nothing of it may then be reached, a line that is cached included (R358, R398). -/
def State.foreignAsid (s : State) (w : Who) : Bool :=
  match s.asidEntry w.asid, w.part with
  | some e, some p => p != e % 16
  | _, _ => false

/-- The addresses of the entries that a walk from a node down reads (R361). -/
def State.walkReads (s : State) (va : Nat) : Nat → List Nat → List Nat
  | _, [] => []
  | node, lvl :: lvls =>
    let p := node + 8 * (va / 2 ^ levelShift lvl % levelCount lvl)
    let e := s.rd p 8
    p :: if bitOf e 0 && !malformed lvl e && !bitOf e 1 then s.walkReads va (bitsOf e 47 9 * 512) lvls else []

/-- A whole walk (R358, R360). -/
def State.walk (s : State) (w : Who) (va : Nat) : WalkAns :=
  match s.asidFault w with
  | some c => .fault c 3
  | none => s.walkFrom va (bitsOf ((s.asidEntry w.asid).getD 0) 47 16 * 65536) [3, 2, 1, 0]

/-- The translation home of a virtual address in an ASID (R363). -/
def homeOf (asid va : Nat) : Nat := (asid ^^^ (va / 2 ^ 24 % 65536) ^^^ (va / 2 ^ 40 % 65536)) % 24

/-- The size of the pages a TLB entry maps: 64 KiB, or the 16 MiB of a larger leaf (R363). -/
def tlbShift (level : Nat) : Nat := if level = 0 then 16 else 24

/-- The TLB entry that maps an address, if its home holds one (R363). -/
def State.tlbFind (s : State) (asid va : Nat) : Option TlbEntry :=
  s.tlb.find? fun t => t.asid.toNat = asid && t.home = homeOf asid va && t.vpage = va / 2 ^ tlbShift t.level

/-- Install a leaf in the home's TLB, whose 16,384 entries drop their oldest, and update the frame entry of a 64 KiB
page (R363). -/
def State.tlbInstall (s : State) (asid va page level : Nat) (perms : Perms) (entry : Nat) : State :=
  let h := homeOf asid va
  let sh := tlbShift level
  let m := page + va % 2 ^ levelShift level
  let t : TlbEntry := { home := h, asid := BitVec.ofNat 16 asid, level := level, vpage := va / 2 ^ sh,
                        mpage := m / 2 ^ sh, perms := perms }
  let full := decide (16384 ≤ (s.tlb.filter fun e => e.home = h).length)
  let old := if full then s.tlb.eraseP fun e => e.home = h else s.tlb
  let s := { s with tlb := old ++ [t] }
  if level != 0 then s
  else match s.frameAddr m with
    | none => s
    | some f =>
      let w := s.rd f 4
      let heat := min 15 (bitsOf w 11 8 + 1)
      let w := setBits w 11 8 heat
      if !bitOf w 13 then
        (((s.putFrame f (w + 2 ^ 13)).wr (f + 4) 2 asid).wr (f + 8) 8 entry).wr (f + 16) 8 (va / 65536 * 65536)
      else s.putFrame f (if s.rd (f + 8) 8 != entry then setBits w 12 12 1 else w)

/-- Where an address lies: its machine address with the page's permissions and leaf level; a fault, of translation or
(step 8 of R228) because the target does not accept the access; or a wait. -/
inductive Look where
  | at (m : Nat) (perms : Perms) (level : Nat)
  | fault (code lvl : Nat) (target : Bool)
  | wait
  deriving DecidableEq, Repr, Inhabited

/-! ### Storage blocks and reads of memory (R242, R243, R372) -/

/-- The controller of a machine line, and its controller line number (R363, R366). -/
def lineHome (line : Nat) : Nat × Nat :=
  let m := line * 128
  if m < 0x18000000000 then
    let o := m % 0x2000000000
    (2 * (m / 0x2000000000) + o / 65536 % 2, o / 2 ^ 17 * 2 ^ 9 + o / 128 % 2 ^ 9)
  else
    let q := (m - 0x100000000000) / 65536
    (q % 24, q / 24 * 2 ^ 9 + m / 128 % 2 ^ 9)

/-- The channel, of its stack, and the stripe row that hold chunk n of a controller (R242, log 7). -/
def blockAt (c n : Nat) : Nat × Nat :=
  let b := Config.stripeOf (2 ^ 29 * c + n)
  (b.1 % 36, b.2)

/-- The storage block of a granule's chunk: whether it must be rebuilt from its stripe row, and whether it cannot be, because
another channel of the row is bad as well (R242, R243). -/
def State.blockState (s : State) (granule chunk : Nat) : Bool × Bool :=
  let c := (lineHome (granule * 4)).1
  let stack := c / 2
  let at_ := blockAt c ((s.granules.get 0 granule).toNat % 2 ^ 29 + chunk)
  let ch := at_.1
  let bad := ((s.failedChannels.filter fun f => f.1 = stack && f.2 / 9 = ch / 9).map (·.2) ++
    (s.badBlocks.filter fun f => f.1 = stack && f.2.1 / 9 = ch / 9 && f.2.2 = at_.2).map (·.2.1)).eraseDups
  (bad.contains ch && bad.length == 1, bad.contains ch && bad.length != 1)

/-- The chunks of a granule's run, by its metadata entry (R372). -/
def chunksOf (e : Nat) : Nat := if bitsOf e 63 62 = 1 then bitsOf e 61 59 else if bitsOf e 63 62 = 2 then 8 else 0

/-- The chunks of its granule's run that a read of a line needs: the whole run of a PALETTE granule (R372). -/
def State.lineChunks (s : State) (line : Nat) : List Nat :=
  let e := (s.granules.get 0 (line / 4)).toNat
  if bitsOf e 63 62 = 1 then List.range (chunksOf e) else if chunksOf e = 0 then [] else [line % 4 * 2, line % 4 * 2 + 1]

/-- The words that come back poisoned when a line is read, since blocks of them cannot be rebuilt: those of the block of a RAW
granule, all of a PALETTE one (R243). -/
def State.lostWords (s : State) (line : Nat) : List Nat :=
  let g := line / 4
  let lost := (s.lineChunks line).filter fun i => (s.blockState g i).2
  if lost.isEmpty then []
  else if bitsOf (s.granules.get 0 g).toNat 63 62 = 1 then (List.range 32).map (32 * line + ·)
  else lost.flatMap fun i => (List.range 16).map (128 * g + 16 * i + ·)

/-- Poison words. -/
def State.poisonWords (s : State) (ws : List Nat) : State := { s with poison := ws.foldl (fun p w => p.put false w true) s.poison }

/-- A read that reaches memory for a line: each 64-byte block that a failed channel or an uncorrectable error has hit is
rebuilt, or comes back with poison (R243, R395). -/
def State.readBlocks (s : State) (line : Nat) : State :=
  if s.failedChannels.isEmpty && s.badBlocks.isEmpty then s
  else
    let cs := s.lineChunks line
    let ws := s.lostWords line
    let count (n : Nat) (s : State) (is_ : List Nat) : State := is_.foldl (fun (s : State) _ => s.countPkg n) s
    let s := count 0x203 s (cs.filter fun i => (s.blockState (line / 4) i).1)
    (count 0x204 s (cs.filter fun i => (s.blockState (line / 4) i).2)).poisonWords ws

/-- A read of machine addresses by what caches nothing, a walk, a fetch or a DMA: the lines of them that no cache holds come from
memory (R243, R277, R361). -/
def State.readThrough (s : State) (ms : List Nat) : State :=
  if s.failedChannels.isEmpty && s.badBlocks.isEmpty then s
  else (((ms.map (· / 128)).eraseDups).filter fun l => l < 2 ^ 48 / 128 && (s.dir.find? l).isNone).foldl State.readBlocks s

/-- A walk's reads of its entries (R361). -/
def State.walkRead (s : State) (w : Who) (va : Nat) : State :=
  if s.failedChannels.isEmpty && s.badBlocks.isEmpty then s
  else s.readThrough (s.walkReads va (bitsOf ((s.asidEntry w.asid).getD 0) 47 16 * 65536) [3, 2, 1, 0])

/-- The key of an address of the root-of-trust core: its GLOBAL addresses are those of its private ROM, which comes first, and of its SRAM
(R17, log 53). -/
abbrev rootKey (a : Nat) : Nat := 2 ^ 50 + a

/-- Whether a key is one of that ROM. -/
def isRom (k : Nat) : Bool := decide (2 ^ 50 ≤ k ∧ k < 2 ^ 50 + Config.romBytes)

/-- What an access of the root-of-trust core finds: its own memories alone; nothing writes the ROM. -/
def romLook (va kind : Nat) : Look :=
  if isRom (rootKey va) && kind != accLoad && kind != accFetch then .fault 0x21 0 false
  else .at (rootKey va) { x := true, w := !isRom (rootKey va), r := true } 0

/-- Translate an address at its home (R358, R360, R363): by the TLB, or by a walk whose leaf is installed. The root-of-trust core
reaches its private memories untranslated. -/
def State.translate (s : State) (w : Who) (va kind : Nat) : Look × State :=
  if w.rom then (romLook va kind, s)
  else match s.asidFault w with
  | some c => (.fault c 3 false, s)
  | none =>
    match s.tlbFind w.asid va with
    | some t =>
      if t.perms.allows kind w.user then
        (.at (t.mpage * 2 ^ tlbShift t.level + va % 2 ^ tlbShift t.level) t.perms t.level, s)
      else (.fault 0x21 t.level false, s)
    | none =>
      let s := s.walkRead w va
      match s.walk w va with
      | .moving => (.wait, s)
      | .held p => (.wait, s.markWait {} p 8)
      | .fault c l => (.fault c l false, s)
      | .leaf page level perms entry =>
        if perms.allows kind w.user then
          (.at (page + va % 2 ^ levelShift level) perms level, s.tlbInstall w.asid va page level perms entry)
        else (.fault 0x21 level false, s)

/-! ### Erase (R287, R289, R301) -/

/-- What an erase does to the team itself: registers from the tracing, the sketch's results and stores dropped, the
escalation counts changed for kinds 1 to 3. -/
def Agent.erased (a : Agent) (id kind : Nat) : Agent :=
  match a.sketch with
  | none => a
  | some k =>
    let counted := decide (kind ≤ 3)
    let run := if counted then a.eraseRun + 1 else a.eraseRun
    { a with regs := k.saved, tcause := k.record.1, tpc := k.record.2.1, taddr := k.record.2.2.1, tmask := k.record.2.2.2,
             sketch := none, loads := a.loads.filter (!·.inSketch),
             storeQ := a.storeQ.filter (!·.held), varlat := a.varlat.filter (!·.inSketch),
             transforms := a.transforms.filter (!·.inSketch),
             spawnQ := a.spawnQ.filter (·.pendingOf != some id),
             pendingTrap := none, score := [], wait := .none, eraseCnt := a.eraseCnt + 1,
             eraseRun := if run = 4 then 0 else run,
             inkRun := if counted then 0 else a.inkRun,
             specLvl := if run = 4 && a.specLvl.toNat < 2 then a.specLvl + 1 else a.specLvl }

/-- Erase an agent's open sketch (R289): the agent is rolled back and its pending commands are removed. -/
def State.erase (s : State) (id kind : Nat) : State :=
  match s.agent? id with
  | none => s
  | some a =>
    if a.sketch.isNone then s
    else
      let s := s.setAgent id (a.erased id kind)
      { s with launches := s.launches.filter (·.pendingOf != some id),
               engines := s.engines.filter (·.pendingOf != some id),
               bins := (s.bins.map fun (b : Bin) => { b with threads := b.threads.filter (·.pendingOf != some id) }).filter
                 (fun (b : Bin) => !b.threads.isEmpty),
               parts := s.parts.map fun (c : Nat × PartState) =>
                 (c.1, { c.2 with ringNotes := c.2.ringNotes.map fun (n : Nat × RingNote) =>
                   (n.1, if n.2.pendingOf = some id then { void := true } else n.2) }),
               channels := (s.channels.filter fun (c : Nat × Channel) => c.2.pendingBind != some id).map fun (c : Nat × Channel) =>
                 (c.1, if c.2.pendingFree = some id then { c.2 with pendingFree := none } else c.2),
               matrix := s.matrix.map fun (c : Nat × List MatrixOp) =>
                 (c.1, s.withoutOps (fun o => o.agent = id && o.inSketch) c.2) }.feedPipes a |>.count (s.partOf a) 0x101

/-- Erase every sketch of another agent that has read one of the units (R287 kinds 1 to 3). -/
def State.eraseReaders (s : State) (writer : Option Nat) (units : List Nat) (kind : Nat) : State :=
  (s.agents.filter fun c => some c.1 != writer &&
    (match c.2.sketch with | some k => k.reads.any units.contains | none => false)).foldl
    (fun s c => s.erase c.1 kind) s

/-- Reference points after a write of units (R263). -/
def refsWritten (units : List Nat) (refs : Cells Bool) : Cells Bool := refs.map fun c => (c.1, c.2 || units.contains c.1)

/-- An MWAIT on some units completes (R263). -/
def Agent.wakes (units : List Nat) (a : Agent) : Agent :=
  { a with wait := match a.wait with
      | .mwait n u ad due f => .mwait n u ad due (f || units.contains u)
      | w => w }

/-- Note in another agent that units it may monitor were written (R263). -/
def Agent.sawWrite (units : List Nat) (a : Agent) : Agent :=
  { a with refs := refsWritten units a.refs,
           wait := match a.wait with
             | .mwait n u ad due f => .mwait n u ad due (f || units.contains u)
             | w => w }

/-- A write to units by an agent, or by none of the agents, is performed: sketches that read them erase, monitors see
it, also those of teams that are migrating or saved (R263, R287, R288). -/
def State.notifyWrite (s : State) (writer : Option Nat) (units : List Nat) : State :=
  let s := s.eraseReaders writer units 1
  { s with me := if some s.meId = writer then s.me else s.me.sawWrite units,
           others := s.others.map fun c => (c.1, if some c.1 = writer then c.2 else c.2.sawWrite units),
           transit := s.transit.map fun c => (c.1.sawWrite units, c.2),
           resume := s.resume.map fun r => { r with refs := refsWritten units r.refs } }

/-- Copies of lines are dropped from the caches: read sets that hold them erase, monitors complete (R263, R287). -/
def State.dropCopies (s : State) (by_ : Option Nat) (units : List Nat) : State :=
  let s := s.eraseReaders by_ units 2
  { s with me := if some s.meId = by_ then s.me else s.me.wakes units,
           others := s.others.map fun c => (c.1, if some c.1 = by_ then c.2 else c.2.wakes units) }

/-! ### The directory (R366) -/

/-- Whether a check-out overlaps a line (the RT bit of R366, R368). -/
def State.lineInRange (s : State) (line : Nat) : Bool :=
  s.ranges.any fun r => !r.recalled && r.pieces.any fun p => decide (p.1 < line * 128 + 128 ∧ line * 128 < p.1 + p.2)

/-- The directory entry that caches a virtual line of an ASID. -/
def State.cachedAs (s : State) (asid vline : Nat) : Option (Nat × DirEntry) :=
  List.find? (fun (c : Nat × DirEntry) => c.2.asid.toNat = asid && c.2.vline = vline && !c.2.detached && c.2.dies != 0#4) s.dir

/-- The bit of one C-die, and of one cluster. -/
abbrev dieBit (d : Nat) : BitVec 4 := 1#4 <<< d
abbrev clusterBit (c : Nat) : BitVec 128 := 1#128 <<< c

/-- The C-die that counts as holding a line: the lowest that does, or the one that did before its copies were dropped
(R236). -/
def DirEntry.die (e : DirEntry) : Nat := ((List.range 4).find? fun d => e.dies.getLsbD d).getD e.lastDie

/-- Whether the line was dropped dirty and WRITE_BACK has not stored it yet. -/
def DirEntry.leaving (e : DirEntry) : Bool := e.detached && e.dirty && e.st != .held && !e.passing

/-- Drop every copy of a line: a dirty line keeps its entry, detached, until WRITE_BACK stores it; a held line is
detached and stays held (R365, R373, R376). -/
def State.dropLine (s : State) (by_ : Option Nat) (line : Nat) : State :=
  match s.dir.find? line with
  | none => s
  | some e =>
    let s := s.dropCopies by_ [line]
    if e.dirty || e.st = .held then
      { s with dir := s.dir.insert line { e with detached := true, dies := 0, cl := 0, lastDie := e.die } }
    else { s with dir := s.dir.remove line }

/-- The lines that hold ways of a line's set of 16 (R366). -/
def State.dirSet (s : State) (line : Nat) : List (Nat × DirEntry) :=
  let h := lineHome line
  s.dir.filter fun c => !c.2.passing && (lineHome c.1).1 = h.1 && (lineHome c.1).2 % 2 ^ 15 = h.2 % 2 ^ 15

/-- Room for a line in its set (R366): whether a way is free, and the state, in which the lowest line of a full set that is
neither held nor under a check-out has been evicted. A dirty victim keeps its way until WRITE_BACK has stored it. -/
def State.dirRoom (s : State) (by_ : Option Nat) (line : Nat) : Bool × State :=
  let set := s.dirSet line
  if set.length < 16 then (true, s)
  else if set.any fun c => c.2.leaving then (false, s)
  else match set.find? fun c => c.2.st != .held && !s.lineInRange c.1 with
    | some c => (!c.2.dirty, s.dropLine by_ c.1)
    | none => (false, s)

/-- Whether an agent has read a line in its open sketch. -/
def State.hasRead (s : State) (id : Option Nat) (line : Nat) : Bool :=
  match id.bind s.agent? with
  | some a => (match a.sketch with | some k => k.reads.contains line | none => false)
  | none => false

/-- An entry with what an access adds to it: a write leaves one copy, dirty; an agent without caches adds none. -/
def DirEntry.take (e : DirEntry) (w : Who) (write : Bool) : DirEntry :=
  let d : BitVec 4 := match w.die with | some d => dieBit d | none => 0
  let c : BitVec 128 := if w.die.isSome then clusterBit w.cluster else 0
  if write then
    { e with st := if e.st = .held then .held else if w.die.isSome then .owned else .shared, dirty := true, dies := d, cl := c }
  else { e with st := if e.st = .owned && e.dies != d then .shared else e.st, dies := e.dies ||| d, cl := e.cl ||| c }

/-- The controller of a granule. -/
abbrev granuleHome (g : Nat) : Nat := (lineHome (4 * g)).1

/-- The palettes of a partition on a die. -/
def State.palette (s : State) (p d : Nat) : PaletteState := s.palettes.get {} (4 * p + d)
/-- The bits a word takes under a palette. -/
def Palette.wordBits (t : Palette) (w : Word32) : Nat :=
  match (t.vals.zip t.lens).find? fun c => c.1 = w && c.2 != 0 with
  | some c => c.2
  | none => t.escLen + 32

/-- The current generation of a partition's palette on a die. -/
def PaletteState.now (t : PaletteState) : Palette := if t.current then t.gen1 else t.gen0

/-- The words of a granule. -/
def State.granuleWords (s : State) (g : Nat) : List Word32 := (List.range 128).map fun i => BitVec.ofNat 32 (s.rd (512 * g + 4 * i) 4)

/-- The form that the write-back path chooses: FORM, chunks, PZ and FAST (R373). -/
def State.chooseForm (s : State) (t : Palette) (g : Nat) (fast : Bool) : Nat × Nat × Bool × Bool :=
  let ws := s.granuleWords g
  let poison := (List.range 128).any fun i => s.poison.get false (128 * g + i)
  let bits := (ws.map t.wordBits).sum
  if poison then (2, 8, true, false)
  else if ws.all (· == 0) then (0, 0, false, false)
  else if fast || !t.valid then (2, 8, false, true)
  else if bits ≤ 3584 then (1, (bits + 511) / 512, false, false)
  else (2, 8, false, false)

/-- A granule as the write-back path has it: the words of its lines that no cache holds are read from memory (R243). -/
def State.readGranule (s : State) (g : Nat) : State :=
  (((List.range 4).map (4 * g + ·)).filter fun l => (s.dir.find? l).isNone).foldl State.readBlocks s

/-- The chunks that a granule of a partition needs in the form that applies, and those it has (R373, R375). -/
def State.chunkNeed (s : State) (p g : Nat) (fast : Bool) : Nat × Nat :=
  (((s.readGranule g).chooseForm (s.palette p (granuleHome g / 6)).now g fast).2.1, chunksOf (s.granules.get 0 g).toNat)

/-- The L2 slices that a partition has on a die, by their numbers there (R236, R380). -/
def State.slicesOn (s : State) (p d : Nat) : List Nat := (List.range 32).filter fun i => bitOf (s.partField p 0xD0 16) (32 * d + i)

/-- The L2 slice, as 32d + number, that a virtual line of a partition lies in on a die (R236). -/
def State.sliceAt (s : State) (p d vline : Nat) : Nat :=
  let own := s.slicesOn p d
  32 * d + own.getD (vline % 2 ^ 20 % (max 1 own.length)) 0

/-- The L2 slice that holds a line of a partition (R236). -/
def State.sliceOf (s : State) (p : Nat) (e : DirEntry) : Nat := s.sliceAt p e.die e.vline

/-- The lines that an L2 slice of a die holds: 8 MiB of lines of 128 bytes (R225). -/
abbrev sliceLines : Nat := 65536

/-- The lines that an L1 holds: 512 KiB (R225). -/
abbrev l1Lines : Nat := 4096

/-- Whether an agent is a team whose next load belongs to a sketch: one is open, or an older access is unperformed (R280). -/
def State.inSketch (s : State) (id : Option Nat) : Bool :=
  match id.bind s.agent? with
  | some a => a.isTeam && !(a.sketch.isNone && a.allPerformed)
  | none => false

/-- Whether a team of a C-die has a line in the read set of its open sketch (R284). -/
def State.readOn (s : State) (d line : Nat) : Bool :=
  s.agents.any fun c => c.2.isTeam && c.2.die = d && match c.2.sketch with | some k => k.reads.contains line | none => false

/-- Whether SPACE_EXHAUSTED keeps a dirty line in its L2: its write-back needs more chunks than its granule has (R379). -/
def State.stuckLine (s : State) (line : Nat) (e : DirEntry) : Bool :=
  e.dirty && (match (if targetOf (line * 128) = .hbm then s.pageOwner (line * 128 / 65536 * 65536) else none) with
    | some p => (s.part p).exhausted.isSome && (let n := s.chunkNeed p (line / 4) false; decide (n.2 < n.1))
    | none => false)

/-- What an L2 slice has for a fill of a line (R236, R284, R379). -/
inductive L2Room where
  | room
  | evict (line : Nat)
  | bypass
  | wait
  deriving DecidableEq, Repr, Inhabited

/-- Room in the L2 slice that a fill by a team goes to. A full slice gives up the lowest line that is not held, that no read set of
its die holds, and that SPACE_EXHAUSTED does not keep there; where only kept ones are left, the fill waits (R379); where none is,
a sketch load waits, and another access bypasses the cache (R284). Any line of a slice may go: the manual gives L2 no associativity
(log 49). -/
def State.l2Room (s : State) (w : Who) (line vline : Nat) (write : Bool) : L2Room :=
  match w.die with
  | none => .room
  | some d =>
    if s.dir.length < sliceLines || (match s.dir.find? line with | some e => e.dies.getLsbD d | none => false) then .room
    else
      let part (e : DirEntry) : Nat := (s.asidPart e.asid.toNat).getD (w.part.getD 0)
      let slice := s.sliceAt (w.part.getD 0) d vline
      let here := s.dir.filter fun c =>
        if c.2.st = .held then c.2.slice = slice else c.2.dies.getLsbD d && s.sliceAt (part c.2) d c.2.vline = slice
      if here.length < sliceLines then .room
      else
        let free := here.filter fun c => c.2.st != .held && !s.readOn d c.1
        match free.find? fun c => !s.stuckLine c.1 c.2 with
        | some c => .evict c.1
        | none => if !free.isEmpty then .wait else if !write && s.inSketch w.id then .wait else .bypass

/-- A line leaves the caches of one C-die for want of room: another die's copies stay, and the last copy is written back if it is
dirty (R236, R287). An MWAIT of a team of that die on it completes (R263). -/
def State.evictLine (s : State) (by_ : Option Nat) (d line : Nat) : State :=
  match s.dir.find? line with
  | none => s
  | some e =>
    let dies := e.dies &&& ~~~(dieBit d)
    if dies = 0 then s.dropLine by_ line
    else
      let wake (a : Agent) : Agent := if a.isTeam && a.die = d then a.wakes [line] else a
      { s with me := wake s.me, others := s.others.map fun c => (c.1, wake c.2)
               dir := s.dir.insert line { e with dies := dies, cl := e.cl &&& ~~~((0xFFFFFFFF#128) <<< (32 * d)) } }

/-- Whether the L1 of a core has no room for another line of a sketch: the read sets of its teams mark every line it holds, and
this is none of them (R284). Lanes 512 and above of a spanning team use core 1's. -/
def State.l1Full (s : State) (id : Option Nat) (line : Nat) (second : Bool) : Bool :=
  match id.bind s.agent? with
  | none => false
  | some a =>
    let core := a.core + (if second then 1 else 0)
    let on := s.agents.filter fun c => c.2.isTeam && (c.2.core = core || (c.2.span.isSome && c.2.core + 1 = core))
    let marked := on.flatMap fun c => match c.2.sketch with | some k => k.reads.filter (· < 2 ^ 41) | none => []
    decide (l1Lines ≤ marked.length) && (let ls := marked.eraseDups; decide (l1Lines ≤ ls.length) && !ls.contains line)

/-- Bring a line in for an access (R236, R237, R366, R442): true once the entry names this alias, its permissions and where it
is cached. Another alias is evicted first, with every copy of it, and its dirty data written back. A load never alias-evicts a line
of its own read set: it waits (R290). A thread caches nothing, nor does an access that bypasses L2: where no cache holds the line its
read leaves no entry, and its write passes. -/
def State.fill (s : State) (w : Who) (line vline : Nat) (perms : Perms) (level : Nat) (write : Bool) : Bool × State :=
  let fit := s.l2Room w line vline write
  let w : Who := if fit = .bypass then { w with die := none } else w
  let name (e : DirEntry) : DirEntry :=
    { e with asid := BitVec.ofNat 16 w.asid, vline := vline, perms := perms, level := level, detached := false }
  let evict (s : State) : State := match fit, w.die with | .evict v, some d => s.evictLine w.id d v | _, _ => s
  let put (s : State) (e : DirEntry) : Bool × State :=
    let e := e.take w write
    (true, evict { s with dir := if e.dies = 0#4 && !e.dirty && e.st != .held then s.dir.remove line else s.dir.insert line e })
  if fit = .wait then (false, s)
  else match s.dir.find? line with
  | some e =>
    if e.passing then
      if w.die.isNone then (true, s)
      else
        let r := s.dirRoom w.id line
        if r.1 then put r.2 { name e with passing := false } else r
    else if e.asid.toNat = w.asid && e.vline = vline && !e.detached then put s (name e)
    else if e.leaving || (!write && s.hasRead w.id line) then (false, s)
    else if e.dirty && e.dies != 0#4 && e.st != .held then (false, s.dropLine w.id line)
    else
      let old : DirEntry := { e with dies := 0, cl := 0, lastDie := e.die, st := if e.st = .held then .held else .shared }
      put (s.dropCopies w.id [line]) (name old)
  | none =>
    let s := s.readBlocks line
    if w.die.isNone then
      (true, if write then { s with dir := s.dir.insert line { name {} with dirty := true, passing := true, detached := true } } else s)
    else
      let r := s.dirRoom w.id line
      if r.1 then put r.2 (name {}) else r

/-- What a target gives a lane load, store, atomic or MWAIT, or an IORD or IOWR (R229): a fault code, if it does not
accept it. -/
def targetFault (t : Target) (io : Bool) : Option Nat :=
  match t with
  | .hbm => if io then some 0x21 else none
  | .cxl => if io then some 0x21 else none
  | .peer _ => some 0x08
  | .device _ => if io then none else some 0x21
  | .chip => if io then none else some 0x21
  | .unassigned => if io then none else some 0x21

/-- Count an L2 miss of a team (R395). -/
def State.missed (s : State) (w : Who) (miss : Bool) : State := if miss && w.die.isSome then s.count w.part 0x103 else s

/-- Find n bytes of one line at a GLOBAL address for an access by a lane or thread (steps 7 and 8 of R228, R236): a cached
line with the permission it needs, or translation. Lines in main memory and the CXL tier are brought in. A line that its die does not
hold is an L2 miss, whether the access then ends in a fault or in the line (R70, R395); an access that waits is judged again. -/
def State.locate (s : State) (w : Who) (va n kind : Nat) (io : Bool) : Look × State :=
  if w.rom then (if io then .fault 0x21 0 true else romLook va kind, s)
  else
  let here : Option (Nat × DirEntry) := match w.die with
    | some d => (s.cachedAs w.asid (va / 128)).filter fun c => !io && (c.2.dies &&& dieBit d) != 0#4 && !s.foreignAsid w
    | none => none
  match here.filter fun c => c.2.perms.allows kind w.user with
  | some c =>
    let m := c.1 * 128 + va % 128
    if s.checkedOut w m n then (.wait, s.markWait w m n)
    else
      let r := s.fill w c.1 (va / 128) c.2.perms c.2.level (kind != 0)
      if r.1 then (.at m c.2.perms c.2.level, r.2) else (.wait, r.2)
  | none =>
    let miss := !io && here.isNone
    match s.translate w va kind with
    | (.at m perms level, s') =>
      match targetFault (targetOf m) io with
      | some code => (.fault code (if code = 0x08 then 0 else level) true, s'.missed w miss)
      | none =>
        if io then (.at m perms level, s')
        else if s'.checkedOut w m n then (.wait, s'.markWait w m n)
        else
          let r := s'.fill w (m / 128) (va / 128) perms level (kind != 0)
          if r.1 then (.at m perms level, (r.2.missed w miss).touch m (kind != 0)) else (.wait, r.2)
    | (.fault c l t, s') => (.fault c l t, s'.missed w miss)
    | (.wait, s') => (.wait, s')

/-! ### Reading and writing bytes with poison (R232, R244) -/

/-- The bytes at keys, least significant first, with the OR of the poison bits of their words (R244, R253). -/
def State.readKeys (s : State) (keys : List Nat) : Nat × Bool :=
  (leValue (keys.map (Memory.read s.mem)), keys.any fun k => s.poison.get false (k / 4))

/-- Write bytes at keys, and the poison of the value into every word written (R232, R244). -/
def State.writeKeys (s : State) (keys : List Nat) (bytes : List Byte) (poison : Bool) : State :=
  { s with mem := (keys.zip bytes).foldl (fun m c => Memory.write m c.1 c.2) s.mem,
           poison := keys.foldl (fun p k => p.put false (k / 4) poison) s.poison }

/-- Set the dirty bit of every scratchpad word among keys (R232). -/
def State.markDirty (s : State) (keys : List Nat) : State :=
  { s with dirty := keys.foldl (fun d k => if 2 ^ 49 ≤ k ∧ k < 2 ^ 50 then d.put false (k / 4) true else d) s.dirty }

/-- The scratchpad swizzle of an offset (R70). -/
def swizzle (o : Nat) (mode : BitVec 2) : Nat :=
  let row := o / 256
  let bank := o / 4 % 64
  let b := if mode = 0#2 then bank
    else if mode = 1#2 then bank ^^^ (row % 4 * 4)
    else if mode = 2#2 then bank ^^^ (row % 8 * 8)
    else (bank + row) % 64
  row * 256 + b * 4 + o % 4

/-- The key of a logical scratchpad offset of an agent's grant under a swizzle (R230). -/
def Agent.scratchAt (a : Agent) (o : Nat) (mode : BitVec 2) : Nat := scratchKey a.cluster (a.scratchBase + swizzle o mode)

end Sys2Proof.Machine
end

