-- ==== Sys2Proof/Machine/Operands.lean ====
section
/-! DEFINITION. Machine/Operands.lean: every operand form (R42, R47 to R51, R75 to R80, R84, R226 to R230, R249): immediates
and branch targets, MODE's fields, the elements of a lane, lane addresses and the checks of an access. -/
namespace Sys2Proof.Machine

/-! ### Immediates and targets -/

/-- A branch target: words counted from the instruction's own word (R47). -/
def branchTarget {n : Nat} (pc : BitVec 56) (o : BitVec n) : BitVec 56 := pc + (o.signExtend 54 ++ 0#2)

/-- The 41-bit immediate of SLI and SADDI with an EXT (R51). -/
def imm41 (i : BitVec 17) (p : BitVec 24) : Dword := (p ++ i).signExtend 64

/-! ### MODE (R75 to R78) -/

/-- TYPE, RND, TRAPEN, FTZ, BTYPE and LOCK of a MODE value. -/
abbrev modeType (m : Word32) : Nat := m.toNat % 32
abbrev modeRnd (m : Word32) : Nat := m.toNat / 32 % 8
abbrev modeTrapen (m : Word32) : Nat := m.toNat / 2 ^ 16 % 32
abbrev modeFtz (m : Word32) : Bool := m.getLsbD 21
abbrev modeBtype (m : Word32) : Nat := m.toNat / 2 ^ 22 % 4

/-- Whether a MODE value is well-formed (R78): no reserved code in TYPE, RND or GUARD. -/
def modeOk (m : Word32) : Bool :=
  decide (modeType m ≤ 0x10) && decide (modeRnd m ≤ 4) && (m.getLsbD 12 || m.toNat / 256 % 16 == 0)

/-- The width of a type's element in bits (R76); b4 and bit have no lane element of their own width, and count as the
32-bit word. -/
def typeWidth (t : Nat) : Nat :=
  if t ≤ 0x01 then 8 else if t ≤ 0x03 then 16 else if t ≤ 0x05 then 32 else if t ≤ 0x08 then 64
  else if t = 0x09 then 32 else if t ≤ 0x0B then 16 else if t ≤ 0x0D then 8 else if t = 0x0E then 64 else 32

/-- The integer types; those among them that are signed; the binary float types; the 64-bit types (R76). -/
abbrev isIntType (t : Nat) : Bool := decide (t ≤ 0x07)
abbrev isSignedType (t : Nat) : Bool := decide (t ≤ 0x07) && t % 2 == 0
abbrev isFloatType (t : Nat) : Bool := decide (0x08 ≤ t ∧ t ≤ 0x0D)
abbrev isWideType (t : Nat) : Bool := typeWidth t == 64

/-- The type in force. -/
abbrev Agent.ty (a : Agent) : Nat := modeType a.regs.mode

/-! ### Lane operands -/

/-- The guard mask is a source of every vector instruction (R80). -/
def Agent.guardReg (a : Agent) : List Reg :=
  if a.regs.mode.getLsbD 12 then [.m (a.regs.mode.toNat / 256 % 16)] else []

/-- The registers that a v field covers: the pair under a 64-bit operand (R43, R48). -/
def vRegs (wide : Bool) (n : Nat) : List Reg := if wide then [.v n, .v (n + 1)] else [.v n]

/-- The lane words of an agent in which a mask has a bit (R26). -/
def Agent.wordsOf (a : Agent) (m : LaneMask) : List Nat :=
  (List.range ((a.lanes + 31) / 32)).filter fun w => (m >>> (32 * w)).setWidth 32 != 0#32

/-- The non-empty lane words of the execution mask (R26). -/
def Agent.execWords (a : Agent) : List Nat := a.wordsOf a.exec

/-- The need of a vector instruction whose operands are registers, each with whether it is a 64-bit one: a compute
core, an accepted type, even registers for 64-bit operands (R48, R62, R118). It makes a pass of one cycle for each lane word of
its execution mask (R26, R64); an empty one leaves no pending write (R45). -/
def Agent.vecNeedOf (a : Agent) (ok : Bool) (dsts srcs : List (Nat × Bool)) (lat : Nat) (ext : Bool) : Need :=
  { legal := a.isTeam && ok && (dsts ++ srcs).all fun r => !r.2 || r.1 % 2 == 0, ext := ext,
    reads := srcs.flatMap (fun r => vRegs r.2 r.1) ++ a.guardReg, writes := dsts.flatMap fun r => vRegs r.2 r.1,
    words := some a.execWords, pass := 1, lat := if a.exec = 0 then 1 else lat }

/-- The need of a vector instruction whose operands all have one width. -/
def Agent.vecNeed (a : Agent) (ok wide : Bool) (dsts srcs : List Nat) (lat : Nat) (ext : Bool) : Need :=
  a.vecNeedOf ok (dsts.map (·, wide)) (srcs.map (·, wide)) lat ext

/-- The lanes an instruction acts in. -/
def Agent.execLanes (a : Agent) : List Nat := lanesOf a.exec a.lanes

/-- The unit of a register in a lane: the word, or the pair under a 64-bit type (R130). -/
def Agent.getUnit (a : Agent) (wide : Bool) (n l : Nat) : PDword :=
  if wide then a.getPair n l else { val := (a.getV n l).val.setWidth 64, poison := (a.getV n l).poison }

/-- Write the unit of a register in a lane. -/
def Agent.setUnit (a : Agent) (wide : Bool) (n l : Nat) (d : PDword) : Agent :=
  if wide then a.setPair n l d else a.setV n l { val := d.val.setWidth 32, poison := d.poison }

/-- Write a unit in every exec lane, each computed from the registers as they stood (R116). -/
def writeLanes (wide : Bool) (d : Nat) (f : Nat → PDword) (s : State) : State :=
  { s with me := s.me.execLanes.foldl (fun a l => a.setUnit wide d l (f l)) s.me }

/-- Write a mask's bits for the exec lanes; the others keep theirs (R118, R135). -/
def writeMask (m : Nat) (f : Nat → Bool) (s : State) : State :=
  let a := s.me
  let set := maskOf (a.execLanes.filter f)
  { s with me := a.setM m ((a.getM m &&& ~~~a.exec) ||| set) }

/-- Consume poison lane by lane (R81, R82): POISON names the exec lanes that met it. -/
def consumeLanes (bad : Nat → Bool) (body : State → Res) (s : State) : Res :=
  let c := s.me.execLanes.filter bad
  if c.isEmpty then body s else trapIn .poison (maskOf c) s

/-! ### Elements of a lane (R84) -/

/-- Element e, of width w, of a unit. -/
abbrev elemOf (w v e : Nat) : Nat := v / 2 ^ (w * e) % 2 ^ w

/-- The unit whose elements are given by position. -/
def joinElems (w n : Nat) (f : Nat → Nat) : Nat :=
  (List.range n).foldl (fun acc e => acc + f e % 2 ^ w * 2 ^ (w * e)) 0

/-- How many elements of width w a lane's unit holds. -/
abbrev elemCount (w : Nat) : Nat := if w = 64 then 1 else 32 / w

/-- A w-bit number read as signed. -/
def toInt (w v : Nat) : Int := if v % 2 ^ w < 2 ^ (w - 1) then (v % 2 ^ w : Int) else (v % 2 ^ w : Int) - 2 ^ w

/-- An integer as a w-bit number. -/
def ofInt (w : Nat) (x : Int) : Nat := (x % 2 ^ w).toNat

/-- Clamp an integer between two others (R70). -/
abbrev clampInt (x lo hi : Int) : Int := max lo (min hi x)

/-! ### Addresses (R226 to R230, R249) -/

/-- The class of an address (R226). -/
inductive AddrClass where
  | scratch | hearth | global
  deriving DecidableEq, Repr, Inhabited

/-- Where the windows begin. -/
abbrev scratchWindow : Nat := 0xFE000000000000
abbrev hearthWindow : Nat := 0xFD000000000000

/-- window_of (R70). -/
def classOf (a : Nat) : AddrClass :=
  if scratchWindow ≤ a ∧ a < scratchWindow + 2 ^ 21 then .scratch
  else if hearthWindow ≤ a ∧ a < hearthWindow + 2 ^ 27 then .hearth
  else .global

/-- The bytes a lane's access names, with the poison of its address. -/
structure LaneAddr where
  lane : Option Nat
  addr : Dword
  poison : Bool
  deriving DecidableEq, Repr, Inhabited

/-- The lane addresses of a vector ME word (R249): A = 0, s[sb] + v[va]; A = 1, the pair va. -/
def Agent.vecAddrs (a : Agent) (va sb : Nat) (wide : Bool) (off : Dword) : List LaneAddr :=
  a.execLanes.map fun l =>
    if wide then { lane := some l, addr := (a.getPair va l).val + off, poison := (a.getPair va l).poison }
    else { lane := some l, addr := (a.getS sb).val + (a.getV va l).val.setWidth 64 + off,
           poison := (a.getS sb).poison || (a.getV va l).poison }

/-- The address of a scalar ME word (R249). -/
def Agent.scalarAddr (a : Agent) (sb : Nat) (off : Dword) : List LaneAddr :=
  [{ lane := none, addr := (a.getS sb).val + off, poison := (a.getS sb).poison }]

/-- The registers that a vector ME word's address reads. -/
def Agent.addrRegs (a : Agent) (va sb : Nat) (wide : Bool) : List Reg :=
  if wide then [.v va, .v (va + 1)] else [.v va, a.sName sb]

/-- The mask that names lanes: the active mask for a scalar access (R82, R250). -/
def Agent.tmaskOf (a : Agent) (ls : List LaneAddr) : LaneMask :=
  if ls.any (·.lane.isNone) then a.active else maskOf (ls.filterMap (·.lane))

/-- Steps 1 to 6 of R228 for one lane, as (step, cause): an access of n bytes, aligned to `align` where it must be. -/
def State.checkLane (s : State) (x : LaneAddr) (n : Nat) (align acc : Nat) : Option (Nat × Cause) :=
  let a := x.addr.toNat
  let cls := classOf a
  let last := a + n - 1
  if x.poison then some (1, .poison)
  else if decide (2 ^ 56 ≤ last) || decide (2 ^ 64 ≤ last) then
    some (2, { code := 0x20, addr := x.addr, acc := acc, lvl := 3 })
  else if classOf last != cls then some (3, { code := 0x07, addr := x.addr, acc := acc })
  else if (align = 1 || cls = .hearth) && a % n != 0 then some (4, { code := 0x0C, addr := x.addr, acc := acc })
  else match cls with
    | .scratch => if s.me.grant < last - scratchWindow + 1 then some (5, { code := 0x09, addr := x.addr, acc := acc }) else none
    | .hearth =>
      let ok := match s.partOf s.me with
        | some p => s.inHearthRanges p (a - hearthWindow) && s.inHearthRanges p (last - hearthWindow)
        | none => false
      if ok then none else some (6, { code := 0x21, addr := x.addr, acc := acc })
    | .global => none

/-- The first cause that any lane meets, in the order of R228, with the lanes that meet it; the lowest lane gives the
address. -/
def firstCause (faults : List (LaneAddr × Nat × Cause)) : Option (Cause × List LaneAddr) :=
  match faults.foldl (fun (m : Option Nat) f => some (match m with | some k => min k f.2.1 | none => f.2.1)) none with
  | none => none
  | some k =>
    let fs := faults.filter fun f => f.2.1 = k
    match fs with
    | f :: _ =>
      let same := fs.filter fun g => g.2.2.code = f.2.2.code && g.2.2.lvl = f.2.2.lvl
      some (f.2.2, same.map (·.1))
    | [] => none

/-- Steps 1 to 6 of R228 for every lane. -/
def State.checkAddrs (s : State) (xs : List LaneAddr) (n align acc : Nat) : Option (Cause × List LaneAddr) :=
  firstCause (xs.filterMap fun x => (s.checkLane x n align acc).map fun c => (x, c.1, c.2))

/-- The keys of n bytes of one lane's access, in address order, found through locate where the address is GLOBAL: an
access that crosses a line is found once for each line (R227), and the translation of both its pages comes before what either
page's target accepts (R228). -/
def State.laneKeys (s : State) (w : Who) (a n kind : Nat) : (Option (List Nat) ⊕ Nat × Nat × Bool) × State :=
  match classOf a with
  | .scratch => (.inl (some ((List.range n).map fun i => s.me.scratchAt (a - scratchWindow + i) 0)), s)
  | .hearth => (.inl (some ((List.range n).map fun i => hearthKey (a - hearthWindow + i))), s)
  | .global =>
    let first := min n (128 - a % 128)
    match s.locate w a first kind false with
    | (.fault c l t, s) =>
      if t && decide (a / 65536 != (a + n - 1) / 65536) then
        match s.translate w (a + first) kind with
        | (.fault c2 l2 _, s) => (.inr (c2, l2, false), s)
        | (_, s) => (.inr (c, l, t), s)
      else (.inr (c, l, t), s)
    | (.wait, s) => (.inl none, s)
    | (.at m _ _, s) =>
      if first = n then (.inl (some ((List.range n).map (m + ·))), s)
      else match s.locate w (a + first) (n - first) kind false with
        | (.fault c l t, s) => (.inr (c, l, t), s)
        | (.wait, s) => (.inl none, s)
        | (.at m2 _ _, s) =>
          (.inl (some ((List.range first).map (m + ·) ++ (List.range (n - first)).map (m2 + ·))), s)

/-- What steps 7 and 8 of R228 answer for every lane: the keys of each, a fault with the lanes that meet it, or a
wait. -/
inductive Located where
  | keys (ks : List (LaneAddr × List Nat))
  | fault (c : Cause) (lanes : List LaneAddr)
  | wait
  deriving DecidableEq, Repr, Inhabited

/-- What steps 7 and 8 of R228 have found for the lanes so far: keys, faults with their steps, and whether one waits. -/
abbrev LanesFound : Type := List (LaneAddr × List Nat) × List (LaneAddr × Nat × Cause) × Bool × State

/-- Find one more lane's bytes. -/
def locateLane (n kind : Nat) (st : LanesFound) (x : LaneAddr) : LanesFound :=
  match st.2.2.2.laneKeys st.2.2.2.who x.addr.toNat n kind with
  | (.inl (some k), s) => (st.1 ++ [(x, k)], st.2.1, st.2.2.1, s)
  | (.inl none, s) => (st.1, st.2.1, true, s)
  | (.inr (c, l, t), s) =>
    (st.1, st.2.1 ++ [(x, if t then 8 else 7, { code := c, addr := x.addr, acc := kind, lvl := l })], st.2.2.1, s)

/-- Steps 7 and 8 of R228: each lane is found in turn; the first cause in the order of the steps is reported, a
translation fault before a target that does not accept the access. -/
def State.locateAll (s : State) (xs : List LaneAddr) (n kind : Nat) : Located × State :=
  let r := xs.foldl (locateLane n kind) ([], [], false, s)
  match firstCause r.2.1 with
  | some (c, ls) => (.fault c ls, r.2.2.2)
  | none => if r.2.2.1 then (.wait, r.2.2.2) else (.keys r.1, r.2.2.2)

end Sys2Proof.Machine
end

