-- ==== Sys2Proof/Machine/Flags.lean ====
section
/-! DEFINITION. Machine/Flags.lean: exception sets, FLAGS and the close of every instruction that raises them (R70
commit_arith, R74, R109, R110, R117). -/
namespace Sys2Proof.Machine

/-- Exception sets in TRAPEN's order: invalid, division by zero, overflow, underflow, inexact (R74, R75). -/
abbrev excInvalid : Nat := 1
abbrev excDivZero : Nat := 2
abbrev excOverflow : Nat := 4
abbrev excUnderflow : Nat := 8
abbrev excInexact : Nat := 16

/-- OR exceptions into FLAGS (R74). -/
def State.orFlags (e : Nat) (s : State) : State :=
  { s with me := { s.me with regs := { s.me.regs with flags := s.me.regs.flags ||| BitVec.ofNat 32 e } } }

/-- The exceptions of a set that TRAPEN enables. -/
def Agent.enabled (a : Agent) (e : Nat) : Nat := e &&& modeTrapen a.regs.mode

/-- Close a scalar instruction with exception set e (R117): an enabled exception traps, otherwise FLAGS takes the set
and the body goes on. -/
def commitScalar (e : Nat) (body : State → Res) (s : State) : Res :=
  if s.me.enabled e != 0 then trap (.arith (s.me.enabled e)) s else body (s.orFlags e)

/-- The OR of the sets of a list of lanes. -/
def orExc (es : List (Nat × Nat)) : Nat := es.foldl (fun x c => x ||| c.2) 0

/-- Close a vector instruction with an exception set per exec lane (commit_arith of R70): TMASK names the lanes that
meet TRAPEN, and EXC holds their enabled exceptions (R110). -/
def commitLanes (es : List (Nat × Nat)) (body : State → Res) (s : State) : Res :=
  let t := es.filter fun c => s.me.enabled c.2 != 0
  if t.isEmpty then body (s.orFlags (orExc es))
  else trapIn (.arith (s.me.enabled (orExc t))) (maskOf (t.map (·.1))) s

end Sys2Proof.Machine
end

