-- ==== Sys2Proof/Machine/Fetch.lean ====
section
/-! DEFINITION. Machine/Fetch.lean: fetching the instruction at an agent's PC (R38 to R42, R50, R63), and placing one
there. -/
namespace Sys2Proof.Machine

/-- What a fetch answers: an instruction with its stall count and the NS bit of its bundle; a cause; or a wait. -/
inductive Fetched where
  | run (i : Instr) (stall : Nat) (ns : Bool)
  | raise (c : Cause)
  | wait
  deriving DecidableEq, Repr

/-- Where a fetch reads: the machine address of the PC, found with fetch permission in memory, of which the bundle is read; or a cause
(R63 step 2, R228, R229, R243). The root-of-trust core fetches from its private memories (R17). -/
def State.fetchAt (s : State) : (Option Nat ⊕ Cause) × State :=
  let pc := s.me.pc.toNat
  if s.me.kind = .root then (.inl (some (rootKey pc)), s)
  else match s.translate s.who pc accFetch with
  | (.fault c l _, s) => (.inr { code := c, addr := BitVec.ofNat 64 pc, acc := accFetch, lvl := l }, s)
  | (.wait, s) => (.inl none, s)
  | (.at m _ level, s) =>
    match targetOf m with
    | .hbm => (.inl (some m), s.readThrough [m])
    | .cxl => (.inl (some m), s)
    | _ => (.inr { code := 0x21, addr := BitVec.ofNat 64 pc, acc := accFetch, lvl := level }, s)

/-- Word n of the bundle at a machine address. -/
def State.bundleWord (s : State) (m n : Nat) : Nat := s.rd (m / 32 * 32 + 4 * n) 4

/-- The immediate target that a word names, if its opcode is that of a branch with one (R42, R63 step 1). -/
def immediateTarget (pc : BitVec 56) (w : Nat) : Option (BitVec 56) :=
  let op := w / 2 ^ 24
  if op = 0x20 || op = 0x26 then some (branchTarget pc (fieldOf 24 w 0))
  else if op = 0x21 || op = 0x22 || op = 0x23 || op = 0x24 || op = 0x25 || op = 0x2A then
    some (branchTarget pc (fieldOf 17 w 0))
  else none

/-- What the words of a bundle hold at word n for a PC (R39, R50, R62, R63): an immediate target is judged first, then
the schedule word's reserved bits at word 1, an EXT's own stall count, and the encoding. -/
def judge (pc : BitVec 56) (sched : Nat) (n w next : Nat) : Fetched :=
  let isExt := w / 2 ^ 24 = 0xFF ∧ n ≠ 7 ∧ next / 2 ^ 24 ≠ 0xFF
  let target := if isExt then immediateTarget (pc + 4) next else immediateTarget pc w
  let stallOf (k : Nat) : Nat := sched / 2 ^ (4 * (k - 1)) % 16
  let bad : Option Cause := match target with
    | some t => if badTarget (t.setWidth 64) then some (.illegalTarget (t.setWidth 64)) else none
    | none => none
  match bad with
  | some c => .raise c
  | none =>
    if n = 1 && bitsOf sched 29 28 != 0 then .raise .illegal
    else if isExt then
      if stallOf n != 0 then .raise .illegal
      else match decode [BitVec.ofNat 32 w, BitVec.ofNat 32 next] with
        | .ok i => .run i (stallOf (n + 1)) (bitOf sched 30)
        | .error _ => .raise .illegal
    else match decode [BitVec.ofNat 32 w] with
      | .ok i => .run i (stallOf n) (bitOf sched 30)
      | .error _ => .raise .illegal

/-- Fetch and decode the instruction at the PC (R38, R39, R42, R50, R63). -/
def State.fetch (s : State) : Fetched × State :=
  let pc := s.me.pc
  if badTarget (pc.setWidth 64) then (.raise (.illegalTarget (pc.setWidth 64)), s)
  else match s.fetchAt with
    | (.inr c, s) => (.raise c, s)
    | (.inl none, s) => (.wait, s)
    | (.inl (some m), s) =>
      let n := m / 4 % 8
      (judge pc (s.bundleWord m 0) n (s.bundleWord m n) (if n = 7 then 0 else s.bundleWord m (n + 1)), s)

/-! ### Issue slots (R34, R40, R46) -/

/-- Whether that cycle is now. -/
def State.slotNow (s : State) (id : Nat) (a : Agent) : Bool := decide (s.slotOf id a < a.rate * (s.time.toNat + 1))

/-- Whether an agent waits with its instruction issued (R33). -/
def Wait.parked : Wait → Bool
  | .none => false
  | .room _ => false
  | _ => true

/-- Whether an issue of an agent has issued its instruction: it has taken its place in program order, it waits on what it
issued, or it has gone. -/
def issuedBy (id : Nat) (a : Agent) : Res → Bool
  | .next t => match t.agent? id with
    | none => true
    | some b => b.seq != a.seq || (b.wait.parked && !a.wait.parked)
  | _ => true

/-- Change the agent that has issued, also where its instruction has set it on its way to another core (R316). -/
def State.updIssuer (s : State) (id : Nat) (a : Agent) (f : Agent → Agent) : State :=
  match s.agent? id with
  | some b => s.setAgent id (f b)
  | none => { s with transit := s.transit.map fun c => (if c.1.launch = a.launch && c.1.teamid = a.teamid then f c.1 else c.1, c.2) }

/-- Note an issue (R34, R40, R46): its ports issue nothing more in that cycle, the search of a thread core goes on after
that thread, and the agent's next word follows a stall count later. -/
def pace (id : Nat) (a : Agent) (slot stall : Nat) (r : Res) : Res :=
  if !issuedBy id a r then r
  else match r with
    | .next s =>
      let next := if a.isTeam then 0 else if id < 32 then (id + 1) % 4 else (id + 1) % 2
      let s := s.updIssuer id a fun b =>
        { b with notBefore := max b.notBefore (slot + 1 + stall), lastIssue := s.time.toNat }
      .next { s with ports := (a.portsOf id).foldl (fun ps p => ps.put {} p { free := slot + 1, next := next }) s.ports }
    | r => r

/-- Map the page of a virtual address for fetch, load and store through a new ASID table, when translation does not
already give memory (log 2): the table at 0x4000_0000, nodes at 0x4010_0000 and 0x4011_0000, a 1 GiB leaf at
0x8000_0000. -/
def State.mapFetch (s : State) : State × Nat :=
  match s.fetchAt with
  | (.inl (some m), _) => (s, m)
  | _ =>
    let va := s.me.pc.toNat
    let part := if s.me.isTeam then s.me.part else 0
    let s := s.wr asidTblAddr 8 0x40000001
    let s := s.wr (0x40000000 + 8 * s.me.asid.toNat) 8 (0x40100000 + 16 + part % 16)
    let s := s.wr (0x40100000 + 8 * (va / 2 ^ 43 % 8192)) 8 0x40110001
    let s := s.wr (0x40110000 + 8 * (va / 2 ^ 30 % 8192)) 8 0x8000003F
    ({ s with tlb := s.tlb.filter fun t => t.asid != s.me.asid }, 0x80000000 + va % 2 ^ 30)

/-- The rows that only a compute team runs (R62). -/
def Instr.teamOnly (w : Nat) : Bool :=
  let op := w / 2 ^ 24
  decide (0x40 ≤ op ∧ op ≤ 0x68) || decide (0x70 ≤ op ∧ op ≤ 0x8F) || decide (0xA0 ≤ op ∧ op ≤ 0xAA) ||
  decide (0xB0 ≤ op ∧ op ≤ 0xB7) || [0xBA, 0xBC, 0xBD, 0xC0, 0xC3, 0xC4, 0xC6, 0xC7, 0xD1, 0xD2, 0xD7, 0xD8, 0xD9,
    0x2B, 0x2E, 0x36].contains op

/-- The MODE of the launch of a program that begins with an opcode (log 2): the element type that its rows run under. -/
def loadedMode (w : Nat) : Word32 :=
  let op := w / 2 ^ 24
  if 0x87 ≤ op ∧ op ≤ 0x8C then 0xE else if (0x70 ≤ op ∧ op ≤ 0x8F) ∨ (0xA0 ≤ op ∧ op ≤ 0xAA) then 0x9 else 0x4

/-- A team placed for a program that is loaded from outside (log 2): 16 lanes in one group, every register within
budget, running where the agent stood. -/
def loadedTeam (w : Nat) (a : Agent) : Agent :=
  { a with kind := .team, lanes := 16, gw := 16, bv := 256, bs := 128, ba := 16, grant := 65536,
           regs := { a.regs with mode := loadedMode w, priv := false, top := { a.regs.top with mask := lanesBelow 16 } } }

end Sys2Proof.Machine
end

