-- ==== Sys2Proof/Machine/Control.lean ====
section
/-! DEFINITION. Machine/Control.lean: branches, calls, the stack, MODE, traps and the control and status registers
(R190 to R211), without the instructions that end, save or restore a team. -/
namespace Sys2Proof.Machine

/-! ### Branches and calls (R191, R195) -/

/-- A branch with an immediate target, which is judged first of all (R42, R63). -/
def branchTo {w : Nat} (base : BitVec 56) (o : BitVec w) (n : Need) (body : BitVec 56 → State → Res) (s : State) : Res :=
  let t := branchTarget base o
  if !badTarget (t.setWidth 64) then issue n (body t) s
  else if s.awaitsExceptions then holdUntil s.me.excUntil s
  else trap (.illegalTarget (t.setWidth 64)) s

/-- Go to a target when a condition holds, and to the successor otherwise. -/
def branchWhen (n : Need) (c : Bool) (t : BitVec 56) (s : State) : Res :=
  .next (retireTo (if c then t else s.me.next false) n s)

/-- BRA (R195). -/
def execBra (o : BitVec 24) (s : State) : Res :=
  branchTo s.me.pc o {} (fun t s => .next (retireTo t {} s)) s

/-- A branch on a scalar register, whose poison is consumed. -/
def branchScalar (o : BitVec 17) (a : BitVec 7) (c : Dword → Bool) (s : State) : Res :=
  let n := s.me.scalarNeed [] [a.toNat]
  branchTo s.me.pc o n (fun t s =>
    let x := s.me.getS a.toNat
    consume [x] (branchWhen n (c x.val) t) s) s

def execBrz (a : BitVec 7) (o : BitVec 17) (s : State) : Res := branchScalar o a (· == 0) s
def execBrnz (a : BitVec 7) (o : BitVec 17) (s : State) : Res := branchScalar o a (· != 0) s

/-- LOOP (R195): the counter falls by one, and the branch is taken while it is not zero; with sa = 0 the write is
discarded and the branch always taken. -/
def execLoop (a : BitVec 7) (o : BitVec 17) (s : State) : Res :=
  let n := s.me.scalarNeed [a.toNat] [a.toNat]
  branchTo s.me.pc o n (fun t s =>
    let x := s.me.getS a.toNat
    consume [x] (fun s => branchWhen n (x.val - 1 != 0) t (s.setS a.toNat (clean (x.val - 1)))) s) s

/-- BRALL (R195): taken when every lane of the active mask has its bit set. -/
def execBrall (m : BitVec 4) (o : BitVec 17) (s : State) : Res :=
  let n : Need := { reads := [.m m.toNat] }
  branchTo s.me.pc o n (fun t s => branchWhen n (s.me.active &&& ~~~(s.me.getM m.toNat) == 0) t s) s

/-- BRANY (R195). -/
def execBrany (m : BitVec 4) (o : BitVec 17) (s : State) : Res :=
  let n : Need := { reads := [.m m.toNat] }
  branchTo s.me.pc o n (fun t s => branchWhen n (s.me.active &&& s.me.getM m.toNat != 0) t s) s

/-- The link register takes the successor with poison clear; it is number 127 in either mode (R73, R195). -/
def State.link (s : State) : State := s.setS 127 (clean ((s.me.next false).setWidth 64))

/-- CALL (R195). -/
def execCall (o : BitVec 24) (s : State) : Res :=
  let n := s.me.scalarNeed [127] []
  branchTo s.me.pc o n (fun t s => .next (retireTo t n s.link)) s

/-- A transfer to a register's value: POISON, then ILLEGAL_TARGET (R63, R191). -/
def jumpTo (n : Need) (a : BitVec 7) (before : State → State) (s : State) : Res :=
  issue n (fun s =>
    let x := s.me.getS a.toNat
    consume [x] (fun s =>
      if badTarget x.val then trap (.illegalTarget x.val) s
      else .next (retireTo (x.val.setWidth 56) n (before s))) s) s

def execCalli (a : BitVec 7) (s : State) : Res := jumpTo (s.me.scalarNeed [127] [a.toNat]) a State.link s
def execRet (a : BitVec 7) (s : State) : Res := jumpTo (s.me.scalarNeed [] [a.toNat]) a id s
def execJmpi (a : BitVec 7) (s : State) : Res := jumpTo (s.me.scalarNeed [] [a.toNat]) a id s

/-! ### The stack (R192 to R196) -/

/-- A push to, or a pop from, a stack of some depth: beyond 32 entries it reaches the team's spill area, which is translated in the
team's own ASID with supervisor privilege (R192, log 10). It waits while the translation does, and a translation that fails stops the
team (R207). -/
def withSpill (depth : Nat) (body : State → Res) (s : State) : Res :=
  if depth ≤ 32 then body s
  else match s.translate { s.who with user := false } s.me.spill.toNat accStore with
    | (.at m _ _, s) => if targetOf m = .hbm || targetOf m = .cxl then body s else .next (s.supervisorStop 0x0B)
    | (.wait, s) => .next s
    | (.fault _ _ _, s) => .next (s.supervisorStop 0x0B)

/-- Split the lanes over two paths and a join entry (R196). -/
def State.diverge (s : State) (join target fall : BitVec 56) (taken rest : LaneMask) : State :=
  let r := s.me.regs
  let path (pc : BitVec 56) (m : LaneMask) : StackEntry :=
    { pc := pc, rpc := some join, mode := r.mode, kind := .path, mask := m }
  s.updMe fun a => { a with regs := { r with top := path target taken,
                                             rest := path fall rest :: { r.top with pc := join, mode := r.mode } :: r.rest } }

/-- BRV (R196). Offsets count from the BRV word, which follows its EXT. Where the lanes part, an open sketch logs the entry it rewrites
and the two it pushes, and stalls where its tracing has no room (R283, R285). The target is judged first of all (R63 step 1); the join
address, which R63 does not name, after the decode faults and the scoreboard (log 47). -/
def execBrv (m : BitVec 4) (o : BitVec 17) (j : BitVec 24) (s : State) : Res :=
  let here := s.me.pc + 4
  let join := branchTarget here j
  let d := s.me.depth
  let n : Need := { reads := [.m m.toNat], ext := true }
  branchTo here o n (fun t s =>
    if badTarget (join.setWidth 64) then trap (.illegalTarget (join.setWidth 64)) s
    else
      let c := s.me.active &&& s.me.getM m.toNat
      let u := s.me.active &&& ~~~(s.me.getM m.toNat)
      if c == 0 then .next (retire n s)
      else if u == 0 then .next (retireTo t n s)
      else if 255 < s.me.depth + 2 then trap .stackOver s
      else match s.logged? [.entry (d - 1), .entry d, .entry (d + 1)] with
        | none => hold s
        | some k => withSpill (d + 2) (fun s =>
            .next (retireTo t n ((s.updMe fun a => { a with sketch := k }).diverge join t (succOf here) c u))) s) s

/-- Whether an agent stands at an instruction boundary: it waits for nothing, or its instruction has not issued. -/
def Agent.atBoundary (a : Agent) : Bool :=
  match a.wait with
  | .none => true
  | .room _ => true
  | _ => false

/-- RECONVERGENCE_POP (R193, R194): the path entry whose rpc the PC has reached is removed; MODE and PC come from the
entry below. It comes before an issue, so not where a trap is on its way or the agent is stopped. An open sketch logs the popped
entry first, and stalls where its tracing has no room (R285). -/
def execReconvergencePop (agent : Nat) (s : State) : Res :=
  match s.switchTo agent with
  | none => .fault (.notEnabled "RECONVERGENCE_POP")
  | some s =>
    let r := s.me.regs
    match r.rest with
    | [] => .fault (.notEnabled "RECONVERGENCE_POP")
    | below :: rest =>
      if r.top.kind = .path && r.top.rpc = some r.top.pc && s.me.pendingTrap.isNone && s.me.sstop = 0 && s.me.atBoundary then
        match s.logged? [.entry (s.me.depth - 1)] with
        | none => .next s
        | some k => withSpill s.me.depth (fun s =>
            .next (s.updMe fun a => { a with sketch := k, regs := { r with top := below, rest := rest, mode := below.mode } })) s
      else .fault (.notEnabled "RECONVERGENCE_POP")

/-! ### MODE (R199) -/

/-- The bits of MODE that SETMODE may change: not the reserved ones, not LOCK, and not TRAPEN while LOCK is 1 (R78,
R199). -/
def settable (m : Word32) : Word32 := if m.getLsbD 24 then 0x00E01FFF else 0x00FF1FFF

/-- SETMODE (R199): the next word issues under the new MODE. -/
def execSetmode (a b : BitVec 7) (s : State) : Res :=
  let n := s.me.scalarNeed [] [a.toNat, b.toNat]
  issue n (fun s =>
    let x := s.me.getS a.toNat
    let y := s.me.getS b.toNat
    consume [x, y] (fun s =>
      let old := s.me.regs.mode
      let f := y.val.setWidth 32 &&& settable old
      let new := (old &&& ~~~f) ||| (x.val.setWidth 32 &&& f)
      if modeOk new then
        .next (retire n (s.updMe fun a => { a with regs := { a.regs with mode := new } }))
      else trap .illegal s) s) s

/-- A scalar register takes a value computed from the state, with poison clear. -/
def readInto (d : BitVec 7) (lat : Nat) (f : State → Dword) (s : State) : Res :=
  let n := s.me.scalarNeed [d.toNat] [] lat
  issue n (fun s => .next (retire n (s.setS d.toNat (clean (f s))))) s

/-- GETMODE (R199). -/
def execGetmode (d : BitVec 7) (s : State) : Res := readInto d 1 (fun s => s.me.regs.mode.setWidth 64) s

/-- The pre-emption state as PRCHK reads it (R200): threads have none (R197). -/
def State.preqWord (s : State) : Dword :=
  match s.me.preq with
  | some (deadline, _) => BitVec.ofNat 64 (1 + min (deadline - s.time.toNat) 0xFFFFFFFF * 2 ^ 32)
  | none => 0

def execPrchk (d : BitVec 7) (s : State) : Res := readInto d 8 State.preqWord s

/-- NOP (R202). -/
def execNop (s : State) : Res := issue {} (fun s => .next (retire {} s)) s

/-- WFI (R202): waits for a pending interrupt; a compute core does not run it. -/
def execWfi (s : State) : Res :=
  issue { legal := !s.me.isTeam, sup := true } (fun s =>
    if s.me.intrs.isEmpty then .next (s.updMe fun a => { a with wait := .wfi }) else .next (retire {} s)) s

/-- HALT (R202): after ink, the team or thread stops for good and its event is sent. -/
def execHalt (s : State) : Res :=
  issue { sup := true } (waitInk fun s =>
    .next (((retire {} s).updMe fun a => { a with wait := .halted }).sendEvent 0x03 (s.partOf s.me) 0
      (BitVec.ofNat 32 (agentOperand s.meId s.me)))) s

/-! ### Traps (R205 to R208) -/

/-- TRAP, BKPT and SYSCALL (R208): the cause with the active mask; the resume address is the successor. -/
def raiseCode (code : Nat) (i : BitVec 17) (s : State) : Res :=
  issue {} (fun s =>
    let c : Cause := { code := code, addr := i.setWidth 64, imm := i.toNat }
    .next (s.issued.raise c s.me.active (s.me.next false))) s

def execTrap (i : BitVec 17) (s : State) : Res := raiseCode 0x10 i s
def execBkpt (i : BitVec 17) (s : State) : Res := raiseCode 0x11 i s
def execSyscall (i : BitVec 17) (s : State) : Res := raiseCode 0x12 i s

/-- An EXT that has no consumer raises ILLEGAL (R50), once the exception sets that R148 waits for are determined. -/
def execExt (_ : BitVec 24) (s : State) : Res :=
  if s.awaitsExceptions then holdUntil s.me.excUntil s else trap .illegal s

/-- TRAP_VECTOR (R205): a raised trap is delivered once no sketch is open and no result is in flight. Its push spills an
entry of a stack of 32 or more; a spill that fails stops the team (R192, R207). -/
def execTrapVector (agent : Nat) (s : State) : Res :=
  match s.switchTo agent with
  | none => .fault (.notEnabled "TRAP_VECTOR")
  | some s =>
    match s.me.pendingTrap with
    | none => .fault (.notEnabled "TRAP_VECTOR")
    | some (_, stop) =>
      if !s.vectorReady then .fault (.notEnabled "TRAP_VECTOR")
      else withSpill (if stop = 0 then s.me.depth + 1 else 0) (fun s => .next s.deliverTrap) s

/-- INTR (R206): the lowest pending interrupt of a user-mode thread is taken at an instruction boundary. -/
def execIntr (agent : Nat) (s : State) : Res :=
  match s.switchTo agent with
  | none => .fault (.notEnabled "INTR")
  | some s =>
    let a := s.me
    match a.intrs.min? with
    | none => .fault (.notEnabled "INTR")
    | some k =>
      if a.isTeam || a.regs.priv || a.pendingTrap.isSome || a.sstop != 0 || !a.atBoundary then
        .fault (.notEnabled "INTR")
      else
        .next ((s.updMe fun a => { a with intrs := a.intrs.filter (· != k) }).raise
          { code := 0x13, addr := BitVec.ofNat 64 k } a.active a.pc)

/-! ### Control and status registers (R210, R211) -/

/-- The entry just below the topmost trap frame, by its place in the list of entries from the top. -/
def resumeIndex : List StackEntry → Option Nat
  | [] => none
  | e :: rest => if e.kind = .frame then some 1 else (resumeIndex rest).map (· + 1)

/-- TRESUME (R209, R211): 0 when no trap frame exists. -/
def Agent.tresume (a : Agent) : Dword :=
  let es := a.regs.top :: a.regs.rest
  match resumeIndex es with
  | some i => (match es[i]? with | some e => e.pc.setWidth 64 | none => 0)
  | none => 0

/-- Write TRESUME: the PC field of the entry below the topmost trap frame. -/
def Agent.setTresume (a : Agent) (v : BitVec 56) : Agent :=
  let es := a.regs.top :: a.regs.rest
  match resumeIndex es with
  | some i =>
    match es.modify i (fun e => { e with pc := v }) with
    | t :: rest => { a with regs := { a.regs with top := t, rest := rest } }
    | [] => a
  | none => a

/-- PLACE of a team (R211). -/
def Agent.place (a : Agent) : Nat :=
  a.quad + 4 * (a.core % 2) + 8 * (a.core / 2 % 32) + 256 * a.die + (if a.span.isSome then 1024 else 0)

/-- A register number that R211 lists. -/
def csrListed (n : Nat) : Bool := decide (n ≤ 0x026) || n = 0x100

/-- What CSRRD reads (R211). On a thread, GANG, SLOT, CR_SPILL and CR_CORE_CTL read 0 (R210); PLACE and CR_PART, which
the manual gives no value there, are free values (log 7). -/
def csrValue (n : Nat) (s : State) : Dword × State :=
  let a := s.me
  let free := s.fresh
  let team (v : Dword) : Dword := if a.isTeam then v else 0
  match n with
  | 0x000 => (a.regs.mode.setWidth 64, s)
  | 0x001 => (a.regs.flags.setWidth 64, s)
  | 0x002 => (a.tcause.setWidth 64, s)
  | 0x003 => (a.tpc.setWidth 64, s)
  | 0x004 => (a.taddr, s)
  | 0x005 => (a.eraseCnt.setWidth 64, s)
  | 0x006 => (a.specLvl.setWidth 64, s)
  | 0x007 => (BitVec.ofNat 64 a.ldcnt, s)
  | 0x008 => (team (a.regs.gang.setWidth 64), s)
  | 0x009 => (a.teamid.setWidth 64, s)
  | 0x00A => (if a.regs.priv then 1 else 0, s)
  | 0x00B => (team (BitVec.ofNat 64 a.slot), s)
  | 0x00C => if a.isTeam then (BitVec.ofNat 64 a.place, s) else (BitVec.ofNat 64 (Config.freeNat free.1), free.2)
  | 0x00D => (BitVec.ofNat 64 a.depth, s)
  | 0x00E => (a.tresume, s)
  | 0x00F => (s.preqWord, s)
  | 0x020 => (team a.spill, s)
  | 0x021 =>
    if a.isTeam then (BitVec.ofNat 64 (a.part + 256 * a.cls), s)
    else (BitVec.ofNat 64 (Config.freeNat free.1), free.2)
  | 0x022 => (if a.isTeam then 0 else a.hvec, s)
  | 0x023 => (a.asid.setWidth 64, s)
  | 0x024 =>
    if a.isTeam then (0, s)
    else match a.intrs.min? with
      | some k => (BitVec.ofNat 64 k, s.updMe fun a => { a with intrs := a.intrs.filter (· != k) })
      | none => (BitVec.ofNat 64 (2 ^ 63), s)
  | 0x025 => (if a.isTeam then 0 else a.upc, s)
  | 0x026 => (team a.launch, s)
  | 0x100 => (team (if s.sbCheck.get false a.core then 1 else 0), s)
  | _ => ((a.tmask >>> (64 * (n - 0x010))).setWidth 64, s)

/-- CSRRD (R210). -/
def execCsrrd (d : BitVec 7) (n : BitVec 17) (s : State) : Res :=
  let nd := s.me.scalarNeed [d.toNat] [] 8
  issue nd (fun s =>
    if !csrListed n.toNat then trap .illegal s
    else
      let r := csrValue n.toNat s
      .next (retire nd (r.2.setS d.toNat (clean r.1)))) s

/-- Whether CSRWR may write a number here (R211). -/
def Agent.csrWritable (a : Agent) (n : Nat) : Bool :=
  if n = 0x00E then a.hasFrame
  else if n = 0x022 || n = 0x023 || n = 0x025 then !a.isTeam
  else if n = 0x100 then a.isTeam
  else false

/-- What CSRWR changes (R211). TRESUME takes bits 55:0 of the value, the width of a PC: of bits 63:56 of what is written the manual does
not say whether the entry keeps them (log 47). -/
def csrWrite (n : Nat) (v : Dword) (s : State) : State :=
  if n = 0x00E then s.updMe fun a => a.setTresume (v.setWidth 56)
  else if n = 0x022 then s.updMe fun a => { a with hvec := v }
  else if n = 0x023 then s.updMe fun a => { a with asid := v.setWidth 16 }
  else if n = 0x025 then s.updMe fun a => { a with upc := v }
  else { s with sbCheck := s.sbCheck.put false s.me.core (v.getLsbD 0) }

/-- CSRWR (R210): waits for ink, then writes. -/
def execCsrwr (a : BitVec 7) (n : BitVec 17) (s : State) : Res :=
  let nd := { s.me.scalarNeed [] [a.toNat] with sup := true }
  issue nd (waitInk fun s =>
    let x := s.me.getS a.toNat
    consume [x] (fun s =>
      if s.me.csrWritable n.toNat then .next (retire nd (csrWrite n.toNat x.val s)) else trap .illegal s) s) s

end Sys2Proof.Machine
end

