-- ==== Sys2Proof/Machine/Float.lean ====
section
/-! DEFINITION. Machine/Float.lean: the binary float types, exact values, one correct rounding, and the operations on
them (R86 to R94, R109, R127, R150 to R159). An exact value is a sign, a natural number, a power of two, and a sticky
bit for a value strictly between that number and the next. -/
namespace Sys2Proof.Machine

/-! ### Formats (R86, R87) -/

/-- A binary float format: width, exponent bits, fraction bits, bias, and whether it has infinities (e4m3 has none). -/
structure Fmt where
  w : Nat
  eb : Nat
  fb : Nat
  bias : Nat
  inf : Bool := true
  deriving DecidableEq, Repr, Inhabited

/-- The format of a type code. -/
def fmtOf (t : Nat) : Fmt :=
  if t = 0x08 then { w := 64, eb := 11, fb := 52, bias := 1023 }
  else if t = 0x09 then { w := 32, eb := 8, fb := 23, bias := 127 }
  else if t = 0x0A then { w := 16, eb := 5, fb := 10, bias := 15 }
  else if t = 0x0B then { w := 16, eb := 8, fb := 7, bias := 127 }
  else if t = 0x0C then { w := 8, eb := 4, fb := 3, bias := 7, inf := false }
  else { w := 8, eb := 5, fb := 2, bias := 15 }

/-- The canonical NaN (R87): quiet, positive. -/
def Fmt.nan (f : Fmt) : Nat :=
  if f.inf then (2 ^ f.eb - 1) * 2 ^ f.fb + 2 ^ (f.fb - 1) else 0x7F

/-- The pattern of an infinity. -/
def Fmt.infBits (f : Fmt) (neg : Bool) : Nat := (2 ^ f.eb - 1) * 2 ^ f.fb + (if neg then 2 ^ (f.w - 1) else 0)

/-- The pattern of the largest finite value. -/
def Fmt.maxBits (f : Fmt) (neg : Bool) : Nat :=
  (if f.inf then (2 ^ f.eb - 1) * 2 ^ f.fb - 1 else 0x7E) + (if neg then 2 ^ (f.w - 1) else 0)

/-- An exact value: a NaN, an infinity, or (m, or strictly between m and m + 1 when sticky) times 2^e. -/
inductive Num where
  | nan (signalling : Bool)
  | inf (neg : Bool)
  | fin (neg : Bool) (m : Nat) (e : Int) (sticky : Bool)
  deriving DecidableEq, Repr, Inhabited

/-- A finite value with no sticky part. -/
abbrev Num.exact (neg : Bool) (m : Nat) (e : Int) : Num := .fin neg m e false

/-- Read a pattern (R86, R87); under FTZ a subnormal is a zero of its sign (R89). -/
def Fmt.read (f : Fmt) (ftz : Bool) (v : Nat) : Num :=
  let neg := bitOf v (f.w - 1)
  let ex := v / 2 ^ f.fb % 2 ^ f.eb
  let fr := v % 2 ^ f.fb
  if f.inf && ex == 2 ^ f.eb - 1 then
    if fr = 0 then .inf neg else .nan (!bitOf fr (f.fb - 1))
  else if !f.inf && v % 2 ^ (f.w - 1) == 0x7F then .nan false
  else if ex = 0 then
    if ftz then .exact neg 0 0 else .exact neg fr (1 - (f.bias : Int) - f.fb)
  else .exact neg (2 ^ f.fb + fr) ((ex : Int) - f.bias - f.fb)

/-! ### Rounding (R90, R91) -/

/-- Whether rounding goes away from zero, given the last kept bit, how the dropped part compares with one half (0
zero, 1 below, 2 equal, 3 above), the sign and the mode (R90). -/
def roundsUp (rnd : Nat) (neg odd : Bool) (part : Nat) : Bool :=
  if rnd = 0 then part == 3 || (part == 2 && odd)
  else if rnd = 1 then false
  else if rnd = 2 then !neg && part != 0
  else if rnd = 3 then neg && part != 0
  else decide (2 ≤ part)

/-- How r of d, with a sticky part, compares with one half of d. -/
def partOf (r d : Nat) (sticky : Bool) : Nat :=
  if r = 0 && !sticky then 0
  else if 2 * r < d then 1
  else if 2 * r = d && !sticky then 2
  else 3

/-- Divide a magnitude by d and round to a natural number: the number, and whether it is inexact. -/
def roundDiv (rnd : Nat) (neg : Bool) (m d : Nat) (sticky : Bool) : Nat × Bool :=
  let q := m / d
  let p := partOf (m % d) d sticky
  (if roundsUp rnd neg (q % 2 == 1) p then q + 1 else q, p != 0)

/-- Divide a magnitude by 2^sh and round; a negative shift multiplies. -/
def roundShift (rnd : Nat) (neg : Bool) (m : Nat) (sh : Int) (sticky : Bool) : Nat × Bool :=
  if sh ≤ 0 then roundDiv rnd neg (m * 2 ^ sh.natAbs) 1 sticky else roundDiv rnd neg m (2 ^ sh.toNat) sticky

/-- What an overflow gives (R90): the pattern. -/
def Fmt.overflow (f : Fmt) (rnd : Nat) (neg : Bool) : Nat :=
  if !f.inf then f.maxBits neg
  else if rnd = 1 || (rnd == 2 && neg) || (rnd == 3 && !neg) then f.maxBits neg
  else f.infBits neg

/-- The exponent of the leading bit of m·2^e. -/
abbrev topBit (m : Nat) (e : Int) : Int := (m.log2 : Int) + e

/-- round_to (R70, R89 to R91): the pattern and the exceptions. A sticky value carries more bits than any format. -/
def Fmt.round (f : Fmt) (rnd : Nat) (ftz : Bool) (x : Num) : Nat × Nat :=
  match x with
  | .nan sig => (f.nan, if sig then excInvalid else 0)
  | .inf neg => if f.inf then (f.infBits neg, 0) else (f.nan, excInvalid)
  | .fin neg m e sticky =>
    let sign := if neg then 2 ^ (f.w - 1) else 0
    if m = 0 && !sticky then (sign, 0)
    else
      let emin : Int := 1 - f.bias
      -- rounded to the fraction width with the exponent unbounded
      let sh : Int := m.log2 - f.fb
      let (r, inx) := roundShift rnd neg m sh sticky
      let top := topBit r (e + sh)
      if top < emin then
        -- tiny: rounded again at the quantum of the subnormals
        let (r', inx') := roundShift rnd neg m (emin - f.fb - e) sticky
        if ftz && decide (0 < r') && decide (r' < 2 ^ f.fb) then (sign, excUnderflow + excInexact)
        else (sign + r', if inx' then excUnderflow + excInexact else 0)
      else
        let bits := ((top + f.bias - 1).toNat) * 2 ^ f.fb + (if r = 2 ^ (f.fb + 1) then 2 ^ f.fb else r)
        if f.maxBits false < bits || 5000 < top then (f.overflow rnd neg, excOverflow + excInexact)
        else (sign + bits, if inx then excInexact else 0)

/-! ### Operations on exact values -/

/-- Whether a value is a NaN, and whether it signals. -/
def Num.isNan : Num → Bool
  | .nan _ => true
  | _ => false

def Num.isSnan : Num → Bool
  | .nan true => true
  | _ => false

/-- The negation, exact, of any value (R151, R153). -/
def Num.neg : Num → Num
  | .nan s => .nan s
  | .inf n => .inf (!n)
  | .fin n m e st => .fin (!n) m e st

/-- The sign. -/
def Num.isNeg : Num → Bool
  | .nan _ => false
  | .inf n => n
  | .fin n _ _ _ => n

/-- The magnitude. -/
def Num.abs : Num → Num
  | .nan s => .nan s
  | .inf _ => .inf false
  | .fin _ m e st => .fin false m e st

def Num.isZero : Num → Bool
  | .fin _ m _ st => m == 0 && !st
  | _ => false

/-- A NaN result of operands, one of which is a NaN: invalid when one signals (R87). -/
def nanOf (xs : List Num) : Num × Nat := (.nan false, if xs.any Num.isSnan then excInvalid else 0)

/-- The signed integer of a magnitude. -/
abbrev signed (neg : Bool) (m : Nat) : Int := if neg then -(m : Int) else m

/-- The sum (R88): the sign of an exact zero sum is + except under RDN, or that of two like-signed zeros. -/
def Num.add (rnd : Nat) (x y : Num) : Num × Nat :=
  if x.isNan || y.isNan then nanOf [x, y]
  else match x, y with
    | .inf a, .inf b => if a = b then (.inf a, 0) else (.nan false, excInvalid)
    | .inf a, _ => (.inf a, 0)
    | _, .inf b => (.inf b, 0)
    | .fin a m e _, .fin b n g _ =>
      if m = 0 && n = 0 then (.exact (if a = b then a else rnd == 3) 0 0, 0)
      else
        let lo := min e g
        let v := signed a (m * 2 ^ (e - lo).toNat) + signed b (n * 2 ^ (g - lo).toNat)
        if v = 0 then (.exact (rnd == 3) 0 0, 0) else (.exact (decide (v < 0)) v.natAbs lo, 0)
    | _, _ => (.nan false, 0)

/-- The product (R88, R109). -/
def Num.mul (x y : Num) : Num × Nat :=
  if x.isNan || y.isNan then nanOf [x, y]
  else match x, y with
    | .fin a m e _, .fin b n g _ => (.exact (a != b) (m * n) (e + g), 0)
    | _, _ => if x.isZero || y.isZero then (.nan false, excInvalid) else (.inf (x.isNeg != y.isNeg), 0)

/-- The fused product and sum, x·y + z (R151): 0 times infinity is invalid also beside a quiet NaN. -/
def Num.fma (rnd : Nat) (negProduct : Bool) (x y z : Num) : Num × Nat :=
  let p := x.mul y
  let prod := if negProduct then p.1.neg else p.1
  if p.2 != 0 then (.nan false, excInvalid)
  else if x.isNan || y.isNan || z.isNan then nanOf [x, y, z]
  else prod.add rnd z

/-- The quotient (R88, R109): at least 140 bits, then sticky. -/
def Num.div (x y : Num) : Num × Nat :=
  if x.isNan || y.isNan then nanOf [x, y]
  else match x, y with
    | .inf _, .inf _ => (.nan false, excInvalid)
    | .inf a, _ => (.inf (a != y.isNeg), 0)
    | _, .inf b => (.exact (x.isNeg != b) 0 0, 0)
    | .fin a m e _, .fin b n g _ =>
      if n = 0 then (if m = 0 then (.nan false, excInvalid) else (.inf (a != b), excDivZero))
      else
        let k := 140 + n.log2
        (.fin (a != b) (m * 2 ^ k / n) (e - g - k) (m * 2 ^ k % n != 0), 0)
    | _, _ => (.nan false, 0)

/-- The integer square root, by bits from the top. -/
def isqrt (m : Nat) : Nat :=
  (List.range (m.log2 / 2 + 1)).foldr (fun i r => if (r + 2 ^ i) * (r + 2 ^ i) ≤ m then r + 2 ^ i else r) 0

/-- The square root (R109, R151). -/
def Num.sqrt (x : Num) : Num × Nat :=
  match x with
  | .nan _ => nanOf [x]
  | .inf neg => if neg then (.nan false, excInvalid) else (.inf false, 0)
  | .fin neg m e _ =>
    if m = 0 then (x, 0)
    else if neg then (.nan false, excInvalid)
    else
      let m' := if e % 2 = 0 then m * 2 ^ 200 else m * 2 ^ 201
      let r := isqrt m'
      (.fin false r ((if e % 2 = 0 then e - 200 else e - 201) / 2) (r * r != m'), 0)

/-- 1/x (R154). -/
def Num.rcp (x : Num) : Num × Nat :=
  match x with
  | .fin neg m _ _ => if m = 0 then (.inf neg, excDivZero) else (Num.exact false 1 0).div x
  | .inf neg => (.exact neg 0 0, 0)
  | .nan _ => nanOf [x]

/-- 1/sqrt x (R154). -/
def Num.rsq (x : Num) : Num × Nat :=
  match x with
  | .nan _ => nanOf [x]
  | .inf neg => if neg then (.nan false, excInvalid) else (.exact false 0 0, 0)
  | .fin neg m e _ =>
    if m = 0 then (.inf neg, excDivZero)
    else if neg then (.nan false, excInvalid)
    else
      let m' := if e % 2 = 0 then m else m * 2
      let e' := if e % 2 = 0 then e else e - 1
      let k := 100 + m'.log2
      let r := isqrt (2 ^ (2 * k) / m')
      (.fin false r (-(e' / 2) - k) (r * r * m' != 2 ^ (2 * k)), 0)

/-- 2^f for a fraction f of n bits, b / 2^n, as a number of 256 fraction bits: the last bit first, each bit doubles
and each place takes a square root. -/
def exp2Frac (b : Nat) : Nat → Nat → Nat
  | 0, r => r
  | n + 1, r => exp2Frac (b / 2) n (isqrt (r * (if b % 2 = 1 then 2 else 1) * 2 ^ 256))

/-- 2^x (R154). An integer x is exact; any other result is irrational, and 250 bits separate it from every rounding
boundary of a format of at most 24 bits. A magnitude below 2^-40 gives a value just above or below 1. -/
def Num.exp2 (x : Num) : Num × Nat :=
  match x with
  | .nan _ => nanOf [x]
  | .inf neg => if neg then (.exact false 0 0, 0) else (.inf false, 0)
  | .fin neg m e _ =>
    if m = 0 then (.exact false 1 0, 0)
    else if topBit m e < -40 then
      (if neg then .fin false (2 ^ 200 - 1) (-200) true else .fin false (2 ^ 200) (-200) true, 0)
    else if 20 < topBit m e then (.exact false 1 (if neg then -100000 else 100000), 0)
    else
      let v : Int := signed neg (if e < 0 then m else m * 2 ^ e.toNat)
      let n := (-(min e 0)).toNat
      let whole := v / 2 ^ n
      let frac := (v % 2 ^ n).toNat
      if frac = 0 then (.exact false 1 whole, 0)
      else (.fin false (exp2Frac frac n (2 ^ 256)) (whole - 256) true, 0)

/-- The first n bits of log2 of y / 2^511, y in [2^511, 2^512), by repeated squaring. -/
def log2Frac : Nat → Nat → Nat → Nat
  | 0, _, acc => acc
  | n + 1, y, acc =>
    let z := y * y / 2 ^ 511
    if 2 ^ 512 ≤ z then log2Frac n (z / 2) (2 * acc + 1) else log2Frac n z (2 * acc)

/-- log2 x (R154): exact for a power of two, else irrational: 120 fraction bits, then sticky. -/
def Num.log2 (x : Num) : Num × Nat :=
  match x with
  | .nan _ => nanOf [x]
  | .inf neg => if neg then (.nan false, excInvalid) else (.inf false, 0)
  | .fin neg m e _ =>
    if m = 0 then (.inf true, excDivZero)
    else if neg then (.nan false, excInvalid)
    else
      let whole := topBit m e
      if m = 2 ^ m.log2 then (.exact (decide (whole < 0)) whole.natAbs 0, 0)
      else
        let t : Int := whole * 2 ^ 120 + log2Frac 120 (m * 2 ^ (511 - m.log2)) 0
        if t < 0 then (.fin true (t.natAbs - 1) (-120) true, 0) else (.fin false t.toNat (-120) true, 0)

/-- x·2^n (R155); exponents beyond any format's are cut to one that still overflows or underflows. -/
def Num.scalb (x : Num) (n : Int) : Num × Nat :=
  match x with
  | .fin neg m e st => (.fin neg m (e + max (-20000) (min 20000 n)) st, 0)
  | .nan _ => nanOf [x]
  | .inf neg => (.inf neg, 0)

/-- The value rounded to an integer: sign, magnitude, whether inexact (R94, R156). -/
def roundInt (rnd : Nat) (neg : Bool) (m : Nat) (e : Int) (sticky : Bool) : Nat × Bool :=
  roundShift rnd neg m (-e) sticky

/-- Compare two values, neither a NaN: below, equal, above as 0, 1, 2. -/
def Num.cmp (x y : Num) : Nat :=
  match x, y with
  | .inf a, .inf b => if a = b then 1 else if a then 0 else 2
  | .inf a, _ => if a then 0 else 2
  | _, .inf b => if b then 2 else 0
  | .fin a m e _, .fin b n g _ =>
    let lo := min e g
    let v := signed a (m * 2 ^ (e - lo).toNat)
    let u := signed b (n * 2 ^ (g - lo).toNat)
    if v < u then 0 else if v = u then 1 else 2
  | _, _ => 1

/-- A float relation (R53, R54, R157) of the result of a comparison; 3 stands for unordered. -/
def relHolds (rel c : Nat) : Bool :=
  if rel = 0 then c == 1
  else if rel = 1 then c != 1
  else if rel = 2 then c == 0
  else if rel = 3 then c == 0 || c == 1
  else if rel = 4 then c == 2
  else if rel = 5 then c == 2 || c == 1
  else if rel = 6 then c == 3
  else c != 3

/-- Whether a relation signals on any NaN (R53). -/
abbrev relSignals (rel : Nat) : Bool := decide (2 ≤ rel ∧ rel ≤ 5)

/-- A relation of two values with its exceptions (R54, R128, R157). -/
def Num.rel (rel : Nat) (x y : Num) : Bool × Nat :=
  if x.isNan || y.isNan then
    (relHolds rel 3, if x.isSnan || y.isSnan || relSignals rel then excInvalid else 0)
  else (relHolds rel (x.cmp y), 0)

/-- Minimum or maximum (R88, R152): the pattern chosen and the exceptions. Patterns and values go together; a zero
read under FTZ is the value returned. -/
def Fmt.minMax (f : Fmt) (ftz isMax : Bool) (a b : Nat) : Nat × Nat :=
  let x := f.read ftz a
  let y := f.read ftz b
  let back (v : Num) (p : Nat) : Nat := match v with
    | .fin neg 0 _ _ => if neg then 2 ^ (f.w - 1) else 0
    | _ => p
  let e := if x.isSnan || y.isSnan then excInvalid else 0
  if x.isNan && y.isNan then (f.nan, e)
  else if x.isNan then (back y b, e)
  else if y.isNan then (back x a, e)
  else
    let c := x.cmp y
    let lower := c == 0 || (c == 1 && (x.isNeg || !y.isNeg))
    if lower != isMax then (back x a, 0) else
      if c == 1 && x.isNeg == y.isNeg then (back x a, 0) else (back y b, 0)

/-- |x| and -x (R153). -/
def Fmt.absNeg (f : Fmt) (ftz isNeg : Bool) (a : Nat) : Nat × Nat :=
  let x := f.read ftz a
  if x.isNan then (f.nan, if x.isSnan then excInvalid else 0)
  else
    let y := if isNeg then x.neg else x.abs
    let mag := match x with | .fin _ 0 _ _ => 0 | _ => a % 2 ^ (f.w - 1)
    ((if y.isNeg then 2 ^ (f.w - 1) else 0) + mag, 0)

/-- Round a value to an integral value of its own format (R156). -/
def Fmt.toIntegral (f : Fmt) (rnd : Nat) (ftz : Bool) (a : Nat) : Nat × Nat :=
  match f.read ftz a with
  | .nan s => (f.nan, if s then excInvalid else 0)
  | .inf neg => (f.infBits neg, 0)
  | .fin neg m e _ =>
    let (r, inx) := roundInt rnd neg m e false
    ((f.round 1 false (.exact neg r 0)).1, if inx then excInexact else 0)

/-- The class code of a pattern (R158). -/
def Fmt.classOf (f : Fmt) (ftz : Bool) (a : Nat) : Nat :=
  match f.read ftz a with
  | .nan s => if s then 8 else 9
  | .inf neg => if neg then 0 else 7
  | .fin neg m e _ =>
    if m = 0 then (if neg then 3 else 4)
    else if topBit m e < 1 - f.bias then (if neg then 2 else 5) else (if neg then 1 else 6)

/-- The least and greatest value of an integer type (R85). -/
def intMin (t : Nat) : Int := if isSignedType t then -(2 ^ (typeWidth t - 1)) else 0
def intMax (t : Nat) : Int := if isSignedType t then 2 ^ (typeWidth t - 1) - 1 else 2 ^ typeWidth t - 1

/-- Read an element of an integer type. -/
def readInt (t v : Nat) : Int := if isSignedType t then toInt (typeWidth t) v else ((v % 2 ^ typeWidth t : Nat) : Int)

/-- Put a rounded integer into an integer type (R94): the pattern and the exceptions. -/
def placeInt (t : Nat) (v : Int) (inexact : Bool) : Nat × Nat :=
  if intMax t < v then (ofInt (typeWidth t) (intMax t), excInvalid)
  else if v < intMin t then (ofInt (typeWidth t) (intMin t), excInvalid)
  else (ofInt (typeWidth t) v, if inexact then excInexact else 0)

/-- Convert a value to an integer type (R94). -/
def Num.toIntType (x : Num) (rnd t : Nat) : Nat × Nat :=
  match x with
  | .nan _ => (0, excInvalid)
  | .inf neg => (ofInt (typeWidth t) (if neg then intMin t else intMax t), excInvalid)
  | .fin neg m e st =>
    let (r, inx) := roundInt rnd neg m e st
    placeInt t (signed neg r) inx

/-- An integer as an exact value (R93): zero is +0. -/
def Num.ofInt (v : Int) : Num := .exact (decide (v < 0)) v.natAbs 0

/-- Close an operation: an invalid operation raises nothing else (R109); otherwise the rounding adds its own. -/
def Fmt.finish (f : Fmt) (rnd : Nat) (ftz : Bool) (r : Num × Nat) : Nat × Nat :=
  let y := f.round rnd ftz r.1
  if (r.2 ||| y.2) &&& excInvalid != 0 then (f.nan, excInvalid) else (y.1, y.2 ||| r.2)

end Sys2Proof.Machine
end

