-- ==== Sys2Proof/Machine/Decimal.lean ====
section
/-! DEFINITION. Machine/Decimal.lean: decimal64 (R95 to R103): reading, placing an exact result by R98, and the
operations. An exact value is a sign, a natural coefficient, a power of ten, and a sticky bit. -/
namespace Sys2Proof.Machine

/-- The meaning of a d64 pattern (R96). -/
inductive Dec where
  | nan (signalling : Bool)
  | inf (neg : Bool)
  | fin (neg : Bool) (c : Nat) (q : Int) (sticky : Bool)
  deriving DecidableEq, Repr, Inhabited

/-- The largest coefficient. -/
abbrev maxCoeff : Nat := 10 ^ 16 - 1

/-- A finite value with no sticky part. -/
abbrev Dec.exact (neg : Bool) (c : Nat) (q : Int) : Dec := .fin neg c q false

/-- The canonical d64 NaN (R87). -/
abbrev decNan : Nat := 0x7C00000000000000

/-- Read a pattern through its canonical meaning (R95, R96). -/
def Dec.read (v : Nat) : Dec :=
  let neg := bitOf v 63
  if bitsOf v 62 61 != 3 then .exact neg (bitsOf v 52 0) ((bitsOf v 62 53 : Int) - 398)
  else if bitsOf v 60 59 != 3 then
    let c := 2 ^ 53 + bitsOf v 50 0
    .exact neg (if c ≤ maxCoeff then c else 0) ((bitsOf v 60 51 : Int) - 398)
  else if bitsOf v 62 58 = 0x1E then .inf neg
  else .nan (bitOf v 57)

/-- The canonical pattern of a finite value in range (R96). -/
def decBits (neg : Bool) (c : Nat) (q : Int) : Nat :=
  (if neg then 2 ^ 63 else 0) +
  (if c < 2 ^ 53 then (q + 398).toNat * 2 ^ 53 + c else 3 * 2 ^ 61 + (q + 398).toNat * 2 ^ 51 + (c - 2 ^ 53))

/-- The pattern of an infinity. -/
def decInf (neg : Bool) : Nat := (if neg then 2 ^ 63 else 0) + 0x7800000000000000

/-- How many decimal digits a number has; 0 has none. -/
def decDigits : Nat → Nat → Nat → Nat
  | 0, _, acc => acc
  | fuel + 1, c, acc => if c = 0 then acc else decDigits fuel (c / 10) (acc + 1)

/-- The digits of a number, by a bound from its bits. -/
abbrev digitsOf (c : Nat) : Nat := decDigits (c.log2 + 2) c 0

/-- Take trailing zeros off a coefficient: what is left and how many were taken. -/
def stripZeros : Nat → Nat → Nat → Nat × Nat
  | 0, c, n => (c, n)
  | fuel + 1, c, n => if c % 10 = 0 && c != 0 then stripZeros fuel (c / 10) (n + 1) else (c, n)




/-- Divide a magnitude by 10^sh and round; a negative shift multiplies. -/
def roundTen (rnd : Nat) (neg : Bool) (c : Nat) (sh : Int) (sticky : Bool) : Nat × Bool :=
  if sh ≤ 0 then roundDiv rnd neg (c * 10 ^ sh.natAbs) 1 sticky
  else if (digitsOf c : Int) + 1 < sh then roundDiv rnd neg 1 100 sticky
  else roundDiv rnd neg c (10 ^ sh.toNat) sticky

/-- What a d64 overflow gives (R98). -/
def decOverflow (rnd : Nat) (neg : Bool) : Nat :=
  if rnd = 1 || (rnd == 2 && neg) || (rnd == 3 && !neg) then decBits neg maxCoeff 369 else decInf neg

/-- Step 3 of R98: an inexact result. -/
def placeInexact (rnd : Nat) (neg : Bool) (c : Nat) (q : Int) (sticky : Bool) : Nat × Nat :=
  let lead : Int := (digitsOf c : Int) - 1 + q
  let q' := max (-398) (lead - 15)
  let (r, _) := roundTen rnd neg c (q' - q) sticky
  let (r, q') := if r = 10 ^ 16 then (10 ^ 15, q' + 1) else (r, q')
  if 369 < q' then (decOverflow rnd neg, excOverflow + excInexact)
  else (decBits neg r q', if lead < -383 then excUnderflow + excInexact else excInexact)

/-- Place an exact result (R98) with its preferred exponent P. -/
def Dec.place (rnd : Nat) (x : Dec) (p : Int) : Nat × Nat :=
  match x with
  | .nan s => (decNan, if s then excInvalid else 0)
  | .inf neg => (decInf neg, 0)
  | .fin neg c q sticky =>
    if c = 0 && !sticky then (decBits neg 0 (clampInt p (-398) 369), 0)
    else if sticky then placeInexact rnd neg c q true
    else
      let (c0, n) := stripZeros (c.log2 + 1) c 0
      let q0 : Int := q + n
      let lo : Int := max (-398) (q0 - (16 - digitsOf c0))
      let hi : Int := min 369 q0
      if c0 ≤ maxCoeff && decide (lo ≤ hi) then
        let q' := clampInt p lo hi
        (decBits neg (c0 * 10 ^ (q0 - q').toNat) q', 0)
      else placeInexact rnd neg c0 q0 false

/-- Whether a value is a NaN; whether it signals; its sign. -/
def Dec.isNan : Dec → Bool
  | .nan _ => true
  | _ => false

def Dec.isSnan : Dec → Bool
  | .nan true => true
  | _ => false

def Dec.isNeg : Dec → Bool
  | .nan _ => false
  | .inf n => n
  | .fin n _ _ _ => n

def Dec.isZero : Dec → Bool
  | .fin _ c _ _ => c == 0
  | _ => false

def Dec.neg : Dec → Dec
  | .nan s => .nan s
  | .inf n => .inf (!n)
  | .fin n c q st => .fin (!n) c q st

/-- The exponent of a finite value. -/
def Dec.expo : Dec → Int
  | .fin _ _ q _ => q
  | _ => 0

/-- A NaN result of operands. -/
def decNanOf (xs : List Dec) : Dec × Nat := (.nan false, if xs.any Dec.isSnan then excInvalid else 0)

/-- The exact sum (R88, R102). -/
def Dec.add (rnd : Nat) (x y : Dec) : Dec × Nat :=
  if x.isNan || y.isNan then decNanOf [x, y]
  else match x, y with
    | .inf a, .inf b => if a = b then (.inf a, 0) else (.nan false, excInvalid)
    | .inf a, _ => (.inf a, 0)
    | _, .inf b => (.inf b, 0)
    | .fin a c q _, .fin b d r _ =>
      let lo := min q r
      if c = 0 && d = 0 then (.exact (if a = b then a else rnd == 3) 0 lo, 0)
      else
        let v := signed a (c * 10 ^ (q - lo).toNat) + signed b (d * 10 ^ (r - lo).toNat)
        if v = 0 then (.exact (rnd == 3) 0 lo, 0) else (.exact (decide (v < 0)) v.natAbs lo, 0)
    | _, _ => (.nan false, 0)

/-- The exact product (R88, R102). -/
def Dec.mul (x y : Dec) : Dec × Nat :=
  if x.isNan || y.isNan then decNanOf [x, y]
  else match x, y with
    | .fin a c q _, .fin b d r _ => (.exact (a != b) (c * d) (q + r), 0)
    | _, _ => if x.isZero || y.isZero then (.nan false, excInvalid) else (.inf (x.isNeg != y.isNeg), 0)

/-- The fused product and sum (R102, R151). -/
def Dec.fma (rnd : Nat) (negProduct : Bool) (x y z : Dec) : Dec × Nat :=
  let p := x.mul y
  let prod := if negProduct then p.1.neg else p.1
  if p.2 != 0 then (.nan false, excInvalid)
  else if x.isNan || y.isNan || z.isNan then decNanOf [x, y, z]
  else prod.add rnd z

/-- The quotient (R102): 40 digits more than the divisor's, then sticky. -/
def Dec.div (x y : Dec) : Dec × Nat :=
  if x.isNan || y.isNan then decNanOf [x, y]
  else match x, y with
    | .inf _, .inf _ => (.nan false, excInvalid)
    | .inf a, _ => (.inf (a != y.isNeg), 0)
    | _, .inf b => (.exact (x.isNeg != b) 0 (-398), 0)
    | .fin a c q _, .fin b d r _ =>
      if d = 0 then (if c = 0 then (.nan false, excInvalid) else (.inf (a != b), excDivZero))
      else if c = 0 then (.exact (a != b) 0 (q - r), 0)
      else (.fin (a != b) (c * 10 ^ 60 / d) (q - r - 60) (c * 10 ^ 60 % d != 0), 0)
    | _, _ => (.nan false, 0)

/-- The preferred exponent of a quotient (R97); that of a finite value over an infinity is open (log 7). -/
def decDivExpo (a b : Nat) : Int :=
  match Dec.read a, Dec.read b with
  | .fin _ _ q _, .fin _ _ r _ => q - r
  | _, _ => (Config.zeroExponent a b % 768 : Nat) - (398 : Int)

/-- The square root (R102, R151). -/
def Dec.sqrt (x : Dec) : Dec × Nat :=
  match x with
  | .nan _ => decNanOf [x]
  | .inf neg => if neg then (.nan false, excInvalid) else (.inf false, 0)
  | .fin neg c q _ =>
    if c = 0 then (.exact neg 0 (q / 2), 0)
    else if neg then (.nan false, excInvalid)
    else
      let c' := if q % 2 = 0 then c * 10 ^ 60 else c * 10 ^ 61
      let r := isqrt c'
      (.fin false r ((if q % 2 = 0 then q - 60 else q - 61) / 2) (r * r != c'), 0)

/-- Compare two values, neither a NaN: below, equal, above as 0, 1, 2 (R101). -/
def Dec.cmp (x y : Dec) : Nat :=
  match x, y with
  | .inf a, .inf b => if a = b then 1 else if a then 0 else 2
  | .inf a, _ => if a then 0 else 2
  | _, .inf b => if b then 2 else 0
  | .fin a c q _, .fin b d r _ =>
    let lo := min q r
    let v := signed a (c * 10 ^ (q - lo).toNat)
    let u := signed b (d * 10 ^ (r - lo).toNat)
    if v < u then 0 else if v = u then 1 else 2
  | _, _ => 1

/-- A relation of two values with its exceptions (R54, R101). -/
def Dec.rel (rel : Nat) (x y : Dec) : Bool × Nat :=
  if x.isNan || y.isNan then
    (relHolds rel 3, if x.isSnan || y.isSnan || relSignals rel then excInvalid else 0)
  else (relHolds rel (x.cmp y), 0)

/-- The canonical pattern of a value's own meaning (R96). -/
def Dec.canon : Dec → Nat
  | .nan _ => decNan
  | .inf neg => decInf neg
  | .fin neg c q _ => decBits neg c q

/-- Close an operation: an invalid operation raises nothing else (R109). -/
def decFinish (rnd : Nat) (r : Dec × Nat) (p : Int) : Nat × Nat :=
  if r.2 &&& excInvalid != 0 then (decNan, excInvalid)
  else ((r.1.place rnd p).1, (r.1.place rnd p).2 ||| r.2)

/-- Minimum or maximum (R88, R152): equal values are told apart by the sign of a zero, then by the exponent. -/
def decMinMax (isMax : Bool) (x y : Dec) : Nat × Nat :=
  let e := if x.isSnan || y.isSnan then excInvalid else 0
  if x.isNan && y.isNan then (decNan, e)
  else if x.isNan then (y.canon, e)
  else if y.isNan then (x.canon, e)
  else
    let c := x.cmp y
    let pickX :=
      if c != 1 then (c == 0) != isMax
      else if x.isNeg != y.isNeg then x.isNeg != isMax
      else if x.expo = y.expo then true
      else (decide (x.expo < y.expo)) != isMax
    ((if pickX then x else y).canon, 0)

/-- Quantize a by b (R99). -/
def decQuantize (rnd : Nat) (x y : Dec) : Nat × Nat :=
  if x.isNan || y.isNan then (decNan, if x.isSnan || y.isSnan then excInvalid else 0)
  else match x, y with
    | .inf a, .inf _ => (decInf a, 0)
    | .fin a c q _, .fin _ _ r _ =>
      let (k, inx) := if c = 0 then (0, false) else roundTen rnd a c (r - q) false
      if maxCoeff < k then (decNan, excInvalid) else (decBits a k r, if inx then excInexact else 0)
    | _, _ => (decNan, excInvalid)

/-- The same-quantum test (R100). -/
def decSame (x y : Dec) : Bool :=
  match x, y with
  | .nan _, .nan _ => true
  | .inf _, .inf _ => true
  | .fin _ _ q _, .fin _ _ r _ => decide (q = r)
  | _, _ => false

/-- A binary value as a decimal one, exactly (R103). -/
def Num.toDec : Num → Dec
  | .nan s => .nan s
  | .inf neg => .inf neg
  | .fin neg m e _ => if 0 ≤ e then .exact neg (m * 2 ^ e.toNat) 0 else .exact neg (m * 5 ^ e.natAbs) e

/-- A decimal value as a binary one for one rounding: at least 80 bits, then sticky (R103). -/
def Dec.toNum : Dec → Num
  | .nan s => .nan s
  | .inf neg => .inf neg
  | .fin neg c q _ =>
    if c = 0 then .exact neg 0 0
    else if 0 ≤ q then .exact neg (c * 10 ^ q.toNat) 0
    else
      let d : Nat := 10 ^ q.natAbs
      let k : Nat := 80 + d.log2
      .fin neg (c * 2 ^ k / d) (-(k : Int)) (c * 2 ^ k % d != 0)

/-- Convert to an integer type (R94, R103). -/
def Dec.toIntType (x : Dec) (rnd t : Nat) : Nat × Nat :=
  match x with
  | .nan _ => (0, excInvalid)
  | .inf neg => (ofInt (typeWidth t) (if neg then intMin t else intMax t), excInvalid)
  | .fin neg c q _ =>
    let (r, inx) := if c = 0 then (0, false) else roundTen rnd neg c (-q) false
    placeInt t (signed neg r) inx

/-- The class code of a d64 value (R158). -/
def Dec.classOf : Dec → Nat
  | .nan s => if s then 8 else 9
  | .inf neg => if neg then 0 else 7
  | .fin neg c q _ =>
    if c = 0 then (if neg then 3 else 4)
    else if (digitsOf c : Int) - 1 + q < -383 then (if neg then 2 else 5)
    else (if neg then 1 else 6)

end Sys2Proof.Machine
end

