-- ==== Sys2Proof/Machine/Scalar.lean ====
section
/-! DEFINITION. Machine/Scalar.lean: the scalar instructions 0x00 to 0x1C (R116, R117, R119 to R129). -/
namespace Sys2Proof.Machine

/-! ### Shared operations -/

/-- An instruction of two sources that consumes both and writes one result (R121). -/
def scalar2 (lat : Nat) (legal : Bool) (f : Dword → Dword → Dword) (d a b : BitVec 7) (s : State) : Res :=
  let n := { s.me.scalarNeed [d.toNat] [a.toNat, b.toNat] lat with legal := legal }
  issue n (fun s =>
    let x := s.me.getS a.toNat
    let y := s.me.getS b.toNat
    consume [x, y] (fun s => .next (retire n (s.setS d.toNat (clean (f x.val y.val))))) s) s

/-- An instruction of one source that consumes it and writes one result. -/
def scalar1 (lat : Nat) (legal : Bool) (f : Dword → Dword) (d a : BitVec 7) (s : State) : Res :=
  let n := { s.me.scalarNeed [d.toNat] [a.toNat] lat with legal := legal }
  issue n (fun s =>
    let x := s.me.getS a.toNat
    consume [x] (fun s => .next (retire n (s.setS d.toNat (clean (f x.val))))) s) s

/-- An instruction that changes one register by an immediate, consuming its poison (R126). -/
def scalarImm (ext : Bool) (f : Dword → Dword) (d : BitVec 7) (s : State) : Res :=
  let n := { s.me.scalarNeed [d.toNat] [d.toNat] with ext := ext }
  issue n (fun s =>
    let x := s.me.getS d.toNat
    consume [x] (fun s => .next (retire n (s.setS d.toNat (clean (f x.val))))) s) s

/-- An instruction that loads an immediate. -/
def scalarLoad (ext : Bool) (v : Dword) (d : BitVec 7) (s : State) : Res :=
  let n := { s.me.scalarNeed [d.toNat] [] with ext := ext }
  issue n (fun s => .next (retire n (s.setS d.toNat (clean v)))) s

/-- An instruction that raises exceptions and writes its result at a fixed latency (R117). -/
def scalarExc (srcs : List Nat) (legal : Bool) (f : State → List Nat → Nat × Nat) (d : BitVec 7) (s : State) : Res :=
  let n := { s.me.scalarNeed [d.toNat] srcs 4 with legal := legal, arith := true }
  issue n (fun s =>
    let xs := srcs.map s.me.getS
    consume xs (fun s =>
      let r := f s (xs.map (·.val.toNat))
      commitScalar r.2 (fun s => .next (retire n (s.setS d.toNat (clean (BitVec.ofNat 64 r.1))))) s) s) s

/-- Put a variable-latency scalar result in flight, with its exceptions (R119, R122): an enabled exception traps at
issue, and otherwise FLAGS takes the set when the result is written. -/
def scalarVar (srcs : List Nat) (f : State → List Nat → Nat × Nat) (d : BitVec 7) (s : State) : Res :=
  let n := s.me.scalarNeed [d.toNat] srcs 0
  issue n (fun s =>
    let xs := srcs.map s.me.getS
    consume xs (fun s =>
      let r := f s (xs.map (·.val.toNat))
      if s.me.enabled r.2 != 0 then trap (.arith (s.me.enabled r.2)) s
      else
        let v : VarResult :=
          { writes := (s.me.sRegs d.toNat).map fun g => { reg := g, val := clean (BitVec.ofNat 64 r.1) },
            flags := BitVec.ofNat 32 r.2, inSketch := s.me.sketch.isSome }
        .next (retire n (s.updMe fun a => { a with varlat := a.varlat ++ [v] }))) s) s

/-- A bit function of R58 on w bits (R124, R134). -/
def bitFun (f w x : Nat) : Nat :=
  let bit (i : Nat) : Bool := x / 2 ^ i % 2 = 1
  let popc := ((List.range w).filter bit).length
  if f = 0 then popc
  else if f = 1 then (if x % 2 ^ w = 0 then w else w - 1 - (x % 2 ^ w).log2)
  else if f = 2 then ((List.range w).find? bit).getD w
  else if f = 3 then (List.range w).foldl (fun r i => if bit i then r + 2 ^ (w - 1 - i) else r) 0
  else if f = 4 then (List.range (w / 8)).foldl (fun r i => r + x / 2 ^ (8 * i) % 256 * 2 ^ (w - 8 - 8 * i)) 0
  else popc % 2

/-- The field that SBFX, SBFI and VBFX name (R125): its place and its width, 0 when it lies above the value. -/
def bitField (w c : Nat) : Nat × Nat := (c % 64, min (c / 256 % 64 + 1) (w - c % 64))

/-- Extract a field (R125). -/
def extractField (w x c : Nat) (signed : Bool) : Nat :=
  let (p, k) := bitField w c
  if k = 0 then 0
  else
    let v := x / 2 ^ p % 2 ^ k
    if signed then ofInt w (toInt k v) else v

/-- Insert the low bits of y into a field of x (R125). -/
def insertField (x y c : Nat) : Nat :=
  let (p, k) := bitField 64 c
  if k = 0 then x else x / 2 ^ (p + k) * 2 ^ (p + k) + y % 2 ^ k * 2 ^ p + x % 2 ^ p

/-- A scalar relation (R53, R123). -/
def scalarRel (r : Nat) (x y : Dword) : Bool :=
  if r = 0 then x == y
  else if r = 1 then x != y
  else if r = 2 then x.slt y
  else if r = 3 then x.sle y
  else if r = 4 then y.slt x
  else if r = 5 then y.sle x
  else if r = 6 then x.ult y
  else x.ule y

/-- A truth value as 1 or 0. -/
abbrev ofTruth (b : Bool) : Nat := if b then 1 else 0

/-! ### Integer instructions -/

def execSadd (d a b : BitVec 7) (s : State) : Res := scalar2 1 true (· + ·) d a b s
def execSsub (d a b : BitVec 7) (s : State) : Res := scalar2 1 true (· - ·) d a b s
def execSmul (d a b : BitVec 7) (s : State) : Res := scalar2 4 true (· * ·) d a b s

/-- SMULH (R121): the high half of the signed or unsigned product. -/
def execSmulh (d a b : BitVec 7) (u : Bool) (s : State) : Res :=
  scalar2 4 true (fun x y =>
    if u then BitVec.ofNat 64 (x.toNat * y.toNat / 2 ^ 64) else BitVec.ofInt 64 (x.toInt * y.toInt / 2 ^ 64)) d a b s

/-- The quotient and its exceptions (R122). -/
def divide (u : Bool) (x y : Dword) : Nat × Nat :=
  if y = 0 then (0, excDivZero)
  else (if u then (x / y).toNat else (x.sdiv y).toNat, 0)

/-- The remainder and its exceptions (R122). -/
def remainder (u : Bool) (x y : Dword) : Nat × Nat :=
  if y = 0 then (x.toNat, excDivZero)
  else (if u then (x % y).toNat else (x.srem y).toNat, 0)

/-- The result of a function of two operands. -/
def onTwo (f : Dword → Dword → Nat × Nat) (_ : State) : List Nat → Nat × Nat
  | [x, y] => f (BitVec.ofNat 64 x) (BitVec.ofNat 64 y)
  | _ => (0, 0)

def execSdiv (d a b : BitVec 7) (u : Bool) (s : State) : Res :=
  scalarVar [a.toNat, b.toNat] (onTwo (divide u)) d s
def execSrem (d a b : BitVec 7) (u : Bool) (s : State) : Res :=
  scalarVar [a.toNat, b.toNat] (onTwo (remainder u)) d s
def execSand (d a b : BitVec 7) (s : State) : Res := scalar2 1 true (· &&& ·) d a b s
def execSor (d a b : BitVec 7) (s : State) : Res := scalar2 1 true (· ||| ·) d a b s
def execSxor (d a b : BitVec 7) (s : State) : Res := scalar2 1 true (· ^^^ ·) d a b s
def execSshl (d a b : BitVec 7) (s : State) : Res := scalar2 1 true (fun x y => x <<< (y.toNat % 64)) d a b s
def execSshr (d a b : BitVec 7) (s : State) : Res := scalar2 1 true (fun x y => x >>> (y.toNat % 64)) d a b s
def execSsar (d a b : BitVec 7) (s : State) : Res := scalar2 1 true (fun x y => x.sshiftRight (y.toNat % 64)) d a b s
def execSmin (d a b : BitVec 7) (u : Bool) (s : State) : Res :=
  scalar2 1 true (fun x y => if (if u then x.ult y else x.slt y) then x else y) d a b s
def execSmax (d a b : BitVec 7) (u : Bool) (s : State) : Res :=
  scalar2 1 true (fun x y => if (if u then y.ult x else y.slt x) then x else y) d a b s
def execScmp (d a b : BitVec 7) (r : BitVec 3) (s : State) : Res :=
  scalar2 1 true (fun x y => if scalarRel r.toNat x y then 1 else 0) d a b s

/-- SSEL (R123): the condition is consumed, the selected operand keeps its poison. -/
def execSsel (d a b : BitVec 7) (f : Bool) (c : BitVec 7) (s : State) : Res :=
  let n := { s.me.scalarNeed [d.toNat] [a.toNat, b.toNat, c.toNat] with ext := true }
  issue n (fun s =>
    let z := s.me.getS c.toNat
    consume [z] (fun s =>
      .next (retire n (s.setS d.toNat (s.me.getS (if (z.val != 0) != f then a.toNat else b.toNat))))) s) s

/-- SBITS (R124). -/
def execSbits (d a : BitVec 7) (f : BitVec 3) (s : State) : Res :=
  scalar1 4 (decide (f.toNat < 6)) (fun x => BitVec.ofNat 64 (bitFun f.toNat 64 x.toNat)) d a s

/-- SBFX (R125). -/
def execSbfx (d a b : BitVec 7) (x : Bool) (s : State) : Res :=
  scalar2 4 true (fun v c => BitVec.ofNat 64 (extractField 64 v.toNat c.toNat x)) d a b s

/-- SBFI (R125): reads and writes sd. -/
def execSbfi (d a b : BitVec 7) (s : State) : Res :=
  let n := s.me.scalarNeed [d.toNat] [d.toNat, a.toNat, b.toNat] 4
  issue n (fun s =>
    let z := s.me.getS d.toNat
    let x := s.me.getS a.toNat
    let c := s.me.getS b.toNat
    consume [z, x, c] (fun s =>
      .next (retire n (s.setS d.toNat (clean (BitVec.ofNat 64 (insertField z.val.toNat x.val.toNat c.val.toNat)))))) s) s

/-- SMOV (R121): poison is carried. -/
def execSmov (d a : BitVec 7) (s : State) : Res :=
  let n := s.me.scalarNeed [d.toNat] [a.toNat]
  issue n (fun s => .next (retire n (s.setS d.toNat (s.me.getS a.toNat)))) s

def execSli (d : BitVec 7) (i : BitVec 17) (s : State) : Res := scalarLoad false (i.signExtend 64) d s
def execSliExt (d : BitVec 7) (i : BitVec 17) (p : BitVec 24) (s : State) : Res := scalarLoad true (imm41 i p) d s
def execSlih (d : BitVec 7) (i : BitVec 17) (s : State) : Res :=
  scalarImm false (fun x => x <<< 17 ||| i.setWidth 64) d s
def execSaddi (d : BitVec 7) (i : BitVec 17) (s : State) : Res := scalarImm false (· + i.signExtend 64) d s
def execSaddiExt (d : BitVec 7) (i : BitVec 17) (p : BitVec 24) (s : State) : Res := scalarImm true (· + imm41 i p) d s
def execSandi (d : BitVec 7) (i : BitVec 17) (s : State) : Res := scalarImm false (· &&& i.signExtend 64) d s
def execSori (d : BitVec 7) (i : BitVec 17) (s : State) : Res := scalarImm false (· ||| i.setWidth 64) d s
def execSshli (d : BitVec 7) (i : BitVec 6) (s : State) : Res := scalarImm false (· <<< i.toNat) d s

/-! ### f64 helpers (R127 to R129) -/

/-- SFOP's fixed-latency operations: add, sub, mul, min, max. -/
def sfopFixed (f : Nat) (s : State) : List Nat → Nat × Nat
  | [x, y] =>
    let g := fmtOf 0x08
    let rnd := modeRnd s.me.regs.mode
    let ftz := modeFtz s.me.regs.mode
    let u := g.read ftz x
    let v := g.read ftz y
    if f = 0 then g.finish rnd ftz (u.add rnd v)
    else if f = 1 then g.finish rnd ftz (u.add rnd v.neg)
    else if f = 2 then g.finish rnd ftz (u.mul v)
    else g.minMax ftz (f == 5) x y
  | _ => (0, 0)

/-- SFOP's variable-latency operations: div and sqrt. -/
def sfopVar (s : State) (xs : List Nat) : Nat × Nat :=
  let g := fmtOf 0x08
  let rnd := modeRnd s.me.regs.mode
  let ftz := modeFtz s.me.regs.mode
  match xs with
  | [x, y] => g.finish rnd ftz ((g.read ftz x).div (g.read ftz y))
  | [x] => g.finish rnd ftz (g.read ftz x).sqrt
  | _ => (0, 0)

/-- SFOP (R127): works under MODE.RND and FTZ whatever TYPE holds. A reserved operation, or an sb field that sqrt does
not leave zero, is ILLEGAL (R59). -/
def execSfop (d a b : BitVec 7) (f : BitVec 3) (s : State) : Res :=
  if f.toNat = 3 then scalarVar [a.toNat, b.toNat] sfopVar d s
  else if f.toNat = 6 && b == 0 then scalarVar [a.toNat] sfopVar d s
  else scalarExc [a.toNat, b.toNat] (decide (f.toNat < 6)) (sfopFixed f.toNat) d s

/-- SFCMP (R128). -/
def execSfcmp (d a b : BitVec 7) (r : BitVec 3) (s : State) : Res :=
  scalarExc [a.toNat, b.toNat] true (fun s xs => match xs with
    | [x, y] =>
      let g := fmtOf 0x08
      let ftz := modeFtz s.me.regs.mode
      let c := (g.read ftz x).rel r.toNat (g.read ftz y)
      (ofTruth c.1, c.2)
    | _ => (0, 0)) d s

/-- The conversions of SFCVT (R129, R92 to R94). -/
def sfcvt (f : Nat) (s : State) (xs : List Nat) : Nat × Nat :=
  let rnd := modeRnd s.me.regs.mode
  let ftz := modeFtz s.me.regs.mode
  let g := fmtOf 0x08
  let h := fmtOf 0x09
  let x := xs.headD 0
  if f = 0 then g.round rnd ftz (Num.ofInt (readInt 0x06 x))
  else if f = 1 then (g.read ftz x).toIntType rnd 0x06
  else if f = 2 then g.round rnd ftz (Num.ofInt (readInt 0x07 x))
  else if f = 3 then (g.read ftz x).toIntType rnd 0x07
  else if f = 4 then h.round rnd ftz (g.read ftz x)
  else g.round rnd ftz (h.read ftz (x % 2 ^ 32))

def execSfcvt (d a : BitVec 7) (f : BitVec 3) (s : State) : Res :=
  scalarExc [a.toNat] (decide (f.toNat < 6)) (sfcvt f.toNat) d s

end Sys2Proof.Machine
end

