-- ==== Sys2Proof/Machine/VectorInt.lean ====
section
/-! DEFINITION. Machine/VectorInt.lean: the vector integer, logic, move and select instructions 0x40 to 0x59 (R116, R118,
R120, R130 to R137). -/
namespace Sys2Proof.Machine

/-! ### Shared operations -/

/-- The elementwise body (R131): poison of any source is consumed lane by lane, and each exec lane's unit is a function
of the sources' units; the result's poison is clear. -/
def vecUnits (ok : Bool) (lat : Nat) (ext : Bool) (srcs : List (BitVec 8)) (f : List Nat → Nat) (d : BitVec 8)
    (s : State) : Res :=
  let wide := isWideType s.me.ty
  let rs := srcs.map (·.toNat)
  let n := s.me.vecNeed ok wide [d.toNat] rs lat ext
  issue n (fun s =>
    let a := s.me
    consumeLanes (fun l => rs.any fun r => (a.getUnit wide r l).poison) (fun s =>
      .next (retire n (writeLanes wide d.toNat (fun l =>
        clean (BitVec.ofNat 64 (f (rs.map fun r => (a.getUnit wide r l).val.toNat)))) s))) s) s

/-- A function of elements as a function of units (R84, R131). -/
def perElem (t : Nat) (f : List Nat → Nat) (us : List Nat) : Nat :=
  let w := typeWidth t
  joinElems w (elemCount w) fun e => f (us.map fun u => elemOf w u e)

/-- An instruction on the elements of an integer type (R130, R131). -/
def vecElems (lat : Nat) (ext : Bool) (srcs : List (BitVec 8)) (f : Nat → List Nat → Nat) (d : BitVec 8) (s : State) : Res :=
  vecUnits (isIntType s.me.ty) lat ext srcs (perElem s.me.ty (f s.me.ty)) d s

/-- An instruction on whole units under every type (R130). -/
def vecLogic (ext : Bool) (srcs : List (BitVec 8)) (f : List Nat → Nat) (d : BitVec 8) (s : State) : Res :=
  vecUnits true 2 ext srcs f d s

/-- A function of two or three elements. -/
def of2 (f : Nat → Nat → Nat) : List Nat → Nat
  | [x, y] => f x y
  | _ => 0

def of3 (f : Nat → Nat → Nat → Nat) : List Nat → Nat
  | [x, y, z] => f x y z
  | _ => 0

/-! ### Elementwise integer instructions (R131 to R134) -/

def execVadd (d a b : BitVec 8) (s : State) : Res := vecElems 2 false [a, b] (fun _ => of2 (· + ·)) d s

/-- VSUB (R131). -/
def execVsub (d a b : BitVec 8) (s : State) : Res :=
  vecElems 2 false [a, b] (fun t => of2 fun x y => x + (2 ^ typeWidth t - y)) d s

def execVmul (d a b : BitVec 8) (s : State) : Res := vecElems 4 false [a, b] (fun _ => of2 (· * ·)) d s

/-- VMULH (R131): signed under i types, unsigned under n types. -/
def execVmulh (d a b : BitVec 8) (s : State) : Res :=
  vecElems 4 false [a, b] (fun t => of2 fun x y =>
    ofInt (typeWidth t) (readInt t x * readInt t y / 2 ^ typeWidth t)) d s

def execVmad (d a b c : BitVec 8) (s : State) : Res := vecElems 4 true [a, b, c] (fun _ => of3 fun x y z => x * y + z) d s
def execVmin (d a b : BitVec 8) (s : State) : Res :=
  vecElems 2 false [a, b] (fun t => of2 fun x y => if readInt t x ≤ readInt t y then x else y) d s
def execVmax (d a b : BitVec 8) (s : State) : Res :=
  vecElems 2 false [a, b] (fun t => of2 fun x y => if readInt t x ≤ readInt t y then y else x) d s
def execVabsd (d a b : BitVec 8) (s : State) : Res :=
  vecElems 2 false [a, b] (fun t => of2 fun x y => (readInt t x - readInt t y).natAbs) d s
def execVand (d a b : BitVec 8) (s : State) : Res := vecLogic false [a, b] (of2 (· &&& ·)) d s
def execVor (d a b : BitVec 8) (s : State) : Res := vecLogic false [a, b] (of2 (· ||| ·)) d s
def execVxor (d a b : BitVec 8) (s : State) : Res := vecLogic false [a, b] (of2 (· ^^^ ·)) d s

/-- The truth table of VLOGT on 64 bits (R132): bit 4a + 2b + c of T. -/
def truthTable (t : Nat) (a b c : Dword) : Dword :=
  (List.range 8).foldl (fun r i =>
    if bitOf t i then
      r ||| ((if bitOf i 2 then a else ~~~a) &&& (if bitOf i 1 then b else ~~~b) &&& (if bitOf i 0 then c else ~~~c))
    else r) 0

def execVlogt (d a b c t : BitVec 8) (s : State) : Res :=
  vecLogic true [a, b, c] (of3 fun x y z =>
    (truthTable t.toNat (BitVec.ofNat 64 x) (BitVec.ofNat 64 y) (BitVec.ofNat 64 z)).toNat) d s

def execVshl (d a b : BitVec 8) (s : State) : Res :=
  vecElems 2 false [a, b] (fun t => of2 fun x y => x * 2 ^ (y % typeWidth t)) d s
def execVshr (d a b : BitVec 8) (s : State) : Res :=
  vecElems 2 false [a, b] (fun t => of2 fun x y => x / 2 ^ (y % typeWidth t)) d s

/-- VSAR (R131): sign copies in under every integer type. -/
def execVsar (d a b : BitVec 8) (s : State) : Res :=
  vecElems 2 false [a, b] (fun t => of2 fun x y =>
    ofInt (typeWidth t) (toInt (typeWidth t) x / 2 ^ (y % typeWidth t))) d s

/-- VFUN (R133): a funnel shift right. -/
def execVfun (d a b c : BitVec 8) (s : State) : Res :=
  vecElems 2 true [a, b, c] (fun t => of3 fun x y z => (x * 2 ^ typeWidth t + y) / 2 ^ (z % typeWidth t)) d s

/-- VBITS (R134). -/
def execVbits (d a f : BitVec 8) (s : State) : Res :=
  vecUnits (isIntType s.me.ty && decide (f.toNat < 6)) 2 false [a]
    (perElem s.me.ty fun xs => bitFun f.toNat (typeWidth s.me.ty) (xs.headD 0)) d s

/-- The types of VBFX and VCMP (R130). -/
abbrev isWordInt (t : Nat) : Bool := decide (0x04 ≤ t ∧ t ≤ 0x07)

/-- VBFX (R125). -/
def execVbfx (d a b : BitVec 8) (s : State) : Res :=
  vecUnits (isWordInt s.me.ty) 2 false [a, b]
    (perElem s.me.ty (of2 fun x c => extractField (typeWidth s.me.ty) x c (isSignedType s.me.ty))) d s

/-- The relation of two integers (R54, R135). -/
def intRel (r : Nat) (x y : Int) : Bool :=
  if r = 0 then decide (x = y)
  else if r = 1 then decide (x ≠ y)
  else if r = 2 then decide (x < y)
  else if r = 3 then decide (x ≤ y)
  else if r = 4 then decide (y < x)
  else decide (y ≤ x)

/-- VCMP (R135). -/
def execVcmp (r m : BitVec 4) (a b : BitVec 8) (s : State) : Res :=
  let t := s.me.ty
  let wide := isWideType t
  let n0 := s.me.vecNeed (isWordInt t && decide (r.toNat < 6)) wide [] [a.toNat, b.toNat] 2 false
  let n := { n0 with writes := [.m m.toNat] }
  issue n (fun s =>
    let g := s.me
    let u (v : BitVec 8) (l : Nat) := g.getUnit wide v.toNat l
    consumeLanes (fun l => (u a l).poison || (u b l).poison) (fun s =>
      .next (retire n (writeMask m.toNat (fun l =>
        intRel r.toNat (readInt t (u a l).val.toNat) (readInt t (u b l).val.toNat)) s))) s) s

/-! ### Moves and selects (R136) -/

/-- VSEL: the poison of the selected operand is carried. -/
def execVsel (d a b : BitVec 8) (k : BitVec 4) (s : State) : Res :=
  let wide := isWideType s.me.ty
  let n0 := s.me.vecNeed true wide [d.toNat] [a.toNat, b.toNat] 2 true
  let n := { n0 with reads := .m k.toNat :: n0.reads }
  issue n (fun s =>
    let g := s.me
    .next (retire n (writeLanes wide d.toNat (fun l =>
      g.getUnit wide (if (g.getM k.toNat).getLsbD l then a.toNat else b.toNat) l) s))) s

/-- VMOV. -/
def execVmov (d a : BitVec 8) (s : State) : Res :=
  let wide := isWideType s.me.ty
  let n := s.me.vecNeed true wide [d.toNat] [a.toNat] 2 false
  issue n (fun s =>
    let g := s.me
    .next (retire n (writeLanes wide d.toNat (fun l => g.getUnit wide a.toNat l) s))) s

/-- VBCAST: one half of a scalar register, with its poison, under every type. -/
def execVbcast (d : BitVec 8) (a : BitVec 7) (h : Bool) (s : State) : Res :=
  let n0 := s.me.vecNeed true false [d.toNat] [] 6 false
  let n := { n0 with reads := s.me.sRegs a.toNat ++ n0.reads }
  issue n (fun s =>
    let x := s.me.getS a.toNat
    .next (retire n (writeLanes false d.toNat (fun _ =>
      { val := if h then x.val >>> 32 else x.val, poison := x.poison }) s))) s

/-- Write one value to every exec lane of a word register, whatever the type. -/
def vecLoad (lat : Nat) (ext : Bool) (f : Agent → Nat → Dword) (d : BitVec 8) (s : State) : Res :=
  let n := s.me.vecNeed true false [d.toNat] [] lat ext
  issue n (fun s =>
    let g := s.me
    .next (retire n (writeLanes false d.toNat (fun l => clean (f g l)) s))) s

def execVli (d : BitVec 8) (i : BitVec 16) (s : State) : Res := vecLoad 2 false (fun _ _ => i.signExtend 64) d s
def execVliExt (d : BitVec 8) (i h : BitVec 16) (s : State) : Res :=
  vecLoad 2 true (fun _ _ => (h ++ i).setWidth 64) d s

/-- VLIH: keeps bits 15:0 and the poison bit. -/
def execVlih (d : BitVec 8) (i : BitVec 16) (s : State) : Res :=
  let n := s.me.vecNeed true false [d.toNat] [d.toNat] 2 false
  issue n (fun s =>
    let g := s.me
    .next (retire n (writeLanes false d.toNat (fun l =>
      let w := g.getV d.toNat l
      { val := (i ++ w.val.setWidth 16).setWidth 64, poison := w.poison }) s))) s

/-- VADDI (R131): the 32-bit immediate, its low bits for narrower elements, sign-extended for 64-bit ones. -/
def vaddImm (ext : Bool) (d : BitVec 8) (i : Word32) (s : State) : Res :=
  vecElems 2 ext [d] (fun t xs => xs.headD 0 + ofInt (typeWidth t) i.toInt) d s

def execVaddi (d : BitVec 8) (i : BitVec 16) (s : State) : Res := vaddImm false d (i.signExtend 32) s
def execVaddiExt (d : BitVec 8) (i h : BitVec 16) (s : State) : Res := vaddImm true d (h ++ i) s

/-! ### Conversion (R137) -/

/-- The elements of a conversion: the first k of the source, the lesser count of the two, then zeros (R137, R159). -/
def convElems (src dst : Nat) (f : Nat → Nat) (u : Nat) : Nat :=
  let ws := typeWidth src
  let wd := typeWidth dst
  joinElems wd (elemCount wd) fun e => if e < min (elemCount ws) (elemCount wd) then f (elemOf ws u e) else 0

/-- VCVT: saturation to the destination's range. -/
def execVcvt (d a : BitVec 8) (t : BitVec 5) (s : State) : Res :=
  let src := s.me.ty
  let dst := t.toNat
  let n := s.me.vecNeedOf (isIntType src && isIntType dst) [(d.toNat, isWideType dst)] [(a.toNat, isWideType src)] 4 false
  issue n (fun s =>
    let g := s.me
    let u (l : Nat) := g.getUnit (isWideType src) a.toNat l
    consumeLanes (fun l => (u l).poison) (fun s =>
      .next (retire n (writeLanes (isWideType dst) d.toNat (fun l =>
        clean (BitVec.ofNat 64 (convElems src dst (fun x =>
          ofInt (typeWidth dst) (clampInt (readInt src x) (intMin dst) (intMax dst))) (u l).val.toNat))) s))) s) s

end Sys2Proof.Machine
end

