-- ==== Sys2Proof/Machine/VectorFloat.lean ====
section
/-! DEFINITION. Machine/VectorFloat.lean: the vector float and decimal instructions 0x70 to 0x8C, and the sticky flags 0x90
and 0x91 (R145 to R164, R169). -/
namespace Sys2Proof.Machine

/-! ### Shared operations -/

/-- The rounding mode and FTZ in force. -/
structure Rounding where
  rnd : Nat
  ftz : Bool
  deriving DecidableEq, Repr, Inhabited

/-- The rounding that MODE names. -/
def Agent.rounding (a : Agent) : Rounding := { rnd := modeRnd a.regs.mode, ftz := modeFtz a.regs.mode }

/-- A function of elements with exceptions, over the units of a lane: the unit, and the union of the sets (R109). -/
def perElemExc (w : Nat) (f : List Nat → Nat × Nat) (us : List Nat) : Nat × Nat :=
  let r (e : Nat) := f (us.map fun u => elemOf w u e)
  (joinElems w (elemCount w) fun e => (r e).1, (List.range (elemCount w)).foldl (fun x e => x ||| (r e).2) 0)

/-- The body of R150: poison is consumed, each exec lane's unit and exceptions are a function of the sources' units,
and the results close through commit_arith. -/
def vecExc (n : Need) (wideD wideS : Bool) (srcs : List (BitVec 8)) (f : List Nat → Nat × Nat) (d : BitVec 8)
    (s : State) : Res :=
  let rs := srcs.map (·.toNat)
  issue n (fun s =>
    let a := s.me
    let r (l : Nat) : Nat × Nat := f (rs.map fun r => (a.getUnit wideS r l).val.toNat)
    consumeLanes (fun l => rs.any fun r => (a.getUnit wideS r l).poison) (fun s =>
      commitLanes (a.execLanes.map fun l => (l, (r l).2)) (fun s =>
        .next (retire n (writeLanes wideD d.toNat (fun l => clean (BitVec.ofNat 64 (r l).1)) s))) s) s) s

/-- The element function of a float type or d64: binary patterns through `g`, decimal ones through `h` (R150). -/
def onType (t : Nat) (g h : List Nat → Nat × Nat) : List Nat → Nat × Nat :=
  perElemExc (typeWidth t) (if t = 0x0E then h else g)

/-- The types B and d64 (R146). -/
abbrev isFloatOrDec (t : Nat) : Bool := isFloatType t || t == 0x0E

/-- The latency of float arithmetic under a type, with that of d64 (R64, R147). -/
def floatLat (t dec : Nat) : Nat := if t = 0x0E then dec else if t = 0x08 then 6 else 4

/-- The pass cost of an instruction of opcodes 0x70 to 0x8F by its latency: f64 makes passes of 2 cycles, d64 of 4 or 8
(R64). -/
def floatPass (lat : Nat) : Nat := if lat = 16 then 8 else if lat = 8 then 4 else if lat = 6 then 2 else 1

/-- A need as an instruction of opcodes 0x70 to 0x8F has it: its exception sets hold back younger issue (R148). -/
def Need.rounding (n : Need) (pass : Nat) : Need := { n with pass := pass, exc := true }

/-- An elementwise instruction of fixed latency. -/
def vecFloat (ok : Nat → Bool) (lat : Nat → Nat) (ext : Bool) (srcs : List (BitVec 8))
    (g : Fmt → Rounding → List Nat → Nat × Nat) (h : Rounding → List Nat → Nat × Nat) (d : BitVec 8) (s : State) : Res :=
  let t := s.me.ty
  let r := s.me.rounding
  let n := (s.me.vecNeed (ok t) (isWideType t) [d.toNat] (srcs.map (·.toNat)) (lat t) ext).rounding
    (if lat t = 6 && t != 0x08 then 1 else floatPass (lat t))
  vecExc n (isWideType t) (isWideType t) srcs (onType t (g (fmtOf t) r) (h r)) d s

/-- No decimal meaning. -/
def noDec (_ : Rounding) (_ : List Nat) : Nat × Nat := (0, 0)

/-- A rounded operation of two or three read values, by type. -/
def rounded (f : Rounding → List Num → Num × Nat) (g : Fmt) (r : Rounding) (xs : List Nat) : Nat × Nat :=
  g.finish r.rnd r.ftz (f r (xs.map (g.read r.ftz)))

/-- A decimal operation with its preferred exponent. -/
def placed (f : Rounding → List Dec → Dec × Nat) (p : List Nat → Int) (r : Rounding) (xs : List Nat) : Nat × Nat :=
  decFinish r.rnd (f r (xs.map Dec.read)) (p xs)

/-- The exponent of a decimal operand. -/
abbrev expoOf (x : Nat) : Int := (Dec.read x).expo

def numAdd (r : Rounding) : List Num → Num × Nat
  | [x, y] => x.add r.rnd y
  | _ => default
def numSub (r : Rounding) : List Num → Num × Nat
  | [x, y] => x.add r.rnd y.neg
  | _ => default
def numMul (_ : Rounding) : List Num → Num × Nat
  | [x, y] => x.mul y
  | _ => default
def numDiv (_ : Rounding) : List Num → Num × Nat
  | [x, y] => x.div y
  | _ => default
def numFma (negP negZ : Bool) (r : Rounding) : List Num → Num × Nat
  | [x, y, z] => Num.fma r.rnd negP x y (if negZ then z.neg else z)
  | _ => default
def numOne (f : Num → Num × Nat) (_ : Rounding) : List Num → Num × Nat
  | [x] => f x
  | _ => default
def decAdd (r : Rounding) : List Dec → Dec × Nat
  | [x, y] => x.add r.rnd y
  | _ => default
def decSub (r : Rounding) : List Dec → Dec × Nat
  | [x, y] => x.add r.rnd y.neg
  | _ => default
def decMul (_ : Rounding) : List Dec → Dec × Nat
  | [x, y] => x.mul y
  | _ => default
def decDiv (_ : Rounding) : List Dec → Dec × Nat
  | [x, y] => x.div y
  | _ => default
def decFma (negP negZ : Bool) (r : Rounding) : List Dec → Dec × Nat
  | [x, y, z] => Dec.fma r.rnd negP x y (if negZ then z.neg else z)
  | _ => default
def decOne (f : Dec → Dec × Nat) (_ : Rounding) : List Dec → Dec × Nat
  | [x] => f x
  | _ => default

/-- The preferred exponents of R97. -/
def expoMin : List Nat → Int
  | [x, y] => min (expoOf x) (expoOf y)
  | _ => 0
def expoSum : List Nat → Int
  | [x, y] => expoOf x + expoOf y
  | _ => 0
def expoFma : List Nat → Int
  | [x, y, z] => min (expoOf x + expoOf y) (expoOf z)
  | _ => 0
def expoDiv : List Nat → Int
  | [x, y] => decDivExpo x y
  | _ => 0
def expoRoot : List Nat → Int
  | [x] => expoOf x / 2
  | _ => 0

/-! ### Elementwise arithmetic (R150 to R156) -/

def execVfadd (d a b : BitVec 8) (s : State) : Res :=
  vecFloat isFloatOrDec (floatLat · 16) false [a, b] (rounded numAdd) (placed decAdd expoMin) d s
def execVfsub (d a b : BitVec 8) (s : State) : Res :=
  vecFloat isFloatOrDec (floatLat · 16) false [a, b] (rounded numSub) (placed decSub expoMin) d s
def execVfmul (d a b : BitVec 8) (s : State) : Res :=
  vecFloat isFloatOrDec (floatLat · 16) false [a, b] (rounded numMul) (placed decMul expoSum) d s
def execVfma (d a b c : BitVec 8) (s : State) : Res :=
  vecFloat isFloatOrDec (floatLat · 16) true [a, b, c] (rounded (numFma false false)) (placed (decFma false false) expoFma) d s
def execVfms (d a b c : BitVec 8) (s : State) : Res :=
  vecFloat isFloatOrDec (floatLat · 16) true [a, b, c] (rounded (numFma false true)) (placed (decFma false true) expoFma) d s
def execVfnma (d a b c : BitVec 8) (s : State) : Res :=
  vecFloat isFloatOrDec (floatLat · 16) true [a, b, c] (rounded (numFma true false)) (placed (decFma true false) expoFma) d s

/-- A variable-latency instruction (R147, R148): an enabled exception traps at issue; the results of each non-empty lane
word are in flight until VARIABLE_LATENCY_RESULT writes them. Its pass cost is 4 under the types of 32 bits and narrower, 8 under
f64 and 32 under d64 (R64, R147). -/
def vecVar (srcs : List (BitVec 8)) (g : Fmt → Rounding → List Nat → Nat × Nat) (h : Rounding → List Nat → Nat × Nat)
    (d : BitVec 8) (s : State) : Res :=
  let t := s.me.ty
  let wide := isWideType t
  let rs := srcs.map (·.toNat)
  let n := (s.me.vecNeed (isFloatOrDec t) wide [d.toNat] rs 0 false).rounding (if t = 0x0E then 32 else if wide then 8 else 4)
  issue n (fun s =>
    let a := s.me
    let f := onType t (g (fmtOf t) a.rounding) (h a.rounding)
    let r (l : Nat) : Nat × Nat := f (rs.map fun r => (a.getUnit wide r l).val.toNat)
    let word (w : Nat) : VarResult :=
      let ls := a.execLanes.filter fun l => l / 32 = w
      { writes := ls.flatMap fun l =>
          let v := BitVec.ofNat 64 (r l).1
          if wide then [{ reg := .v d.toNat, lane := l, val := clean (v &&& 0xFFFFFFFF) },
                        { reg := .v (d.toNat + 1), lane := l, val := clean (v >>> 32) }]
          else [{ reg := .v d.toNat, lane := l, val := clean v }]
        flags := BitVec.ofNat 32 (orExc (ls.map fun l => (l, (r l).2)))
        inSketch := a.sketch.isSome }
    consumeLanes (fun l => rs.any fun r => (a.getUnit wide r l).poison) (fun s =>
      let trapped := a.execLanes.filter fun l => a.enabled (r l).2 != 0
      if trapped.isEmpty then
        let words := (List.range 32).filter fun w => a.execLanes.any fun l => l / 32 = w
        .next (retire n (s.updMe fun g => { g with varlat := g.varlat ++ words.map word }))
      else trapIn (.arith (a.enabled (orExc (trapped.map fun l => (l, (r l).2))))) (maskOf trapped) s) s) s

def execVfdiv (d a b : BitVec 8) (s : State) : Res := vecVar [a, b] (rounded numDiv) (placed decDiv expoDiv) d s
def execVfsqrt (d a : BitVec 8) (s : State) : Res :=
  vecVar [a] (rounded (numOne Num.sqrt)) (placed (decOne Dec.sqrt) expoRoot) d s

/-- The correctly rounded functions of R154. -/
def vecApprox (f : Num → Num × Nat) (d a : BitVec 8) (s : State) : Res :=
  vecFloat (fun t => t == 0x09 || t == 0x0A || t == 0x0B) (fun _ => 6) false [a] (rounded (numOne f)) noDec d s

def execVfrcp (d a : BitVec 8) (s : State) : Res := vecApprox Num.rcp d a s
def execVfrsq (d a : BitVec 8) (s : State) : Res := vecApprox Num.rsq d a s
def execVfexp2 (d a : BitVec 8) (s : State) : Res := vecApprox Num.exp2 d a s
def execVflog2 (d a : BitVec 8) (s : State) : Res := vecApprox Num.log2 d a s

/-- VFMIN and VFMAX (R152). -/
def vecMinMax (isMax : Bool) (d a b : BitVec 8) (s : State) : Res :=
  vecFloat isFloatOrDec (floatLat · 8) false [a, b]
    (fun g r xs => match xs with | [x, y] => g.minMax r.ftz isMax x y | _ => default)
    (fun _ xs => match xs with | [x, y] => decMinMax isMax (Dec.read x) (Dec.read y) | _ => default) d s

def execVfmin (d a b : BitVec 8) (s : State) : Res := vecMinMax false d a b s
def execVfmax (d a b : BitVec 8) (s : State) : Res := vecMinMax true d a b s

/-- VFABS and VFNEG (R153). -/
def vecSign (isNeg : Bool) (d a : BitVec 8) (s : State) : Res :=
  vecFloat isFloatOrDec (floatLat · 8) false [a] (fun g r xs => g.absNeg r.ftz isNeg (xs.headD 0))
    (fun _ xs => match Dec.read (xs.headD 0) with
      | .nan sig => (decNan, if sig then excInvalid else 0)
      | x => ((if isNeg then x.neg else if x.isNeg then x.neg else x).canon, 0)) d s

def execVfabs (d a : BitVec 8) (s : State) : Res := vecSign false d a s
def execVfneg (d a : BitVec 8) (s : State) : Res := vecSign true d a s

/-- VFRND (R156). -/
def execVfrnd (d a : BitVec 8) (s : State) : Res :=
  vecFloat isFloatType (floatLat · 8) false [a] (fun g r xs => g.toIntegral r.rnd r.ftz (xs.headD 0)) noDec d s

/-- VFSCALB (R155): the second operand is a signed integer of the element's width. -/
def execVfscalb (d a b : BitVec 8) (s : State) : Res :=
  vecFloat isFloatType (floatLat · 8) false [a, b]
    (fun g r xs => match xs with
      | [x, y] => g.finish r.rnd r.ftz ((g.read r.ftz x).scalb (toInt g.w y))
      | _ => default) noDec d s

/-! ### Compare and classify (R157, R158, R161) -/

/-- An instruction that writes a mask bit per exec lane from a test of every element, with exceptions. -/
def vecTest (ok : Bool) (lat : Nat) (f : Nat → Nat → Bool × Nat) (m : BitVec 4) (a b : BitVec 8) (s : State) : Res :=
  let t := s.me.ty
  let wide := isWideType t
  let n0 := s.me.vecNeed ok wide [] [a.toNat, b.toNat] lat false
  let n := ({ n0 with writes := [.m m.toNat] } : Need).rounding (floatPass lat)
  issue n (fun s =>
    let g := s.me
    let w := typeWidth t
    let u (v : BitVec 8) (l : Nat) := g.getUnit wide v.toNat l
    let r (l e : Nat) : Bool × Nat := f (elemOf w (u a l).val.toNat e) (elemOf w (u b l).val.toNat e)
    let es := List.range (elemCount w)
    consumeLanes (fun l => (u a l).poison || (u b l).poison) (fun s =>
      commitLanes (g.execLanes.map fun l => (l, es.foldl (fun x e => x ||| (r l e).2) 0)) (fun s =>
        .next (retire n (writeMask m.toNat (fun l => es.all fun e => (r l e).1) s))) s) s) s

/-- VFCMP (R157). -/
def execVfcmp (rel m : BitVec 4) (a b : BitVec 8) (s : State) : Res :=
  let t := s.me.ty
  let ftz := modeFtz s.me.regs.mode
  let g := fmtOf t
  vecTest (isFloatOrDec t && decide (rel.toNat < 8)) (floatLat t 16)
    (fun x y => if t = 0x0E then (Dec.read x).rel rel.toNat (Dec.read y)
                else (g.read ftz x).rel rel.toNat (g.read ftz y)) m a b s

/-- VDSAME (R161). -/
def execVdsame (m : BitVec 4) (a b : BitVec 8) (s : State) : Res :=
  vecTest (s.me.ty == 0x0E) 8 (fun x y => (decSame (Dec.read x) (Dec.read y), 0)) m a b s

/-- VFCLASS (R158). -/
def execVfclass (d a : BitVec 8) (s : State) : Res :=
  vecFloat isFloatOrDec (floatLat · 8) false [a] (fun g r xs => (g.classOf r.ftz (xs.headD 0), 0))
    (fun _ xs => ((Dec.read (xs.headD 0)).classOf, 0)) d s

/-! ### Conversions (R159) -/

/-- The latency class of a conversion (R147). -/
def convLat (src dst : Nat) : Nat :=
  if src = 0x0E || dst = 0x0E then 8 else if src = 0x08 || dst = 0x08 then 6 else 4

/-- A conversion of one element, with its exceptions, and the elements of a lane placed as R137 places them. -/
def vecConv (ok : Bool) (dst : Nat) (f : Rounding → Nat → Nat × Nat) (d a : BitVec 8) (s : State) : Res :=
  let src := s.me.ty
  let r := s.me.rounding
  let n := s.me.vecNeedOf ok [(d.toNat, isWideType dst)] [(a.toNat, isWideType src)] (convLat src dst) false
  let n := n.rounding (floatPass (convLat src dst))
  vecExc n (isWideType dst) (isWideType src) [a] (fun us =>
    let u := us.headD 0
    let k := min (elemCount (typeWidth src)) (elemCount (typeWidth dst))
    (convElems src dst (fun x => (f r x).1) u,
      (List.range k).foldl (fun x e => x ||| (f r (elemOf (typeWidth src) u e)).2) 0)) d s

/-- VFCVT. A conversion to a type of equal width that cannot hold the value, such as f16 to bf16, rounds under MODE.RND as one to
a narrower type does: R92 calls those to a wider or equal type exact and names no rounding for them (log 47). -/
def execVfcvt (d a : BitVec 8) (t : BitVec 5) (s : State) : Res :=
  let src := s.me.ty
  let dst := t.toNat
  let ok := (isFloatType src && isFloatType dst) || (src == 0x0E && dst == 0x08) || (src == 0x08 && dst == 0x0E)
  vecConv ok dst (fun r x =>
    if src = 0x0E then (fmtOf dst).round r.rnd r.ftz (Dec.read x).toNum
    else if dst = 0x0E then ((fmtOf src).read r.ftz x).toDec.place r.rnd 0
    else (fmtOf dst).round r.rnd r.ftz ((fmtOf src).read r.ftz x)) d a s

/-- VFI2F. -/
def execVfi2f (d a : BitVec 8) (t : BitVec 5) (s : State) : Res :=
  let src := s.me.ty
  let dst := t.toNat
  let ok := isIntType src && (isFloatType dst || (dst == 0x0E && decide (0x06 ≤ src)))
  vecConv ok dst (fun r x =>
    let v := readInt src x
    if dst = 0x0E then (Dec.exact (decide (v < 0)) v.natAbs 0).place r.rnd 0
    else (fmtOf dst).round r.rnd r.ftz (Num.ofInt v)) d a s

/-- VFF2I. -/
def execVff2i (d a : BitVec 8) (t : BitVec 5) (s : State) : Res :=
  let src := s.me.ty
  let dst := t.toNat
  let ok := isIntType dst && (isFloatType src || (src == 0x0E && decide (0x06 ≤ dst)))
  vecConv ok dst (fun r x =>
    if src = 0x0E then (Dec.read x).toIntType r.rnd dst
    else ((fmtOf src).read r.ftz x).toIntType r.rnd dst) d a s

/-! ### Decimal64 operations (R160 to R164) -/

/-- A d64 instruction. -/
def vecDec (srcs : List (BitVec 8)) (f : Rounding → List Nat → Nat × Nat) (d : BitVec 8) (s : State) : Res :=
  vecFloat (· == 0x0E) (fun _ => 8) false srcs (fun _ => noDec) f d s

def execVdqnt (d a b : BitVec 8) (s : State) : Res :=
  vecDec [a, b] (fun r xs => match xs with
    | [x, y] => decQuantize r.rnd (Dec.read x) (Dec.read y)
    | _ => default) d s

/-- VDEXP (R162). -/
def execVdexp (d a : BitVec 8) (s : State) : Res :=
  vecDec [a] (fun _ xs => match Dec.read (xs.headD 0) with
    | .fin _ _ q _ => (ofInt 64 q, 0)
    | _ => (2 ^ 63, 0)) d s

/-- VDSIG (R162). -/
def execVdsig (d a : BitVec 8) (s : State) : Res :=
  vecDec [a] (fun _ xs => match Dec.read (xs.headD 0) with
    | .fin _ c _ _ => (c, 0)
    | _ => (0, 0)) d s

/-- VDMAKE (R163): exponents far beyond the format's overflow or underflow as their bound does. -/
def execVdmake (d a b : BitVec 8) (s : State) : Res :=
  vecDec [a, b] (fun r xs => match xs with
    | [x, y] =>
      let c := toInt 64 x
      let t := clampInt (toInt 64 y) (-10000) 10000
      (Dec.exact (decide (c < 0)) c.natAbs t).place r.rnd t
    | _ => default) d s

/-- VDCANON (R164). -/
def execVdcanon (d a : BitVec 8) (s : State) : Res :=
  vecDec [a] (fun _ xs => ((Dec.read (xs.headD 0)).canon, 0)) d s

/-! ### The sticky flags (R169) -/

/-- FLAGRD: waits for every older arithmetic instruction, until its latency has ended or its result is written, matrix operations
among them (R64, R111, R173). -/
def execFlagrd (d : BitVec 7) (s : State) : Res :=
  let n := s.me.scalarNeed [d.toNat] [] 1
  issue n (fun s =>
    if s.inFlight s.meId s.me then hold s
    else if s.coreNow < s.me.arithUntil then holdUntil s.me.arithUntil s
    else .next (retire n (s.setS d.toNat (clean ((s.me.regs.flags &&& 0x1F).setWidth 64))))) s

/-- FLAGCLR: the flags of older instructions are in FLAGS before the clear (R111). -/
def execFlagclr (a : BitVec 7) (s : State) : Res :=
  let n := s.me.scalarNeed [] [a.toNat]
  issue n (fun s =>
    let x := s.me.getS a.toNat
    consume [x] (fun s =>
      if s.inFlight s.meId s.me then hold s
      else .next (retire n (s.updMe fun g =>
        { g with regs := { g.regs with flags := g.regs.flags &&& ~~~(x.val.setWidth 32 &&& 0x1F) } }))) s) s

end Sys2Proof.Machine
end

