-- ==== Sys2Proof/Machine/Perform.lean ====
section
/-! DEFINITION. Machine/Perform.lean: what a store-kind access does when it is performed (R235, R251, R257 to R262, R277,
R330, R341, R387, R389). -/
namespace Sys2Proof.Machine

/-! ### The functions of atomics (R258, R261) -/

/-- The new value of an atomic operation on w bits; float operations take their type and rounding from MODE. -/
def atomicNew (op w : Nat) (mode : Word32) (old x : Nat) : Nat :=
  let sg (v : Nat) : Int := toInt w v
  let g := fmtOf (if w = 64 then 0x08 else 0x09)
  let ftz := modeFtz mode
  let rnd := modeRnd mode
  match op with
  | 0x00 => x
  | 0x01 => (old + x) % 2 ^ w
  | 0x02 => old &&& x
  | 0x03 => old ||| x
  | 0x04 => old ^^^ x
  | 0x05 => if sg old ≤ sg x then old else x
  | 0x06 => if sg old ≤ sg x then x else old
  | 0x07 => min old x
  | 0x08 => max old x
  | 0x09 => (g.finish rnd ftz ((g.read ftz old).add rnd (g.read ftz x))).1
  | 0x0A => (g.minMax ftz false old x).1
  | 0x0B => (g.minMax ftz true old x).1
  | 0x0C => if x ≤ old then 0 else old + 1
  | 0x0D => if old = 0 || x < old then x else old - 1
  | 0x0F => x
  | _ => old

/-- The new value of a bank operation (R261) under MODE.TYPE. -/
def bankNew (op w : Nat) (mode : Word32) (old x y : Nat) : Nat :=
  let t := modeType mode
  let g := fmtOf t
  let ftz := modeFtz mode
  let rnd := modeRnd mode
  if isFloatType t then
    let r (v : Nat) := g.read ftz v
    if op = 0 then (g.finish rnd ftz ((r old).add rnd (r x))).1
    else if op = 1 then (g.minMax ftz false old x).1
    else if op = 2 then (g.minMax ftz true old x).1
    else (g.finish rnd ftz (Num.fma rnd false (r old) (r y) (r x))).1
  else if op = 0 then (old + x) % 2 ^ w
  else if op = 1 then (if readInt t old ≤ readInt t x then old else x)
  else if op = 2 then (if readInt t old ≤ readInt t x then x else old)
  else if op = 3 then old &&& x
  else if op = 4 then old ||| x
  else if op = 5 then old ^^^ x
  else (old * y + x) % 2 ^ w

/-! ### Barrier objects (R387) -/

/-- Whether a 16-byte object at Hearth offset h holds a poisoned word. -/
def State.objPoison (s : State) (h : Nat) : Bool := (List.range 4).any fun i => s.poison.get false (hearthKey h / 4 + i)

/-- The fields of a barrier object. -/
abbrev State.objCount (s : State) (h : Nat) : Nat := s.rd (hearthKey h) 4
abbrev State.objTarget (s : State) (h : Nat) : Nat := s.rd (hearthKey h + 4) 4
abbrev State.objGen (s : State) (h : Nat) : Nat := s.rd (hearthKey h + 8) 4
abbrev State.objValid (s : State) (h : Nat) : Bool := s.rd (hearthKey h + 12) 4 % 2 = 1

/-- One arrival: its answer as BARARR reports it, and whether it was refused. -/
def State.arrive (s : State) (writer : Option Nat) (h : Nat) : (Nat × Bool) × State :=
  if s.objPoison h then ((2 ^ 63 + 0x80, true), s)
  else if !s.objValid h then ((2 ^ 63 + 0x81, true), s)
  else
    let gen := s.objGen h
    let count := (s.objCount h + 1) % 2 ^ 32
    let full := decide (count = s.objTarget h)
    let s' := if full then (s.wr (hearthKey h) 4 0).wr (hearthKey h + 8) 4 ((gen + 1) % 2 ^ 32) else s.wr (hearthKey h) 4 count
    ((gen + (if full then 2 ^ 32 else 0), false), s'.notifyWrite writer [unitOf (hearthKey h)])

/-- An arrival by an agent that is not a lane: a refusal is counted (R387). -/
def State.arriveDevice (s : State) (part h : Nat) : State :=
  match s.arrive none h with
  | ((_, true), s) => s.count (some part) 0x108
  | ((_, false), s) => s

/-! ### Queue counter objects (R340, R341) -/

/-- The fields of a proxy registration (R339). -/
abbrev regFlags (s : State) (h : Nat) : Nat := s.rd (proxyBase h + 0x0C) 2
abbrev regValid (s : State) (h : Nat) : Bool := h < 1024 && bitOf (regFlags s h) 8
abbrev regPart (s : State) (h : Nat) : Nat := bitsOf (regFlags s h) 7 4
abbrev regCounter (s : State) (h : Nat) : Nat := s.rd (proxyBase h + 8) 4 % 2 ^ 27 / 16 * 16

/-- What one attempt of QRSV answers: the result, or none where there is no room. -/
def State.reserveSlots (s : State) (writer : Option Nat) (h n : Nat) : Option Nat × State :=
  let c := hearthKey (regCounter s h)
  let resv := s.rd c 4
  let room := (resv + 2 ^ 32 - s.rd (c + 4) 4) % 2 ^ 32
  let cap := s.rd (c + 8) 4
  if s.objPoison (regCounter s h) then (some (2 ^ 63 + 0x80), s)
  else if cap < n then (some (2 ^ 63 + 0x82), s)
  else if room + n ≤ cap then
    (some resv, (s.wr c 4 ((resv + n) % 2 ^ 32)).notifyWrite writer [unitOf c])
  else (none, s)

/-- What QRSV answers when 4,096 cycles have passed: the room at the last attempt. -/
def State.noRoom (s : State) (h : Nat) : Nat :=
  let c := hearthKey (regCounter s h)
  let room := (s.rd c 4 + 2 ^ 32 - s.rd (c + 4) 4) % 2 ^ 32
  2 ^ 63 + (s.rd (c + 8) 4 - room)

/-! ### Performing -/

/-- A value written into a returned-value register: a pair for 64-bit lanes (R257). -/
def Agent.writeRet (a : Agent) (r : StoreReq) (v : PDword) : Agent :=
  match r.ret with
  | some (.v n) =>
    let l := r.lane.getD 0
    if r.size = 8 then a.setPair n l v else a.setV n l { val := v.val.setWidth 32, poison := v.poison }
  | some g => a.setReg g v
  | none => a

/-- The register of a performed access takes its value (R252, R289). -/
def State.returnValue (s : State) (r : StoreReq) (v : PDword) : State :=
  s.updMe fun a => a.deliver false fun a => a.writeRet r v

/-- The bytes that an access writes become visible (R251, R277). -/
def State.putBytes (s : State) (writer : Option Nat) (keys : List Nat) (v : Nat) (poison : Bool) : State :=
  ((s.writeKeys keys (leBytes keys.length v) poison).markDirty keys).notifyWrite writer (keys.map unitOf).eraseDups

/-- What performing answers: done; the fault its translation meets; or a wait. -/
inductive Performed where
  | done (s : State)
  | fault (code lvl : Nat) (s : State)
  | wait (s : State)

/-- The effect of an access whose byte keys are known, on the agent whose turn it is. -/
def State.perform (s : State) (r : StoreReq) (keys : List Nat) : Performed :=
  let writer := some s.meId
  let (old, pz) := s.readKeys keys
  let w := 8 * r.size
  let x := r.data.val.toNat % 2 ^ w
  let oldVal : PDword := { val := BitVec.ofNat 64 old, poison := pz }
  match r.kind with
  | .store => .done (s.putBytes writer keys x r.data.poison)
  | .atomic op ret =>
    let n := op.toNat
    let plain := n = 0x00 || n = 0x0F
    let s' :=
      if n = 0x0E then s
      else if plain then s.putBytes writer keys x r.data.poison
      else if pz then s
      else s.putBytes writer keys (atomicNew n w r.mode old x) false
    let s' := if !ret && pz then s'.count (s.partOf s.me) 0x105 else s'
    .done (if ret then s'.returnValue r oldVal else s')
  | .cas e =>
    let s' := if !pz && old == e.val.toNat % 2 ^ w then s.putBytes writer keys x false else s
    .done (s'.returnValue r oldVal)
  | .hred op y =>
    if pz then .done (s.count (s.partOf s.me) 0x106)
    else .done (s.putBytes writer keys (bankNew op.toNat w r.mode old x (y.toNat % 2 ^ w)) false)
  | .barInit target =>
    let h := r.addr.toNat - hearthWindow
    let k := hearthKey h
    let gen := if s.poison.get false (k / 4 + 2) then 0 else s.objGen h
    let s' := s.putBytes writer ((List.range 16).map (k + ·)) (target.toNat * 2 ^ 32 + gen * 2 ^ 64 + 2 ^ 96) false
    .done (s'.returnValue r (clean (BitVec.ofNat 64 gen)))
  | .barArr =>
    let (ans, s') := s.arrive writer (r.addr.toNat - hearthWindow)
    .done (s'.returnValue r (clean (BitVec.ofNat 64 ans.1)))
  | .qrsv h n =>
    match s.reserveSlots writer h n.toNat with
    | (some v, s') => .done (s'.returnValue r (clean (BitVec.ofNat 64 v)))
    | (none, s') => .wait s'
  | .chnRel c prod n =>
    let ch := s.channels.get {} c
    let fill := (ch.prod - ch.cons).toNat
    let k := min n (if prod then 2 ^ ch.log2size - fill else fill)
    let ch' := if prod then { ch with prod := ch.prod + BitVec.ofNat 32 k } else { ch with cons := ch.cons + BitVec.ofNat 32 k }
    .done (if ch.bound then { s with channels := s.channels.put {} c ch' } else s)

/-- The access kind of a waiting access, as TCAUSE codes it. -/
def StoreReq.acc (r : StoreReq) : Nat := match r.kind with | .store => accStore | _ => accAtomic

/-- The maker of a waiting access: its agent, with the privilege and the ASID it issued with (R211, R250). -/
def State.reqWho (s : State) (r : StoreReq) : Who := { s.who with user := !r.sup, asid := r.asid.toNat }

/-- The byte keys of a waiting access (R250, R277). Those of an atomic were found at its issue: it waits at an EXCLUSIVE check-out that
has come over them since (R246). -/
def State.reqKeys (s : State) (r : StoreReq) : (Option (List Nat) ⊕ Nat × Nat × Bool) × State :=
  if !r.keys.isEmpty || r.size = 0 then
    if r.keys.any fun k => s.keyBarred (s.reqWho r) k then (.inl none, s.markKeys (s.reqWho r) r.keys) else (.inl (some r.keys), s)
  else s.laneKeys (s.reqWho r) r.addr.toNat r.size r.acc

/-- Perform an access: it is found, then it takes effect. -/
def State.performReq (s : State) (r : StoreReq) : Performed :=
  match s.reqKeys r with
  | (.inl (some keys), s) => s.perform r keys
  | (.inl none, s) => .wait s
  | (.inr (c, l, _), s) => .fault c l s

/-- The keys of n bytes of an access as translation gives them now, with no effect on the state; none of a line that it does
not find. -/
def State.peekBytes (s : State) (w : Who) (a n kind : Nat) : List Nat :=
  let line (a n : Nat) : List Nat :=
    match (s.translate w a kind).1 with
    | .at m _ _ => if (targetFault (targetOf m) false).isNone then (List.range n).map (m + ·) else []
    | _ => []
  match classOf a with
  | .scratch => (List.range n).map fun i => s.me.scratchAt (a - scratchWindow + i) 0
  | .hearth => (List.range n).map fun i => hearthKey (a - hearthWindow + i)
  | .global =>
    let first := min n (128 - a % 128)
    line a first ++ (if first = n then [] else line (a + first) (n - first))

/-- The keys that a waiting access would write. -/
def State.peekKeys (s : State) (r : StoreReq) : List Nat :=
  if !r.keys.isEmpty || r.size = 0 then r.keys else s.peekBytes (s.reqWho r) r.addr.toNat r.size r.acc

/-! ### Reading in a sketch (R282) -/

/-- The plain stores of an agent older than a point of its program order, with the bytes they will write, oldest first. -/
def State.forwards (s : State) (seq : Nat) : List (List (Nat × Byte) × Bool) :=
  (s.me.storeQ.filter fun r => decide (r.seq < seq) && r.kind = .store).map fun r =>
    ((s.peekKeys r).zip (leBytes r.size r.data.val.toNat), r.data.poison)

/-- Read bytes as a load does: each from the youngest older unperformed store that covers it, otherwise from memory. A word's
poison is that of the youngest such store that writes any byte of it (R244). -/
def State.readForward (s : State) (seq : Nat) (keys : List Nat) : Nat × Bool :=
  let fw := s.forwards seq
  let byte (k : Nat) : Byte :=
    fw.foldl (fun acc f => match f.1.find? fun c => c.1 = k with | some c => c.2 | none => acc) (Memory.read s.mem k)
  let bad (k : Nat) : Bool :=
    fw.foldl (fun acc f => if f.1.any fun c => c.1 / 4 = k / 4 then f.2 else acc) (s.poison.get false (k / 4))
  (leValue (keys.map byte), keys.any bad)

/-- Whether an older unperformed access other than a plain store overlaps bytes: a load of them waits (R282). -/
def State.overlapsAtomic (s : State) (keys : List Nat) : Bool :=
  s.me.storeQ.any fun r => r.kind != .store && (s.peekKeys r).any keys.contains

end Sys2Proof.Machine
end

