-- ==== Sys2Proof/Machine/Memory.lean ====
section
/-! DEFINITION. Machine/Memory.lean: the load, store, atomic, reduction and monitor instructions 0xB0 to 0xC0, 0xC5 to 0xC7
(R248 to R266, R272, R280 to R285). -/
namespace Sys2Proof.Machine

/-! ### The gate of a load (R280, R281, R285, R299 to R301) -/

/-- Open a sketch whose first instruction is the one at the PC (R280, R283). -/
def Agent.openSketch (a : Agent) (n : Need) : Sketch :=
  { first := a.pc, saved := a.regs, record := (a.tcause, a.tpc, a.taddr, a.tmask),
    logged := .once :: (n.items ++ n.writes.flatMap (traceItems (n.mask.getD a.exec) a.lanes)) }

/-- Whether a load-kind access must wait until every older access has been performed, in place of opening a sketch or joining
the open one (R41, R280); NS counts for a load, and for no engine command. -/
def Agent.strict (a : Agent) (ns : Bool) : Bool := ns || a.specLvl = 2 || !a.isTeam

/-- A load that waits at SPECLVL 2 counts once in the ink run; a full run returns the team to SPECLVL 0 (R301). -/
def State.countWait (s : State) : State :=
  let a := s.me
  if a.specLvl = 2 && !a.waited then
    let full := decide (256 ≤ a.inkRun + 1)
    { s with me := { a with waited := true, inkRun := if full then 0 else a.inkRun + 1,
                            specLvl := if full then 0 else a.specLvl } }
  else s

/-- What the gate answers for a load-kind access: go on, in a sketch or outside; or wait. -/
inductive Gate where
  | go (inSketch : Bool) (s : State)
  | wait (s : State)

/-- The read set that a sketch of the agent has once it has read some units too. -/
def Agent.readsWith (a : Agent) (units : List Nat) : List Nat :=
  let old := match a.sketch with | some k => k.reads | none => []
  old ++ units.filter fun u => !old.contains u

/-- Whether and how a load-kind access that touches the given units issues now (R280, R281, R285). -/
def State.loadGate (s : State) (n : Need) (ns : Bool) (units : List Nat) : Gate :=
  let all := s.me.readsWith units
  match s.me.sketch with
  | none =>
    let k := { s.me.openSketch n with reads := all, loadInstrs := 1 }
    if s.me.allPerformed then .go false s
    else if s.me.strict ns then .wait s.countWait
    else if 256 < all.length || !s.tracingFits k.logged then .wait s
    else .go true (s.updMe fun a => { a with sketch := some k })
  | some k =>
    if s.me.strict ns || k.holdsStore || (s.me.specLvl = 1 && 1 ≤ k.loadInstrs) || 256 < all.length then .wait s.countWait
    else .go true (s.updMe fun a => { a with sketch := some { k with reads := all, loadInstrs := k.loadInstrs + 1 } })

/-- Whether a load can issue before its translation is asked: it waits for older accesses first, and for an older XDEC's reply
(R185, R361). -/
def State.loadMayLook (s : State) (ns : Bool) : Bool :=
  !s.me.decoding && match s.me.sketch with
  | none => s.me.allPerformed || !s.me.strict ns
  | some k => !k.holdsStore && !s.me.strict ns && (s.me.specLvl != 1 || k.loadInstrs == 0)

/-- Whether the lines and rows of a load, with those read before it in a sketch, come to more than 256: it issues no request
until every older access has been performed (R285). -/
def State.tooWide (s : State) (xs : List LaneAddr) (n : Nat) : Bool :=
  !(s.me.sketch.isNone && s.me.allPerformed) && decide (256 < (s.me.readsWith []).length + 2 * xs.length) &&
  decide (256 < (s.me.readsWith ((xs.flatMap fun x => s.peekBytes s.who x.addr.toNat n accLoad).map unitOf).eraseDups).length)

/-- Whether a load that belongs to a sketch must wait for room in an L1 that is full of read-set lines (R284, R285). -/
def State.l1Bars (s : State) (ks : List (LaneAddr × List Nat)) : Bool :=
  s.inSketch (some s.meId) && ks.any fun c =>
    (c.2.filter (· < 2 ^ 48)).any fun k => s.l1Full (some s.meId) (unitOf k) (s.me.span.isSome && decide (512 ≤ c.1.lane.getD 0))

/-! ### Loads (R252, R253, R255) -/

/-- Put a load in flight (R252). -/
def sendLoad (n : Need) (dst : LoadDst) (signed : Bool) (ks : List (LaneAddr × List Nat)) (s : State) : Res :=
  let keys := ks.flatMap (·.2)
  let units := (keys.map unitOf).eraseDups
  let sectors := (keys.map sectorOf).eraseDups
  if s.overlapsAtomic keys || s.l1Bars ks then hold s
  else if 2048 < s.me.ldcnt + sectors.length then hold s
  else match s.loadGate n s.me.ns units with
    | .wait s => .next s
    | .go inSketch s =>
      let p : PendingLoad :=
        { dst := dst, signed := signed,
          lanes := ks.map fun (k : LaneAddr × List Nat) => { lane := k.1.lane, addr := k.1.addr, keys := k.2 }, sectors := sectors, seq := s.me.seq, inSketch := inSketch }
      .next (retire n (s.updMe fun a => { a with loads := a.loads ++ [p] }))

/-- A load of n bytes at lane addresses: steps 1 to 8 of R228, then the access (R250). A translation fault is reported
only once no older access is unperformed (R361). -/
def loadAt (n : Need) (dst : LoadDst) (signed : Bool) (xs : List LaneAddr) (size : Nat) (s : State) : Res :=
  match s.checkAddrs xs size 0 accLoad with
  | some (c, ls) => trapIn c (s.me.tmaskOf ls) s
  | none =>
    if xs.isEmpty then .next (retire n s)
    else if !s.loadMayLook s.me.ns || s.tooWide xs size then .next s.countWait
    else match s.locateAll xs size accLoad with
      | (.fault c ls, s') => if s.me.sketch.isNone && s.me.allPerformed then trapIn c (s.me.tmaskOf ls) s' else hold s
      | (.wait, s') => .next s'
      | (.keys ks, s') => sendLoad n dst signed ks s'

/-- The form of a vector ME word: with A = 1, va is even and sb zero (R248, R249). -/
def vecForm (a : BitVec 8) (b : BitVec 7) (k : Bool) : Bool := !k || (a.toNat % 2 == 0 && b == 0)

/-- The byte offset of an immediate EXT. -/
abbrev offOf (p : BitVec 24) : Dword := p.signExtend 64

/-- The need of a vector ME word: its address registers, and its data registers read or written. -/
def Agent.memNeed (a : Agent) (va sb : Nat) (k : Bool) (ok ext : Bool) (reads writes : List Reg) : Need :=
  { legal := a.isTeam && ok, ext := ext, reads := a.addrRegs va sb k ++ a.guardReg ++ reads, writes := writes,
    words := some a.execWords, lat := 0 }

/-- A vector load. -/
def vecLoadMem (size : Nat) (d a : BitVec 8) (b : BitVec 7) (k : Bool) (off : Dword) (ext : Bool) (s : State) : Res :=
  let pair := size == 8
  let n := s.me.memNeed a.toNat b.toNat k (vecForm a b k && (!pair || d.toNat % 2 == 0)) ext [] (vRegs pair d.toNat)
  issue n (fun s => loadAt n (.vec d.toNat pair) (isSignedType s.me.ty) (s.me.vecAddrs a.toNat b.toNat k off) size s) s

def execVldb (d a : BitVec 8) (b : BitVec 7) (k : Bool) (s : State) : Res := vecLoadMem 1 d a b k 0 false s
def execVldbExt (d a : BitVec 8) (b : BitVec 7) (k : Bool) (p : BitVec 24) (s : State) : Res :=
  vecLoadMem 1 d a b k (offOf p) true s
def execVldh (d a : BitVec 8) (b : BitVec 7) (k : Bool) (s : State) : Res := vecLoadMem 2 d a b k 0 false s
def execVldhExt (d a : BitVec 8) (b : BitVec 7) (k : Bool) (p : BitVec 24) (s : State) : Res :=
  vecLoadMem 2 d a b k (offOf p) true s
def execVldw (d a : BitVec 8) (b : BitVec 7) (k : Bool) (s : State) : Res := vecLoadMem 4 d a b k 0 false s
def execVldwExt (d a : BitVec 8) (b : BitVec 7) (k : Bool) (p : BitVec 24) (s : State) : Res :=
  vecLoadMem 4 d a b k (offOf p) true s
def execVldd (d a : BitVec 8) (b : BitVec 7) (k : Bool) (s : State) : Res := vecLoadMem 8 d a b k 0 false s
def execVlddExt (d a : BitVec 8) (b : BitVec 7) (k : Bool) (p : BitVec 24) (s : State) : Res :=
  vecLoadMem 8 d a b k (offOf p) true s

/-- A scalar load (R253). -/
def scalarLoadMem (d : BitVec 7) (z : BitVec 2) (x : Bool) (b : BitVec 7) (off : Dword) (ext : Bool) (s : State) : Res :=
  let n := { s.me.scalarNeed [d.toNat] [b.toNat] 0 with ext := ext }
  issue n (fun s => loadAt n (.scalar (if d = 0 then .s 0 else s.me.sName d.toNat)) x (s.me.scalarAddr b.toNat off) (2 ^ z.toNat) s) s

def execSld (d : BitVec 7) (z : BitVec 2) (x : Bool) (b : BitVec 7) (s : State) : Res := scalarLoadMem d z x b 0 false s
def execSldExt (d : BitVec 7) (z : BitVec 2) (x : Bool) (b : BitVec 7) (p : BitVec 24) (s : State) : Res :=
  scalarLoadMem d z x b (offOf p) true s

/-- The scratchpad accesses that run past the grant (R255). -/
def State.checkOffsets (s : State) (xs : List LaneAddr) (n acc : Nat) : Option (Cause × List LaneAddr) :=
  firstCause (xs.filterMap fun x =>
    if x.poison then some (x, 1, .poison)
    else if s.me.grant < x.addr.toNat + n then
      some (x, 5, { code := 0x09, addr := BitVec.ofNat 64 scratchWindow + x.addr, acc := acc })
    else none)

/-- The keys of a scratchpad access under a swizzle. -/
def Agent.offsetKeys (a : Agent) (o n : Nat) (z : BitVec 2) : List Nat := (List.range n).map fun i => a.scratchAt (o + i) z

/-- VLDS (R255): the offset's base is one of s0 to s31. -/
def scratchLoad (d a : BitVec 8) (b : BitVec 5) (z : BitVec 2) (w : Bool) (off : Dword) (ext : Bool) (s : State) : Res :=
  let size := if w then 8 else 4
  let n := s.me.memNeed a.toNat b.toNat false (!w || d.toNat % 2 == 0) ext [] (vRegs w d.toNat)
  issue n (fun s =>
    let xs := s.me.vecAddrs a.toNat b.toNat false off
    match s.checkOffsets xs size accLoad with
    | some (c, ls) => trapIn c (s.me.tmaskOf ls) s
    | none =>
      if xs.isEmpty then .next (retire n s)
      else if !s.loadMayLook s.me.ns then .next s.countWait
      else sendLoad n (.vec d.toNat w) false (xs.map fun x => (x, s.me.offsetKeys x.addr.toNat size z)) s) s

def execVlds (d a : BitVec 8) (b : BitVec 5) (z : BitVec 2) (w : Bool) (s : State) : Res := scratchLoad d a b z w 0 false s
def execVldsExt (d a : BitVec 8) (b : BitVec 5) (z : BitVec 2) (w : Bool) (p : BitVec 24) (s : State) : Res :=
  scratchLoad d a b z w (offOf p) true s

/-! ### Stores (R251, R254, R255) -/

/-- Queue store-kind accesses: they wait for room in the store queue, and for LDCNT where they return values; one issued in a
sketch is held until the ink (R252, R281, R299). -/
def queueStores (n : Need) (rs : List StoreReq) (s : State) : Res :=
  let rs := rs.map fun (r : StoreReq) =>
    { r with seq := s.me.seq, held := s.me.sketch.isSome, sup := s.me.regs.priv, mode := s.me.regs.mode, asid := s.me.asid }
  let q := s.me.storeQ ++ rs
  if s.me.decoding || decide (4096 < q.length) || (rs.any (·.ret.isSome) && decide (2048 < { s.me with storeQ := q }.ldcnt)) then hold s
  else
    .next (retire n (s.updMe fun a =>
      { a with storeQ := q,
               sketch := a.sketch.map fun k => { k with holdsStore := k.holdsStore || !rs.isEmpty } }))

/-- The accesses of one lane's store: two where it spans two lines (R227). -/
def Agent.storePieces (a : Agent) (x : LaneAddr) (size : Nat) (v : PDword) : List StoreReq :=
  let o := x.addr.toNat
  match classOf o with
  | .scratch => [{ kind := .store, addr := x.addr, size := size, data := v, lane := x.lane, keys := a.offsetKeys (o - scratchWindow) size 0 }]
  | .hearth => [{ kind := .store, addr := x.addr, size := size, data := v, lane := x.lane,
                  keys := (List.range size).map fun i => hearthKey (o - hearthWindow + i) }]
  | .global =>
    let first := 128 - o % 128
    if size ≤ first then [{ kind := .store, addr := x.addr, size := size, data := v, lane := x.lane }]
    else [{ kind := .store, addr := x.addr, size := first, data := v, lane := x.lane },
          { kind := .store, addr := x.addr + BitVec.ofNat 64 first, size := size - first,
            data := { v with val := v.val >>> (8 * first) }, lane := x.lane }]

/-- A store at lane addresses: steps 1 to 6 of R228, then the queue (R250). -/
def storeAt (n : Need) (xs : List LaneAddr) (size : Nat) (data : LaneAddr → PDword) (s : State) : Res :=
  match s.checkAddrs xs size 0 accStore with
  | some (c, ls) => trapIn c (s.me.tmaskOf ls) s
  | none => queueStores n (xs.flatMap fun x => s.me.storePieces x size (data x)) s

/-- A vector store. -/
def vecStoreMem (size : Nat) (d a : BitVec 8) (b : BitVec 7) (k : Bool) (off : Dword) (ext : Bool) (s : State) : Res :=
  let pair := size == 8
  let n := s.me.memNeed a.toNat b.toNat k (vecForm a b k && (!pair || d.toNat % 2 == 0)) ext (vRegs pair d.toNat) []
  issue n (fun s =>
    storeAt n (s.me.vecAddrs a.toNat b.toNat k off) size (fun x => s.me.getUnit pair d.toNat (x.lane.getD 0)) s) s

def execVstb (d a : BitVec 8) (b : BitVec 7) (k : Bool) (s : State) : Res := vecStoreMem 1 d a b k 0 false s
def execVstbExt (d a : BitVec 8) (b : BitVec 7) (k : Bool) (p : BitVec 24) (s : State) : Res :=
  vecStoreMem 1 d a b k (offOf p) true s
def execVsth (d a : BitVec 8) (b : BitVec 7) (k : Bool) (s : State) : Res := vecStoreMem 2 d a b k 0 false s
def execVsthExt (d a : BitVec 8) (b : BitVec 7) (k : Bool) (p : BitVec 24) (s : State) : Res :=
  vecStoreMem 2 d a b k (offOf p) true s
def execVstw (d a : BitVec 8) (b : BitVec 7) (k : Bool) (s : State) : Res := vecStoreMem 4 d a b k 0 false s
def execVstwExt (d a : BitVec 8) (b : BitVec 7) (k : Bool) (p : BitVec 24) (s : State) : Res :=
  vecStoreMem 4 d a b k (offOf p) true s
def execVstd (d a : BitVec 8) (b : BitVec 7) (k : Bool) (s : State) : Res := vecStoreMem 8 d a b k 0 false s
def execVstdExt (d a : BitVec 8) (b : BitVec 7) (k : Bool) (p : BitVec 24) (s : State) : Res :=
  vecStoreMem 8 d a b k (offOf p) true s

/-- A scalar store (R254). -/
def scalarStoreMem (d : BitVec 7) (z : BitVec 2) (b : BitVec 7) (off : Dword) (ext : Bool) (s : State) : Res :=
  let n := { s.me.scalarNeed [] [d.toNat, b.toNat] 0 with ext := ext }
  issue n (fun s => storeAt n (s.me.scalarAddr b.toNat off) (2 ^ z.toNat) (fun _ => s.me.getS d.toNat) s) s

def execSst (d : BitVec 7) (z : BitVec 2) (b : BitVec 7) (s : State) : Res := scalarStoreMem d z b 0 false s
def execSstExt (d : BitVec 7) (z : BitVec 2) (b : BitVec 7) (p : BitVec 24) (s : State) : Res :=
  scalarStoreMem d z b (offOf p) true s

/-- VSTS (R255). -/
def scratchStore (d a : BitVec 8) (b : BitVec 5) (z : BitVec 2) (w : Bool) (off : Dword) (ext : Bool) (s : State) : Res :=
  let size := if w then 8 else 4
  let n := s.me.memNeed a.toNat b.toNat false (!w || d.toNat % 2 == 0) ext (vRegs w d.toNat) []
  issue n (fun s =>
    let xs := s.me.vecAddrs a.toNat b.toNat false off
    match s.checkOffsets xs size accStore with
    | some (c, ls) => trapIn c (s.me.tmaskOf ls) s
    | none => queueStores n (xs.map fun x =>
        { kind := .store, addr := x.addr, size := size, data := s.me.getUnit w d.toNat (x.lane.getD 0), lane := x.lane,
          swz := some z, keys := s.me.offsetKeys x.addr.toNat size z }) s) s

def execVsts (d a : BitVec 8) (b : BitVec 5) (z : BitVec 2) (w : Bool) (s : State) : Res := scratchStore d a b z w 0 false s
def execVstsExt (d a : BitVec 8) (b : BitVec 5) (z : BitVec 2) (w : Bool) (p : BitVec 24) (s : State) : Res :=
  scratchStore d a b z w (offOf p) true s

/-! ### Atomics (R55, R257 to R260) and reductions (R56, R261) -/

/-- An atomic access of every lane: poison of addresses and of consumed data first, then R228, then the queue (R250,
R259). `more` is the instruction's own check of a found lane. -/
def atomicAt (n : Need) (xs : List LaneAddr) (size : Nat) (bad : LaneAddr → Bool) (own : LaneAddr → Option Cause)
    (req : LaneAddr → List Nat → StoreReq) (s : State) : Res :=
  let ps := xs.filter fun x => x.poison || bad x
  if !ps.isEmpty then trapIn .poison (s.me.tmaskOf ps) s
  else match s.checkAddrs xs size 1 accAtomic with
    | some (c, ls) => trapIn c (s.me.tmaskOf ls) s
    | none => match s.locateAll xs size accAtomic with
      | (.fault c ls, s) => trapIn c (s.me.tmaskOf ls) s
      | (.wait, s) => .next s
      | (.keys ks, s) => match firstCause (xs.filterMap fun x => (own x).map fun c => (x, 9, c)) with
        | some (c, ls) => trapIn c (s.me.tmaskOf ls) s
        | none => queueStores n (ks.map fun (k : LaneAddr × List Nat) => req k.1 k.2) s

/-- The types of VATOM, VCAS and HRED: i32, n32, f32 and i64, n64, f64. -/
def atomicType (t : Nat) : Bool := decide (0x04 ≤ t ∧ t ≤ 0x09)

/-- Whether an atomic operation is allowed under a type and width (R55, R257). -/
def atomicOk (op t w : Nat) (v : Bool) : Bool :=
  decide (op < 0x10) && (op != 0x0E || v) &&
  (!(decide (0x09 ≤ op ∧ op ≤ 0x0B)) || (t == 0x09 && w == 4) || (t == 0x08 && w == 8))

/-- Whether the data operand of an operation is carried rather than consumed (R259). -/
def carriesData (op : Nat) : Bool := op == 0x00 || op == 0x0E || op == 0x0F

/-- VATOM. -/
def execVatom (d a : BitVec 8) (b : BitVec 7) (k v : Bool) (o : BitVec 5) (s : State) : Res :=
  let t := s.me.ty
  let wide := isWideType t
  let size := if wide then 8 else 4
  let ds := vRegs wide d.toNat
  let n := s.me.memNeed a.toNat b.toNat k
    (vecForm a b k && atomicType t && atomicOk o.toNat t size v && (!wide || d.toNat % 2 == 0)) true ds (if v then ds else [])
  issue n (fun s =>
    let g := s.me
    let x (l : LaneAddr) : PDword := g.getUnit wide d.toNat (l.lane.getD 0)
    atomicAt n (g.vecAddrs a.toNat b.toNat k 0) size (fun l => !carriesData o.toNat && (x l).poison) (fun _ => none)
      (fun l ks => { kind := .atomic o v, addr := l.addr, size := size, data := x l, lane := l.lane,
                     ret := if v then some (.v d.toNat) else none, keys := ks }) s) s

/-- SATOM. -/
def execSatom (d : BitVec 7) (z : BitVec 2) (b : BitVec 7) (v : Bool) (o : BitVec 5) (s : State) : Res :=
  let size := 2 ^ z.toNat
  let n := { s.me.scalarNeed (if v then [d.toNat] else []) [d.toNat, b.toNat] 0 with
    legal := decide (2 ≤ z.toNat) && atomicOk o.toNat s.me.ty size v, ext := true }
  issue n (fun s =>
    let x := s.me.getS d.toNat
    atomicAt n (s.me.scalarAddr b.toNat 0) size (fun _ => !carriesData o.toNat && x.poison) (fun _ => none)
      (fun l ks => { kind := .atomic o v, addr := l.addr, size := size, data := x,
                     ret := if v then some (if d = 0 then .s 0 else s.me.sName d.toNat) else none, keys := ks }) s) s

/-- VCAS (R260). -/
def execVcas (d a : BitVec 8) (b : BitVec 7) (k : Bool) (c : BitVec 8) (s : State) : Res :=
  let t := s.me.ty
  let wide := isWideType t
  let size := if wide then 8 else 4
  let n := s.me.memNeed a.toNat b.toNat k
    (vecForm a b k && atomicType t && (!wide || (d.toNat % 2 == 0 && c.toNat % 2 == 0))) true
    (vRegs wide c.toNat ++ vRegs wide d.toNat) (vRegs wide d.toNat)
  issue n (fun s =>
    let g := s.me
    let u (r : BitVec 8) (l : LaneAddr) : PDword := g.getUnit wide r.toNat (l.lane.getD 0)
    atomicAt n (g.vecAddrs a.toNat b.toNat k 0) size (fun l => (u c l).poison || (u d l).poison) (fun _ => none)
      (fun l ks => { kind := .cas (u c l), addr := l.addr, size := size, data := u d l, lane := l.lane,
                     ret := some (.v d.toNat), keys := ks }) s) s

/-- HRED (R56, R261): only HEARTH addresses; scaleadd takes its factor from the next operand. -/
def execHred (d a : BitVec 8) (b : BitVec 7) (k : Bool) (o : BitVec 4) (s : State) : Res :=
  let t := s.me.ty
  let wide := isWideType t
  let size := if wide then 8 else 4
  let scale := o = 6
  let step := (if wide then 2 else 1) * (if scale then 2 else 1)
  let y := d.toNat + (if wide then 2 else 1)
  let ok := vecForm a b k && atomicType t && decide (o.toNat < 7) && d.toNat % step == 0 &&
    !(isFloatType t && decide (3 ≤ o.toNat ∧ o.toNat ≤ 5))
  let n := s.me.memNeed a.toNat b.toNat k ok true (vRegs wide d.toNat ++ (if scale then vRegs wide y else [])) []
  issue n (fun s =>
    let g := s.me
    let u (r : Nat) (l : LaneAddr) : PDword := g.getUnit wide r (l.lane.getD 0)
    atomicAt n (g.vecAddrs a.toNat b.toNat k 0) size (fun l => (u d.toNat l).poison || (scale && (u y l).poison))
      (fun l => if classOf l.addr.toNat = .hearth then none else some { code := 0x21, addr := l.addr, acc := accAtomic })
      (fun l ks => { kind := .hred o (if scale then (u y l).val else 0), addr := l.addr, size := size, data := u d.toNat l,
                     lane := l.lane, keys := ks }) s) s

/-! ### Monitor and wait (R263, R264) -/

/-- The partition's default MWAIT limit. -/
def State.mwaitDefault (s : State) : Nat :=
  match s.partOf s.me with
  | some p => s.partDefault p 0x14 4 1250000
  | none => 1250000

/-- Complete an MWAIT: the reference points before it are forgotten (R263). -/
def State.mwaitDone (s : State) (next : BitVec 56) (n : Need) : State := retireTo next n (s.updMe fun a => { a with refs := [] })

/-- MWAIT. -/
def mwaitAt (d b : BitVec 7) (off : Dword) (ext : Bool) (s : State) : Res :=
  let n := { s.me.scalarNeed [] [d.toNat, b.toNat] 0 with ext := ext }
  issue n (waitPerformed fun s =>
    let x := s.me.getS d.toNat
    let xs := s.me.scalarAddr b.toNat off
    consume [x, s.me.getS b.toNat] (fun s =>
      match s.checkAddrs xs 8 1 accLoad with
      | some (c, _) => trap c s
      | none =>
        if xs.any fun a => classOf a.addr.toNat = .scratch then
          trap { code := 0x21, addr := (xs.headD { lane := none, addr := 0, poison := false }).addr, acc := accLoad } s
        else match s.locateAll xs 8 accLoad with
          | (.fault c _, s) => trap c s
          | (.wait, s) => .next s
          | (.keys ks, s) =>
            let unit := unitOf ((ks.flatMap (·.2)).headD 0)
            if s.me.refs.get false unit then .next (s.mwaitDone (s.me.next ext) n)
            else
              let limit := if x.val.toNat % 2 ^ 32 = 0 then s.mwaitDefault else x.val.toNat % 2 ^ 32
              .next (s.updMe fun a => { a with wait := .mwait (a.next ext).toNat unit ((xs.map (·.addr)).headD 0)
                                                         (s.time.toNat + limit) false })) s) s

def execMwait (d b : BitVec 7) (s : State) : Res := mwaitAt d b 0 false s
def execMwaitExt (d b : BitVec 7) (p : BitVec 24) (s : State) : Res := mwaitAt d b (offOf p) true s

/-- MWAIT_COMPLETE (R263): a write by another agent, or an eviction, has reached the monitored unit; or now a team's GLOBAL
line is evicted from its core's L1. After its deadline a team leaves by its forced save alone (R213, R392). -/
def execMwaitComplete (agent : Nat) (s : State) : Res :=
  match s.switchTo agent with
  | none => .fault (.notEnabled "MWAIT_COMPLETE")
  | some s => match s.me.wait with
    | .mwait next _ a _ woken =>
      if !s.deadlinePassed && (woken || (s.me.isTeam && classOf a.toNat == .global)) then .next (s.mwaitDone (BitVec.ofNat 56 next) {})
      else .fault (.notEnabled "MWAIT_COMPLETE")
    | _ => .fault (.notEnabled "MWAIT_COMPLETE")

/-- MWAIT_TIMEOUT (R264). -/
def execMwaitTimeout (agent : Nat) (s : State) : Res :=
  match s.switchTo agent with
  | none => .fault (.notEnabled "MWAIT_TIMEOUT")
  | some s => match s.me.wait with
    | .mwait _ _ addr due false =>
      if !s.deadlinePassed && s.expires due then
        trap { code := 0x0A, addr := addr } (s.updMe fun a => { a with wait := .none })
      else .fault (.notEnabled "MWAIT_TIMEOUT")
    | _ => .fault (.notEnabled "MWAIT_TIMEOUT")

/-! ### Ordering, prefetch and cache maintenance (R265, R266, R272) -/

/-- INK. -/
def execInk (s : State) : Res :=
  issue {} (waitPerformed fun s => if s.me.ldcnt = 0 then .next (retire {} s) else hold s) s

/-- PREF: a hint that the device may ignore; only a poisoned address component traps. -/
def prefAt (a : BitVec 8) (b : BitVec 7) (k : Bool) (off : Dword) (ext : Bool) (s : State) : Res :=
  let n := s.me.memNeed a.toNat b.toNat k (vecForm a b k) ext [] []
  issue n (fun s =>
    let ps := (s.me.vecAddrs a.toNat b.toNat k off).filter (·.poison)
    if ps.isEmpty then .next (retire n s) else trapIn .poison (s.me.tmaskOf ps) s) s

def execPref (a : BitVec 8) (b : BitVec 7) (k : Bool) (s : State) : Res := prefAt a b k 0 false s
def execPrefExt (a : BitVec 8) (b : BitVec 7) (k : Bool) (p : BitVec 24) (s : State) : Res := prefAt a b k (offOf p) true s

/-- Whether n bytes at an address lie outside the windows and below 2^56 (R226). -/
def globalRange (a n : Nat) : Bool :=
  decide (a + n ≤ 2 ^ 56) &&
  !(decide (a < scratchWindow + 2 ^ 21 ∧ scratchWindow < a + n)) && !(decide (a < hearthWindow + 2 ^ 27 ∧ hearthWindow < a + n))

/-- Write back and drop the cached lines of an ASID that overlap a virtual range (R272, R365). -/
def State.dropRange (s : State) (by_ : Option Nat) (asid lo n : Nat) : State :=
  (s.dir.filter fun c => c.2.asid.toNat = asid && !c.2.detached && decide (c.2.vline * 128 < lo + n ∧ lo < c.2.vline * 128 + 128)).foldl
    (fun s c => s.dropLine by_ c.1) s

/-- Every line of a range that was dropped dirty is written back by now, or stays in an expansion hold (R240, R272). -/
def State.rangeWritten (s : State) (asid lo n : Nat) : Bool :=
  s.dir.all fun c => !(c.2.asid.toNat = asid && c.2.leaving &&
    decide (c.2.vline * 128 < lo + n ∧ lo < c.2.vline * 128 + 128))

/-- CINVA (R272): the lines are dropped, and the instruction stays until WRITE_BACK has stored the dirty ones. No cache holds a line of
the root-of-trust core's memories. -/
def execCinva (a b : BitVec 7) (s : State) : Res :=
  let n := s.me.scalarNeed [] [a.toNat, b.toNat]
  issue n (waitPerformed fun s =>
    let x := s.me.getS a.toNat
    let y := s.me.getS b.toNat
    consume [x, y] (fun s =>
      if y.val = 0 || s.me.kind = .root then .next (retire n s)
      else if 2 ^ 30 < y.val.toNat || !globalRange x.val.toNat y.val.toNat then trap .illegal s
      else
        let u := s.dropRange (some s.meId) s.me.asid.toNat x.val.toNat y.val.toNat
        if u.rangeWritten s.me.asid.toNat x.val.toNat y.val.toNat then .next (retire n u) else hold u) s) s

end Sys2Proof.Machine
end

