-- ==== Sys2Proof/Machine/EngineOps.lean ====
section
/-! DEFINITION. Machine/EngineOps.lean: commands, completion objects, channels and what an engine operation reads and writes
(R229 to R233, R245 to R247, R268 to R270, R293, R294, R318, R319, R326 to R328). -/
namespace Sys2Proof.Machine

/-! ### Happenings -/

/-- A happening that has no place in this state. -/
abbrev noEvent (row : String) : Res := .fault (.notEnabled row)

/-- A happening at an agent: the agent gets the turn. -/
def onAgent (row : String) (id : Nat) (f : State → Res) (s : State) : Res :=
  match s.switchTo id with
  | none => noEvent row
  | some s => f s

/-! ### Reading a command (R268, R308, R318) -/

/-- A field of a command's bytes. -/
def field (b : List Byte) (off n : Nat) : Nat := leValue ((b.drop off).take n)

/-- Note that the agent whose turn it is has read units, which MWAIT takes as its reference (R263). -/
def State.noteRead (s : State) (units : List Nat) : State :=
  s.updMe fun a => { a with refs := units.foldl (fun r u => r.insert u false) a.refs }

/-- What reading a command answers: its bytes with their poison; or how the instruction ends or waits. -/
inductive CmdRead where
  | got (bytes : List Byte) (poison : Bool) (s : State)
  | stop (r : Res)

/-- Read bytes as one load-kind access of the team (R279), whose faults `bad` takes; `ns` says whether the bundle's NS bit counts
(R41). As every load, it issues no request where its lines would be too many for the read set (R285). -/
def readCommand (n : Need) (a : Dword) (size : Nat) (ns : Bool) (bad : Cause → State → Res) (s : State) : CmdRead :=
  let xs : List LaneAddr := [{ lane := none, addr := a, poison := false }]
  match s.checkAddrs xs size 0 accLoad with
  | some (c, _) => .stop (bad c s)
  | none =>
    if !s.loadMayLook ns || s.tooWide xs size then .stop (.next s.countWait)
    else match s.locateAll xs size accLoad with
      | (.fault c _, s') => .stop (if s.me.sketch.isNone && s.me.allPerformed then bad c s' else hold s)
      | (.wait, s') => .stop (.next s')
      | (.keys ks, s') =>
        let keys := ks.flatMap (·.2)
        let units := (keys.map unitOf).eraseDups
        if s'.overlapsAtomic keys || s'.l1Bars ks then .stop (hold s)
        else match s'.loadGate n ns units with
          | .wait s => .stop (.next s)
          | .go inSketch s =>
            let r := s.readForward s.me.seq keys
            .got (leBytes size r.1) r.2 (if inSketch then s else s.noteRead units)

/-- Complete an instruction with a status in a scalar register, poison clear. -/
def giveStatus (n : Need) (d : BitVec 7) (st : Nat) (s : State) : Res :=
  .next (retire n (s.setS d.toNat (clean (BitVec.ofNat 64 st))))

/-- Wait for room, counting from the first cycle of the wait (R308, R318). -/
def waitRoom (s : State) : Res :=
  match s.me.wait with
  | .room _ => .next s
  | _ => .next (s.updMe fun a => { a with wait := .room s.time.toNat })

/-- The completion object that an operand names: none, or its Hearth offset; no answer where it is neither (R268,
R318). -/
def State.completionOf (s : State) (v : Nat) : Option (Option Nat) :=
  if v = 0 then some none
  else if classOf v = .hearth && v % 16 == 0 &&
      (match s.partOf s.me with | some p => s.inHearthRanges p (v - hearthWindow) | none => false) then
    some (some (v - hearthWindow))
  else none

/-! ### Operations and their issuers (R293, R294, R318) -/

/-- Whether a compute team issued the operation. -/
abbrev EngineOp.isTeam (o : EngineOp) : Bool := isTeamId o.agent

/-- Whether an agent is the team or thread of a fork, wherever it now stands. -/
def Fork.issuedBy (f : Fork) (id : Nat) (a : Agent) : Bool :=
  if isTeamId f.agent then a.isTeam && a.launch = f.launch && a.teamid = f.teamid else f.agent = id

/-- The fork of an operation, and of a command that the agent whose turn it is issues now. -/
abbrev EngineOp.fork (o : EngineOp) : Fork := { agent := o.agent, launch := o.launch, teamid := o.teamid, seq := o.seq }
def State.fork (s : State) : Fork := { agent := s.meId, launch := s.me.launch, teamid := s.me.teamid, seq := s.me.seq }

/-- Whether an agent is the team or thread that issued the operation, wherever it now stands. -/
abbrev EngineOp.issuedBy (o : EngineOp) (id : Nat) (a : Agent) : Bool := o.fork.issuedBy id a

/-- Whether two operations have one issuer. -/
def EngineOp.sameIssuer (o p : EngineOp) : Bool :=
  if o.isTeam then p.isTeam && p.launch = o.launch && p.teamid = o.teamid else o.agent = p.agent

/-- An operation of the agent whose turn it is. -/
def State.newOp (s : State) (kind : EngineKind) (queue : Nat) (cmd : Dword) (bytes : List Byte) (completion : Option Nat) :
    EngineOp :=
  let a := s.me
  { id := s.nextEngine, kind := kind, queue := queue, agent := s.meId, launch := a.launch, teamid := a.teamid,
    part := (s.partOf a).getD 0, asid := a.asid, sup := a.regs.priv, cluster := a.cluster, chanCluster := a.cluster, scratchBase := a.scratchBase,
    grant := a.grant, cmd := cmd, bytes := bytes, completion := completion, seq := a.seq,
    pendingOf := if a.sketch.isSome then some s.meId else none }

/-- Enter an operation in its queue. -/
def State.addOp (o : EngineOp) (s : State) : State := { s with engines := s.engines ++ [o], nextEngine := s.nextEngine + 1 }

/-- Change an operation. -/
def State.updOp (s : State) (id : Nat) (f : EngineOp → EngineOp) : State :=
  { s with engines := s.engines.map fun o => if o.id = id then f o else o }

/-- How many of a queue's entries commands hold, all of them and a partition's: a command holds its entry until it
completes (R305, R380; DEDUCED, log 33). -/
def State.queueLength (s : State) (q : Nat) : Nat := (s.engines.filter fun o => o.queue = q).length
def State.queueShare (s : State) (q p : Nat) : Nat :=
  (s.engines.filter fun o => o.queue = q && o.part = p).length

/-- Whether every access of the issuer older than the command has been performed, those that a save took back
included (R278, R294). -/
def State.forkDone (s : State) (f : Fork) : Bool :=
  ((s.agents ++ s.transit.map fun (t : Agent × Nat × BitVec 7) => (128, t.1)).all fun c => !f.issuedBy c.1 c.2 ||
    (c.2.storeQ.all (fun r => decide (f.seq ≤ r.seq)) && c.2.replayQ.all (fun r => decide (f.seq ≤ r.seq)) &&
     c.2.loads.all fun l => decide (f.seq ≤ l.seq))) &&
  (s.resume.all fun r => !(isTeamId f.agent && r.launch = f.launch && r.teamid = f.teamid) || r.taken.isEmpty)

abbrev State.issuerDone (s : State) (o : EngineOp) : Bool := s.forkDone o.fork

/-- Whether earlier entries of the issuer have all started (R294, R318). -/
def State.opInOrder (s : State) (o : EngineOp) : Bool :=
  s.engines.all fun p => !(decide (p.id < o.id) && o.sameIssuer p) || p.started

/-- Whether an operation may read or write its team's grant: a check-out or check-in, a list, whose entries may lie there, and a
command or a range in SCRATCH (R230, R270, R320 to R322). -/
def EngineOp.usesGrant (o : EngineOp) : Bool :=
  let inScratch (a : Nat) : Bool := classOf a == .scratch
  o.isTeam && (inScratch o.cmd.toNat || match o.kind with
    | .cpy => inScratch (field o.bytes 0 8) || inScratch (field o.bytes 8 8)
    | .coll => inScratch (field o.bytes 0 8) || inScratch (field o.bytes 8 8)
    | _ => true)

/-- Whether an operation wants a grant that its team does not hold, saved or restored and not yet placed: its rows may be
another team's, so it waits for the placement (R230, R294; log 33). -/
def State.grantAway (s : State) (o : EngineOp) : Bool :=
  o.usesGrant && s.resume.any fun r => r.launch = o.launch && r.teamid = o.teamid

/-- Whether a released operation may make its first access. -/
def State.opReady (s : State) (o : EngineOp) : Bool :=
  o.pendingOf.isNone && !o.started && s.opInOrder o && s.issuerDone o && !s.grantAway o

/-- The maker of an operation's accesses. -/
def EngineOp.who (o : EngineOp) : Who :=
  { part := if o.isTeam then some o.part else none, asid := o.asid.toNat, user := !o.sup, cluster := o.cluster,
    holder := if o.isTeam then some (o.part, o.cluster, o.launch, o.teamid) else none }

/-! ### Where an operation's bytes lie (R229, R230, R319, R320) -/

/-- The keys of a range, in address order; a peer window's bytes stand for themselves at their machine addresses. Or
the status the operation ends with, or a wait. -/
inductive Place where
  | keys (ks : List Nat)
  | bad (status : Nat)
  | wait
  deriving DecidableEq, Repr, Inhabited

/-- Whether a key lies in a peer window. -/
def isPeer (k : Nat) : Bool := decide (0x200000000000 ≤ k ∧ k < 0x300000000000)

/-- The machine address of the first of n bytes of a line of a GLOBAL range. -/
def State.engineByte (s : State) (w : Who) (a n kind : Nat) : Place × State :=
  if 2 ^ 56 ≤ a then (.bad 5, s)
  else match s.locate w a n kind false with
    | (.at m _ _, s) => (.keys [m], s)
    | (.wait, s) => (.wait, s)
    | (.fault c _ target, s) =>
      if !target then (.bad 5, s)
      else if c != 0x08 then (.bad 4, s)
      else match s.translate w a kind with
        | (.at m _ _, s) => (.keys [m], s)
        | (_, s) => (.bad 5, s)

/-- The keys of n bytes, line by line; the first number bounds the lines. -/
def State.engineLines (w : Who) (kind : Nat) : Nat → Nat → Nat → State → Place × State
  | 0, _, _, s => (.keys [], s)
  | f + 1, a, n, s =>
    if n = 0 then (.keys [], s)
    else
      let first := min n (128 - a % 128)
      match s.engineByte w a first kind with
      | (.keys ms, s) =>
        match State.engineLines w kind f (a + first) (n - first) s with
        | (.keys ks, s) => (.keys ((List.range first).map (ms.headD 0 + ·) ++ ks), s)
        | r => r
      | r => r

/-- The keys of n bytes at a generic address of an operation, which notes the pages it asks for (R365). -/
def State.engineKeys (s : State) (o : EngineOp) (a n : Nat) (swz : BitVec 2) (kind : Nat) : Place × State :=
  match classOf a with
  | .scratch =>
    (.keys ((List.range n).map fun i => scratchKey o.cluster (o.scratchBase + swizzle (a - scratchWindow + i) swz)), s)
  | .hearth =>
    let hs := (List.range n).map fun i => a - hearthWindow + i
    (if hs.all (s.inHearthRanges o.part) then .keys (hs.map hearthKey) else .bad 5, s)
  | .global => State.engineLines o.who kind (n / 128 + 2) a n (s.updOp o.id fun p => { p with spans := (a, n) :: p.spans.filter (· != (a, n)) })

/-- Whether the n bytes at an address are all of one window class (R226). -/
def oneClass (a n : Nat) : Bool :=
  match classOf a with
  | .scratch => decide (a + n ≤ scratchWindow + 2 ^ 21)
  | .hearth => decide (a + n ≤ hearthWindow + 2 ^ 27)
  | .global => !(decide (a < scratchWindow ∧ scratchWindow < a + n)) && !(decide (a < hearthWindow ∧ hearthWindow < a + n))

/-- What an operation reads at keys: each byte with the poison of its word; bytes of peers are filled in later. -/
def State.snapshot (s : State) (keys : List Nat) : List (Byte × Bool) :=
  keys.map fun k => if isPeer k then (0, false) else (Memory.read s.mem k, s.poison.get false (k / 4))

/-- The bytes of a snapshot that come from peers. -/
def peersOf (keys : List Nat) : List (Nat × Nat) := (keys.zipIdx.filter fun c => isPeer c.1).map fun c => (c.2, c.1)

/-- A machine line takes a write that no cache of a die makes: copies are dropped, and the line passes to its granule, unless
it is held (R236, R366, R373, R376). A line that no cache holds counts as one of die 0 and virtual line 0 where its write-back
finds no chunk: R240 has no slice for it (log 49). -/
def State.claimLine (s : State) (line : Nat) : State :=
  if 2 ^ 41 ≤ line then s
  else match s.dir.find? line with
    | some e =>
      let e := { e with dirty := true, dies := 0, cl := 0, lastDie := e.die }
      { (s.dropCopies none [line]) with
          dir := s.dir.insert line (if e.st = .held then e else { e with st := .shared, detached := true, passing := true }) }
    | none =>
      let s := s.readBlocks line
      { s with dir := s.dir.insert line { dirty := true, detached := true, passing := true } }

/-- Which bytes of a word are written, and with which poison, bit by bit. -/
structure WordWrite where
  bytes : BitVec 4 := 0
  poison : BitVec 4 := 0
  deriving DecidableEq, Repr, Inhabited

/-- A later write of some bytes of the same word. -/
def WordWrite.then_ (a b : WordWrite) : WordWrite := { bytes := a.bytes ||| b.bytes, poison := (a.poison &&& ~~~b.bytes) ||| b.poison }

/-- The words that bytes are written to, in the order of the list; bytes of one word that follow one another stand together. -/
def wordWrites : List (Nat × Byte × Bool) → List (Nat × WordWrite)
  | [] => []
  | (k, _, q) :: rest =>
    let w : WordWrite := { bytes := 1#4 <<< (k % 4), poison := if q then 1#4 <<< (k % 4) else 0 }
    match wordWrites rest with
    | (m, v) :: more => if m = k / 4 then (m, w.then_ v) :: more else (k / 4, w) :: (m, v) :: more
    | [] => [(k / 4, w)]

/-- Each word once. -/
def mergeWords (ws : List (Nat × WordWrite)) : Cells WordWrite :=
  if Cells.rising ws then ws
  else ws.foldl (fun (m : Cells WordWrite) c => m.insert c.1 ((m.get {} c.1).then_ c.2)) []

/-- The poison of words after an operation has written bytes: a word of which it has written every byte takes the OR of their
poison, and one written in part keeps its own poison beside it (R319). The words are those of the whole operation, in whatever
order its bytes come (log 47). -/
def poisonBytes (all : List (Nat × Byte × Bool)) (p : Cells Bool) : Cells Bool :=
  (mergeWords (wordWrites all)).foldl (fun p c =>
    p.put false c.1 (c.2.poison != 0#4 || (c.2.bytes != 0xF#4 && p.get false c.1))) p

/-- Write bytes with their poison as accesses of an operation, in the order of the list (R319, R321). Peers' bytes leave the
package. -/
def State.writeEngine (s : State) (keys : List Nat) (data : List (Byte × Bool)) : State :=
  let all : List (Nat × Byte × Bool) := keys.zip data
  let here := all.filter fun c => !isPeer c.1
  let out := all.filter fun c => isPeer c.1
  let sent : List DevWrite := out.map fun c => { addr := c.1, size := 1, value := c.2.1.setWidth 64, poison := c.2.2 }
  let units := (here.map fun c => unitOf c.1).eraseDups
  let s := units.foldl (fun (s : State) u => s.claimLine u) s
  { s with mem := here.foldl (fun m (c : Nat × Byte × Bool) => Memory.write m c.1 c.2.1) s.mem,
           poison := poisonBytes here s.poison,
           devWrites := s.devWrites ++ sent }.notifyWrite
    none units

/-! ### Posting to a doorbell proxy registration (R342 to R344) -/

/-- DEPTH and PUB of a registration. -/
abbrev regDepth (s : State) (h : Nat) : Nat := 2 ^ (regFlags s h % 16)
abbrev regPub (s : State) (h : Nat) : Nat := s.rd (proxyBase h + 0x10) 4
abbrev regPaused (s : State) (h : Nat) : Bool := bitOf (regFlags s h) 9

/-- Whether a slot's filled bit is set, and whether any is. -/
def State.isFilled (s : State) (h i : Nat) : Bool := s.filled.get false (4096 * h + i % regDepth s h)
def State.anyFilled (s : State) (h : Nat) : Bool := s.filled.any fun c => c.1 / 4096 = h

/-- A registration has a tail write to issue (R343). -/
def State.wantTail (s : State) (h : Nat) : State :=
  if regPaused s h || s.tails.contains h then s else { s with tails := s.tails ++ [h] }

/-- Publish every filled slot from PUB on; the number bounds them. -/
def State.publish (h : Nat) : Nat → State → State
  | 0, s => s
  | n + 1, s =>
    let pub := regPub s h
    if s.isFilled h pub then
      State.publish h n ({ s with filled := s.filled.remove (4096 * h + pub % regDepth s h) }.wr (proxyBase h + 0x10) 4 ((pub + 1) % 2 ^ 32))
    else s

/-- Whether the proxy accepts a slot for a partition (R342). -/
def State.acceptsSlot (s : State) (p : Option Nat) (h k : Nat) : Bool :=
  regValid s h && p = some (regPart s h) && decide ((k + 2 ^ 32 - regPub s h) % 2 ^ 32 < regDepth s h) && !s.isFilled h k

/-- A hole timer that has been reported stays listed past every cycle until PUB advances. -/
abbrev holeReported : Nat := 2 ^ 64

/-- The proxy accepts a slot and publishes; the hole timer starts at PUB's advance or at the first filled bit after it
(R343, R344). -/
def State.acceptSlot (s : State) (h k : Nat) : State :=
  let pub := regPub s h
  let s := { s with filled := s.filled.put false (4096 * h + k % regDepth s h) true }
  let s := State.publish h (regDepth s h) s
  let moved := regPub s h != pub
  let s := if moved then s.wantTail h else s
  let holes :=
    if !s.anyFilled h then s.holes.remove h
    else if moved || (s.holes.find? h).isNone then s.holes.insert h s.time.toNat else s.holes
  { s with holes := holes }

/-- What posting entries of the device's own answers: done; a registration that refuses; or no room now. -/
inductive Posted where
  | done (slots : List (Nat × Word32)) (s : State)
  | refused
  | wait

/-- The device reserves a slot of each registration and posts it, as QRSV and QPOST do for the partition of the operation (R341,
R342, R355): with the slots posted. -/
def State.postEntries (p : Nat) : List Nat → List (Nat × Word32) → State → Posted
  | [], ps, s => .done ps s
  | h :: hs, ps, s =>
    match (if regValid s h && regPart s h = p then s.reserveSlots none h 1 else (some (2 ^ 63), s)) with
    | (none, _) => .wait
    | (some k, s) =>
      if 2 ^ 63 ≤ k || !s.acceptsSlot (some p) h k then .refused
      else State.postEntries p hs (ps ++ [(h, BitVec.ofNat 32 k)]) (s.acceptSlot h k)

/-! ### Channels (R326 to R328) -/

/-- The channels, by cluster and number, that an operation reads from and writes to (R320, R322). -/
def EngineOp.chans (o : EngineOp) : Option Nat × Option Nat :=
  match o.kind with
  | .cpy =>
    let c := field o.bytes 0x14 4
    (if bitsOf c 1 0 = 1 then some (16 * o.chanCluster + bitsOf c 11 8) else none,
     if bitsOf c 3 2 = 1 then some (16 * o.chanCluster + bitsOf c 15 12) else none)
  | .coll =>
    let c := field o.bytes 0x1C 4
    (if bitsOf c 17 16 = 1 then some (16 * o.chanCluster + bitsOf c 23 20) else none,
     if bitsOf c 19 18 = 1 then some (16 * o.chanCluster + bitsOf c 27 24) else none)
  | _ => (none, none)

/-- Whether an operation names a channel. -/
def EngineOp.names (o : EngineOp) (c : Nat) : Bool := o.chans.1 = some c || o.chans.2 = some c

/-- fill and room of a channel. -/
def Channel.fill (c : Channel) : Nat := (c.prod - c.cons).toNat
def Channel.room (c : Channel) : Nat := 2 ^ c.log2size - c.fill

/-- Whether a channel serves a launch. One whose CHNINIT is pending in an open sketch serves none yet, that sketch's own commands
among them: its binding comes at release (R293, R327; log 47). -/
def Channel.serves (c : Channel) (launch : Dword) : Bool := c.bound && !c.closing && c.launch = launch

/-- The keys of n stream bytes of a channel from a position on: they lie in its owner's grant. -/
def State.channelKeys (s : State) (c : Nat) (from_ n : Nat) : List Nat :=
  let ch := s.channels.get {} c
  let owner (a : Agent) : Bool := a.isTeam && a.launch = ch.launch && a.teamid = ch.teamid
  let sb := match (s.agents.map (·.2) ++ s.transit.map (·.1)).find? owner with
    | some a => a.scratchBase
    | none => 0
  (List.range n).map fun i => scratchKey (c / 16) (sb + ch.base + (from_ + i) % 2 ^ ch.log2size)

/-- Whether a fired operation on a channel has not completed. -/
def State.channelBusy (s : State) (c : Nat) : Bool := s.engines.any fun o => o.names c && o.fired

/-- Commands that name a channel and have not fired end with STATUS 3 (R327). -/
def State.cancelChannel (s : State) (c : Nat) : State :=
  { s with engines := s.engines.map fun o =>
      if o.names c && !o.fired then { o with status := 3, started := o.pendingOf.isNone } else o }

/-- A channel is unbound: every CHNWAIT on it ends (R327). -/
def State.dropChannel (s : State) (c : Nat) : State :=
  let wake (a : Agent) : Agent :=
    { a with wait := match a.wait with
        | .chnwait d ch n data u => .chnwait d ch n data (u || ch = c)
        | w => w }
  { s with channels := s.channels.remove c, me := wake s.me, others := s.others.map fun x => (x.1, wake x.2) }

/-- Free a channel: unfired commands are cancelled, and it is unbound once no fired one is left. -/
def State.unbind (s : State) (c : Nat) : State :=
  let s := s.cancelChannel c
  if s.channelBusy c then { s with channels := s.channels.insert c { s.channels.get {} c with closing := true } }
  else s.dropChannel c

/-- The channels that the agent whose turn it is owns. -/
def State.ownChannels (s : State) : List Nat :=
  (s.channels.filter fun c => c.2.bound && c.1 / 16 = s.me.cluster && c.2.launch = s.me.launch &&
    c.2.teamid = s.me.teamid).map (·.1)

/-- The agent whose turn it is gives its channels up: `go` once no fired operation of them is left, a wait before
(R327). -/
def leaveChannels (go : State → Res) (s : State) : Res :=
  let cs := s.ownChannels
  let s := cs.foldl State.cancelChannel s
  if cs.any s.channelBusy then .next s else go (cs.foldl State.dropChannel s)

/-! ### The end of an operation (R319) -/

/-- Where a command's STATUS word lies. -/
def EngineOp.statusOff (o : EngineOp) : Nat :=
  match o.kind with
  | .coll => 0x30
  | .chkout _ _ => 0x10
  | .chkin => 0x10
  | _ => 0x18

/-- The last acts of an operation: its STATUS word, one arrival, and its channels' pending unbinding. -/
def State.endOp (s : State) (o : EngineOp) (status : Nat) : State :=
  let (place, s) := s.engineKeys o (o.cmd.toNat + o.statusOff) 4 0 accStore
  let s := match place with
    | .keys ks => s.writeEngine ks ((leBytes 4 status).map (·, false))
    | _ => s.count (some o.part) 0x107
  let s := match o.completion with
    | some h => s.arriveDevice o.part h
    | none => s
  let s := { s with engines := s.engines.filter fun p => p.id != o.id }
  (o.chans.1.toList ++ o.chans.2.toList).foldl (fun (s : State) c =>
    if (s.channels.get {} c).closing && !s.channelBusy c then s.dropChannel c else s) s

/-! ### What an invalidation waits for (R365) -/

/-- How an access of an agent is named while its agent may move: launch, TEAMID or thread number, place in program order. -/
def accessName (id : Nat) (a : Agent) (seq : Nat) : Dword × Word32 × Nat :=
  (a.launch, if a.isTeam then a.teamid else BitVec.ofNat 32 id, seq)

/-- The accesses and operations that have a translation of a range of an ASID and are not yet performed: loads in flight, atomics,
an IORD whose completion is out, and started operations. A store is translated when it is performed. -/
def State.outstanding (s : State) (asid lo n : Nat) : Outstanding :=
  let meets (a m : Nat) : Bool := decide (a < lo + n ∧ lo < a + m)
  { accs := s.agents.flatMap fun c =>
      ((c.2.loads.filter fun l => c.2.asid.toNat = asid && l.lanes.any fun r => meets r.addr.toNat r.keys.length).map
        fun l => accessName c.1 c.2 l.seq) ++
      ((c.2.storeQ.filter fun r => r.asid.toNat = asid && !r.keys.isEmpty && classOf r.addr.toNat == .global && meets r.addr.toNat r.size).map
        fun r => accessName c.1 c.2 r.seq) ++
      (match c.2.wait with
        | .iord _ size _ _ va _ _ => if c.2.asid.toNat = asid && meets va size then [accessName c.1 c.2 c.2.seq] else []
        | _ => [])
    ops := (s.engines.filter fun o => o.started && o.asid.toNat = asid && o.spans.any fun p => meets p.1 p.2).map (·.id) }

/-- Whether all of them have finished. -/
def State.finished (s : State) (o : Outstanding) : Bool :=
  (s.engines.all fun p => !o.ops.contains p.id) &&
  s.agents.all fun c =>
    (c.2.loads.all fun l => !o.accs.contains (accessName c.1 c.2 l.seq)) &&
    (c.2.storeQ.all fun r => r.keys.isEmpty || !o.accs.contains (accessName c.1 c.2 r.seq)) &&
    (match c.2.wait with | .iord .. => !o.accs.contains (accessName c.1 c.2 c.2.seq) | _ => true)

/-! ### The range table (R245 to R247, R368, R270) -/

/-- The pieces of a range: runs contiguous in machine space and homed by one controller. -/
def piecesOf (keys : List Nat) : List (Nat × Nat) :=
  (keys.foldl (fun (ps : List (Nat × Nat)) k =>
    match ps with
    | (b, n) :: rest =>
      if k = b + n && (lineHome (b / 128)).1 = (lineHome (k / 128)).1 then (b, n + 1) :: rest else (k, 1) :: ps
    | [] => [(k, 1)]) []).reverse

/-- The machine keys of a check-out, in range order. -/
def RangeRec.keys (r : RangeRec) : List Nat := r.pieces.flatMap fun p => (List.range p.2).map (p.1 + ·)

/-- Whether a new check-out meets a held one that it conflicts with (R245), or its pieces do not all fit (R356). -/
def State.rangeConflict (s : State) (mode : Nat) (pieces : List (Nat × Nat)) : Bool :=
  (s.ranges.any fun r => !r.recalled &&
    !((mode = 0 && r.mode.toNat = 0) || (mode = 2 && r.mode.toNat = 2)) &&
    r.pieces.any fun p => pieces.any fun q => decide (p.1 < q.1 + q.2 ∧ q.1 < p.1 + p.2)) ||
  (List.range 24).any fun h =>
    let at_ (ps : List (Nat × Nat)) : Nat := (ps.filter fun p => (lineHome (p.1 / 128)).1 = h).length
    let new := at_ pieces
    new != 0 && decide (1024 < new + ((s.ranges.filter (!·.recalled)).map fun r => at_ r.pieces).sum)

/-- Enter a check-out and fill its copy, as one event (R245, R270). -/
def State.checkOut (s : State) (o : EngineOp) (mode : BitVec 2) (keys : List Nat) : State :=
  let c := field o.bytes 0x0C 4
  let soff := bitsOf c 20 0
  let swz := BitVec.ofNat 2 (bitsOf c 22 21)
  let r : RangeRec :=
    { cid := s.nextCid, mode := mode, part := o.part, cluster := o.cluster, launch := o.launch, teamid := o.teamid,
      asid := o.asid, pieces := piecesOf keys, vbase := BitVec.ofNat 64 (field o.bytes 0 8), vlen := field o.bytes 8 4,
      soff := soff, swz := swz, scratchBase := o.scratchBase }
  let dst := (List.range keys.length).map fun i => scratchKey o.cluster (o.scratchBase + swizzle (soff + i) swz)
  let s := if mode.toNat = 1 then s.dropCopies none (keys.map unitOf).eraseDups else s
  let s := { s with ranges := s.ranges ++ [r], nextCid := s.nextCid + 1 }
  let s := s.writeEngine dst (s.snapshot keys)
  { s with dirty := dst.foldl (fun d k => d.put false (k / 4) false) s.dirty }

/-- The bytes of the dirty words of a copy, each with the byte of the range that it goes to (R246, R270). -/
def State.hotBytes (s : State) (r : RangeRec) (soff : Nat) (swz : BitVec 2) : List (Nat × Nat) :=
  (r.keys.zipIdx.map fun (c : Nat × Nat) => (c.1, scratchKey r.cluster (r.scratchBase + swizzle (soff + c.2) swz))).filter fun c =>
    s.dirty.get false (c.2 / 4)

/-- Write the dirty words of a copy back to its range as one event, and clear their dirty bits (R246, R270). -/
def State.writeDirty (s : State) (r : RangeRec) (soff : Nat) (swz : BitVec 2) : State :=
  let hot := s.hotBytes r soff swz
  let s := s.writeEngine (hot.map (·.1)) (s.snapshot (hot.map (·.2)))
  { s with dirty := hot.foldl (fun d c => d.put false (c.2 / 4) false) s.dirty }

/-- Check a copy in, with the offset and swizzle of a CHKIN, and release its entry. -/
def State.checkIn (s : State) (r : RangeRec) (soff : Nat) (swz : BitVec 2) : State :=
  let s := if r.mode.toNat = 0 then s else s.writeDirty r soff swz
  { s with ranges := s.ranges.filter fun q => q.cid != r.cid }

end Sys2Proof.Machine
end

