-- ==== Sys2Proof/Machine/Kindle.lean ====
section
/-! DEFINITION. Machine/Kindle.lean: kindling: bins, their lighting, the ring, and SPAWN (R30, R305, R313 to R315). -/
namespace Sys2Proof.Machine

/-! ### Bins -/

/-- The released threads of a bin, oldest first. -/
def Bin.released (b : Bin) : List SpawnThread := b.threads.filter (·.pendingOf.isNone)

/-- The first n released threads of a list, and the threads left. -/
def takeReleased : Nat → List SpawnThread → List SpawnThread × List SpawnThread
  | _, [] => ([], [])
  | 0, ts => ([], ts)
  | n + 1, t :: ts =>
    if t.pendingOf.isNone then
      let r := takeReleased n ts
      (t :: r.1, r.2)
    else
      let r := takeReleased (n + 1) ts
      (r.1, t :: r.2)

/-- A launch entry by its handle. -/
def State.launchEntry (s : State) (h : Dword) : Option LaunchEntry := s.launches.find? fun l => l.handle = h

/-- Change a launch entry. -/
def State.updLaunch (s : State) (h : Dword) (f : LaunchEntry → LaunchEntry) : State :=
  { s with launches := s.launches.map fun l => if l.handle = h then f l else l }

/-- Light up to 32 of a bin's released threads, the oldest, as one team of their launch (R314). -/
def State.lightOne (s : State) (b : Bin) : State × Bin :=
  let (ts, rest) := takeReleased 32 b.threads
  let t : LitTeam :=
    { launch := b.launch, die := b.die, entry := b.entry, args := ts.map (·.arg), litAt := s.time.toNat,
      seqNo := match s.launchEntry b.launch with | some l => l.lit | none => 0
      forks := ts.map (·.fork) }
  if ts.isEmpty then (s, b)
  else
    let s := s.updLaunch b.launch fun l => { l with lit := l.lit + 1, liveTeams := l.liveTeams + 1 }
    ({ s with lits := s.lits ++ [t] }, { b with threads := rest })

/-- Light a bin some times. -/
def State.lightTimes : Nat → State → Bin → State × Bin
  | 0, s, b => (s, b)
  | n + 1, s, b =>
    let r := s.lightOne b
    State.lightTimes n r.1 r.2

/-- Light every bin as often as `n` says; a bin left empty is freed. -/
def State.lightWhere (s : State) (n : Bin → Nat) : State :=
  s.bins.foldl (fun (s : State) (b : Bin) =>
    let r := State.lightTimes (n b) s b
    if r.2.threads.isEmpty then r.1 else { r.1 with bins := r.1.bins ++ [r.2] }) { s with bins := [] }

/-- Every bin that holds 32 released threads is lit (R314). -/
def State.lightFull (s : State) : State := s.lightWhere fun b => b.released.length / 32

/-- A launch's kindling timer. -/
def State.ktimer (s : State) (h : Dword) : Nat :=
  match s.launchEntry h with
  | some l => if l.desc.ktimer = 0 then 2000 else l.desc.ktimer
  | none => 2000

/-- The cycle at which a bin's timer expires: it counts from the arrival of its oldest released thread. -/
def State.binDue (s : State) (b : Bin) : Option Nat :=
  b.released.head?.map fun t => t.arrived.getD 0 + s.ktimer b.launch

/-- KINDLING_TIMER (R314): where the 32nd thread arrives in the same cycle, one team of 32 is lit by then. -/
def execKindlingTimer (die bin : Nat) (s : State) : Res :=
  match (s.bins.filter fun b => b.die = die)[bin]? with
  | none => noEvent "KINDLING_TIMER"
  | some b => match s.binDue b with
    | none => noEvent "KINDLING_TIMER"
    | some t =>
      if s.expires t then .next (s.lightWhere fun c => if c = b then 1 else 0) else noEvent "KINDLING_TIMER"

/-- Put a thread in the bin of its key, or in a free bin of the partition's share; none where there is no room (R313). -/
def State.intoBin (s : State) (die part : Nat) (t : SpawnThread) : Option State :=
  let key (b : Bin) : Bool := b.die = die && b.part = part && b.launch = t.launch && b.entry = t.entry
  let t : SpawnThread := { t with arrived := some s.time.toNat, lane := 0 }
  match s.bins.find? key with
  | some b =>
    if b.threads.length < 1024 then
      let bins := s.bins.map fun (c : Bin) => if key c then { c with threads := c.threads ++ [t] } else c
      some ({ s with bins := bins }.lightFull)
    else none
  | none =>
    let here := s.bins.filter fun b => b.die = die
    if here.length < 64 && (here.filter fun b => b.part = part).length < bitsOf (s.partField part 0x104 4) 13 8 then
      let b : Bin := { die := die, part := part, launch := t.launch, entry := t.entry, threads := [t] }
      some { s with bins := s.bins ++ [b] }
    else none

/-! ### The ring (R313) -/

/-- The supervisor of a partition, as the maker of an access. -/
def State.svWho (s : State) (p : Nat) : Who := { part := some p, asid := s.partField p 6 2 }

/-- The entries of a partition's kindling ring. -/
def State.ringSize (s : State) (p : Nat) : Nat := 2 ^ (s.partField p 0x104 4 % 32)

/-- The keys of ring entry i, where its page can be reached. -/
def State.ringKeys (s : State) (p i kind : Nat) : Option (List Nat × State) :=
  match State.engineLines (s.svWho p) kind 2 (s.partField p 0x108 8 + 32 * (i % s.ringSize p)) 32 s with
  | (.keys ks, s) => some (ks, s)
  | _ => none

/-- Put a thread at the tail of the ring. What it waits for, which its entry has no field for, is kept beside the ring. -/
def State.intoRing (s : State) (die p : Nat) (t : SpawnThread) : Option State :=
  let q := s.part p
  if q.ringTail - q.ringHead < s.ringSize p then
    match s.ringKeys p q.ringTail accStore with
    | some (ks, s) =>
      let bytes := leBytes 8 t.entry.toNat ++ leBytes 8 t.arg.toNat ++ leBytes 8 t.launch.toNat ++ leBytes 8 die
      let note : RingNote := { pendingOf := t.pendingOf, fork := t.fork }
      some ((s.writeEngine ks (bytes.map (·, false))).updPart p fun q =>
        { q with ringTail := q.ringTail + 1, ringNotes := q.ringNotes.put {} q.ringTail note })
    | none => none
  else none

/-- The thread and die of ring entry i. -/
def State.ringThread (s : State) (p i : Nat) : Option (SpawnThread × Nat) :=
  match s.ringKeys p i accLoad with
  | some (ks, t) =>
    let v (off : Nat) : Nat := leValue ((ks.drop off |>.take 8).map (Memory.read t.mem))
    let note := (s.part p).ringNotes.get {} i
    some ({ entry := BitVec.ofNat 64 (v 0), arg := BitVec.ofNat 64 (v 8), launch := BitVec.ofNat 64 (v 16), fork := note.fork,
            pendingOf := note.pendingOf }, v 24 % 4)
  | none => none

/-- Whether the thread of ring entry i has been erased (R289). -/
def State.ringVoid (s : State) (p i : Nat) : Bool := ((s.part p).ringNotes.get {} i).void

/-- The head of the ring moves on. -/
def State.ringNext (s : State) (p : Nat) : State :=
  s.updPart p fun q => { q with ringHead := q.ringHead + 1, ringNotes := q.ringNotes.remove q.ringHead }

/-- A place for a thread at a kindling unit: a bin, or the ring (R313). -/
def State.placeAt (s : State) (die p : Nat) (t : SpawnThread) : Option State :=
  (s.intoBin die p t).orElse fun _ => s.intoRing die p t

/-- The first thread of a restored image that finds a place at the kindling unit where it waits (R315). -/
def State.placeKept (s : State) (p : Nat) : Option State :=
  (s.part p).kindling.findSome? fun c =>
    (s.placeAt c.1 p c.2).map fun s => s.updPart p fun q => { q with kindling := q.kindling.erase c }

/-- KINDLING_RING_REFILL (R313): the head moves, in ring order. A thread that a restored image brought to a kindling unit has its
own place in this row too, once there is room for it (R315). -/
def execKindlingRingRefill (part : Nat) (s : State) : Res :=
  let q := s.part part
  let head : Option State :=
    if q.ringTail ≤ q.ringHead then none
    else if s.ringVoid part q.ringHead then some (s.ringNext part)
    else match s.ringThread part q.ringHead with
      | some (t, die) => (s.intoBin die part t).map fun s => s.ringNext part
      | none => none
  match head.orElse fun _ => s.placeKept part with
  | some s => .next s
  | none => noEvent "KINDLING_RING_REFILL"

/-! ### SPAWN (R315) -/

/-- SPAWN is complete once every thread of it has been placed or dropped. A save comes before that (`State.saveForced`). -/
def State.spawnDone (s : State) : State :=
  match s.me.wait with
  | .spawn _ => if s.me.spawnQ.isEmpty then retire {} s else s
  | _ => s

/-- Where a thread in transfer goes: a bin, or the ring, of the die its team stands on. -/
def State.placeThread (s : State) (t : SpawnThread) : Option State := s.placeAt s.me.die s.me.part t

/-- SPAWN: every thread is on its way to the kindling unit. -/
def execSpawn (m : BitVec 4) (a : BitVec 8) (e : BitVec 7) (s : State) : Res :=
  let v := s.me.vecNeedOf true [] [(a.toNat, true)] 0 false
  let n := { v with reads := v.reads ++ s.me.sRegs e.toNat, writes := [.m m.toNat], pass := 0 }
  issue n (fun s =>
    let g := s.me
    let x := g.getS e.toNat
    consumeLanes (fun l => x.poison || (g.getPair a.toNat l).poison) (fun s =>
      if badTarget x.val then trapIn .illegal g.exec s
      else
        let ts : List SpawnThread := g.execLanes.map fun l =>
          { entry := x.val, arg := (g.getPair a.toNat l).val, launch := g.launch, lane := l, fork := s.fork,
            pendingOf := if g.sketch.isSome then some s.meId else none }
        .next ((writeMask m.toNat (fun _ => true) s).updMe fun a => { a with spawnQ := ts, wait := .spawn m }).spawnDone) s) s

/-- A thread of a SPAWN has been placed or dropped. -/
def State.threadDone (s : State) (t : SpawnThread) : State := (s.updMe fun a => { a with spawnQ := a.spawnQ.erase t }).spawnDone

/-- KINDLING_THREAD_ARRIVAL (R313): the oldest thread in transfer arrives, and is placed or begins its wait for room; once all have
arrived, the first that finds room is placed. -/
def execKindlingThreadArrival (agent : Nat) (s : State) : Res :=
  onAgent "KINDLING_THREAD_ARRIVAL" agent (fun s =>
    match s.me.wait, s.me.spawnQ.find? (·.arrived.isNone) with
    | .spawn _, some t =>
      match s.placeThread t with
      | some s => .next (s.threadDone t)
      | none => .next (s.updMe fun a =>
          { a with spawnQ := a.spawnQ.map fun x => if x = t then { t with arrived := some s.time.toNat } else x })
    | .spawn _, none =>
      match s.me.spawnQ.findSome? fun t => (s.placeThread t).map fun s => s.threadDone t with
      | some s => .next s
      | none => noEvent "KINDLING_THREAD_ARRIVAL"
    | _, _ => noEvent "KINDLING_THREAD_ARRIVAL") s

/-- KINDLING_DROP (R313, R315): a thread that has waited 4,096 cycles from its own arrival with no room is dropped, and its bit
cleared. -/
def execKindlingDrop (agent : Nat) (s : State) : Res :=
  onAgent "KINDLING_DROP" agent (fun s =>
    let late (t : SpawnThread) : Bool := match t.arrived with
      | some since => s.expires (since + 4096) && (s.placeThread t).isNone
      | none => false
    match s.me.wait, s.me.spawnQ.find? late with
    | .spawn m, some t => .next ((s.updMe fun a => a.setM m.toNat (a.getM m.toNat &&& ~~~(maskOf [t.lane]))).threadDone t)
    | _, _ => noEvent "KINDLING_DROP") s

end Sys2Proof.Machine
end

