-- ==== Sys2Proof/Machine/Image.lean ====
section
/-! DEFINITION. Machine/Image.lean: the context image: how a team is laid out in memory and read back (R216 to R222). -/
namespace Sys2Proof.Machine

/-! ### Writing (R216 to R221) -/

/-- Bytes filled with zeros to a multiple of 64. -/
def pad64 (b : List Byte) : List Byte := b ++ List.replicate ((64 - b.length % 64) % 64) 0

/-- n bytes that hold one bit for each index. -/
def bitBytes (n : Nat) (f : Nat → Bool) : List Byte :=
  (List.range n).map fun i => BitVec.ofNat 8 (((List.range 8).map fun j => if f (8 * i + j) then 2 ^ j else 0).sum)

/-- The number of lane words (R26). -/
abbrev Agent.laneWords (a : Agent) : Nat := (a.lanes + 31) / 32

/-- The top word of a lane mask (R26). -/
def topWord (m : LaneMask) : Nat :=
  ((List.range 32).map fun w => if (m >>> (32 * w)).setWidth 32 = 0#32 then 0 else 2 ^ w).sum

/-- The code of an entry's kind (R220). -/
def EntryKind.code : EntryKind → Nat
  | .base => 0
  | .path => 1
  | .frame => 2

/-- A stack entry (R220). -/
def StackEntry.bytes (e : StackEntry) : List Byte :=
  leBytes 8 e.pc.toNat ++ leBytes 8 (match e.rpc with | some r => r.toNat | none => 2 ^ 64 - 1) ++ leBytes 4 e.mode.toNat ++
  leBytes 4 e.kind.code ++ leBytes 4 (topWord e.mask) ++ leBytes 4 0 ++ leBytes 128 e.mask.toNat

/-- The stack section, entry 0 the base entry (R218). -/
def Agent.stackBytes (a : Agent) : List Byte := (a.regs.top :: a.regs.rest).reverse.flatMap StackEntry.bytes

/-- The registers section (R219). -/
def Agent.regBytes (a : Agent) : List Byte :=
  let s (n : Nat) : PDword := a.regs.s.get {} n
  let lanes (f : Nat → Nat → List Byte) : List Byte := (List.range a.bv).flatMap fun n => (List.range a.laneWords).flatMap (f n)
  pad64 ((List.range a.bs).flatMap fun n => leBytes 8 (s n).val.toNat) ++
  pad64 (bitBytes 16 fun n => decide (n < a.bs) && (s n).poison) ++
  pad64 (lanes fun n w => (List.range 32).flatMap fun j => leBytes 4 (a.getV n (32 * w + j)).val.toNat) ++
  pad64 (lanes fun n w => bitBytes 4 fun j => (a.getV n (32 * w + j)).poison) ++
  ((List.range 16).flatMap fun n => leBytes 128 (a.getM n).toNat) ++
  ((List.range a.ba).flatMap fun t =>
    ((List.range 4096).flatMap fun w => leBytes 4 (a.getA t w).val.toNat) ++ bitBytes 512 fun w => (a.getA t w).poison)

/-- The trap state section (R221). -/
def Agent.trapBytes (a : Agent) : List Byte :=
  let k (n : Nat) : PDword := a.regs.k.get {} n
  let link : PDword := if a.bs < 128 then a.regs.s.get {} 127 else {}
  leBytes 4 a.tcause.toNat ++ leBytes 4 (if a.regs.priv then 1 else 0) ++ leBytes 8 a.tpc.toNat ++ leBytes 8 a.taddr.toNat ++
  leBytes 4 a.sstop.toNat ++ leBytes 4 0 ++ leBytes 128 a.tmask.toNat ++
  ((List.range 16).flatMap fun n => leBytes 8 (k n).val.toNat) ++ bitBytes 2 (fun n => (k n).poison) ++
  leBytes 1 (if link.poison then 1 else 0) ++ leBytes 5 0 ++ leBytes 8 link.val.toNat ++ leBytes 16 0

/-- The address by which a replay entry names an access's place; none where the entry has no form for it: it has no field
for a swizzle (R222). -/
def StoreReq.imageAddr (r : StoreReq) : Option Dword :=
  match r.swz with
  | none => some r.addr
  | some z =>
    if z = 0 || (r.size = 4 && r.addr.toNat % 4 = 0) then some (BitVec.ofNat 64 (scratchWindow + swizzle r.addr.toNat z)) else none

/-- Whether an access is the second piece of a store that spans two lines, of which another is the first (R227). -/
def StoreReq.follows (t r : StoreReq) : Bool :=
  r.kind = .store && t.kind = .store && r.lane = t.lane && r.seq = t.seq && r.swz.isNone && t.swz.isNone && r.keys.isEmpty &&
  t.keys.isEmpty && t.addr.toNat == r.addr.toNat + r.size && t.addr.toNat % 128 == 0 && [2, 4, 8].contains (r.size + t.size)

/-- The sizes that an entry has a code for, which together make a number of bytes (R222). -/
def entrySizes (n : Nat) : List Nat :=
  (if 4 ≤ n then [4] else []) ++ (if 2 ≤ n % 4 then [2] else []) ++ (if n % 2 = 1 then [1] else [])

/-- A store in the sizes that an entry has a code for: what is left of one whose first piece has been performed may have none,
and is stored in parts, from the lowest address up (log 51). -/
def StoreReq.parts (r : StoreReq) : List StoreReq :=
  if r.kind != .store || [1, 2, 4, 8].contains r.size then [r]
  else ((entrySizes r.size).foldl (fun (acc : List StoreReq × Nat) n =>
    (acc.1 ++ [{ r with addr := r.addr + BitVec.ofNat 64 acc.2, size := n, data := { r.data with val := r.data.val >>> (8 * acc.2) } }],
     acc.2 + n)) ([], 0)).1

/-- The accesses of a queue as an image holds them: the two pieces of a store are one entry again. -/
def imageQueue : List StoreReq → List StoreReq
  | [] => []
  | [r] => r.parts
  | r :: t :: rest =>
    if t.follows r then
      let whole : Dword := BitVec.ofNat 64 (r.data.val.toNat % 2 ^ (8 * r.size) + t.data.val.toNat * 2 ^ (8 * r.size))
      { r with size := r.size + t.size, data := { r.data with val := whole } } :: imageQueue rest
    else r.parts ++ imageQueue (t :: rest)

/-- Whether R222 gives an access a form: a store or an atomic whose place has an address. -/
def StoreReq.hasForm (r : StoreReq) : Bool :=
  r.imageAddr.isSome && (match r.kind with | .store => true | .atomic .. => true | _ => false)

/-- The code of a size (R222). -/
def sizeCode (n : Nat) : Nat := if n = 1 then 0 else if n = 2 then 1 else if n = 4 then 2 else 3

/-- The number of a return register (R222). -/
def regNumber : Option Reg → Nat
  | some (.v n) => n
  | some (.s n) => n
  | some (.k n) => 112 + n
  | _ => 0

/-- A code word of R222 made of a free value, with a kind that the word has. -/
def freeCode (x : Nat) : Nat := x % 4 + x / 4 % 3 * 4 + x / 16 % 64 * 16

/-- A replay entry (R222). The data and the code word of an access that R222 gives no form are free values (log 7). -/
def StoreReq.bytes (r : StoreReq) (free : Nat) : List Byte :=
  let word : Nat := match r.kind with
    | .store => sizeCode r.size + (if r.data.poison then 2 ^ 9 else 0)
    | .atomic op ret => sizeCode r.size + (if ret then 2 else 1) * 2 ^ 2 + op.toNat * 2 ^ 4 + (if r.data.poison then 2 ^ 9 else 0)
    | _ => 0
  let place : Nat := (match r.lane with | some l => l | none => 2 ^ 18) + regNumber r.ret * 2 ^ 10
  if r.hasForm then
    leBytes 8 (r.imageAddr.getD 0).toNat ++ leBytes 8 r.data.val.toNat ++ leBytes 4 word ++ leBytes 4 place ++ leBytes 8 0
  else
    leBytes 8 r.addr.toNat ++ leBytes 8 (Config.freeNat free) ++ leBytes 4 (freeCode (Config.freeNat (free + 1))) ++
    leBytes 4 place ++ leBytes 8 0

/-- The scratch section's bytes: the grant, its check-outs, its dirty and poison bits (R218). -/
def State.scratchBytes (s : State) (a : Agent) : List Byte :=
  let held := (s.ranges.filter fun r => !r.recalled && r.part = a.part && r.launch = a.launch && r.teamid = a.teamid).length
  let key (o : Nat) : Nat := scratchKey a.cluster (a.scratchBase + o)
  let n := (a.grant + 31) / 32
  if a.grant = 0 then []
  else
    leBytes 4 a.grant ++ leBytes 4 held ++ leBytes 56 0 ++ ((List.range a.grant).map fun o => Memory.read s.mem (key o)) ++
    bitBytes n (fun w => decide (4 * w < a.grant) && s.dirty.get false (key (4 * w) / 4)) ++
    bitBytes n (fun w => decide (4 * w < a.grant) && s.poison.get false (key (4 * w) / 4))

/-- An image's parts beside the team itself. -/
structure ImageParts where
  flags : Nat
  package : Nat
  replay : List Byte
  replays : Nat
  object : Option (Nat × Word32)
  scratch : List Byte
  deriving DecidableEq, Repr, Inhabited

/-- The seven sections after the header, each filled to 64 bytes (R216, R218). -/
def Agent.sections (a : Agent) (x : ImageParts) : List (List Byte) :=
  let spawns := a.spawnQ.flatMap fun t => leBytes 8 t.entry.toNat ++ leBytes 8 t.arg.toNat
  let object := match x.object with | some (h, g) => leBytes 8 (h + g.toNat * 2 ^ 27) | none => []
  [a.stackBytes, a.regBytes, a.trapBytes, x.replay, spawns, object, x.scratch].map pad64

/-- The offset of section i. -/
def sectionOffset (ss : List (List Byte)) (i : Nat) : Nat := 0xC0 + ((ss.take i).map List.length).sum

/-- The image of a team (R216, R217). -/
def Agent.image (a : Agent) (x : ImageParts) : List Byte :=
  let ss := a.sections x
  leBytes 4 0x7A370001 ++ leBytes 4 (sectionOffset ss 7) ++ leBytes 4 x.flags ++ leBytes 4 a.teamid.toNat ++
  leBytes 2 a.lanes ++ leBytes 1 a.gw ++ leBytes 1 a.ba ++ leBytes 2 a.bv ++ leBytes 1 a.bs ++ leBytes 1 a.specLvl.toNat ++
  leBytes 4 a.eraseCnt.toNat ++ leBytes 4 a.regs.gang.toNat ++ leBytes 8 a.launch.toNat ++ leBytes 2 a.asid.toNat ++
  leBytes 1 a.part ++ leBytes 1 a.cls ++ leBytes 4 a.depth ++ leBytes 8 x.package ++ leBytes 4 x.replays ++
  leBytes 4 a.spawnQ.length ++ leBytes 4 (if x.object.isSome then 1 else 0) ++ leBytes 4 a.grant ++
  ((List.range 7).flatMap fun i => leBytes 4 (sectionOffset ss i)) ++ leBytes 28 0 ++
  leBytes 4 a.regs.mode.toNat ++ leBytes 4 a.regs.flags.toNat ++ leBytes 8 0 ++ leBytes 8 a.pc.toNat ++
  List.replicate 40 0 ++ ss.flatten

/-- Bytes 0 to 7 of the fused device identifier (R217). -/
def packageId : Nat := leValue ((List.range 8).map fun i => Config.deviceId.getD i 0)

/-- The image of the agent whose turn it is, given FORCED, YIELDED and its object (R214, R217, R224). -/
def State.imageOf (s : State) (forced yielded : Bool) (object : Option (Nat × Word32)) : List Byte × State :=
  let a := s.me
  let held := s.ranges.any fun r => !r.recalled && r.part = a.part && r.launch = a.launch && r.teamid = a.teamid
  let bit (b : Bool) (n : Nat) : Nat := if b then 2 ^ n else 0
  let flags := bit forced 0 + bit yielded 1 + bit (a.sstop != 0) 2 + bit (yielded || object.isSome) 3 + bit held 4
  let free := s.freeCount
  let queue := imageQueue a.replayQ
  let replay := queue.zipIdx.flatMap fun (c : StoreReq × Nat) => c.1.bytes (free + 2 * c.2)
  (a.image { flags := flags, package := packageId, replay := replay, replays := queue.length, object := object,
             scratch := s.scratchBytes a },
   { s with freeCount := free + 2 * queue.length })

/-! ### Reading (R224) -/

/-- What an image holds. -/
structure Parsed where
  agent : Agent
  flags : Nat
  package : Nat
  object : Option (Nat × Word32)
  /-- G bytes, and the dirty and poison bits of their words. -/
  scratch : List Byte
  dirty : List Bool
  poison : List Bool
  deriving DecidableEq, Repr, Inhabited

/-- Bit i of a byte list. -/
def bitAt (b : List Byte) (off i : Nat) : Bool := bitOf (field b (off + i / 8) 1) (i % 8)

/-- A stack entry at an offset; none for an unknown kind. -/
def readEntry (b : List Byte) (o : Nat) : Option StackEntry :=
  let rpc := field b (o + 8) 8
  let kind : Option EntryKind := match field b (o + 0x14) 4 with
    | 0 => some .base
    | 1 => some .path
    | 2 => some .frame
    | _ => none
  kind.map fun k =>
    { pc := BitVec.ofNat 56 (field b o 8), rpc := if rpc = 2 ^ 64 - 1 then none else some (BitVec.ofNat 56 rpc),
      mode := BitVec.ofNat 32 (field b (o + 0x10) 4), kind := k, mask := BitVec.ofNat 1024 (field b (o + 0x20) 128) }

/-- A replay entry at an offset (R222); none for an unknown kind. Its access was made in user mode, whatever the image's privilege:
a scalar return register is an s register (R297). It comes before any access that the restored team issues. -/
def readReplay (b : List Byte) (o : Nat) (mode : Word32) (asid : BitVec 16) : Option StoreReq :=
  let w := field b (o + 0x10) 4
  let p := field b (o + 0x14) 4
  let size := 2 ^ (w % 4)
  let op := BitVec.ofNat 5 (bitsOf w 8 4)
  let scalar := bitOf p 18
  let n := bitsOf p 17 10
  let reg : Reg := if scalar then .s n else .v n
  let kind : Option StoreKind := match bitsOf w 3 2 with
    | 0 => some .store
    | 1 => some (.atomic op false)
    | 2 => some (.atomic op true)
    | _ => none
  kind.map fun k =>
    { kind := k, addr := BitVec.ofNat 64 (field b o 8), size := size, mode := mode, asid := asid,
      data := { val := BitVec.ofNat 64 (field b (o + 8) 8), poison := bitOf w 9 },
      lane := if scalar then none else some (p % 1024), ret := if bitsOf w 3 2 = 2 then some reg else none }

/-- A list of answers that are all present. -/
def allSome {α : Type} : List (Option α) → Option (List α)
  | [] => some []
  | some x :: xs => (allSome xs).map (x :: ·)
  | none :: _ => none

/-- Whether budgets fit an empty quadrant and core (R79): the lanes of each core the team stands on. -/
def fitsEmpty (lanes bv ba : Nat) : Bool :=
  let words := (lanes + 31) / 32
  decide (ba ≤ 16) && decide (bv * 128 * (if lanes ≤ 512 then words else min 16 words) ≤ 2 ^ 18)

/-- Whether lane counts, budgets and sizes lie within their limits (R79, R218, R307). -/
def limitsOk (lanes gw bv bs ba grant : Nat) : Bool :=
  decide (16 ≤ lanes ∧ lanes ≤ 1024) && (gw = 16 || gw = 32 || gw = 64) && lanes % gw == 0 && bv % 2 == 0 &&
  decide (2 ≤ bv ∧ bv ≤ 256) && decide (1 ≤ bs ∧ bs ≤ 128) && decide (ba ≤ 16) && decide (grant ≤ 2 ^ 21) && grant % 4 == 0

/-- A MODE register's whole value is well-formed: its codes, and its reserved bits (R78). -/
def modeWhole (m : Word32) : Bool := modeOk m && m.toNat / 2 ^ 25 == 0 && bitsOf m.toNat 15 13 == 0

/-- The agent that an image's bytes describe, with its fields as they stand; none where a code is unknown. -/
def readAgent (b : List Byte) : Option Agent :=
  let f (o n : Nat) : Nat := field b o n
  let lanes := f 0x10 2
  let bv := f 0x14 2
  let bs := f 0x16 1
  let ba := f 0x13 1
  let wd := (lanes + 31) / 32
  let stack := f 0x48 4
  let regs := f 0x4C 4
  let t := f 0x50 4
  let up (n : Nat) : Nat := (n + 63) / 64 * 64
  let sp := regs + up (8 * bs)
  let v := sp + 64
  let vp := v + up (bv * wd * 128)
  let m := vp + up (bv * wd * 4)
  let a := m + 2048
  let mode := BitVec.ofNat 32 (f 0x80 4)
  let priv := bitOf (f (t + 4) 4) 0
  let cell (val : Nat) (p : Bool) : Option PDword :=
    if val = 0 && !p then none else some { val := BitVec.ofNat 64 val, poison := p }
  let word (val : Nat) (p : Bool) : Option PWord :=
    if val = 0 && !p then none else some { val := BitVec.ofNat 32 val, poison := p }
  let sRegs := ((List.range bs).filterMap fun n =>
      if n = 0 then none else (cell (f (regs + 8 * n) 8) (bitAt b sp n)).map fun c => (n, c)) ++
    (if bs < 128 then ((cell (f (t + 0x128) 8) (bitAt b (t + 0x122) 0)).map fun c => (127, c)).toList else [])
  let vRegs := (List.range bv).flatMap fun n => (List.range (32 * wd)).filterMap fun l =>
    (word (f (v + (n * wd + l / 32) * 128 + 4 * (l % 32)) 4) (bitAt b (vp + (n * wd + l / 32) * 4) (l % 32))).map fun c =>
      (1024 * n + l, c)
  let aRegs := (List.range ba).flatMap fun i => (List.range 4096).filterMap fun w =>
    (word (f (a + 16896 * i + 4 * w) 4) (bitAt b (a + 16896 * i + 16384) w)).map fun c => (4096 * i + w, c)
  let kRegs := (List.range 16).filterMap fun n =>
    (cell (f (t + 0xA0 + 8 * n) 8) (bitAt b (t + 0x120) n)).map fun c => (n, c)
  let mRegs := (List.range 16).filterMap fun n =>
    let x := BitVec.ofNat 1024 (f (m + 128 * n) 128)
    if x = 0 then none else some (n, x)
  let entries := allSome ((List.range (f 0x2C 4)).reverse.map fun i => readEntry b (stack + 160 * i))
  let replays := allSome ((List.range (f 0x38 4)).map fun i => readReplay b (f 0x54 4 + 32 * i) mode (BitVec.ofNat 16 (f 0x28 2)))
  let spawns := (List.range (f 0x3C 4)).map fun i =>
    let o := f 0x58 4 + 16 * i
    ({ entry := BitVec.ofNat 64 (f o 8), arg := BitVec.ofNat 64 (f (o + 8) 8), launch := BitVec.ofNat 64 (f 0x20 8) } : SpawnThread)
  match entries, replays with
  | some (top :: rest), some rs =>
    some { lanes := lanes, gw := f 0x12 1, bv := bv, bs := bs, ba := ba, grant := f 0x44 4, part := f 0x2A 1,
           cls := f 0x2B 1, asid := BitVec.ofNat 16 (f 0x28 2), launch := BitVec.ofNat 64 (f 0x20 8),
           teamid := BitVec.ofNat 32 (f 0x0C 4), specLvl := BitVec.ofNat 2 (f 0x17 1), eraseCnt := BitVec.ofNat 32 (f 0x18 4),
           regs := { v := vRegs, s := sRegs, k := kRegs, m := mRegs, a := aRegs, mode := mode, flags := BitVec.ofNat 32 (f 0x84 4),
                     gang := BitVec.ofNat 32 (f 0x1C 4), priv := priv,
                     top := { top with pc := BitVec.ofNat 56 (f 0x90 8) }, rest := rest },
           tcause := BitVec.ofNat 32 (f t 4), tpc := BitVec.ofNat 56 (f (t + 8) 8), taddr := BitVec.ofNat 64 (f (t + 0x10) 8),
           sstop := BitVec.ofNat 32 (f (t + 0x18) 4), tmask := BitVec.ofNat 1024 (f (t + 0x20) 128),
           replayQ := rs, spawnQ := spawns, seq := 1 }
  | _, _ => none

/-- The bits of FLAGS and TCAUSE that are not reserved (R74, R203). -/
abbrev flagsBits : Word32 := 0x1F
abbrev tcauseBits : Word32 := 0x00FF80FF

/-- Lanes at or above the count hold nothing, and reserved bits of registers take nothing (R5). -/
def Agent.trimmed (a : Agent) : Agent :=
  let low := lanesBelow a.lanes
  let cut (e : StackEntry) : StackEntry := { e with mask := e.mask &&& low }
  let ms := (a.regs.m.map fun (c : Nat × LaneMask) => (c.1, c.2 &&& low)).filter fun (c : Nat × LaneMask) => c.2 != 0
  { a with tmask := a.tmask &&& low, tcause := a.tcause &&& tcauseBits,
           regs := { a.regs with flags := a.regs.flags &&& flagsBits, v := a.regs.v.filter fun (c : Nat × PWord) => decide (c.1 % 1024 < a.lanes)
                                 m := ms
                                 top := cut a.regs.top, rest := a.regs.rest.map cut } }

/-- Read an image: none is a format error (R224). The limits are judged first, SPECLVL 3, which is never held (R74), among them; then the image must be the one that its
own contents lay out, which checks every offset and every reserved byte. The package identifier, the masks' top words and
the top entry's PC, which the PC section holds, are not compared. -/
def readImage (b : List Byte) : Option Parsed :=
  let f (o n : Nat) : Nat := field b o n
  let n := f 0x04 4
  let g := f 0x44 4
  let depth := f 0x2C 4
  let q := f 0x38 4
  let h := f 0x40 4
  let stack := f 0x48 4
  let scratch := f 0x60 4
  let bits := (g + 31) / 32
  if f 0 4 != 0x7A370001 || n % 64 != 0 || 2 ^ 22 ≤ n || b.length < n || n < 0xC0 || 2 ^ 5 ≤ f 0x08 4 ||
      !limitsOk (f 0x10 2) (f 0x12 1) (f 0x14 2) (f 0x16 1) (f 0x13 1) g || !fitsEmpty (f 0x10 2) (f 0x14 2) (f 0x13 1) ||
      depth = 0 || 256 < depth || 4096 < q || f 0x10 2 < f 0x3C 4 || 1 < h || 16 ≤ f 0x2A 1 || 8 ≤ f 0x2B 1 || 3 ≤ f 0x17 1 ||
      !modeWhole (BitVec.ofNat 32 (f 0x80 4)) then none
  else match readAgent b with
    | none => none
    | some a =>
      let obj := f (f 0x5C 4) 8
      let object : Option (Nat × Word32) := if h = 1 then some (obj % 2 ^ 27, BitVec.ofNat 32 (obj / 2 ^ 27)) else none
      let x : ImageParts :=
        { flags := f 0x08 4, package := f 0x30 8, replays := q, object := object,
          replay := ((b.drop (f 0x54 4)).take (32 * q))
          scratch := if g = 0 then [] else (b.drop scratch).take (64 + g + 2 * bits) }
      let open_ (i : Nat) : Bool :=
        decide (stack ≤ i ∧ i < stack + 160 * depth) &&
        ((decide (0x18 ≤ (i - stack) % 160 ∧ (i - stack) % 160 < 0x1C)) || decide (stack + 160 * (depth - 1) ≤ i ∧ i < stack + 160 * (depth - 1) + 7))
      let again := a.image x
      let same := again.length == n && ((b.zip again).zipIdx.all fun c => c.1.1 == c.1.2 || open_ c.2)
      let entriesOk := (List.range q).all fun i =>
        let o := f 0x54 4 + 32 * i
        f (o + 0x10) 4 / 2 ^ 10 == 0 && f (o + 0x14) 4 / 2 ^ 19 == 0 && f (o + 0x18) 8 == 0
      let restZero := x.scratch.isEmpty || (field x.scratch 0 4 == g && field x.scratch 8 56 == 0)
      let modesOk := (a.regs.top :: a.regs.rest).all fun e => modeWhole e.mode
      if same && modesOk && entriesOk && restZero && obj / 2 ^ 59 * h == 0 then
        some { agent := a.trimmed, flags := f 0x08 4, package := f 0x30 8, object := object,
               scratch := (x.scratch.drop 64).take g,
               dirty := (List.range (g / 4)).map fun i => bitAt x.scratch (64 + g) i
               poison := (List.range (g / 4)).map fun i => bitAt x.scratch (64 + g + bits) i }
      else none

/-! ### Restoring (R298, R312) -/

/-- The byte keys of an access in the place where the team now stands. -/
def Agent.rekey (a : Agent) (r : StoreReq) : StoreReq :=
  let o := r.addr.toNat
  let keys := match r.kind, r.swz with
    | .chnRel .., _ => []
    | _, some z => a.offsetKeys o r.size z
    | _, none => match classOf o with
      | .scratch => a.offsetKeys (o - scratchWindow) r.size 0
      | .hearth => (List.range r.size).map fun i => hearthKey (o - hearthWindow + i)
      | .global => []
  { r with keys := keys }

/-- The replay queue of a restored team: what its image says, a store that spans two lines in its two pieces again (R227), but for the accesses that R222 has no form for, which the
save itself kept. MODE at issue is kept with them (log 12). -/
def restoreReplays (a : Agent) (taken : List StoreReq) : List StoreReq :=
  a.replayQ.zipIdx.flatMap fun (c : StoreReq × Nat) =>
    let r := match taken[c.2]? with
      | some t => { (if t.hasForm then { c.1 with mode := t.mode } else t) with seq := 0, held := false }
      | none => c.1
    (if r.kind = .store && r.swz.isNone then a.storePieces { lane := r.lane, addr := r.addr, poison := false } r.size r.data else []).map
      (fun p => { r with addr := p.addr, size := p.size, data := p.data, keys := p.keys }) ++
    (if r.kind = .store && r.swz.isNone then [] else [a.rekey r])

end Sys2Proof.Machine
end

