-- ==== Sys2Proof/Machine/Context.lean ====
section
/-! DEFINITION. Machine/Context.lean: the end of a team, YIELD, forced saves, CTXSAVE and CTXLOAD (R198, R201, R212 to R214,
R223, R224, R292, R312). -/
namespace Sys2Proof.Machine

/-! ### A team leaves its place (R212, R311, R327, R393) -/

/-- Whether a launch queue has a team placed, resident or in transit (R393). -/
def State.classPlaced (s : State) (p c : Nat) : Bool :=
  (s.agents.any fun x => x.2.isTeam && x.2.part = p && x.2.cls = c) ||
  s.transit.any fun (t : Agent × Nat × BitVec 7) => t.1.part = p && t.1.cls = c

/-- Set a queue's watchdog to 0: it counts from now while a team is placed (R393). -/
def State.resetWdog (s : State) (p c : Nat) : State :=
  let on := s.classPlaced p c
  s.updPart p fun q => { q with wdog := if on then q.wdog.insert c s.time.toNat else q.wdog.remove c }

/-- A queue's watchdog after a team of it has left by neither EXIT nor YIELD: it is 0 once none is placed (R393). -/
def State.stopWdog (s : State) (p c : Nat) : State := if s.classPlaced p c then s else s.resetWdog p c

/-- A pre-emption request ends without a save, and its image slot is released (R212). -/
def State.clearRequest (s : State) : State :=
  match s.me.preq with
  | some (_, k) =>
    let p := s.me.part
    (s.updPart p fun q => { q with images := q.images.filter (· != k) }).updMe fun a => { a with preq := none }
  | none => s

/-- What a departed team's place is remembered by. -/
def Agent.placeOnly (a : Agent) : Agent :=
  { lanes := a.lanes, bv := a.bv, ba := a.ba, grant := a.grant, scratchBase := a.scratchBase, part := a.part, core := a.core,
    quad := a.quad, slot := a.slot, span := a.span, launch := a.launch, teamid := a.teamid }

/-- The agent whose turn it is leaves its place; the room that a saved team frees is held for the candidate that asked for it
(R311); results in flight for it are dropped. -/
def State.vacate (s : State) : State :=
  let a := s.me
  let id := s.meId
  let requests := s.requests.map fun (r : PreReq) =>
    if r.gone.isNone && r.part = a.part && r.launch = a.launch && r.teamid = a.teamid then { r with gone := some a.placeOnly } else r
  let matrix := s.matrix.map fun (c : Nat × List MatrixOp) => (c.1, s.withoutOps (fun o => o.agent = id) c.2)
  ({ s with requests := requests, matrix := matrix }.removeAgent id).feedPipes a

/-- The agent whose turn it is lets its waiting request go without leaving its place. -/
def State.dropRequest (s : State) : State :=
  let a := s.me
  let requests := s.requests.filter fun (r : PreReq) => !(r.gone.isNone && r.part = a.part && r.launch = a.launch && r.teamid = a.teamid)
  { s with requests := requests }.clearRequest

/-! ### The end of a team (R28, R198, R246, R331) -/

/-- Whether a check-out was made by the agent whose turn it is. -/
def State.ownRange (s : State) (r : RangeRec) : Bool := r.part = s.me.part && r.launch = s.me.launch && r.teamid = s.me.teamid

/-- The check-outs that the agent whose turn it is holds. -/
def State.heldRanges (s : State) : List RangeRec := s.ranges.filter fun r => !r.recalled && s.ownRange r

/-- What is left of the check-outs of the agent whose turn it is goes, recalled ones among them. -/
def State.dropRanges (s : State) : State := { s with ranges := s.ranges.filter fun r => !s.ownRange r }

/-- Whether the check-ins that follow an EXIT must wait: an engine operation of the team checks a range out or in, or the team
holds check-outs and an operation that it issued before has not started (R271, R294). -/
def State.checksPending (s : State) : Bool :=
  s.engines.any fun o => o.issuedBy s.meId s.me &&
    (match o.kind with | .chkout .. => true | .chkin => true | _ => !o.started && !s.heldRanges.isEmpty)

/-! ### Package commands (R400) -/

/-- PSTAT's STATE, and the command in PCMD: OP and PART. -/
abbrev State.pstat (s : State) : Nat := s.rd pstatAddr 8 % 4
abbrev State.pcmdOp (s : State) : Nat := s.rd pcmdAddr 8 % 16
abbrev State.pcmdPart (s : State) : Nat := bitsOf (s.rd pcmdAddr 8) 7 4

/-- A command is refused with a reason. -/
def State.cmdRefused (s : State) (reason : Nat) : State := s.wr pstatAddr 8 (reason * 2 ^ 8 + 3)

/-- A command is done, and host firmware hears of it (R434). -/
def State.cmdDone (s : State) : State := (s.wr pstatAddr 8 2).sendEvent 0x02 (some s.pcmdPart) 0 2

/-- A command goes on. -/
def State.cmdBusy (s : State) : State := s.wr pstatAddr 8 1

/-- A kill command is done once no team it named is left. -/
def State.killsDone (s : State) : State :=
  if s.pstat = 1 && (s.pcmdOp = 3 || s.pcmdOp = 4) && (s.agents.all fun c => !c.2.killed) &&
      s.transit.all fun (t : Agent × Nat × BitVec 7) => !t.1.killed then s.cmdDone else s

/-- The team whose turn it is ends: what it still has checked out is checked in, it counts as exited, and its place and
request are freed. A kill command that met its EXIT is done (R411). -/
def State.endTeam (s : State) : State :=
  let a := s.me
  let s := (s.heldRanges.foldl (fun (s : State) (r : RangeRec) => s.checkIn r r.soff r.swz) s).dropRanges
  let s := s.updLaunch a.launch fun l => { l with liveTeams := l.liveTeams - 1 }
  ((s.dropRequest.vacate).resetWdog a.part a.cls).killsDone

/-- The stack after the lanes of the top entry have left: entries emptied at the top are popped (R198). -/
def dropEmpty : List StackEntry → List StackEntry
  | [] => []
  | e :: rest => if e.mask = 0 then dropEmpty rest else e :: rest

/-- EXIT of a team whose accesses have been performed: it ends, once nothing of its check-outs is under way, or the top
entry's lanes do; pops of more than 32 entries need the spill area (R192). -/
def exitNow (s : State) : Res :=
  let r := s.me.regs
  let left := dropEmpty ((r.top :: r.rest).map fun e => { e with mask := e.mask &&& ~~~r.top.mask })
  match (if r.priv || r.rest.isEmpty then [] else left) with
  | [] => leaveChannels (fun s => if s.checksPending then .next s else .next ((retire {} s).endTeam)) s
  | t :: rest =>
    withSpill s.me.depth (fun s =>
      let s := (retireTo t.pc {} (s.updMe fun a => { a with regs := { r with top := t, rest := rest, mode := t.mode } })).dropRequest
      .next (s.resetWdog s.me.part s.me.cls)) s

/-- EXIT (R198), which clears the pre-emption request (R212). The end of the team waits until its older accesses have been performed,
so that one that faults still traps at its boundary (log 13); the request goes when the wait begins, since the instruction acts
then (R392). With lanes left it waits for ink alone. -/
def execExit (s : State) : Res :=
  issue { legal := s.me.isTeam } (waitInk fun s =>
    let ends := s.me.regs.priv || s.me.regs.rest.isEmpty ||
      (dropEmpty ((s.me.regs.top :: s.me.regs.rest).map fun e => { e with mask := e.mask &&& ~~~s.me.active })).isEmpty
    if ends && !s.me.allPerformed then .next s.dropRequest else exitNow s) s

/-! ### Saving (R201, R214) -/

/-- The lowest free slot of a partition's image pool. -/
def State.freeImage (s : State) (p : Nat) : Option Nat :=
  (List.range (s.partField p 0x100 4)).find? fun k => !(s.part p).images.contains k

/-- What the team had forked waits for the accesses that the save took back (R214, R294). -/
def State.forksWait (s : State) (launch : Dword) (teamid : Word32) : State :=
  let f (k : Fork) : Fork := if isTeamId k.agent && k.launch = launch && k.teamid = teamid then { k with seq := 1 } else k
  { s with
    engines := s.engines.map fun o => if o.isTeam && o.launch = launch && o.teamid = teamid then { o with seq := 1 } else o
    launches := s.launches.map fun l => { l with fork := f l.fork }
    lits := s.lits.map fun t => { t with forks := t.forks.map f }
    bins := s.bins.map fun b => { b with threads := b.threads.map fun t => { t with fork := f t.fork } }
    parts := s.parts.map fun (c : Nat × PartState) =>
      (c.1, { c.2 with ringNotes := c.2.ringNotes.map fun (n : Nat × RingNote) => (n.1, { n.2 with fork := f n.2.fork })
                       kindling := c.2.kindling.map fun t => (t.1, { t.2 with fork := f t.2.fork }) }) }

/-- Write the image of the agent whose turn it is into a slot of its partition's pool, enter its record and free its
place; none while a page of the slot cannot be reached. -/
def State.saveTeam (s : State) (forced : Bool) (yielded : Bool) (k : Nat) (object : Option (Nat × Word32)) : Option State :=
  let a := s.me
  let (bytes, s) := s.imageOf forced yielded object
  let base := s.partField a.part 0xF8 8 + 2 ^ 22 * k
  match State.engineLines (s.svWho a.part) accStore (bytes.length / 128 + 2) base bytes.length s with
  | (.keys ks, s) =>
    let r : ResumeRec :=
      { source := .slot k, part := a.part, cls := a.cls, launch := a.launch, teamid := a.teamid,
        admission := (match s.launchEntry a.launch with | some l => l.admission | none => a.admission),
        object := object, taken := imageQueue a.replayQ, cluster := if s.heldRanges.isEmpty then none else some a.cluster,
        refs := a.refs, binDie := a.binDie, admitted := a.admission }
    let s := s.writeEngine ks (bytes.map (·, false))
    let s := (s.updPart a.part fun q => { q with images := k :: q.images.filter (· != k) }).forksWait a.launch a.teamid
    let resume := s.resume ++ [r]
    some { s with resume := resume }.vacate
  | _ => none

/-- Whether an engine operation of the agent whose turn it is has started and not completed. -/
def State.opsRunning (s : State) : Bool := s.engines.any fun o => o.started && o.issuedBy s.meId s.me

/-- Whether an engine operation of the agent whose turn it is that will read or write its grant has still to start, held back by
no channel: YIELD waits for it, since it could not start while the team is away (R201, R230; log 33). -/
def State.opsOnGrant (s : State) : Bool :=
  s.engines.any fun o => o.usesGrant && !o.started && o.issuedBy s.meId s.me && (o.chans == (none, none) || o.fired)

/-- Stores and atomics that have not been performed are taken back, as the youngest entries of the replay queue (R201, R214);
a QRSV counts its cycles anew at the drain. -/
def Agent.takeBack (a : Agent) : Agent :=
  { a with replayQ := a.replayQ ++ a.storeQ.map fun r => { r with since := none }, storeQ := [] }

/-- The last step of a forced save: stores and atomics are taken back, an MWAIT counts as complete, a SPAWN whose threads are still in
transfer has issued and leaves them to the image (R315), and the image is written (R213, R214). A team that waits resident in YIELD stays registered on its object. -/
def State.saveForced (s : State) (k : Nat) : Option State :=
  let s := s.updMe fun a =>
    let a := a.takeBack
    match a.wait with
    | .mwait .. => { a with refs := [] }
    | _ => a
  let s := match s.me.wait with
    | .mwait next _ _ _ _ => retireTo (BitVec.ofNat 56 next) {} s
    | .spawn _ => retire {} s
    | _ => s
  let r := match s.me.wait with
    | .yield obj g => s.saveTeam true true k (obj.map (·, g))
    | _ => s.saveTeam true false k none
  r.map fun t => (t.stopWdog s.me.part s.me.cls).count (some s.me.part) 0x10B

/-- FORCED_SAVE (R213, R214): the deadline has passed at the end of its cycle (R392), and the team stands at a boundary. An
open sketch erases and a gang arrival is withdrawn; then everything in flight must come to its end. A kill goes first. -/
def execForcedSave (agent : Nat) (s : State) : Res :=
  onAgent "FORCED_SAVE" agent (fun s =>
    match s.me.preq with
    | none => noEvent "FORCED_SAVE"
    | some (due, k) =>
      if !s.me.isTeam || s.me.killed || s.me.wait = .halted || !(decide (due < s.time.toNat) || s.expires due) then
        noEvent "FORCED_SAVE"
      else if s.me.sketch.isSome then .next (s.erase s.meId 4)
      else if !s.matrixBusy s.meId && (match s.me.wait with | .gang _ => true | _ => false) then .next s.withdrawArrival
      else match s.me.pendingTrap with
      | some (_, stop) =>
        if s.vectorReady then withSpill (if stop = 0 then s.me.depth + 1 else 0) (fun s => .next s.deliverTrap) s
        else noEvent "FORCED_SAVE"
      | none =>
        if s.inFlight s.meId s.me || s.me.ldcnt != 0 || s.me.storeQ.any (·.sup) || s.opsRunning then noEvent "FORCED_SAVE"
        else leaveChannels (fun s => match s.saveForced k with | some s => .next s | none => noEvent "FORCED_SAVE") s) s

/-! ### YIELD (R201) -/

/-- The object that YIELD's operand names: none for 0; no answer for a value that is neither 0 nor a barrier object. -/
def State.yieldObject (s : State) (v : Nat) : Option (Option Nat) :=
  if v = 0 then some none
  else if classOf v = .hearth && v % 16 == 0 && s.inHearthRanges s.me.part (v - hearthWindow) then some (some (v - hearthWindow))
  else none

/-- Steps 2 to 5 of YIELD. -/
def yieldNow (pc : BitVec 56) (obj : Option Nat) (s : State) : Res :=
  let load : Bool := s.me.allPerformed || obj.isNone
  if s.me.ldcnt != 0 || s.me.storeQ.any (·.sup) || s.inFlight s.meId s.me || !load then hold s
  else leaveChannels (fun s =>
    if s.opsRunning || s.opsOnGrant then .next s
    else
      let g : Word32 := match obj with | some h => BitVec.ofNat 32 (s.objGen h) | none => 0
      let t := (retireTo pc {} s).clearRequest.updMe Agent.takeBack
      match t.freeImage t.me.part with
      | some k => (match t.saveTeam false true k (obj.map (·, g)) with
        | some t => .next (t.resetWdog s.me.part s.me.cls)
        | none => .next s)
      | none =>
        let w := (retireTo pc {} s).dropRequest
        let w := match obj with | some _ => w.updMe fun a => { a with wait := .yield obj g } | none => w
        .next (w.resetWdog w.me.part w.me.cls)) s

/-- YIELD (R201). -/
def execYield (a b : BitVec 7) (s : State) : Res :=
  let n := { s.me.scalarNeed [] [a.toNat, b.toNat] with legal := s.me.isTeam }
  issue n (fun s =>
    let x := s.me.getS a.toNat
    let y := s.me.getS b.toNat
    consume [x, y] (fun s =>
      if badTarget x.val then trap (.illegalTarget x.val) s
      else match s.yieldObject y.val.toNat with
        | none => trap .illegal s
        | some obj => waitInk (yieldNow (x.val.setWidth 56) obj) s) s) s

/-- YIELD_REACTIVATION (R201, R312): the k-th record of a partition is registered on an object whose generation has
moved. -/
def execYieldReactivation (part k : Nat) (s : State) : Res :=
  match (s.resume.filter fun r => r.part = part)[k]? with
  | some r => match r.object with
    | some (h, g) =>
      if s.objGen h = g.toNat then noEvent "YIELD_REACTIVATION"
      else
        let resume := s.resume.map fun q => if q = r then { q with object := none } else q
        .next { s with resume := resume }
    | none => noEvent "YIELD_REACTIVATION"
  | none => noEvent "YIELD_REACTIVATION"

/-! ### CTXSAVE (R223) -/

/-- Store bytes line by line as the agent's own accesses: whether every line was reached, or a wait. The lines before one
that faults are written. -/
def State.storeLines : Nat → Nat → List Byte → State → Option Bool × State
  | 0, _, _, s => (some true, s)
  | f + 1, a, bytes, s =>
    if bytes.isEmpty then (some true, s)
    else
      let n := min bytes.length (128 - a % 128)
      match s.engineByte s.who a n accStore with
      | (.keys ms, s) =>
        let keys := (List.range n).map (ms.headD 0 + ·)
        State.storeLines f (a + n) (bytes.drop n) ((s.writeKeys keys (bytes.take n) false).notifyWrite (some s.meId) (keys.map unitOf).eraseDups)
      | (.wait, s) => (none, s)
      | (.bad _, s) => (some false, s)

/-- CTXSAVE. -/
def execCtxsave (d a : BitVec 7) (s : State) : Res :=
  let n := { s.me.scalarNeed [d.toNat] [a.toNat] with legal := s.me.isTeam, sup := true }
  issue n (waitPerformed fun s =>
    if s.me.ldcnt != 0 || s.inFlight s.meId s.me then hold s
    else
      let x := s.me.getS a.toNat
      consume [x] (fun s =>
        if x.val.toNat % 64 != 0 || classOf x.val.toNat != .global then giveStatus n d 0x81 s
        else
          let saved := (s.setS d.toNat (clean 2)).updMe fun a => a.setPc (a.next false)
          let (bytes, saved) := saved.imageOf false false none
          let s := { s with freeCount := saved.freeCount }
          match s.storeLines (bytes.length / 128 + 2) x.val.toNat bytes with
          | (some true, s) => giveStatus n d 1 s
          | (some false, s) => giveStatus n d 0x80 s
          | (none, s) => .next s) s) s

/-! ### CTXLOAD (R224) -/

/-- Whether the issuer may load a partition's images: its own, or any for host firmware; none from the start of
its reset (R402). -/
def State.mayLoad (s : State) (p : Nat) : Bool :=
  (s.partOf s.me = some p || (s.me.kind = .host && s.me.regs.priv)) && !(s.part p).closed

/-- How many entries a launch queue holds, and its lowest free index. -/
def State.queueEntries (s : State) (p c : Nat) : List LaunchEntry := s.launches.filter fun l => l.desc.part = p && l.desc.cls = c
def State.freeEntry (s : State) (p c : Nat) : Option Nat :=
  (List.range 64).find? fun i => (s.queueEntries p c).all fun l => l.index != i

/-- The handle of the next launch that a queue accepts in an entry (R306). -/
def State.nextHandle (s : State) (p c index : Nat) : Dword :=
  BitVec.ofNat 64 ((s.part p).accepted.get 0 c * 2 ^ 13 + index * 2 ^ 7 + c * 2 ^ 4 + p)

/-- Enter a launch in its queue. It counts among the launches that the queue has accepted (R306) from here on, also where an erase then
removes it: the manual does not say whether the count goes back with its entry (R289, log 47). -/
def State.addLaunch (s : State) (l : LaunchEntry) : State :=
  let s := s.updPart l.desc.part fun q => { q with accepted := q.accepted.put 0 l.desc.cls ((q.accepted.get 0 l.desc.cls + 1) % 2 ^ 51) }
  let launches := s.launches ++ [l]
  { s with launches := launches }

/-- Hand an image to the scheduler; the resume record of the team it holds. -/
def Parsed.record (x : Parsed) (img : List Byte) (launch : Dword) (admission : Nat) : ResumeRec :=
  { source := .loaded img, part := x.agent.part, cls := x.agent.cls, launch := launch, teamid := x.agent.teamid,
    admission := admission, object := x.object, admitted := admission }

/-- The cluster of a CLUSTER image: that of the team's open check-outs (R224). An image has no field for it: where none is open any
more, as after a CTXSAVE and the team's EXIT, the manual does not say which it is, and the model takes cluster 0 (log 47). -/
def State.clusterOf (s : State) (x : Parsed) : Option Nat :=
  if bitOf x.flags 4 then
    some (match s.ranges.find? fun r => !r.recalled && r.part = x.agent.part && r.launch = x.agent.launch && r.teamid = x.agent.teamid with
      | some r => r.cluster
      | none => 0)
  else none

/-- Accept an image: it rejoins its launch, is added to it, or takes an entry of its own. -/
def acceptImage (n : Need) (d : BitVec 7) (x : Parsed) (img : List Byte) (s : State) : Res :=
  let cl := s.clusterOf x
  let give (r : ResumeRec) (s : State) : Res :=
    let resume := s.resume ++ [{ r with cluster := cl }]
    giveStatus n d 1 { s with resume := resume }
  match s.launchEntry x.agent.launch with
  | some l =>
    let r := x.record img x.agent.launch l.admission
    if x.flags % 4 = 0 then
      give r (s.updLaunch l.handle fun l => { l with liveTeams := l.liveTeams + 1 })
    else give r s
  | none =>
    let p := x.agent.part
    let c := x.agent.cls
    match s.freeEntry p c with
    | none => waitRoom s
    | some i =>
      let h := s.nextHandle p c i
      let l : LaunchEntry :=
        { handle := h, index := i, desc := { part := p, cls := c }, detached := true, asid := x.agent.asid,
          admission := s.time.toNat, liveTeams := 1 }
      give (x.record (img.take 0x20 ++ leBytes 8 h.toNat ++ img.drop 0x28) h s.time.toNat) (s.addLaunch l)

/-- CTXLOAD. The poison of image words is not carried: an image's values have poison bits of their own. -/
def execCtxload (d a : BitVec 7) (s : State) : Res :=
  let n := { s.me.scalarNeed [d.toNat] [a.toNat] with sup := true }
  issue n (waitPerformed fun s =>
    let x := s.me.getS a.toNat
    let base := x.val.toNat
    consume [x] (fun s =>
      if base % 64 != 0 || classOf base != .global then giveStatus n d 0x81 s
      else match State.engineLines s.who accLoad 2 base 8 s with
        | (.bad _, s) => giveStatus n d 0x80 s
        | (.wait, s) => .next s
        | (.keys ks, s) =>
          let size := leValue ((ks.drop 4).map (Memory.read s.mem)) % 2 ^ 22
          match State.engineLines s.who accLoad (size / 128 + 2) base size s with
          | (.bad _, s) => giveStatus n d 0x80 s
          | (.wait, s) => .next s
          | (.keys ks, s) =>
            let img := ks.map (Memory.read s.mem)
            let s := s.noteRead (ks.map unitOf).eraseDups
            match readImage img with
            | none => giveStatus n d 0x82 s
            | some p =>
              if bitOf p.flags 3 && p.package != packageId then giveStatus n d 0x83 s
              else if !s.mayLoad p.agent.part then giveStatus n d 0x84 s
              else acceptImage n d p img s) s) s

end Sys2Proof.Machine
end

