-- ==== Sys2Proof/Machine/Sched.lean ====
section
/-! DEFINITION. Machine/Sched.lean: LAUNCH, placement, pre-emption requests, migration, joins and the watchdog (R25 to R31,
R72, R79, R305 to R312, R316 to R318, R331, R332, R393). -/
namespace Sys2Proof.Machine

/-! ### LAUNCH (R306 to R308) -/

/-- The fields of a descriptor. -/
def readDesc (b : List Byte) : LaunchDesc :=
  { entry := BitVec.ofNat 64 (field b 0 8), teams := field b 8 4, lanes := field b 0x0C 2, gw := field b 0x0E 1, ba := field b 0x0F 1,
    bv := field b 0x10 2, bs := field b 0x12 1, cls := field b 0x13 1, scr := field b 0x14 4, mode := BitVec.ofNat 32 (field b 0x18 4),
    part := field b 0x1C 1, arg := BitVec.ofNat 64 (field b 0x20 8), join := BitVec.ofNat 64 (field b 0x28 8), ktimer := field b 0x30 4 }

/-- Step 4 of LAUNCH: the limits of R307 on a descriptor. -/
def State.descOk (s : State) (b : List Byte) (d : LaunchDesc) : Bool :=
  let j := d.join.toNat
  d.entry.toNat % 32 == 0 && !badTarget (d.entry + 4) && decide (1 ≤ d.teams ∧ d.teams ≤ 2 ^ 24) &&
  limitsOk d.lanes d.gw d.bv d.bs d.ba d.scr && decide (d.cls < 8) && decide (d.part < 16) && modeWhole d.mode &&
  decide (d.ktimer ≤ 2 ^ 20) && field b 0x1D 3 == 0 && field b 0x34 12 == 0 && fitsEmpty d.lanes d.bv d.ba &&
  classOf j = .hearth && j % 16 == 0 && s.inHearthRanges d.part (j - hearthWindow)

/-- Host firmware: a host thread in supervisor mode. -/
abbrev Agent.isFirmware (a : Agent) : Bool := a.kind = .host && a.regs.priv

/-- LAUNCH gives a status, and a handle or 0. Where both name one register the status is written last and stays; the manual gives no
order (R308, log 47). -/
def launchStatus (n : Need) (d b : BitVec 7) (st : Nat) (handle : Dword) (s : State) : Res :=
  giveStatus n d st (if b = 0 then s else s.setS b.toNat (clean handle))

/-- LAUNCH (R308). -/
def execLaunch (d a b : BitVec 7) (s : State) : Res :=
  let n := s.me.scalarNeed [d.toNat, b.toNat] [a.toNat] 0
  issue n (fun s =>
    let x := s.me.getS a.toNat
    consume [x] (fun s =>
      let va := x.val.toNat
      if va % 64 != 0 || classOf va != .global then launchStatus n d b 0x82 0 s
      else match readCommand n x.val 64 s.me.ns (fun _ s => launchStatus n d b 0x80 0 s) s with
        | .stop r => r
        | .got bytes poison s =>
          let c := readDesc bytes
          let p := c.part % 16
          if poison then launchStatus n d b 0x80 0 s
          else if !s.partValid p || (s.part p).resetting then launchStatus n d b 0x84 0 s
          else if !s.descOk bytes c then launchStatus n d b 0x82 0 s
          else if (s.partOf s.me != some p && !s.me.isFirmware) ||
              (!s.me.regs.priv && decide (c.cls < s.partField p 4 1 % 8)) then launchStatus n d b 0x84 0 s
          else match s.freeEntry p c.cls with
            | none => waitRoom s
            | some i =>
              let h := s.nextHandle p c.cls i
              let l : LaunchEntry :=
                { handle := h, index := i, desc := c, asid := s.me.asid, admission := s.time.toNat, liveTeams := c.teams,
                  fork := s.fork, pendingOf := if s.me.sketch.isSome then some s.meId else none }
              launchStatus n d b 1 h (s.addLaunch l)) s) s

/-! ### Room (R14, R25, R79, R230, R310) -/

/-- What a candidate needs of a place. -/
structure Shape where
  lanes : Nat
  bv : Nat
  ba : Nat
  grant : Nat
  deriving DecidableEq, Repr, Inhabited

/-- A place: core, quadrant and slot; on a spanning team quadrant and slot on core 1; and the scratchpad rows' offset. -/
structure Spot where
  core : Nat
  quad : Nat
  slot : Nat
  span : Option (Nat × Nat)
  base : Nat
  deriving DecidableEq, Repr, Inhabited

/-- The quadrants a team stands on: core, quadrant, slot and lane words. -/
def Agent.parts (a : Agent) : List (Nat × Nat × Nat × Nat) :=
  match a.span with
  | none => [(a.core, a.quad, a.slot, a.laneWords)]
  | some (q, j) => [(a.core, a.quad, a.slot, 16), (a.core + 1, q, j, a.laneWords - 16)]

/-- Everything that takes room: resident teams, teams in transit, and room held for other candidates. -/
def State.occupants (s : State) (cand : Option CandKey) : List Agent :=
  ((s.agents.filter fun x => x.2.isTeam).map (·.2)) ++ s.transit.map (fun (t : Agent × Nat × BitVec 7) => t.1) ++
  s.requests.filterMap fun r => if some r.cand = cand then none else r.gone

/-- A free slot of a quadrant with room for so many lane words under budgets. Quadrant q holds slots 8 q to 8 q + 7
(log 14). -/
def fitQuad (occ : List Agent) (core quad words bv ba : Nat) : Option Nat :=
  let ps := occ.flatMap fun a => a.parts.map fun p => (p, a)
  let here := ps.filter fun c => c.1.1 = core && c.1.2.1 = quad
  let used := (here.map fun c => c.2.bv * 128 * c.1.2.2.2).sum
  let tiles := ((ps.filter fun c => c.1.1 = core).map fun c => c.2.ba).sum
  if used + bv * 128 * words ≤ 2 ^ 18 && tiles + ba ≤ 16 then
    ((List.range 8).map (8 * quad + ·)).find? fun j => ps.all fun c => !(c.1.1 = core && c.1.2.2.1 = j)
  else none

/-- The resident teams of the package. -/
def State.resident (s : State) : List Agent := (s.agents.filter fun x => x.2.isTeam).map (·.2)

/-- How many of some teams stand on a quadrant. -/
def quadLoad (occ : List Agent) (core quad : Nat) : Nat :=
  ((occ.flatMap Agent.parts).filter fun p => p.1 = core && p.2.1 = quad).length

/-- The first row of n contiguous free scratchpad rows of a cluster, lowest first. -/
def freeRows (occ : List Agent) (cluster n : Nat) : Option Nat :=
  let taken := (occ.filter fun a => a.cluster = cluster && a.grant != 0).map fun a => (a.scratchBase / 256, a.scratchBase / 256 + (a.grant + 255) / 256)
  let fits (r : Nat) : Bool := decide (r + n ≤ 8192) && taken.all fun t => decide (r + n ≤ t.1 ∨ t.2 ≤ r)
  if n = 0 then some 0 else ((0 :: taken.map (·.2)).filter fits).min?

/-- The best quadrant of a core: fewest resident teams, then the lowest number. -/
def bestQuad (occ res : List Agent) (core words bv ba : Nat) : Option (Nat × Nat × Nat) :=
  let all := (List.range 4).filterMap fun q => (fitQuad occ core q words bv ba).map fun j => (quadLoad res core q, q, j)
  all.foldl (fun m c => match m with | some b => if c.1 < b.1 then some c else m | none => some c) none

/-- Where a shape fits in a cluster, with its load. -/
def fitCluster (occ res : List Agent) (x : Shape) (cluster : Nat) : List (Nat × Spot) :=
  let words := (x.lanes + 31) / 32
  match freeRows occ cluster ((x.grant + 255) / 256) with
  | none => []
  | some row =>
    let at_ (core : Nat) (w : Nat) := bestQuad occ res core w x.bv x.ba
    if 512 < x.lanes then
      match at_ (2 * cluster) 16, at_ (2 * cluster + 1) (words - 16) with
      | some (l0, q0, j0), some (l1, q1, j1) =>
        [(l0 + l1, { core := 2 * cluster, quad := q0, slot := j0, span := some (q1, j1), base := 256 * row })]
      | _, _ => []
    else [2 * cluster, 2 * cluster + 1].filterMap fun g =>
      (at_ g words).map fun b => (b.1, { core := g, quad := b.2.1, slot := b.2.2, span := none, base := 256 * row })

/-- The clusters of a partition on a die (R380). -/
def State.partClusters (s : State) (p d : Nat) : List Nat :=
  ((List.range 32).map (32 * d + ·)).filter fun c => bitOf (s.partField p 0xC0 16) c

/-- The place a candidate goes to: its die first, then the others in order; the least loaded quadrant there (R310). -/
def State.findSpot (s : State) (occ : List Agent) (p : Nat) (x : Shape) (die : Nat) (only : Option Nat) : Option Spot :=
  let onDie (d : Nat) : Option Spot :=
    let cs := (s.partClusters p d).filter fun c => match only with | some o => c = o | none => true
    let all := cs.flatMap (fitCluster occ s.resident x)
    (all.foldl (fun (m : Option (Nat × Spot)) c => match m with | some b => if c.1 < b.1 then some c else m | none => some c) none).map (·.2)
  (List.range 4).foldl (fun m i => m.orElse fun _ => onDie ((die + i) % 4)) none

/-! ### Candidates (R309, R312) -/

/-- A candidate: what orders it, what it needs, and where it prefers to be. -/
structure Cand where
  key : CandKey
  cls : Nat
  order : List Nat
  shape : Shape
  die : Nat
  cluster : Option Nat := none
  deriving DecidableEq, Repr, Inhabited

/-- The C-die whose controllers home the page that an address maps to; die 0 when it is not mapped (R310). -/
def State.dieOf (s : State) (part : Nat) (asid : BitVec 16) (va : Dword) : Nat :=
  if 2 ^ 56 ≤ va.toNat || classOf va.toNat != .global then 0
  else match s.walk { part := some part, asid := asid.toNat } va.toNat with
  | .leaf page level _ _ =>
    let m := page + va.toNat % 2 ^ levelShift level
    if targetOf m = .hbm || targetOf m = .cxl then (lineHome (m / 128)).1 / 6 else 0
  | _ => 0

/-- The bytes of a record's image. -/
def State.recordImage (s : State) (r : ResumeRec) : List Byte :=
  match r.source with
  | .loaded img => img
  | .slot k =>
    let base := s.partField r.part 0xF8 8 + 2 ^ 22 * k
    match (State.engineLines (s.svWho r.part) accLoad 2 base 8 s).1 with
    | .keys ks =>
      let size := leValue ((ks.drop 4).map (Memory.read s.mem)) % 2 ^ 22
      match (State.engineLines (s.svWho r.part) accLoad (size / 128 + 2) base size s).1 with
      | .keys ks => ks.map (Memory.read s.mem)
      | _ => []
    | _ => []

/-- Where a launch's teams prefer to be. -/
def State.launchDie (s : State) (l : LaunchEntry) : Nat := if l.detached then 0 else s.dieOf l.desc.part l.asid l.desc.arg

/-- The candidates of a partition. -/
def State.candidates (s : State) (p : Nat) : List Cand :=
  let resume : List Cand := (s.resume.filter fun r => r.part = p && r.object.isNone).filterMap fun r =>
    (readImage (s.recordImage r)).map fun x =>
      { key := .resume r.launch r.teamid, cls := r.cls, order := [r.cls, 0, r.admission, r.teamid.toNat],
        shape := { lanes := x.agent.lanes, bv := x.agent.bv, ba := x.agent.ba, grant := x.agent.grant },
        die := r.binDie.getD (match s.launchEntry r.launch with | some l => s.launchDie l | none => 0), cluster := r.cluster }
  let lits : List Cand := s.lits.filterMap fun t => match s.launchEntry t.launch with
    | some l =>
      let cls := if t.litAt + 256 ≤ s.time.toNat then 0 else l.desc.cls
      if l.desc.part = p && l.pendingOf.isNone && t.forks.all s.forkDone then
        some { key := .lit t.launch t.seqNo, cls := cls, order := [cls, 1, t.litAt, t.seqNo],
               shape := { lanes := max 32 l.desc.gw, bv := l.desc.bv, ba := l.desc.ba, grant := l.desc.scr }, die := t.die }
      else none
    | none => none
  let teams : List Cand := s.launches.filterMap fun l =>
    if l.desc.part = p && !l.detached && l.placed < l.desc.teams && l.pendingOf.isNone && s.forkDone l.fork then
      some { key := .team l.handle l.placed, cls := l.desc.cls, order := [l.desc.cls, 2, l.admission, l.placed],
             shape := { lanes := l.desc.lanes, bv := l.desc.bv, ba := l.desc.ba, grant := l.desc.scr }, die := s.launchDie l }
    else none
  resume ++ lits ++ teams

/-- Put a candidate in its place in the order of R309. Of candidates of different launches with equal class, kind and time, of which
the rule orders none, the lower TEAMID, lighting number or index goes first, then the one that stands first in its list
(log 47). -/
def insertCand (c : Cand) : List Cand → List Cand
  | [] => [c]
  | d :: ds => if lexLt c.order d.order then c :: d :: ds else d :: insertCand c ds

/-- Where a candidate fits. -/
def State.candSpot (s : State) (p : Nat) (c : Cand) : Option Spot :=
  s.findSpot (s.occupants (some c.key)) p c.shape c.die c.cluster

/-! ### Placing (R72, R230, R312) -/

/-- Put a team in its place: its wait for promotion counts from now, and its watchdog if no other team of its queue was placed
(R34, R192, R393). -/
def State.seat (s : State) (a : Agent) (x : Spot) : State :=
  let spill := BitVec.ofNat 64 (s.partField a.part 0xF0 8 + (32 * x.core + x.slot) * 65536)
  let b := { a with core := x.core, quad := x.quad, slot := x.slot, span := x.span, scratchBase := x.base, spill := spill, lastIssue := s.time.toNat }
  let s := s.updPart a.part fun q => { q with wdog := if (q.wdog.find? a.cls).isSome then q.wdog else q.wdog.insert a.cls s.time.toNat }
  s.setAgent (128 + 32 * x.core + x.slot) b

/-- The bytes of a grant's rows read zero, with poison and dirty bits clear (R225). -/
def State.clearRows (s : State) (cluster base n : Nat) : State :=
  let lo := scratchKey cluster base
  let out (c : Nat) : Bool := decide (c * 4 < lo ∨ lo + n ≤ c * 4)
  { s with mem := Memory.clear s.mem lo n, poison := s.poison.filter fun (c : Nat × Bool) => out c.1,
           dirty := s.dirty.filter fun (c : Nat × Bool) => out c.1 }

/-- A new team of a launch, which issues first at `pc` (R72, R74). -/
def State.newTeam (s : State) (l : LaunchEntry) (teamid : Word32) (pc : Dword) (lanes : Nat) (mask : LaneMask) (v : Cells PWord) : Agent :=
  let d := l.desc
  let k := (List.range 16).filterMap fun i =>
    let x := s.partField d.part (0x40 + 8 * i) 8
    if x = 0 then none else some (i, clean (BitVec.ofNat 64 x))
  { lanes := lanes, gw := d.gw, bv := d.bv, bs := d.bs, ba := d.ba, grant := d.scr, part := d.part, cls := d.cls, asid := l.asid,
    launch := l.handle, teamid := teamid, admission := l.admission,
    regs := { v := v, s := if 1 < d.bs then Cells.put {} 1 (clean d.arg) [] else [], k := k, mode := d.mode,
              top := { pc := pc.setWidth 56, mode := d.mode, mask := mask } } }

/-- Seat a new team, its grant reading zero. -/
def State.seatNew (s : State) (a : Agent) (x : Spot) : State :=
  (s.clearRows (x.core / 2) x.base ((a.grant + 255) / 256 * 256)).seat a x

/-- Seat a restored team: its grant as the image holds it, its check-outs and the engine operations that have not started at
their new place, its reference points and its replay queue (R230, R263, R294). Threads of its spawn section go to the kindling unit of
its die (R315); a kindling team keeps its lighting time for R34 (R309). -/
def State.seatImage (s : State) (r : ResumeRec) (p : Parsed) (x : Spot) : State :=
  let cl := x.core / 2
  let rows := (p.agent.grant + 255) / 256 * 256
  let s := s.clearRows cl x.base rows
  let lo := scratchKey cl x.base
  let s : State := { s with
    mem := Memory.writeBytes s.mem lo p.scratch
    dirty := p.dirty.zipIdx.foldl (fun m (c : Bool × Nat) => m.put false (lo / 4 + c.2) c.1) s.dirty
    poison := p.poison.zipIdx.foldl (fun m (c : Bool × Nat) => m.put false (lo / 4 + c.2) c.1) s.poison
    ranges := s.ranges.map fun (q : RangeRec) =>
      if q.part = r.part && q.launch = r.launch && q.teamid = r.teamid then { q with cluster := cl, scratchBase := x.base } else q
    engines := s.engines.map fun (o : EngineOp) =>
      if !o.started && o.isTeam && o.launch = r.launch && o.teamid = r.teamid then { o with cluster := cl, scratchBase := x.base } else o
    resume := s.resume.filter fun q => q != r }
  let s := match r.source with
    | .slot k => s.updPart r.part fun q => { q with images := q.images.filter (· != k) }
    | .loaded _ => s
  let fork : Fork := { agent := 128, launch := r.launch, teamid := r.teamid, seq := 1 }
  let spawns := p.agent.spawnQ.map fun (t : SpawnThread) => (x.core / 64, { t with launch := r.launch, fork := fork })
  let s := s.updPart r.part fun q => { q with kindling := q.kindling ++ spawns }
  let a : Agent := { p.agent with launch := r.launch, admission := if p.agent.teamid.getLsbD 31 then r.admitted else r.admission }
  let b : Agent := { a with core := x.core, scratchBase := x.base, spawnQ := [], refs := r.refs, binDie := r.binDie }
  s.seat { b with replayQ := restoreReplays b r.taken } x

/-- Change a placed team, resident or in transit. -/
def State.updTeam (s : State) (part : Nat) (launch : Dword) (teamid : Word32) (f : Agent → Agent) : State :=
  let g (a : Agent) : Agent := if a.isTeam && a.part = part && a.launch = launch && a.teamid = teamid then f a else a
  let transit := s.transit.map fun (t : Agent × Nat × BitVec 7) => (g t.1, t.2)
  { s with me := g s.me, others := s.others.map fun c => (c.1, g c.2), transit := transit }

/-- The placed teams of a partition, in transit among them (R316). -/
def State.placed (s : State) (p : Nat) : List Agent :=
  ((s.agents.map (·.2)) ++ s.transit.map fun (t : Agent × Nat × BitVec 7) => t.1).filter fun a => a.isTeam && a.part = p

/-- A placed team's request is withdrawn and its image slot freed, unless its deadline is reached, when the forced save starts
all the same (R212, R392). -/
def State.withdrawRequest (s : State) (a : Agent) : State :=
  match a.preq with
  | some (due, k) =>
    if s.time.toNat < due then
      (s.updTeam a.part a.launch a.teamid fun a => { a with preq := none }).updPart a.part fun q =>
        { q with images := q.images.filter (· != k) }
    else s
  | none => s

/-- A candidate's request is withdrawn, or the room held for it given up (R311). -/
def State.withdrawFor (s : State) (key : CandKey) : State :=
  let mine := s.requests.filter fun r => r.cand = key && r.gone.isNone
  let s := { s with requests := s.requests.filter fun r => r.cand != key }
  mine.foldl (fun (s : State) r =>
    match (s.placed r.part).find? fun a => a.launch = r.launch && a.teamid = r.teamid with
    | some a => s.withdrawRequest a
    | none => s) s

/-- Place a candidate. -/
def State.place (s : State) (c : Cand) (x : Spot) : State :=
  let s := s.withdrawFor c.key
  match c.key with
  | .resume h t =>
    match s.resume.find? fun r => r.launch = h && r.teamid = t && r.object.isNone with
    | some r => (match readImage (s.recordImage r) with | some p => s.seatImage r p x | none => s)
    | none => s
  | .lit h n =>
    match s.lits.find? (fun t => t.launch = h && t.seqNo = n), s.launchEntry h with
    | some t, some l =>
      let half (n j : Nat) (x : Dword) : Option (Nat × PWord) :=
        if x = 0 then none else some (1024 * n + j, { val := x.setWidth 32 })
      let low : Cells PWord := t.args.zipIdx.filterMap fun (c : Dword × Nat) => half 0 c.2 (BitVec.ofNat 64 (c.1.toNat % 2 ^ 32))
      let high : Cells PWord := t.args.zipIdx.filterMap fun (c : Dword × Nat) => half 1 c.2 (BitVec.ofNat 64 (c.1.toNat / 2 ^ 32))
      let s := { s with lits := s.lits.filter fun q => !(q.launch = h && q.seqNo = n) }
      let team := s.newTeam l (BitVec.ofNat 32 (2 ^ 31 + n % 2 ^ 31)) t.entry (max 32 l.desc.gw) (lanesBelow t.args.length) (low ++ high)
      s.seatNew { team with admission := t.litAt, binDie := some t.die } x
    | _, _ => s
  | .team h i =>
    match s.launchEntry h with
    | some l =>
      let s := s.updLaunch h fun l => { l with placed := l.placed + 1 }
      s.seatNew (s.newTeam l (BitVec.ofNat 32 i) (l.desc.entry + 4) l.desc.lanes (lanesBelow l.desc.lanes) []) x
    | none => s

/-! ### Pre-emption requests (R212, R311) -/

/-- The deadline of a class, which the hardware keeps between 1,250 and 2^24 cycles (R212, R399). -/
def State.deadline (s : State) (p c : Nat) : Nat :=
  max 1250 (min (2 ^ 24) (s.partDefault p (0x20 + 4 * c) 4 (if c < 4 then 62500 else 25000)))

/-- Set a team's request, with a free image slot reserved for its save; none while there is none (R212). -/
def State.request (s : State) (a : Agent) : Option State :=
  (s.freeImage a.part).map fun k =>
    (s.updPart a.part fun q => { q with images := k :: q.images }).updTeam a.part a.launch a.teamid fun a =>
      { a with preq := some (s.time.toNat + s.deadline a.part a.cls, k) }

/-- The teams that a candidate may ask to go. -/
def State.victims (s : State) (p : Nat) (c : Cand) : List Agent :=
  (s.placed p).filter fun a => decide (c.cls < a.cls) && !bitOf (s.partField p 5 1) a.cls && a.preq.isNone && a.wait != .halted && !a.killed

/-- The team it asks: one whose departure alone frees enough room before any other, then by class, age, TEAMID and
handle. -/
def State.victim (s : State) (p : Nat) (c : Cand) : Option Agent :=
  let rank (x : Agent) : List Nat :=
    let occ := (s.occupants (some c.key)).filter fun a => !(a.launch = x.launch && a.teamid = x.teamid)
    let frees := (s.findSpot occ p c.shape c.die c.cluster).isSome
    [if frees then 1 else 0, x.cls, x.admission, x.teamid.toNat, x.launch.toNat]
  (s.victims p c).foldl (fun m x => match m with | some b => if lexLt (rank b) (rank x) then some x else m | none => some x) none

/-- The first candidate asks a team to go, when it fits nowhere. -/
def State.askFor (s : State) (p : Nat) (c : Cand) : Option State :=
  if s.requests.any fun r => r.cand = c.key && r.gone.isNone then none
  else match s.victim p c with
    | some a =>
      let r : PreReq := { cand := c.key, part := p, launch := a.launch, teamid := a.teamid }
      (s.request a).map fun s => { s with requests := s.requests ++ [r] }
    | none => none

/-- TEAM_PLACEMENT (R309 to R311): the first candidate that fits is placed; a first candidate that fits nowhere asks for
room. -/
def execTeamPlacement (part : Nat) (s : State) : Res :=
  if !s.partValid part || (s.part part).resetting then noEvent "TEAM_PLACEMENT"
  else
    let cs := (s.candidates part).foldl (fun l c => insertCand c l) []
    let asked := match cs with
      | c :: _ => if (s.candSpot part c).isNone then s.askFor part c else none
      | [] => none
    match asked with
    | some s => .next s
    | none => match cs.find? fun c => (s.candSpot part c).isSome with
      | some c => (match s.candSpot part c with | some x => .next (s.place c x) | none => .next s)
      | none => noEvent "TEAM_PLACEMENT"

/-! ### Migration (R31, R316, R317) -/

/-- What TMIG's operand names: global core, and quadrant or none for any. -/
def tmigTarget (v : Nat) : Nat × Option Nat := (v / 2 ^ 2 % 2 ^ 8, if bitOf v 10 then none else some (v % 4))

/-- Whether R31 and the partition let the agent whose turn it is move to a core. -/
def State.mayMove (s : State) (core : Nat) : Bool :=
  let a := s.me
  a.span.isNone && (a.grant = 0 || a.cluster = core / 2) && (s.partClusters a.part (core / 64)).contains (core / 2)

/-- The place a moving team takes on a core: its grant stays where it is. -/
def State.moveSpot (s : State) (core : Nat) (quad : Option Nat) : Option Spot :=
  let a := s.me
  let occ := (s.occupants none).filter fun b => !(b.launch = a.launch && b.teamid = a.teamid)
  let best := match quad with
    | some q => (fitQuad occ core q a.laneWords a.bv a.ba).map fun j => (0, q, j)
    | none => bestQuad occ s.resident core a.laneWords a.bv a.ba
  best.map fun b => { core := core, quad := b.2.1, slot := b.2.2, span := none, base := a.scratchBase }

/-- The agent whose turn it is sets out: its place on the target is taken at once, and its message arrives within 2,048
cycles. -/
def State.depart (s : State) (d : BitVec 7) (x : Spot) : State :=
  let spill := BitVec.ofNat 64 (s.partField s.me.part 0xF0 8 + (32 * x.core + x.slot) * 65536)
  let a := { s.me with core := x.core, quad := x.quad, slot := x.slot, span := none, spill := spill, migrating := false }
  let transit := s.transit ++ [(a, s.time.toNat + 2048, d)]
  { s with transit := transit }.removeAgent s.meId

/-- The agent whose turn it is waits to move: an XDEC of it is cut short (R187). -/
def State.cutForMove (s : State) : State := s.updMe fun a => { a with migrating := a.decoding }

/-- TMIG (R316). -/
def execTmig (d a : BitVec 7) (s : State) : Res :=
  let n := { s.me.scalarNeed [d.toNat] [a.toNat] 0 with legal := s.me.isTeam }
  issue n (waitInk fun s =>
    if !s.me.allPerformed || s.me.ldcnt != 0 || s.inFlight s.meId s.me then hold s.cutForMove
    else
      let x := s.me.getS a.toNat
      consume [x] (fun s =>
        let v := x.val.toNat
        let (core, quad) := tmigTarget v
        if 2 ^ 11 ≤ v || (bitOf v 10 && v % 4 != 0) then trap .illegal s
        else if s.me.span.isNone && core = s.me.core && (match quad with | some q => q = s.me.quad | none => true) then
          giveStatus n d 1 s
        else if !s.mayMove core then giveStatus n d 0 s
        else match s.moveSpot core quad with
          | none => waitRoom s
          | some spot => .next ((retire n s).depart d spot)) s) s

/-- MIGRATION_ARRIVAL (R316): the k-th team in transit arrives and receives its status. -/
def execMigrationArrival (k : Nat) (s : State) : Res :=
  match s.transit[k]? with
  | some (a, _, d) =>
    .next ({ s with transit := s.transit.eraseIdx k }.setAgent (128 + 32 * a.core + a.slot) (a.setS d.toNat (clean 1)))
  | none => noEvent "MIGRATION_ARRIVAL"

/-- FIRMWARE_MIGRATION (R317): firmware's policy moves a team at a boundary where R31 allows it; an XDEC in flight is cut short
first (R187). -/
def execFirmwareMigration (agent : Nat) (target : Dword) (s : State) : Res :=
  onAgent "FIRMWARE_MIGRATION" agent (fun s =>
    let (core, quad) := tmigTarget target.toNat
    let boundary := s.me.isTeam && s.me.sketch.isNone && s.me.pendingTrap.isNone && s.me.wait = .none
    let still := boundary && s.me.allPerformed && s.me.ldcnt = 0 && !s.inFlight s.meId s.me
    if boundary && s.me.decoding && !s.me.migrating then .next s.cutForMove
    else if still && s.mayMove core && !(core = s.me.core && quad.getD s.me.quad = s.me.quad) then
      match s.moveSpot core quad with
      | some spot => .next (s.depart 0 spot)
      | none => noEvent "FIRMWARE_MIGRATION"
    else noEvent "FIRMWARE_MIGRATION") s

/-! ### Joins, watchdogs, and waits for room (R318, R331, R332, R341, R393) -/

/-- Whether anything of a launch is still live (R331). -/
def State.launchLive (s : State) (l : LaunchEntry) : Bool :=
  let q := s.part l.desc.part
  let ring := (List.range (q.ringTail - q.ringHead)).any fun i => match s.ringThread l.desc.part (q.ringHead + i) with
    | some (t, _) => t.launch = l.handle && !s.ringVoid l.desc.part (q.ringHead + i)
    | none => true
  l.liveTeams != 0 || (s.bins.any fun b => b.launch = l.handle) || (s.lits.any fun t => t.launch = l.handle) || ring ||
  (q.kindling.any fun c => c.2.launch = l.handle) ||
  (s.engines.any fun o => o.isTeam && o.launch = l.handle) || !l.posts.isEmpty

/-- JOIN_ARRIVAL (R332). The launches that a partition reset kills make no arrival (R402, log 45). -/
def execJoinArrival (handle : Dword) (s : State) : Res :=
  match s.launchEntry handle with
  | none => noEvent "JOIN_ARRIVAL"
  | some l =>
    if l.pendingOf.isSome || s.launchLive l then noEvent "JOIN_ARRIVAL"
    else
      let s := if l.detached || (s.part l.desc.part).resetting then s else s.arriveDevice l.desc.part (l.desc.join.toNat - hearthWindow)
      .next { s with launches := s.launches.filter fun q => q.handle != handle }

/-- WDOG (R393). -/
def execWdog (part cls : Nat) (s : State) : Res :=
  match (s.part part).wdog.find? cls with
  | some t =>
    if s.expires (t + 2 ^ 28) then
      .next (((s.sendEvent 0x01 (some part) cls 0).count (some part) 0x10A).resetWdog part cls)
    else noEvent "WDOG"
  | none => noEvent "WDOG"

/-- The status register of an instruction that waits for room, and its handle register (R308, R318, R327, R224, R316). -/
def Instr.roomRegs : Instr → Option (BitVec 7 × BitVec 7)
  | .launch d _ b => some (d, b)
  | .cpy d _ _ => some (d, 0)
  | .gath d _ _ => some (d, 0)
  | .scat d _ _ => some (d, 0)
  | .coll d _ _ => some (d, 0)
  | .chkout d _ _ _ _ => some (d, 0)
  | .chkin d _ _ => some (d, 0)
  | .chninit d _ _ => some (d, 0)
  | .tmig d _ => some (d, 0)
  | .ctxload d _ => some (d, 0)
  | _ => none

/-- The QRSV at the head of a queue whose 4,096 cycles have passed, and the rest of the queue (R341). -/
def State.tooLong (s : State) : List StoreReq → Option (StoreReq × List StoreReq)
  | r :: rest => match r.since with
    | some since => if decide (since + 4096 ≤ s.time.toNat) then some (r, rest) else none
    | none => none
  | [] => none

/-- QUEUE_FULL_TIMEOUT (R308, R318, R341): 4,096 cycles have passed without room; an agent that is stopped issues nothing (R207). A QRSV answers what its last attempt found, in
the store queue or in a replay queue that drains. -/
def execQueueFullTimeout (agent : Nat) (s : State) : Res :=
  onAgent "QUEUE_FULL_TIMEOUT" agent (fun s =>
    let answer (r : StoreReq) (s : State) : Res := .next (s.returnValue r (clean (BitVec.ofNat 64 r.lastTry)))
    match s.me.wait, s.tooLong s.me.storeQ, s.tooLong s.me.replayQ with
    | .room since, _, _ =>
      if s.time.toNat < since + 4096 || s.me.sstop != 0 then noEvent "QUEUE_FULL_TIMEOUT"
      else match s.fetch with
        | (.run i _ _, s) => (match Instr.roomRegs i with
          | some (d, b) => launchStatus {} d b 0 0 s
          | none => noEvent "QUEUE_FULL_TIMEOUT")
        | _ => noEvent "QUEUE_FULL_TIMEOUT"
    | _, some (r, rest), _ => answer r (s.updMe fun a => { a with storeQ := rest })
    | _, none, some (r, rest) => answer r (s.updMe fun a => { a with replayQ := rest })
    | _, _, _ => noEvent "QUEUE_FULL_TIMEOUT") s

end Sys2Proof.Machine
end

