-- ==== Sys2Proof/Machine/Storage.lean ====
section
/-! DEFINITION. Machine/Storage.lean: error records, frames, free-page stacks, granules, palettes and chunk pools (R239 to
R244, R337, R369 to R379, R443). -/
namespace Sys2Proof.Machine

/-! ### Error records (R337, R443) -/

/-- An error record's own fields. -/
structure ErrRec where
  port : Option Nat := none
  rid : Option Nat := none
  asid : Option Nat := none
  addr : Option Nat := none
  header : Option Nat := none
  deriving DecidableEq, Repr, Inhabited

/-- A record's field, or a free value where the event gives it none (log 7). -/
def State.orFree (s : State) (v : Option Nat) : Nat × State :=
  match v with
  | some v => (v, s)
  | none => (Config.freeNat s.fresh.1, s.fresh.2)

/-- A device's own write of n bytes to machine memory. -/
def State.devWrite (s : State) (m n v : Nat) : State :=
  let keys := (List.range n).map (m + ·)
  s.writeEngine keys ((leBytes n v).map (·, false))

/-- The address of ERRCTL. -/
abbrev errctlAddr : Nat := portBlock 0 + 0x820

/-- Write an error record to the ring of a partition, or to the package ring where none is concerned or its reset
has begun. The manual gives no codes for the error byte: it is a free value, and so is each field that the event recorded
does not have (log 7). -/
def State.record (s : State) (part : Option Nat) (r : ErrRec) : State :=
  let p := match part with | some p => if (s.part p).closed then none else some p | none => none
  let ctl := match p with | some p => s.partField p 0x238 8 | none => s.rd errctlAddr 8
  let base := ctl / 2 ^ 12 % 2 ^ 36 * 2 ^ 12
  let n := 2 ^ bitsOf ctl 11 8
  let prod := s.rd base 8
  if ctl % 2 = 0 || n ≤ (prod + 2 ^ 64 - s.rd (base + 8) 8) % 2 ^ 64 then
    match p with
    | some p => s.count (some p) 0x109
    | none => s.countPkg 0x206
  else
    let (code, s) := s.orFree none
    let (port, s) := s.orFree r.port
    let (rid, s) := s.orFree r.rid
    let (asid, s) := s.orFree r.asid
    let (addr, s) := s.orFree r.addr
    let (header, s) := s.orFree r.header
    let i := prod % n
    let e := base + 0x40 + 32 * i
    let s := s.devWrite e 32 (s.time.toNat + 2 ^ 64 * (port % 256) + 2 ^ 72 * (code % 256) + 2 ^ 80 * (rid % 2 ^ 16) +
      2 ^ 96 * (asid % 2 ^ 16) + 2 ^ 128 * (addr % 2 ^ 64) + 2 ^ 192 * (header % 2 ^ 32))
    (s.devWrite base 8 ((prod + 1) % 2 ^ 64)).sendEvent 0x0A p (port % 256) (BitVec.ofNat 32 i)

/-! ### Frames (R369) -/

/-- Whether a page's frames are those of a partition in one of some states. -/
def State.framesIn (s : State) (pages : List Nat) (p : Nat) (states : List Nat) : Bool :=
  pages.all fun m => s.pageOwner m = some p && states.contains (frameState (s.frame m))

/-- A page is taken: STATE is set, and RMV, MULTI, HEAT and WF are cleared (R371). -/
def State.frameTaken (s : State) (pages : List Nat) (st : Nat) : State :=
  pages.foldl (fun s m => s.updFrame m fun w => w % 2 ^ 5 + st * 2 ^ 5 + (if bitOf w 7 then 2 ^ 7 else 0)) s

/-- Set a frame's STATE. -/
def State.frameSet (s : State) (pages : List Nat) (st : Nat) : State :=
  pages.foldl (fun s m => s.updFrame m fun w => setBits w 6 5 st) s

/-- The frame-table bytes that stand first in an entry, of a partition's allocated pages: all of them, and the USER
ones (R371). -/
def State.allocated (s : State) (p : Nat) : Nat × Nat :=
  let base := s.rd frameTblAddr 8 / 65536 % 2 ^ 32 * 65536
  let fs := s.mem.filter fun (c : Host.Cell) =>
    decide (base ≤ c.1 ∧ c.1 < base + 32 * (0x1800000 + 0x10000000)) && (c.1 - base) % 32 == 0 &&
    c.2.toNat % 32 == p + 16 && frameState c.2.toNat != 0
  (fs.length, (fs.filter fun c => frameState c.2.toNat = 2).length)

/-! ### Granules and pools (R372, R375) -/

/-- The first chunk of a granule's run, and its place in `chunks`. -/
abbrev runOf (e : Nat) : Nat := e % 2 ^ 29
abbrev chunkKey (c n : Nat) : Nat := 2 ^ 29 * c + n

/-- Whether the k chunks from a place on hold no granule of their controller (R375). -/
def State.runFree (s : State) (c run k : Nat) : Bool :=
  decide (run + k ≤ 2 ^ 29) && s.granules.all fun x =>
    let e := x.2.toNat
    granuleHome x.1 != c || chunksOf e == 0 || decide (run + k ≤ runOf e ∨ runOf e + chunksOf e ≤ run)

/-- The lowest free run of k chunks of a controller: what the default turn takes (log 6). -/
def State.freeRun (s : State) (c k : Nat) : Nat :=
  let ends := (s.granules.filter fun x => granuleHome x.1 = c && chunksOf x.2.toNat != 0).map fun x => runOf x.2.toNat + chunksOf x.2.toNat
  ((0 :: ends).filter fun r => s.runFree c r k).min?.getD 0

/-- FREE of a partition at a controller. -/
def State.freeAt (s : State) (p c : Nat) : Nat := (s.part p).free.get 0 c
/-- What FREE is brought to at each controller (R377, R380). -/
def State.freeGoal (s : State) (p : Nat) : Nat := s.partDefault p 0x130 4 16384 + s.partDefault p 0x134 4 65536

/-- Whether some controller of a partition is below the goal. -/
def State.belowGoal (s : State) (p : Nat) : Bool :=
  (List.range 24).any fun c => s.partField p (0x140 + 4 * c) 4 != 0 && decide (s.freeAt p c < s.freeGoal p)

/-- Set FREE of a partition at a controller. The balloon engine stops once every controller has met the goal (R377). -/
def State.setFree (s : State) (p c v : Nat) : State :=
  let s := s.updPart p fun q => { q with free := q.free.put 0 c v }
  if (s.part p).working && !s.belowGoal p then s.updPart p fun q => { q with working := false } else s

/-- Change the palettes of a partition on a die. -/
def State.updPalette (s : State) (p d : Nat) (f : PaletteState → PaletteState) : State :=
  { s with palettes := s.palettes.put {} (4 * p + d) (f (s.palette p d)) }

/-- A granule that is stored again frees its old run and takes a new one as one event: the goal is judged on what FREE then is
(R375, R377). -/
def State.stillWorking (s : State) (p : Nat) (was : Bool) : State :=
  if was && !(s.part p).working && s.belowGoal p then s.updPart p fun q => { q with working := true } else s

/-- Change COUNT of a generation. -/
def PaletteState.bump (gen up : Bool) (t : PaletteState) : PaletteState :=
  let f (g : Palette) : Palette := { g with count := if up then g.count + 1 else g.count - 1 }
  if gen then { t with gen1 := f t.gen1 } else { t with gen0 := f t.gen0 }

/-- The old form of a granule goes: its chunks return to its owner's pool, and its generation counts one less. -/
def State.releaseGranule (s : State) (g : Nat) : State :=
  let e := (s.granules.get 0 g).toNat
  if e = 0 then s
  else
    let p := bitsOf e 55 52
    let c := granuleHome g
    let s := s.setFree p c (s.freeAt p c + chunksOf e)
    let s := if bitsOf e 63 62 = 1 then s.updPalette p (c / 6) (PaletteState.bump (bitOf e 58) false) else s
    let lo := chunkKey c (runOf e)
    { s with granules := s.granules.remove g
             chunks := s.chunks.filter fun x => decide (x.1 < lo ∨ lo + chunksOf e ≤ x.1) }

/-- Every granule of a machine range becomes ZERO, its copies are dropped without being written back, and its bytes
read zero (R371). -/
def State.zeroRange (s : State) (lo n : Nat) : State :=
  let inside (k size : Nat) : Bool := decide (lo ≤ k * size ∧ k * size < lo + n)
  let lines := (s.dir.filter fun c => inside c.1 128).map (·.1)
  let s := s.dropCopies none lines
  let s := ((s.granules.filter fun c => inside c.1 512).map (·.1)).foldl State.releaseGranule s
  { s with dir := s.dir.filter fun c => !inside c.1 128, mem := Memory.clear s.mem lo n,
           poison := s.poison.filter fun c => !inside c.1 4 }

/-! ### Free-page stacks (R370, R371) -/

/-- What a stack holds on chip, and how many entries below that its ring holds. -/
def State.setStack (s : State) (p k : Nat) (top : List Nat) (deep : Nat) : State :=
  s.updPart p fun q => { q with freePages := q.freePages.put [] k top, ringCounts := q.ringCounts.put 0 k deep }

/-- A stack whose top entry has gone takes the uppermost entry of its ring back on chip, whose place in the ring keeps its bytes
(R356, log 11). -/
def State.refillStack (s : State) (p k : Nat) (rest : List Nat) : State :=
  match (s.part p).ringCounts.get 0 k with
  | 0 => s.setStack p k rest 0
  | n + 1 => s.setStack p k (rest ++ [s.rd (s.ringEntry p k n) 8]) n

/-- A page goes on top of a stack; of more than 64 entries the lowest on chip goes into the ring (R356, log 11). -/
def State.pushStack (s : State) (p k m : Nat) : State :=
  let l := m :: (s.part p).freePages.get [] k
  let n := (s.part p).ringCounts.get 0 k
  if l.length ≤ 64 then s.setStack p k l n
  else (s.devWrite (s.ringEntry p k n) 8 (l.getLastD 0)).setStack p k l.dropLast (n + 1)

/-- Pop a page from the first present stack of some that is not empty. -/
def State.popPage (s : State) (p : Nat) : List Nat → Option (Nat × State)
  | [] => none
  | k :: ks =>
    match (if s.stackPresent p k then (s.part p).freePages.get [] k else []) with
    | m :: rest => some (m, s.refillStack p k rest)
    | [] => s.popPage p ks

/-- The stacks of size z in the order a die asks them. -/
def stackOrder (d z : Nat) : List Nat := (List.range 4).map fun i => stackKey ((d + i) % 4) z

/-- The home die of an HBM page. -/
abbrev homeDie (m : Nat) : Nat := m / 0x2000000000 / 3

/-- The held lines of a partition. -/
def State.heldLines (s : State) (p : Nat) : List (Nat × DirEntry) :=
  s.dir.filter fun c => c.2.st = .held && s.pageOwner (c.1 * 128 / 65536 * 65536) = some p

/-- Where no hold of a partition is left, its episode ends, and SPACE_EXHAUSTED with it (R376, R379). -/
def State.endEpisode (s : State) (p : Nat) : State :=
  if !(s.heldLines p).isEmpty || (s.part p).episode.isNone then s
  else
    let was := (s.part p).exhausted.isSome
    let s := s.updPart p fun q => { q with episode := none, exhausted := none, stuckSent := false }
    if was then s.sendEvent 0x06 (some p) 0 0 else s

/-- Take a page of a partition: its bytes read zero, held lines of it are dropped, and its frames are set (R371, R376). -/
def State.takePage (s : State) (p m z st : Nat) : State :=
  ((s.zeroRange m (pageBytes z)).endEpisode p).frameTaken (subPages m z) st

/-- Push a page as PUSHPG does. -/
def State.pushPage (s : State) (p m z : Nat) : State :=
  let s := ((s.zeroRange m (pageBytes z)).endEpisode p).frameSet (subPages m z) 0
  let k := if 0x100000000000 ≤ m then 12 else stackKey (homeDie m) z
  s.pushStack p k m

/-- Whether the frame table may be used (R444). -/
def State.framesValid (s : State) : Bool := s.rd frameTblAddr 8 % 2 = 1

/-- POPPG (R371). A thread for which no partition acts finds no page. -/
def execPoppg (d : BitVec 7) (z : BitVec 3) (s : State) : Res :=
  let n := { s.me.scalarNeed [d.toNat] [] 0 with legal := decide (z.toNat < 3) }
  issue n (waitPerformed fun s =>
    match s.partOf s.me with
    | none => giveStatus n d 0 s
    | some p =>
      let k := pageBytes z.toNat / 65536
      let (a, u) := s.allocated p
      let user := !s.me.regs.priv
      if !s.framesValid || s.partField p 0x120 8 < a + k || (user && decide (s.partField p 0x128 8 < u + k)) then
        giveStatus n d 0 s
      else match s.popPage p (stackOrder (if s.me.isTeam then s.me.die else 0) z.toNat) with
        | none => giveStatus n d 0 s
        | some (m, s) => giveStatus n d m (s.takePage p m z.toNat (if user then 2 else 1))) s

/-- PUSHPG (R371). -/
def execPushpg (a : BitVec 7) (z : BitVec 3) (s : State) : Res :=
  let n := { s.me.scalarNeed [] [a.toNat] 0 with legal := decide (z.toNat < 3) }
  issue n (waitPerformed fun s =>
    let x := s.me.getS a.toNat
    consume [x] (fun s =>
      let m := x.val.toNat
      let states := if s.me.regs.priv then [1, 2] else [2]
      match s.partOf s.me with
      | none => trap .illegal s
      | some p =>
        if !s.framesValid || targetOf m != .hbm || m % pageBytes z.toNat != 0 ||
            !s.framesIn (subPages m z.toNat) p states || !s.stackPresent p (stackKey (homeDie m) z.toNat) then
          trap .illegal s
        else if s.ranges.any fun r => !r.recalled && r.pieces.any fun q =>
            decide (q.1 < m + pageBytes z.toNat ∧ m < q.1 + q.2) then hold s
        else .next (retire n (s.pushPage p m z.toNat))) s) s

/-! ### Palettes (R373, R374) -/

/-- Merge two lists sorted by weight, the first list's items first among equals. -/
def mergeWeights : Nat → List (Nat × List Nat) → List (Nat × List Nat) → List (Nat × List Nat)
  | 0, xs, ys => xs ++ ys
  | _ + 1, [], ys => ys
  | _ + 1, xs, [] => xs
  | n + 1, x :: xs, y :: ys =>
    if x.1 ≤ y.1 then x :: mergeWeights n xs (y :: ys) else y :: mergeWeights n (x :: xs) ys

/-- Join neighbours two by two. -/
def pairUp : List (Nat × List Nat) → List (Nat × List Nat)
  | x :: y :: rest => (x.1 + y.1, x.2 ++ y.2) :: pairUp rest
  | _ => []

/-- Code lengths of at most 15 bits for weighted symbols, sorted by weight: the number of packages that hold each symbol
after 15 rounds of package and merge. -/
def codeLengths (coins : List (Nat × List Nat)) : List Nat :=
  let n := coins.length
  let last := (List.range 14).foldl (fun prev _ => mergeWeights (4 * n + 4) coins (pairUp prev)) coins
  ((last.take (2 * n - 2)).flatMap (·.2))

/-- Order two (value, count) entries: more frequent first, then the lower value. -/
def insertFreq (x : Nat × Nat) : List (Nat × Nat) → List (Nat × Nat)
  | [] => [x]
  | y :: ys => if x.2 > y.2 || (x.2 == y.2 && decide (x.1 < y.1)) then x :: y :: ys else y :: insertFreq x ys

/-- Order coins by weight, the earlier symbol first among equals. -/
def insertCoin (x : Nat × List Nat) : List (Nat × List Nat) → List (Nat × List Nat)
  | [] => [x]
  | y :: ys => if x.1 < y.1 then x :: y :: ys else y :: insertCoin x ys

/-- The palette built from a histogram: the 255 most frequent values, and the escape (R374). -/
def buildPalette (hist : Cells Nat) : Palette :=
  let sorted := hist.foldl (fun l c => insertFreq c l) []
  let best := sorted.take 255
  let rest := ((sorted.drop 255).map (·.2)).sum
  let coins : List (Nat × List Nat) := (best.zipIdx.map fun c => (c.1.2, [c.2])) ++ [(rest, [256])]
  let hits := codeLengths (coins.foldl (fun l c => insertCoin c l) [])
  let len (i : Nat) : Nat := if coins.length = 1 then 1 else (hits.filter (· == i)).length
  { vals := best.map fun c => BitVec.ofNat 32 c.1, lens := (List.range best.length).map len, escLen := len 256, valid := true }

/-- PALETTE_INSTALL (R374): 2^20 write-backs have been sampled and no granule uses the other generation. -/
def execPaletteInstall (part die : Nat) (s : State) : Res :=
  let t := s.palette part die
  let other := if t.current then t.gen0 else t.gen1
  if t.learning && decide (2 ^ 20 ≤ t.sampled) && other.count == 0 then
    let new := buildPalette t.hist
    .next (s.updPalette part die fun t =>
      { t with gen0 := if t.current then new else t.gen0, gen1 := if t.current then t.gen1 else new,
               current := !t.current, learning := false, sampled := 0, hist := [] })
  else noEvent "PALETTE_INSTALL"

/-! ### Write-backs (R373 to R376) -/

/-- A write-back teaches the palette of its partition on its die, when one is being learnt: learning begins with the first one after
COMP is set or the partition reset, and after every 2^RESAMP of them, so with the one that follows (R374). -/
def State.teach (s : State) (p d g : Nat) : State :=
  let comp := bitOf (s.partField p 0 4) 2
  let resamp := s.partDefault p 0x13C 4 34
  s.updPalette p d fun t =>
    let n := t.writeBacks + 1
    let t := { t with writeBacks := n }
    let t := if comp && !t.learning && (!t.begun || (n - 1 != 0 && (n - 1) % 2 ^ resamp = 0)) then { t with learning := true, sampled := 0, hist := [] } else t
    let t := { t with begun := comp }
    if t.learning && t.sampled < 2 ^ 20 then
      { t with sampled := t.sampled + 1,
               hist := (s.granuleWords g).foldl (fun h w => h.put 0 w.toNat (h.get 0 w.toNat + 1)) t.hist }
    else t

/-- The used symbols of a palette with their code lengths, the escape as symbol 256, ordered by length and then index (R373). -/
def Palette.symbols (t : Palette) : List (Nat × Nat) :=
  let all := (t.lens.take t.vals.length).zipIdx ++ [(t.escLen, 256)]
  (List.range 15).flatMap fun n => all.filter fun c => c.1 = n + 1

/-- The canonical codes: each symbol's number with its code bits, most significant first (R373). -/
def Palette.codes (t : Palette) : List (Nat × List Bool) :=
  (t.symbols.foldl (fun (acc : List (Nat × List Bool) × Nat × Nat) (c : Nat × Nat) =>
    let code := acc.2.1 * 2 ^ (c.1 - acc.2.2)
    (acc.1 ++ [(c.2, ((List.range c.1).map fun i => bitOf code (c.1 - 1 - i)))], code + 1, c.1)) ([], 0, 0)).1

/-- The bits of a granule's words under a palette: the code of a used value, or the escape and the word, least significant bit
first (R373). -/
def Palette.stream (t : Palette) (ws : List Word32) : List Bool :=
  let cs := t.codes
  let code (n : Nat) : List Bool := ((cs.find? fun c => c.1 = n).map (·.2)).getD []
  ws.flatMap fun w =>
    match (t.vals.zip t.lens).zipIdx.find? fun c => c.1.1 = w && c.1.2 != 0 with
    | some c => code c.2
    | none => code 256 ++ (List.range 32).map w.getLsbD

/-- Bits packed into k chunks of 64 bytes, least significant bit first (R373). -/
def packBits (k : Nat) (bs : List Bool) : List (List Byte) :=
  let bit (i : Nat) : Nat := if bs.getD i false then 1 else 0
  (List.range k).map fun c => (List.range 64).map fun b =>
    BitVec.ofNat 8 (((List.range 8).map fun i => bit (512 * c + 8 * b + i) * 2 ^ i).sum)

/-- Whether a granule has a place in storage: its run does not grow, or the pool keeps RESERVE (R375). -/
def State.storeFits (s : State) (p g : Nat) (fast : Bool) : Bool :=
  let n := s.chunkNeed p g fast
  decide (n.1 ≤ n.2) || decide (n.1 + s.partDefault p 0x130 4 16384 ≤ s.freeAt p (granuleHome g))

/-- Where a granule's k chunks go: in place where its run has as many, or where the pool has none free for a shorter run to move
into; otherwise to a new run, which must be free (R375). No answer for a run that is not. -/
def State.runFor (s : State) (p g k : Nat) (run : BitVec 29) : Option Nat :=
  let e := (s.granules.get 0 g).toNat
  let c := granuleHome g
  if k = 0 then some 0
  else if k = chunksOf e || (decide (k < chunksOf e) && decide (s.freeAt p c < k)) then some (runOf e)
  else if s.runFree c run.toNat k then some run.toNat
  else none

/-- Write chunks of a controller: what was uncorrectable there is good again (R242, R243). -/
def State.putChunks (s : State) (c run : Nat) (cs : List (List Byte)) : State :=
  let blocks := (List.range cs.length).map fun i => blockAt c (run + i)
  { s with chunks := cs.zipIdx.foldl (fun m x => m.insert (chunkKey c (run + x.2)) x.1) s.chunks
           badBlocks := s.badBlocks.filter fun b => !(b.1 = c / 2 && blocks.contains (b.2.1, b.2.2)) }

/-- Store a granule of a partition in the form that applies, as it stands but for what a held line of it still lacks; none where
it is out of space, or where the run named is not free (R372, R373, R375). HOLD stays while a line other than the one
written back is held. -/
def State.storeGranule (s : State) (p g line : Nat) (run : BitVec 29) (fast : Bool) : Option State :=
  let fits := s.storeFits p g fast
  let s := s.readGranule g
  let c := granuleHome g
  let d := c / 6
  let t := s.palette p d
  let (form, k, pz, fst) := s.chooseForm t.now g fast
  match (if fits then s.runFor p g k run else none) with
  | none => none
  | some run =>
    let ws := s.granuleWords g
    let cs := if form = 1 then packBits k (t.now.stream ws) else if form = 2 then packBits 8 (ws.flatMap fun w => (List.range 32).map w.getLsbD) else []
    let held := (s.dir.filter fun x => x.1 / 4 = g && x.1 != line && x.2.st = .held) != []
    let was := (s.part p).working
    let s := s.releaseGranule g
    let s := ((s.setFree p c (s.freeAt p c - k)).stillWorking p was).putChunks c run cs
    let e := form * 2 ^ 62 + (if form = 1 then k * 2 ^ 59 else 0) + (if form = 1 && t.current then 2 ^ 58 else 0) +
      (if pz then 2 ^ 57 else 0) + (if held then 2 ^ 56 else 0) + p * 2 ^ 52 + (if fst then 2 ^ 51 else 0) + run
    let s := if form = 0 && !held then s else { s with granules := s.granules.insert g (BitVec.ofNat 64 e) }
    some (if form = 1 then s.updPalette p d (PaletteState.bump t.current true) else s)

/-- A line is clean: its entry stays while a cache holds it, and goes otherwise. -/
def State.cleanLine (s : State) (line : Nat) (e : DirEntry) : State :=
  if e.detached || e.dies = 0 then { s with dir := s.dir.remove line }
  else { s with dir := s.dir.insert line { e with dirty := false, st := if e.st = .held then .owned else e.st } }

/-- The partition enters SPACE_EXHAUSTED (R379). -/
def State.enterExhausted (s : State) (p : Nat) : State :=
  if (s.part p).exhausted.isSome then s
  else (s.updPart p fun q => { q with exhausted := some s.time.toNat }).sendEvent 0x05 (some p) 0 0

/-- A line goes into an expansion hold; an episode begins with the first (R376, R379). -/
def State.holdLine (s : State) (p line : Nat) (e : DirEntry) : State :=
  let slice := s.sliceOf p e
  let s := { s with dir := s.dir.insert line { e with st := .held, passing := false, since := s.time.toNat, slice := slice } }
  let g := line / 4
  let s := { s with granules := s.granules.put 0 g (s.granules.get 0 g ||| BitVec.ofNat 64 (2 ^ 56 + p * 2 ^ 52)) }
  let s := s.updPart p fun q => { q with episode := q.episode.orElse fun _ => some s.time.toNat, working := true }
  let s := s.count (some p) 0x104
  if 4096 ≤ ((s.heldLines p).filter fun c => c.2.slice = slice).length then s.enterExhausted p else s

/-- WRITE_BACK (R240, R373 to R376): a dirty line is written back. A page that no partition owns, and the CXL tier, are not
coded. In SPACE_EXHAUSTED a write-back that needs new chunks waits (R379). -/
def execWriteBack (line : Nat) (run : BitVec 29) (fast : Bool) (s : State) : Res :=
  match s.dir.find? line with
  | none => noEvent "WRITE_BACK"
  | some e =>
    let m := line * 128
    let g := line / 4
    if !e.dirty || e.st = .held then noEvent "WRITE_BACK"
    else match (if targetOf m = .hbm then s.pageOwner (m / 65536 * 65536) else none) with
      | none => .next (s.cleanLine line e)
      | some p =>
        let need := s.chunkNeed p g fast
        let s' := s.teach p (granuleHome g / 6) g
        if (s.part p).exhausted.isSome && decide (need.2 < need.1) then noEvent "WRITE_BACK"
        else if s.storeFits p g fast then
          match s'.storeGranule p g line run fast with
          | some s => .next (s.cleanLine line e)
          | none => noEvent "WRITE_BACK"
        else
          let r := if e.passing then s'.dirRoom none line else (true, s')
          .next (if r.1 then r.2.holdLine p line e else r.2)

/-- HELD_WRITEBACK_RETRY (R376, R379): a held line of a partition is tried again, once no older one finds a place. -/
def execHeldWritebackRetry (line : Nat) (run : BitVec 29) (s : State) : Res :=
  match s.dir.find? line, s.pageOwner (line * 128 / 65536 * 65536) with
  | some e, some p =>
    let older := (s.heldLines p).filter fun c => decide (c.2.since < e.since)
    if e.st != .held || older.any fun c => s.storeFits p (c.1 / 4) false then noEvent "HELD_WRITEBACK_RETRY"
    else match s.storeGranule p (line / 4) line run false with
      | some s => .next ((s.cleanLine line e).endEpisode p)
      | none => noEvent "HELD_WRITEBACK_RETRY"
  | _, _ => noEvent "HELD_WRITEBACK_RETRY"

/-- The machine pages whose frame OWNER is a partition. -/
def State.ownedPages (s : State) (p : Nat) : List Nat :=
  let base := s.rd frameTblAddr 8 / 65536 % 2 ^ 32 * 65536
  (s.mem.filter fun (c : Host.Cell) => decide (base ≤ c.1 ∧ c.1 < base + 32 * (0x1800000 + 0x10000000)) && (c.1 - base) % 32 == 0 &&
    c.2.toNat % 32 == p + 16).map fun c =>
      let i := (c.1 - base) / 32
      if i < 0x1800000 then i * 65536 else 0x100000000000 + (i - 0x1800000) * 65536

/-- A byte of a frame entry after the halving of its heat: a device's write of the entry leaves its reserved bits zero (R6, R369,
R378). -/
def halvedByte (off : Nat) (b : Byte) : Byte :=
  if off = 1 then BitVec.ofNat 8 (b.toNat / 16 % 8 * 16 + b.toNat % 16 / 2)
  else if off = 2 || off = 3 || off = 6 || off = 7 || 0x18 ≤ off then 0 else b

/-- HEAT_HALVING (R378): every 2^24 cycles, in the entry of every page. -/
def execHeatHalving (s : State) : Res :=
  let base := s.rd frameTblAddr 8 / 65536 % 2 ^ 32 * 65536
  let frame (c : Host.Cell) : Bool := decide (base ≤ c.1 ∧ c.1 < base + 32 * (0x1800000 + 0x10000000))
  if s.expires ((s.halvings + 1) * 2 ^ 24) then
    let cooled : List Host.Cell := s.mem.filterMap fun (c : Host.Cell) =>
      if !frame c then some c
      else
        let b := halvedByte ((c.1 - base) % 32) c.2
        if b = 0 then none else some (c.1, b)
    .next { s with mem := if s.framesValid then cooled else s.mem, halvings := s.halvings + 1 }
  else noEvent "HEAT_HALVING"

/-- BALLOON_DEADLINE (R379). -/
def execBalloonDeadline (part : Nat) (s : State) : Res :=
  match (s.part part).episode with
  | some t =>
    if (s.part part).exhausted.isNone && s.expires (t + s.partDefault part 0x1C 4 2500000) then
      .next (s.enterExhausted part)
    else noEvent "BALLOON_DEADLINE"
  | none => noEvent "BALLOON_DEADLINE"

/-- SPACE_STUCK (R379). -/
def execSpaceStuck (part : Nat) (s : State) : Res :=
  match (s.part part).exhausted with
  | some t =>
    if !(s.part part).stuckSent && s.expires (t + s.partDefault part 0x138 4 125000000) then
      .next ((s.updPart part fun q => { q with stuckSent := true }).sendEvent 0x07 (some part) 0 0)
    else noEvent "SPACE_STUCK"
  | none => noEvent "SPACE_STUCK"

/-! ### Walks and directory requests (R360, R363, R367) -/

/-- TRANSLATION_WALK: a translation home answers from its TLB, or walks and installs the leaf; the entries it reads may
be lost blocks (R243). -/
def execTranslationWalk (asid : BitVec 16) (va : Dword) (s : State) : Res :=
  match s.tlbFind asid.toNat va.toNat with
  | some _ => .next s
  | none =>
    let s := s.walkRead { asid := asid.toNat } va.toNat
    match s.walk { asid := asid.toNat } va.toNat with
    | .leaf page level perms entry => .next (s.tlbInstall asid.toNat va.toNat page level perms entry)
    | _ => .next s

/-- DIRECTORY_REQUEST: a line is brought in for an agent, for reading or with ownership, whose grant invalidates every
other copy. A line that comes from a CXL device brings the device's poison indication with it (R244). -/
def execDirectoryRequest (agent : Nat) (va : Dword) (write : Config.LineUse) (s : State) : Res :=
  onAgent "DIRECTORY_REQUEST" agent (fun s =>
    match s.locate s.who va.toNat 1 (if write.write then accStore else accLoad) false with
    | (.at m _ _, s') =>
      let fresh := write.poison && targetOf m = .cxl && (s.dir.find? (m / 128)).isNone
      let s' := if fresh then s'.poisonWords ((List.range 32).map (m / 128 * 32 + ·)) else s'
      .next (if write.write then s'.dropCopies (some s.meId) [m / 128] else s')
    | (_, s) => .next s) s

/-! ### Channels of the stacks, and the arrays on chip (R232, R243) -/

/-- CHANNEL_FAILURE (R243): a channel of a stack fails, or one block of it, in a stripe row, can no longer be corrected. -/
def execChannelFailure (stack : Nat) (channel : Config.ChannelLoss) (s : State) : Res :=
  if !decide (stack < 12 ∧ channel.channel < 36) then noEvent "CHANNEL_FAILURE"
  else match channel.row with
    | some r =>
      if s.badBlocks.contains (stack, channel.channel, r) then noEvent "CHANNEL_FAILURE"
      else .next { s with badBlocks := s.badBlocks ++ [(stack, channel.channel, r)] }
    | none =>
      if s.failedChannels.contains (stack, channel.channel) then noEvent "CHANNEL_FAILURE"
      else .next { s with failedChannels := s.failedChannels ++ [(stack, channel.channel)] }

/-- CHANNEL_REBUILD (R243): a failed channel is rebuilt onto restored storage; a block of it that cannot be rebuilt holds poison
from then on. -/
def execChannelRebuild (stack channel : Nat) (s : State) : Res :=
  if s.failedChannels.contains (stack, channel) then
    let here (g i : Nat) : Bool := granuleHome g / 2 = stack &&
      (blockAt (granuleHome g) (runOf (s.granules.get 0 g).toNat + i)).1 = channel && (s.blockState g i).2
    let lines := (s.granules.map (·.1)).flatMap fun g => ((List.range 4).map (4 * g + ·)).filter fun l =>
      (s.dir.find? l).isNone && (s.lineChunks l).any (here g)
    .next { s.poisonWords (lines.flatMap s.lostWords) with
      failedChannels := s.failedChannels.filter fun c => c != (stack, channel)
      badBlocks := s.badBlocks.filter fun b => !(b.1 = stack && b.2.1 = channel) }
  else noEvent "CHANNEL_REBUILD"

/-- SRAM_ERROR (R232, R395): a corrected error is counted; an uncorrectable one poisons the word it hits. -/
def execSramError (key : Nat) (correctable : Bool) (s : State) : Res :=
  if correctable then .next (s.countPkg 0x202)
  else if 2 ^ 48 ≤ key || (s.dir.find? (key / 128)).isSome then .next { s with poison := s.poison.put false (key / 4) true }
  else noEvent "SRAM_ERROR"

end Sys2Proof.Machine
end

