-- ==== Sys2Proof/Machine/Security.lean ====
section
/-! DEFINITION. Machine/Security.lean: package commands, kills and partition reset (R400 to R402, R411). -/
namespace Sys2Proof.Machine

/-! ### Package commands (R400) -/

/-- The team that POPND names, if it is one of the partition's; a team in transit stands where it goes to (R316). -/
def State.cmdTeam (s : State) (p : Nat) : Option Agent :=
  let v := s.rd popndAddr 8
  (s.placed p).find? fun a => a.core = bitsOf v 12 5 && a.slot = v % 32

/-! ### Kill (R401) -/

/-- Engine entries that have not started end with STATUS 3 and their arrival, by ENGINE_COMPLETION. -/
def State.endUnstarted (s : State) (f : EngineOp → Bool) : State :=
  { s with engines := s.engines.map fun o => if f o && !o.started then { o with status := 3, started := true, pendingOf := none } else o }

/-- The team whose turn it is is killed. -/
def State.killMe (s : State) : State :=
  let a := s.me
  let id := s.meId
  let s := (s.erase id 5).dropRanges
  let s := s.ownChannels.foldl State.unbind s
  let s := s.endUnstarted fun o => o.issuedBy id a
  let matrix := s.matrix.map fun (c : Nat × List MatrixOp) =>
    (c.1, c.2.map fun (o : MatrixOp) => { o with members := o.members.filter (· != id) })
  let s := { s with matrix := matrix }.updLaunch a.launch fun l => { l with liveTeams := l.liveTeams - 1 }
  (s.dropRequest.vacate).stopWdog a.part a.cls

/-- The kindling threads of a launch go: from the bins, from the kindling units, and from the ring, where their entries are void. -/
def State.dropThreads (s : State) (p : Nat) (h : Dword) : State :=
  let q := s.part p
  let theirs := ((List.range (q.ringTail - q.ringHead)).map (q.ringHead + ·)).filter fun i =>
    match s.ringThread p i with | some t => t.1.launch = h | none => false
  { s with bins := s.bins.filter fun b => b.launch != h }.updPart p fun q =>
    { q with kindling := q.kindling.filter fun t => t.2.launch != h
             ringNotes := theirs.foldl (fun m i => m.insert i { void := true }) q.ringNotes }

/-- What a launch's teams that are not resident hold goes: their check-outs without a write, their channels, and the requests
that were set for its candidates or on its teams (R311, R401). -/
def State.dropHoldings (s : State) (p : Nat) (h : Dword) : State :=
  let resident (t : Word32) : Bool := s.agents.any fun c => c.2.isTeam && c.2.launch = h && c.2.teamid = t
  let cands := (s.requests.filter fun r => match r.cand with
    | .resume l _ => l = h
    | .lit l _ => l = h
    | .team l _ => l = h).map (·.cand)
  let chans := (s.channels.filter fun c => c.2.bound && c.2.launch = h && !resident c.2.teamid).map (·.1)
  let s := cands.foldl State.withdrawFor s
  let s : State := { s with
    requests := s.requests.filter fun r => !(r.gone.isNone && r.part = p && r.launch = h && !resident r.teamid)
    ranges := s.ranges.filter fun r => !(r.part = p && r.launch = h && !resident r.teamid) }
  chans.foldl State.unbind s

/-- Kill a launch: its resident teams at their next boundary, everything else at once. -/
def State.killLaunchNow (s : State) (l : LaunchEntry) : State :=
  let p := l.desc.part
  let h := l.handle
  let mark (a : Agent) : Agent := if a.isTeam && a.launch = h then { a with killed := true } else a
  let gone := s.transit.filter fun (t : Agent × Nat × BitVec 7) => t.1.launch = h
  let recs := s.resume.filter fun r => r.launch = h
  let lits := s.lits.filter fun t => t.launch = h
  let slots := gone.filterMap (fun (t : Agent × Nat × BitVec 7) => t.1.preq.map (·.2)) ++
    recs.filterMap fun r => match r.source with | .slot k => some k | .loaded _ => none
  let s : State := { s with
    me := mark s.me
    others := s.others.map fun c => (c.1, mark c.2)
    transit := s.transit.filter fun (t : Agent × Nat × BitVec 7) => t.1.launch != h
    resume := s.resume.filter fun r => r.launch != h
    lits := s.lits.filter fun t => t.launch != h }
  let s := s.updPart p fun q => { q with images := q.images.filter fun k => !slots.contains k }
  let unplaced := if l.detached then 0 else l.desc.teams - l.placed
  let s := s.updLaunch h fun l => { l with placed := l.desc.teams, liveTeams := l.liveTeams - (gone.length + recs.length + lits.length + unplaced) }
  ((s.dropThreads p h).endUnstarted fun o => o.isTeam && o.launch = h).dropHoldings p h |>.stopWdog p l.desc.cls

/-- Whether the team whose turn it is stands at an EXIT that acts now: its older accesses have been performed. Ordered killed at this
boundary, it exits instead (R411). -/
def State.exitNext (s : State) : Bool :=
  s.me.isTeam && s.me.sketch.isNone && s.me.allPerformed && s.me.pendingTrap.isNone && s.me.sstop = 0#32 && s.me.wait = .none &&
  (match s.fetch.1 with | .run .exit _ _ => true | _ => false)

/-- KILL (R401): at the boundary of a team ordered killed; a trap vector in progress completes first, and an uncached access
under way ends. An EXIT at that boundary acts instead (R411). -/
def execKill (agent : Nat) (s : State) : Res :=
  onAgent "KILL" agent (fun s =>
    let busy : Bool := s.me.pendingTrap.isSome || s.exitNext || (match s.me.wait with | .iord .. => true | _ => false)
    if s.me.killed && s.me.isTeam && !busy then .next s.killMe.killsDone else noEvent "KILL") s

/-! ### Partition reset (R402) -/

/-- The proxy registrations of a partition lose VALID, and their filled bits; each is recorded. -/
def State.dropRegistrations (s : State) (p : Nat) : State :=
  ((List.range 1024).filter fun h => regValid s h && regPart s h = p).foldl (fun (s : State) h =>
    let s := s.wr (proxyBase h + 0x0C) 2 (regFlags s h - 2 ^ 8)
    let s := { s with filled := s.filled.filter fun (c : Nat × Bool) => c.1 / 4096 != h, holes := s.holes.remove h
                      tails := s.tails.filter (· != h)
                      engines := s.engines.map fun (o : EngineOp) => { o with posts := o.posts.filter fun c => c.1 != h }
                      launches := s.launches.map fun (l : LaunchEntry) => { l with posts := l.posts.filter fun c => c.1 != h } }
    s.record none {}) s

/-- Steps 1 to 3 of a reset. Every engine operation of the partition stops, those of its threads among them: no STATUS word is
written and no arrival is made (log 45). -/
def State.startReset (s : State) (p : Nat) : State :=
  let s := s.updPart p fun q => { q with resetting := true, closed := true }
  let s := (s.launches.filter fun l => l.desc.part = p).foldl State.killLaunchNow s
  let s := { s with engines := s.engines.filter fun o => o.part != p }
  (s.dropRegistrations p)

/-- The Hearth ranges of a partition as offsets and lengths. -/
def State.hearthRanges (s : State) (p : Nat) : List (Nat × Nat) :=
  (List.range 4).map fun i =>
    let r := s.partField p (0xE0 + 4 * i) 4
    (r % 2 ^ 11 * 65536, r / 2 ^ 11 % 2 ^ 11 * 65536)

/-- The page-request rings once a partition's functions are gone: none of their requests waits for an answer, and a ring that served
them alone starts anew (R350, R402). -/
def State.dropPageReqs (s : State) (p : Nat) : Cells PageRing :=
  let fns := (List.range 4096).filter fun f => bitOf (s.rd (bindBase f + 2) 1) 4
  let mine (f : Nat) : Bool := s.rd (bindBase f + 2) 1 % 16 = p
  let from_ (f key : Nat) : Bool := key / 2 ^ 9 % 2 ^ 16 = s.rd (bindBase f) 2 && key / 2 ^ 25 = s.rd (bindBase f + 3) 1 % 32
  (s.pageReqs.map fun c => (c.1, { c.2 with waiting := c.2.waiting.filter fun k => !((fns.filter mine).any fun f => from_ f k) })).filter fun c =>
    let served := fns.filter fun f => s.rd (bindBase f + 6) 1 = c.1
    served.isEmpty || !served.all mine

/-- Steps 4 to 6 of a reset. The invalidate ring is empty: every command up to its tail counts as done. -/
def State.finishReset (s : State) (p : Nat) : State :=
  let ours (asid : Nat) : Bool := s.asidPart asid = some p
  let lines := (s.dir.filter fun c => ours c.2.asid.toNat).map (·.1)
  let pages := s.ownedPages p
  let ranges := s.hearthRanges p
  let s : State := { s with
    dir := s.dir.filter fun c => !lines.contains c.1
    tlb := s.tlb.filter fun t => !ours t.asid.toNat
    ranges := s.ranges.filter fun r => r.part != p
    bins := s.bins.filter fun b => b.part != p
    lits := s.lits.filter fun t => !(s.launches.any fun l => l.handle = t.launch && l.desc.part = p)
    launches := s.launches.filter fun l => l.desc.part != p
    resume := s.resume.filter fun r => r.part != p
    requests := s.requests.filter fun r => r.part != p
    moves := s.moves.filter fun m => m.part != p
    swapWrites := s.swapWrites.filter fun w => regPart s w.handle != p
    engines := s.engines.filter fun o => o.part != p
    pageReqs := s.dropPageReqs p
    atsWait := s.atsWait.filter fun c => c.2.1 != p }
  let s := pages.foldl (fun (s : State) m => (s.zeroRange m 65536).updFrame m fun w => setBits w 14 14 0 / 2 ^ 7 * 2 ^ 7 + w % 2 ^ 5) s
  let s := ranges.foldl (fun (s : State) r =>
    let lo := hearthKey r.1
    { s with mem := Memory.clear s.mem lo r.2, poison := s.poison.filter fun (c : Nat × Bool) => decide (c.1 * 4 < lo ∨ lo + r.2 ≤ c.1 * 4) }) s
  let s : State := { s with
    palettes := s.palettes.filter fun (c : Nat × PaletteState) => c.1 / 4 != p
    counters := s.counters.filter fun (c : Nat × Dword) => c.1 / 4096 != p || decide (0x200 ≤ c.1 % 4096) }
  let accepted := (s.part p).accepted
  let done := s.rd (invTailAddr p) 4
  let s := s.updPart p fun _ => { accepted := accepted, closed := true, invDone := done }
  s.wr (partBase p) 4 (s.partField p 0 4 / 2 * 2)

/-- PARTITION_RESET_DONE (R402): its launches are killed, and the rest is cleared. -/
def execPartitionResetDone (part : Nat) (s : State) : Res :=
  if (s.part part).resetting && s.agents.all (fun c => !(c.2.isTeam && c.2.part = part)) &&
      s.transit.all fun (t : Agent × Nat × BitVec 7) => t.1.part != part then
    let s := s.finishReset part
    .next (if s.pstat = 1 && s.pcmdOp = 5 && s.pcmdPart = part then s.cmdDone else s)
  else noEvent "PARTITION_RESET_DONE"

/-! ### Running a command (R400) -/

/-- What the command in PCMD does when it is written. -/
def State.runCommand (s : State) : State :=
  let p := s.pcmdPart
  let op := s.pcmdOp
  let team := s.cmdTeam p
  if op = 0 || 5 < op then s.cmdRefused 4
  else if !s.partValid p then s.cmdRefused 1
  else if op = 1 then
    match team with
    | none => s.cmdRefused 2
    | some a =>
      if a.preq.isSome then s.cmdDone
      else match s.request a with
        | some s => s.cmdDone
        | none => s.cmdBusy
  else if op = 2 then
    match team with
    | none => s.cmdRefused 2
    | some a =>
      let requests := s.requests.filter fun (r : PreReq) => !(r.gone.isNone && r.part = p && r.launch = a.launch && r.teamid = a.teamid)
      ({ s with requests := requests }.withdrawRequest a).cmdDone
  else if op = 3 then
    match team with
    | none => s.cmdRefused 2
    | some a => (s.updTeam p a.launch a.teamid fun a => { a with killed := true }).cmdBusy
  else if op = 4 then
    match s.launches.find? fun l => l.handle.toNat = s.rd popndAddr 8 && l.desc.part = p with
    | none => s.cmdRefused 2
    | some l => (s.killLaunchNow l).cmdBusy.killsDone
  else (s.startReset p).cmdBusy

/-- An access that is dropped is recorded (R337, R357). -/
def State.dropAccess (s : State) (m : Nat) : State := s.record (s.partOf s.me) { addr := m, asid := s.me.asid.toNat, port := portOf m }

/-- A write of PCMD; one that meets a busy command is dropped. -/
def State.writePcmd (s : State) (v : Nat) : State :=
  if s.pstat = 1 then s.dropAccess pcmdAddr else (s.wr pcmdAddr 8 (v % 2 ^ 8)).runCommand

/-- A command row: host firmware writes PCMD; or a pre-emption command that waits for an image slot goes on. -/
def commandRow (row : String) (op : Nat) (agent : Nat) (part : BitVec 4) (s : State) : Res :=
  onAgent row agent (fun s =>
    if !s.me.isFirmware then noEvent row
    else if s.pstat = 1 && s.pcmdOp = op && op = 1 && s.pcmdPart = part.toNat then
      (let t := s.runCommand
       if t.pstat = 1 then noEvent row else .next t)
    else .next (s.writePcmd (part.toNat * 16 + op))) s

def execPreEmptTeam (agent : Nat) (part : BitVec 4) (s : State) : Res := commandRow "PRE_EMPT_TEAM" 1 agent part s
def execWithdrawPreEmption (agent : Nat) (part : BitVec 4) (s : State) : Res := commandRow "WITHDRAW_PRE_EMPTION" 2 agent part s
def execKillTeam (agent : Nat) (part : BitVec 4) (s : State) : Res := commandRow "KILL_TEAM" 3 agent part s
def execKillLaunch (agent : Nat) (part : BitVec 4) (s : State) : Res := commandRow "KILL_LAUNCH" 4 agent part s
def execResetPartition (agent : Nat) (part : BitVec 4) (s : State) : Res := commandRow "RESET_PARTITION" 5 agent part s

/-- PCMD_RESERVED_OP: OP 0 and 6 to 15. -/
def execPcmdReservedOp (agent : Nat) (part op : BitVec 4) (s : State) : Res :=
  if op = 0 || 5 < op.toNat then commandRow "PCMD_RESERVED_OP" op.toNat agent part s else noEvent "PCMD_RESERVED_OP"

/-- n bytes of a byte string, filled with zeros. -/
def fitBytes (n : Nat) (b : List Byte) : List Byte := (b ++ List.replicate n 0).take n

end Sys2Proof.Machine
end

