-- ==== Sys2Proof/Machine/Proxy.lean ====
section
/-! DEFINITION. Machine/Proxy.lean: the doorbell proxy, QRSV and QPOST (R339 to R345). -/
namespace Sys2Proof.Machine

/-- QRSV (R341). -/
def execQrsv (d a b : BitVec 7) (s : State) : Res :=
  let n := s.me.scalarNeed [d.toNat] [a.toNat, b.toNat] 0
  issue n (fun s =>
    let x := s.me.getS a.toNat
    let y := s.me.getS b.toNat
    consume [x, y] (fun s =>
      let h := x.val.toNat
      if !regValid s h || y.val = 0 then giveStatus n d (2 ^ 63 + 0x82) s
      else if s.partOf s.me != some (regPart s h) then giveStatus n d (2 ^ 63 + 0x84) s
      else
        let c := regCounter s h
        queueStores n [{ kind := .qrsv h y.val, addr := BitVec.ofNat 64 (hearthWindow + c), size := 16,
                         ret := some (if d = 0 then .s 0 else s.me.sName d.toNat),
                         keys := (List.range 16).map fun i => hearthKey (c + i) }] s) s) s

/-- QPOST (R342): the proxy's answer comes before the next instruction, so acceptance and its answer are one event here.
A slot that a launch's team posts holds back its join until its tail write (R344). -/
def execQpost (a b : BitVec 7) (s : State) : Res :=
  let n := s.me.scalarNeed [] [a.toNat, b.toNat]
  issue n (waitPerformed fun s =>
    let x := s.me.getS a.toNat
    let y := s.me.getS b.toNat
    consume [x, y] (fun s =>
      let h := x.val.toNat
      let k := y.val.toNat % 2 ^ 32
      if !s.acceptsSlot (s.partOf s.me) h k then trap .illegal s
      else
        let launch := s.me.launch
        let team := s.me.isTeam
        let s := if team then s.updLaunch launch fun l => { l with posts := l.posts ++ [(h, BitVec.ofNat 32 k)] } else s
        .next (retire n (s.acceptSlot h k))) s) s

/-- A join, and a collective, no longer wait on the slots that PUB has passed. -/
def State.postsDone (s : State) (h : Nat) : State :=
  let pub := regPub s h
  let covered (k : Word32) : Bool := decide ((pub + 2 ^ 32 - k.toNat - 1) % 2 ^ 32 < 2 ^ 31)
  let left (ps : List (Nat × Word32)) : List (Nat × Word32) := ps.filter fun c => !(c.1 = h && covered c.2)
  { s with launches := s.launches.map fun l => { l with posts := left l.posts }
           engines := s.engines.map fun o => { o with posts := left o.posts } }

/-- DOORBELL_TAIL_WRITE (R343, R345): the port accepts the write of PUB, or is down or under DPC containment, and a record stands
in its place. -/
def execDoorbellTailWrite (h : Nat) (portUp : Bool) (s : State) : Res :=
  if s.tails.contains h && regValid s h && !regPaused s h then
    let tail := s.rd (proxyBase h) 8
    let held := (portOf tail).any s.contained.contains
    let s : State := { s with tails := s.tails.filter (· != h) }
    if portUp && !held then
      let w : DevWrite := { addr := tail, size := 4, value := BitVec.ofNat 64 (regPub s h % regDepth s h) }
      .next ({ s with devWrites := s.devWrites ++ [w] }.postsDone h)
    else .next ((s.record (some (regPart s h)) { addr := tail, port := portOf tail }).postsDone h)
  else noEvent "DOORBELL_TAIL_WRITE"

/-- PROXY_HOLE (R344). -/
def execProxyHole (h : Nat) (s : State) : Res :=
  match s.holes.find? h with
  | some t =>
    if s.expires (t + s.partDefault (regPart s h) 0x18 4 62500) && s.anyFilled h then
      .next ({ s with holes := s.holes.insert h holeReported }.sendEvent 0x09 (some (regPart s h)) h (BitVec.ofNat 32 (regPub s h)))
    else noEvent "PROXY_HOLE"
  | none => noEvent "PROXY_HOLE"

end Sys2Proof.Machine
end

