-- ==== Sys2Proof/Machine/Chip.lean ====
section
/-! DEFINITION. Machine/Chip.lean: the on-chip tables and registers: who may reach them, and what a write of each does (R339,
R346, R350, R357, R364, R375, R378, R380 to R384, R400, R433, R443, R444). -/
namespace Sys2Proof.Machine

/-! ### Regions (R357) -/

/-- What a machine address of the on-chip rows belongs to. -/
inductive Region where
  | proxy (h : Nat) | doorbell | partition (p : Nat) | intMap (i : Nat) | binding (f : Nat) | invTail (p : Nat) | balAck (p : Nat)
  | asidTbl | frameTbl | keySlot | exportTable | control (port off : Nat) | none
  deriving DecidableEq, Repr, Inhabited

/-- The region of an address. -/
def regionOf (m : Nat) : Region :=
  let within (base size : Nat) : Bool := decide (base ≤ m ∧ m < base + size)
  if within 0x30C000000000 0x8000 then .proxy ((m - 0x30C000000000) / 0x20)
  else if within 0x30C000010000 4 then .doorbell
  else if within 0x30C000020000 0x4000 then .partition ((m - 0x30C000020000) / 0x400)
  else if within 0x30C000040000 0x10000 then .intMap ((m - 0x30C000040000) / 0x10)
  else if within 0x30C000060000 0x20000 then .binding ((m - 0x30C000060000) / 0x20)
  else if within 0x30C000080000 0x80 then .invTail ((m - 0x30C000080000) / 8)
  else if within 0x30C000080200 0x80 then .balAck ((m - 0x30C000080200) / 8)
  else if within asidTblAddr 8 then .asidTbl
  else if within frameTblAddr 8 then .frameTbl
  else if within 0x30C000090000 0xC00 then .keySlot
  else if within 0x30C0000A0000 0x800 then .exportTable
  else if within 0x30C000100000 0x20000 then .control ((m - 0x30C000100000) / 0x1000) (m % 0x1000)
  else .none

/-- The registers of a control block: those of host firmware, 8 bytes each, and PRGRESP. -/
abbrev firmwareRegs : List Nat := [0x800, 0x808, 0x810, 0x818, 0x820]

/-- Whether the agent whose turn it is may read a region with an IORD of a size. -/
def State.mayRead (s : State) (r : Region) (off size : Nat) : Bool :=
  match r with
  | .doorbell => false
  | .balAck _ => false
  | .none => false
  | .control 0 o => (firmwareRegs.any fun b => decide (b ≤ o ∧ o < b + 8)) && s.me.isFirmware && size == 8 && off % 8 == 0
  | .control _ _ => false
  | _ => s.me.isFirmware

/-- Whether it may write one with an IOWR of a size. -/
def State.mayWrite (s : State) (r : Region) (off size : Nat) : Bool :=
  match r with
  | .doorbell => false
  | .none => false
  | .invTail p => size == 4 && off % 8 == 0 && (s.me.isFirmware || (s.me.regs.priv && s.partOf s.me = some p))
  | .balAck p => size == 4 && off % 8 == 0 && s.me.kind = .queue && s.me.teamid.toNat = 32 + s.partField p 0x230 1
  | .asidTbl => s.me.isFirmware && size == 8
  | .frameTbl => s.me.isFirmware && size == 8
  | .control 0 o =>
    if firmwareRegs.any fun b => decide (b ≤ o ∧ o < b + 8) then s.me.isFirmware && size == 8 && off % 8 == 0
    else o == 0x40 && size == 4
  | .control _ o => o == 0x40 && size == 4
  | _ => s.me.isFirmware

/-- The value of an IORD of an on-chip address: keys read zero (R383). -/
def State.chipRead (s : State) (m size : Nat) : PDword :=
  match regionOf m with
  | .keySlot => if (m - 0x30C000090000) % 0x40 < 0x20 then {} else clean (BitVec.ofNat 64 (s.rd m size))
  | _ => clean (BitVec.ofNat 64 (s.rd m size))

/-! ### Proxy registrations (R339) -/

/-- Whether a registration's fields lie within their limits. -/
def State.regOk (s : State) (h : Nat) : Bool :=
  let b := proxyBase h
  let tail := s.rd b 8
  let hctr := s.rd (b + 8) 4
  let f := regFlags s h
  let p := regPart s h
  let port : Option Nat := portOf tail
  tail % 4 == 0 && hctr % 16 == 0 && hctr / 2 ^ 27 == 0 && s.inHearthRanges p hctr && decide (1 ≤ f % 16 ∧ f % 16 ≤ 12) &&
  f / 2 ^ 10 == 0 && s.partValid p && !(s.part p).resetting &&
  (match port with
   | some n => (List.range 4096).any fun i => bitOf (s.rd (bindBase i + 2) 1) 4 && s.rd (bindBase i + 2) 1 % 16 == p && s.rd (bindBase i + 3) 1 % 32 == n
   | none => false)

/-- A write to registration h. -/
def State.writeRegistration (s : State) (h m size v : Nat) : State :=
  let b := proxyBase h
  let pub := regPub s h
  if bitOf (regFlags s h) 8 then
    if m ≤ b + 0x0D && b + 0x0D < m + size then
      let on := bitOf v (8 * (b + 0x0D - m) + 1)
      let was := regPaused s h
      let s := s.wr (b + 0x0C) 2 (setBits (regFlags s h) 9 9 (if on then 1 else 0))
      if was && !on then s.wantTail h else s
    else s
  else
    let t := (s.wr m size v)
    let t := ((t.wr (b + 0x10) 4 pub).wr (b + 0x0E) 2 0).wr (b + 0x14) 12 0
    if !bitOf (regFlags t h) 8 then t
    else if t.regOk h then
      let t : State := { t with filled := t.filled.filter fun (c : Nat × Bool) => c.1 / 4096 != h, holes := t.holes.remove h }
      t.wr (b + 0x10) 4 (t.rd (hearthKey (regCounter t h)) 4)
    else t.wr (b + 0x0C) 2 (setBits (regFlags t h) 8 8 0)

/-! ### Interrupts (R346, R382) -/

/-- Deliver a message by map entry i: an arrival, or an interrupt number of a thread (R206, R346). -/
def State.deliverIntr (s : State) (i : Nat) : State :=
  let w := s.rd (intMapBase i) 4
  let x := s.rd (intMapBase i + 4) 4
  if w % 4 = 1 then s.arriveDevice (bitsOf w 7 4) (x % 2 ^ 27 / 16 * 16)
  else if w % 4 = 2 then
    s.updAgent (bitsOf x 22 16) fun a => { a with intrs := if a.intrs.contains (x % 2 ^ 16) then a.intrs else a.intrs ++ [x % 2 ^ 16] }
  else s

/-- A write to interrupt map entry i: PEND is read only, and clearing MASK delivers a pending message. -/
def State.writeIntMap (s : State) (i m size v : Nat) : State :=
  let b := intMapBase i
  let old := s.rd b 4
  let t := s.wr m size v
  let new := t.rd b 4
  let pend := bitOf old 3
  let fire := pend && bitOf old 2 && !bitOf new 2
  let t := (t.wr b 4 (setBits (new % 2 ^ 8) 3 3 (if pend && !fire then 1 else 0))).wr (b + 8) 8 0
  if fire then t.deliverIntr i else t

/-! ### Function bindings (R381) -/

/-- Bits of a binding: PART, VALID, ATS, PRI and FT; requester ID and port. -/
abbrev bindFlags (s : State) (f : Nat) : Nat := s.rd (bindBase f + 2) 1
abbrev bindValid (s : State) (f : Nat) : Bool := bitOf (bindFlags s f) 4
abbrev bindPart (s : State) (f : Nat) : Nat := bindFlags s f % 16
abbrev bindRid (s : State) (f : Nat) : Nat := s.rd (bindBase f) 2
abbrev bindPort (s : State) (f : Nat) : Nat := s.rd (bindBase f + 3) 1 % 32
abbrev bindAsid (s : State) (f : Nat) : Nat := s.rd (bindBase f + 4) 2

/-- A write to binding f: one that names another partition's ASID, or makes a second valid binding of one function, is
refused. -/
def State.writeBinding (s : State) (f m size v : Nat) : State :=
  let t := (s.wr m size v).wr (bindBase f + 16) 16 0
  let names := decide (m < bindBase f + 6 ∧ bindBase f + 4 < m + size)
  let foreign := match s.asidPart (bindAsid t f) with | some p => p != bindPart t f | none => false
  let twice := (List.range 4096).any fun g => g != f && bindValid s g && bindRid s g == bindRid t f && bindPort s g == bindPort t f
  if ((names || bindValid t f) && foreign) || (bindValid t f && twice) then s else t

/-! ### Partition entries (R370, R375, R377, R380, R443) -/

/-- The numbers of the bits set among n bits. -/
def bitsIn (n v : Nat) : List Nat := (List.range n).filter (bitOf v)

/-- Whether a free-page stack field is absent, or has a legal capacity that holds PAGEQ in pages of its size (R370). -/
def stackOk (f pageq pages : Nat) : Bool :=
  f == 0 || (decide (4 ≤ bitsOf f 52 48 ∧ bitsOf f 52 48 ≤ 24) && decide ((pageq + pages - 1) / pages ≤ 2 ^ bitsOf f 52 48))

/-- Whether n bytes of machine memory lie in pages that a partition owns. -/
def State.ownsRange (s : State) (p m n : Nat) : Bool :=
  (List.range (n / 65536 + 2)).all fun i =>
    let page := m / 65536 * 65536 + i * 65536
    decide (m + n ≤ page) || s.pageOwner page = some p

/-- Whether the entry of partition p that stands in the table passes the rules that R380, R370, R377 and R443 judge on its own
fields: the refusals of their lists, and what a field's row says it must be. A value range or a zero bit that a row only
describes is not judged (log 44). -/
def State.entryAlone (s : State) (p : Nat) : Bool :=
  let f (o n : Nat) : Nat := s.partField p o n
  let clusters := bitsIn 128 (f 0xC0 16)
  let pageq := f 0x120 8
  let err := f 0x238 8
  modeWhole (BitVec.ofNat 32 (f 0x10 4)) &&
  ((List.range 4).all fun i => let r := f (0xE0 + 4 * i) 4; decide (r % 2 ^ 11 + r / 2 ^ 11 % 2 ^ 11 ≤ 2 ^ 11)) &&
  decide (64 * clusters.length ≤ f 0x100 4) &&
  ((List.range 5).all fun i => let c := bitsOf (f 0x110 4) (3 * i + 2) (3 * i); c != 5 && c != 6) &&
  decide (pageq ≤ 2 * f 0x118 8 / 1024) && decide (((List.range 24).map fun c => f (0x140 + 4 * c) 4).sum ≤ f 0x118 8) &&
  ((List.range 12).all fun k => stackOk (f (0x1A0 + 8 * k) 8) pageq (pageBytes (k % 3) / 65536)) && stackOk (f 0x200 8) pageq 1 &&
  (err == 0 || (decide (4 ≤ bitsOf err 11 8 ∧ bitsOf err 11 8 ≤ 12) && bitsOf err 7 1 == 0 && err / 2 ^ 48 == 0 &&
    s.ownsRange p (bitsOf err 47 12 * 2 ^ 12) (64 + 32 * 2 ^ bitsOf err 11 8))) &&
  (clusters.all fun c => (List.range 32).any fun i => bitOf (f 0xD0 16) (c / 32 * 32 + i))

/-- The Hearth units of 64 KiB that a partition's ranges name. -/
def State.hearthUnits (s : State) (p : Nat) : List Nat :=
  (List.range 4).flatMap fun i =>
    let r := s.partField p (0xE0 + 4 * i) 4
    (List.range (r / 2 ^ 11 % 2 ^ 11)).map (r % 2 ^ 11 + ·)

/-- Whether the entry of partition p fits beside those of the other valid partitions. -/
def State.entryFits (s : State) (p : Nat) : Bool :=
  let others := (List.range 16).filter fun q => q != p && s.partValid q
  let f (q o n : Nat) : Nat := s.partField q o n
  let units := s.hearthUnits p
  others.all (fun q => f p 0xC0 16 &&& f q 0xC0 16 == 0 && f p 0xD0 16 &&& f q 0xD0 16 == 0 &&
    !((s.hearthUnits q).any units.contains)) &&
  decide (units.eraseDups.length = units.length) &&
  decide (((p :: others).map fun q => bitsOf (f q 0x104 4) 13 8).sum ≤ 64) &&
  decide (((p :: others).map fun q => bitsOf (f q 0x104 4) 21 16).sum ≤ 64)

/-- What the rings hold when the entry becomes valid: their leading non-zero entries, the last of them on top (log 11). -/
def State.ringPages (s : State) (f : Nat) : List Nat :=
  let base := bitsOf f 47 12 * 2 ^ 12
  if f = 0 then []
  else ((List.range (2 ^ bitsOf f 52 48)).foldl (fun (acc : List Nat × Bool) i =>
    let e := s.rd (base + 8 * i) 8
    if acc.2 || e = 0 then (acc.1, true) else (e :: acc.1, false)) ([], false)).1

/-- The entry becomes valid: its pools are whole, and its free pages those of its rings, whose top 64 are read on chip (R356,
R375). -/
def State.openPartition (s : State) (p : Nat) : State :=
  let free : Cells Nat := (List.range 24).foldl (fun (m : Cells Nat) c => m.put 0 c (s.partField p (0x140 + 4 * c) 4)) []
  let pages : List (Nat × List Nat) := (List.range 13).map fun k => (k, s.ringPages (s.stackField p k))
  s.updPart p fun q =>
    { q with free := free, closed := false
             freePages := pages.foldl (fun m c => m.put [] c.1 (c.2.take 64)) []
             ringCounts := pages.foldl (fun m c => m.put 0 c.1 (c.2.length - 64)) [] }

/-- After a write of a partition's entry: where COMP has changed, learning begins with the next write-back that finds it set
(R374). -/
def State.noteComp (s t : State) (p : Nat) : State :=
  if bitOf (s.partField p 0 4) 2 = bitOf (t.partField p 0 4) 2 then t
  else (List.range 4).foldl (fun (t : State) d => if (t.palettes.find? (4 * p + d)).isNone then t
    else t.updPalette p d fun x => { x with begun := false }) t

/-- A write to partition p's entry. Its reserved bytes keep what is written and read back so: of reserved bits R5 speaks of
registers and R6 of entries in memory, and the manual does not say which holds for an entry on chip (log 47). In the recovery state
no partition exists (R408). -/
def State.writePartition (s : State) (p m size v : Nat) : State :=
  let t := s.noteComp (s.wr m size v) p
  let same (o n : Nat) : Bool := s.partField p o n = t.partField p o n
  let delta (c : Nat) : Int := (t.partField p (0x140 + 4 * c) 4 : Int) - (s.partField p (0x140 + 4 * c) 4 : Int)
  if !s.partValid p then
    if !t.partValid p then t
    else if !s.recovery && t.entryAlone p && t.entryFits p then t.openPartition p else s
  else if t.entryAlone p && t.entryFits p && same 0xC0 16 && same 0xD0 16 && same 0xE0 16 &&
      (List.range 24).all fun c => decide (0 ≤ (s.freeAt p c : Int) + delta c) then
    (List.range 24).foldl (fun (t : State) c => t.setFree p c ((s.freeAt p c : Int) + delta c).toNat) t
  else s

/-! ### Other registers -/

/-- ASIDTBL and FRAMETBL (R444): a base in bits 47:16 and VALID. -/
def State.writeTableBase (s : State) (m v : Nat) : State :=
  let old := s.rd m 8
  if bitsOf v 15 1 != 0 || v / 2 ^ 48 != 0 || (bitOf old 0 && v / 2 != old / 2) then s.dropAccess m else s.wr m 8 v

/-- The invalidate tail (R364). -/
def State.writeInvTail (s : State) (p v : Nat) : State :=
  if 64 < (v + 2 ^ 32 - (s.part p).invDone % 2 ^ 32) % 2 ^ 32 then s.dropAccess (invTailAddr p) else s.wr (invTailAddr p) 4 v

/-- A page request as its ring counts it: PRG index, requester ID and port. -/
def requestKey (port rid prg : Nat) : Nat := prg % 2 ^ 9 + rid % 2 ^ 16 * 2 ^ 9 + port * 2 ^ 25

/-- PRGRESP of port n (R350): the response goes to the function, and its group's requests are answered. -/
def State.writePrgResp (s : State) (n v : Nat) : State :=
  let reqs := s.pageReqs.map fun (c : Nat × PageRing) =>
    (c.1, { c.2 with waiting := c.2.waiting.filter (· != requestKey n (v % 2 ^ 16) (bitsOf v 24 16)) })
  { s with replies := s.replies ++ [leBytes 4 (v % 2 ^ 29)], pageReqs := reqs }

/-- An export entry (R384). -/
def State.writeExport (s : State) (m size v : Nat) : State :=
  let e := (m - 0x30C0000A0000) / 0x20
  (s.wr m size v).wr (exportBase e + 0x12) 14 0

/-! ### BALACK (R378) -/

/-- The keys of a word of a partition's SWAPSTK. -/
def State.swapKeys (s : State) (p off kind : Nat) : Option (List Nat × State) :=
  match State.engineLines (s.svWho p) kind 2 (s.partField p 0x220 8 + off) 4 s with
  | (.keys ks, s) => some (ks, s)
  | _ => none

/-- Return a slot to SWAPSTK. -/
def State.returnSlot (s : State) (p slot : Nat) : State :=
  match s.swapKeys p 0 accStore with
  | none => s
  | some (ks, s) =>
    let n := leValue (ks.map (Memory.read s.mem))
    match s.swapKeys p (4 + 4 * n) accStore with
    | none => s
    | some (ss, s) =>
      (s.writeEngine ss ((leBytes 4 slot).map (·, false))).writeEngine ks ((leBytes 4 (n + 1)).map (·, false))

/-- The entry of a page being paged out: PO, IOW and the slot (R359, R378). -/
abbrev swapEntry (slot : Nat) : Nat := 2 ^ 7 + 2 ^ 9 + slot * 2 ^ 16

/-- An acknowledgement (R378): status 0 completes the page-out, another undoes it; one that matches none is dropped. -/
def State.writeBalAck (s : State) (p v : Nat) : State :=
  match s.moves.find? fun m => m.pageOut && m.phase = 2 && m.part = p && m.target % 2 ^ 16 = v % 2 ^ 16 with
  | none => s.dropAccess (balAckAddr p)
  | some m =>
    let cur := s.rd m.pteAddr 8
    let done (w : SwapWrite) : Bool := w.handle = s.partField p 0x210 2 && w.cid = v % 2 ^ 16
    let s : State := { s with moves := s.moves.filter fun x => x != m, swapWrites := s.swapWrites.filter fun w => !done w }
    let mine := cur == swapEntry m.target
    if bitsOf v 30 16 = 0 then
      if mine then
        let s := s.devWrite m.pteAddr 8 (cur - 2 ^ 9)
        (s.arriveDevice p (s.partField p 0x228 8)).pushPage p m.page 0
      else (s.returnSlot p m.target).frameSet [m.page] 1
    else
      let s := if mine then s.devWrite m.pteAddr 8 m.oldPte.toNat else s
      (s.returnSlot p m.target).frameSet [m.page] 1

/-! ### A write by the agent whose turn it is -/

/-- What an IOWR to an on-chip address does. A register with no behaviour of its own keeps what is written; a place
of a control block that holds no register drops it (log 28). -/
def State.chipWrite (s : State) (m size v : Nat) : State :=
  let r := regionOf m
  if !s.mayWrite r (m % 0x1000) size then s.dropAccess m
  else match r with
    | .proxy h => s.writeRegistration h m size v
    | .partition p => s.writePartition p m size v
    | .intMap i => s.writeIntMap i m size v
    | .binding f => s.writeBinding f m size v
    | .invTail p => s.writeInvTail p v
    | .balAck p => s.writeBalAck p v
    | .asidTbl => s.writeTableBase m v
    | .frameTbl => s.writeTableBase m v
    | .exportTable => s.writeExport m size v
    | .control n o =>
      if o = 0x40 then s.writePrgResp n v
      else if n != 0 then s
      else if o = 0x800 then s.writePcmd v
      else if o = 0x808 then s.wr m 8 v
      else if o = 0x818 then s.wr m 8 (bitsOf v 47 12 * 2 ^ 12 + v % 2)
      else if o = 0x820 then s.wr m 8 (bitsOf v 47 8 * 2 ^ 8 + v % 2)
      else s
    | _ => s

/-! ### The rows of these writes

Each is the write that an IOWR of a host or queue thread, or of a supervisor, makes when it is performed. -/

/-- A write row: an agent writes an address of its row. -/
def writeRow (row : String) (own : Region → Nat → Bool) (agent addr size : Nat) (value : Dword) (s : State) : Res :=
  onAgent row agent (fun s =>
    if own (regionOf addr) (addr % 0x1000) && (size == 1 || size == 2 || size == 4 || size == 8) && addr % size == 0 then
      .next (s.chipWrite addr size (value.toNat % 2 ^ (8 * size)))
    else noEvent row) s

def execProxyRegistrationWrite (agent addr size : Nat) (value : Dword) (s : State) : Res :=
  writeRow "PROXY_REGISTRATION_WRITE" (fun r _ => match r with | .proxy _ => true | _ => false) agent addr size value s
def execInterruptMapWrite (agent addr size : Nat) (value : Dword) (s : State) : Res :=
  writeRow "INTERRUPT_MAP_WRITE" (fun r _ => match r with | .intMap _ => true | _ => false) agent addr size value s
def execPrgresp (agent addr size : Nat) (value : Dword) (s : State) : Res :=
  writeRow "PRGRESP" (fun r _ => match r with | .control _ o => o == 0x40 | _ => false) agent addr size value s
def execInvalidateTailWrite (agent addr size : Nat) (value : Dword) (s : State) : Res :=
  writeRow "INVALIDATE_TAIL_WRITE" (fun r _ => match r with | .invTail _ => true | _ => false) agent addr size value s
def execBalack (agent addr size : Nat) (value : Dword) (s : State) : Res :=
  writeRow "BALACK" (fun r _ => match r with | .balAck _ => true | _ => false) agent addr size value s
def execPartitionTableWrite (agent addr size : Nat) (value : Dword) (s : State) : Res :=
  writeRow "PARTITION_TABLE_WRITE" (fun r _ => match r with | .partition _ => true | _ => false) agent addr size value s
def execFunctionBindingWrite (agent addr size : Nat) (value : Dword) (s : State) : Res :=
  writeRow "FUNCTION_BINDING_WRITE" (fun r _ => match r with | .binding _ => true | _ => false) agent addr size value s
def execAsidtblWrite (agent addr size : Nat) (value : Dword) (s : State) : Res :=
  writeRow "ASIDTBL_WRITE" (fun r _ => r == .asidTbl) agent addr size value s
def execFrametblWrite (agent addr size : Nat) (value : Dword) (s : State) : Res :=
  writeRow "FRAMETBL_WRITE" (fun r _ => r == .frameTbl) agent addr size value s
/-- REGISTER_WRITE: POPND, PSTAT, EVCTL, ERRCTL, the key slots, the export table, reserved places of control blocks, and the
interrupt-map doorbell, which drops it. -/
def execRegisterWrite (agent addr size : Nat) (value : Dword) (s : State) : Res :=
  writeRow "REGISTER_WRITE" (fun r _ => match r with
    | .doorbell => true
    | .keySlot => true
    | .exportTable => true
    | .control n o => o != 0x40 && !(n == 0 && decide (0x800 ≤ o ∧ o < 0x808))
    | _ => false) agent addr size value s

/-! ### Swap slots (R378) -/

/-- Pop a slot from SWAPSTK; none when it is empty or cannot be reached. -/
def State.popSlot (s : State) (p : Nat) : Option (Nat × State) :=
  match s.swapKeys p 0 accStore with
  | none => none
  | some (ks, s) =>
    let n := leValue (ks.map (Memory.read s.mem))
    if n = 0 then none
    else match s.swapKeys p (4 * n) accLoad with
      | none => none
      | some (ss, s) =>
        let slot := leValue (ss.map (Memory.read s.mem))
        some (slot, s.writeEngine ks ((leBytes 4 (n - 1)).map (·, false)))

end Sys2Proof.Machine
end

