-- ==== Sys2Proof/Machine/Io.lean ====
section
/-! DEFINITION. Machine/Io.lean: IORD and IOWR, endpoints' requests, interrupts, the invalidate command queue and the event
writer (R267, R335, R337, R343 to R350, R364, R365, R433). -/
namespace Sys2Proof.Machine

/-! ### IORD and IOWR (R229, R267, R337) -/

/-- All ones with the poison bit set: what a failed IORD returns. -/
abbrev allOnes : PDword := { val := BitVec.allOnes 64, poison := true }

/-- A value of n bytes, extended. -/
def extended (size : Nat) (signed : Bool) (v : Nat) : Dword :=
  if signed then BitVec.ofInt 64 (toInt (8 * size) v) else BitVec.ofNat 64 (v % 2 ^ (8 * size))

/-- Whether a machine address lies in an ECAM range, where size 3 completes as UR (R337). -/
abbrev isEcam (m : Nat) : Bool := decide (0x308000000000 ≤ m)

/-- Find the target of an uncached access: steps 1 to 8 of R228. -/
def ioTarget (b : BitVec 7) (off : Dword) (size acc : Nat) (go : Nat → State → Res) (s : State) : Res :=
  let xs := s.me.scalarAddr b.toNat off
  let va := (s.me.getS b.toNat).val + off
  match s.checkAddrs xs size 1 acc with
  | some (c, _) => trap c s
  | none =>
    if classOf va.toNat != .global then trap { code := 0x21, addr := va, acc := acc } s
    else match s.locate s.who va.toNat size acc true with
      | (.fault c l _, s) => trap { code := c, addr := va, acc := acc, lvl := l } s
      | (.wait, s) => .next s
      | (.at m _ _, s) => go m s

/-- Whether a machine address is a device's behind a root port that DPC contains: what is sent there completes as UR, or is dropped
where it is posted. The port's own registers, in its ECAM range, stay within reach (R335, R345; log 52). -/
def State.shutOff (s : State) (m : Nat) : Bool := !isEcam m && (match portOf m with | some n => s.contained.contains n | none => false)

/-- IORD of an address. -/
def iordAt (d : BitVec 7) (z : BitVec 2) (x : Bool) (b : BitVec 7) (off : Dword) (ext : Bool) (s : State) : Res :=
  let n := { s.me.scalarNeed [d.toNat] [b.toNat] 0 with ext := ext }
  let size := 2 ^ z.toNat
  issue n (waitPerformed fun s =>
    consume [s.me.getS b.toNat] (ioTarget b off size accLoad fun m s =>
      match targetOf m with
      | .chip =>
        if s.mayRead (regionOf m) (m % 0x1000) size then
          .next (retire n (s.setS d.toNat (clean (extended size x (s.chipRead m size).val.toNat))))
        else .next (retire n ((s.dropAccess m).setS d.toNat allOnes))
      | _ =>
        if (isEcam m && size == 8) || s.shutOff m then .next (retire n ((s.dropAccess m).setS d.toNat allOnes))
        else .next (s.updMe fun a =>
          { a with wait := .iord d size x m ((a.getS b.toNat).val + off).toNat (a.next ext).toNat s.time.toNat })) s) s

def execIord (d : BitVec 7) (z : BitVec 2) (x : Bool) (b : BitVec 7) (s : State) : Res := iordAt d z x b 0 false s
def execIordExt (d : BitVec 7) (z : BitVec 2) (x : Bool) (b : BitVec 7) (p : BitVec 24) (s : State) : Res :=
  iordAt d z x b (offOf p) true s

/-- A write of host firmware into a root port's ECAM range, which holds the port's own registers, ends its DPC containment (log
52). -/
def State.releasePort (s : State) (m : Nat) : State :=
  if s.me.isFirmware && isEcam m then { s with contained := s.contained.filter fun n => portOf m != some n } else s

/-- IOWR of an address. -/
def iowrAt (d : BitVec 7) (z : BitVec 2) (b : BitVec 7) (off : Dword) (ext : Bool) (s : State) : Res :=
  let n := { s.me.scalarNeed [] [d.toNat, b.toNat] 0 with ext := ext }
  let size := 2 ^ z.toNat
  issue n (waitPerformed fun s =>
    let v := s.me.getS d.toNat
    consume [s.me.getS b.toNat, v] (ioTarget b off size accStore fun m s =>
      let low := v.val.toNat % 2 ^ (8 * size)
      match targetOf m with
      | .chip => .next (retire n (s.chipWrite m size low))
      | _ =>
        let w : DevWrite := { addr := m, size := size, value := BitVec.ofNat 64 low }
        .next (retire n (if (isEcam m && size == 8) || s.shutOff m then s
          else { s with devWrites := s.devWrites ++ [w] }.releasePort m))) s) s

def execIowr (d : BitVec 7) (z : BitVec 2) (b : BitVec 7) (s : State) : Res := iowrAt d z b 0 false s
def execIowrExt (d : BitVec 7) (z : BitVec 2) (b : BitVec 7) (p : BitVec 24) (s : State) : Res := iowrAt d z b (offOf p) true s

/-- The end of an IORD: its value, or all ones with a record; `due` says whether it may end now, from its start and address. -/
def iordEnd (row : String) (agent : Nat) (ok : Bool) (data : Dword) (due : State → Nat → Nat → Bool) (s : State) : Res :=
  onAgent row agent (fun s =>
    match s.me.wait with
    | .iord d size signed m _ next since =>
      if !due s since m then noEvent row
      else
      let s := if ok && !s.shutOff m then s.setS d.toNat (clean (extended size signed data.toNat)) else (s.dropAccess m).setS d.toNat allOnes
      .next (retireTo (BitVec.ofNat 56 next) {} s)
    | _ => noEvent row) s

/-- MMIO_COMPLETION (R267): with UR or CA status when not `ok`, or when DPC has contained the port meanwhile. -/
def execMmioCompletion (agent : Nat) (ok : Bool) (data : Dword) (s : State) : Res :=
  iordEnd "MMIO_COMPLETION" agent ok data (fun _ _ _ => true) s

/-- The completion timeout of an IORD of the agent whose turn it is to a machine address (R337). -/
def State.ioLimit (s : State) (m : Nat) : Nat :=
  match s.me.kind, portOf m with
  | .host, some n => max 25000 (min 62500000 (s.ioTimeouts.get 1250000 n))
  | .host, none => 1250000
  | _, _ => 25000

/-- IORD_COMPLETION_TIMEOUT (R337). -/
def execIordCompletionTimeout (agent : Nat) (s : State) : Res :=
  iordEnd "IORD_COMPLETION_TIMEOUT" agent false 0 (fun s since m => s.expires (since + s.ioLimit m)) s

/-! ### Requests of endpoints (R335, R348, R381) -/

/-- Whether a start step failed or was skipped, so that what it brings up is not there (R406, R407). -/
def State.stepLost (s : State) (i : Nat) : Bool :=
  let out := (s.stepRecord.get 0 i).toNat % 8
  out = 1 || out = 3 || out = 5

/-- Whether a root port is there, and open to endpoints' traffic (R18, R335, R336): x16 port k serves as ports 4 k and up, as many
as its mode gives, and none while it is a peer port. A port whose start step failed or was skipped has no link, and a CXL port
serves no device where the CXL step did (R406). -/
def State.hasPort (s : State) (port : Nat) : Bool :=
  !s.contained.contains port && !s.stepLost (17 + port / 4) && (match s.portModes[port / 4]? with
    | some (.endpoint n) => decide (port % 4 < n)
    | some (.cxl n) => decide (port % 4 < n) && !s.stepLost 25
    | _ => false)

/-- A request of an endpoint at a port; none comes from a port that is not there. -/
def atPort (row : String) (port : Nat) (f : State → Res) (s : State) : Res := if s.hasPort port then f s else noEvent row

/-- The binding that a request matches. -/
def State.boundFn (s : State) (port rid : Nat) : Option Nat :=
  (List.range 4096).find? fun f => bindValid s f && bindRid s f == rid && bindPort s f == port

/-- Record a request that is dropped or rejected: at its function's partition, or at the package. -/
def State.rejectDma (s : State) (port rid : Nat) (pasid : Option (BitVec 20)) (addr : Nat) : State :=
  let p := (s.boundFn port rid).map fun f => bindPart s f
  s.record p { port := port, rid := rid, addr := addr, asid := (pasid.map (·.toNat)).orElse fun _ => (s.boundFn port rid).map fun f => bindAsid s f }

/-- The ASID in which a function's request acts; none where its PASID is not one of its partition's. -/
def State.dmaAsid (s : State) (f : Nat) (pasid : Option (BitVec 20)) : Option Nat :=
  match pasid with
  | some x => if x.toNat < 2 ^ 16 && s.asidPart x.toNat = some (bindPart s f) then some x.toNat else none
  | none => some (bindAsid s f)

/-- The machine bytes of an access from outside, as a DMA of machine addresses is performed: it waits at an EXCLUSIVE check-out,
reaches the pages, and what it reads of lines that no cache holds comes from memory (R225, R243, R246, R247). -/
def State.reachPages (s : State) (m n : Nat) (ks : List Nat) (kind : Nat) : Place × State :=
  if s.checkedOut {} m n then (.wait, s.markWait {} m n)
  else
    let s := if kind = accStore then s else s.readThrough ks
    (.keys ks, (ks.map (· / 65536)).eraseDups.foldl (fun (s : State) g => s.touch (g * 65536) (kind != accLoad)) s)

/-- The machine bytes that a request reaches, or its rejection, or a wait. Every endpoint request needs U = 1 (R360). -/
def State.dmaKeys (s : State) (port rid : Nat) (pasid : Option (BitVec 20)) (translated : Bool) (addr n kind : Nat) : Place × State :=
  match s.boundFn port rid with
  | none => (.bad 1, s)
  | some f =>
    let p := bindPart s f
    if (s.part p).closed || s.rd asidTblAddr 8 % 2 = 0 then (.bad 1, s)
    else match s.dmaAsid f pasid with
      | none => (.bad 1, s)
      | some asid =>
        if translated then
          let ks := (List.range n).map (addr + ·)
          let mine (k : Nat) : Bool := (targetOf k = .hbm || targetOf k = .cxl) && s.pageOwner (k / 65536 * 65536) = some p
          if bitOf (bindFlags s f) 5 && s.framesValid && ks.all mine then s.reachPages addr n ks kind else (.bad 1, s)
        else if 2 ^ 56 < addr + n || classOf addr != .global || !oneClass addr n then (.bad 1, s)
        else match State.engineLines { part := some p, asid := asid, user := true } kind (n / 128 + 2) addr n s with
          | (.keys ks, s) => if ks.any isPeer then (.bad 1, s) else (.keys ks, s)
          | r => r

/-- DMA_WRITE (R277, R348). -/
def execDmaWrite (port rid : Nat) (pasid : Option (BitVec 20)) (translated : Bool) (addr : Dword) (bytes : List Byte) (s : State) : Res :=
  atPort "DMA_WRITE" port (fun s => match s.dmaKeys port rid pasid translated addr.toNat bytes.length accStore with
    | (.keys ks, s) => .next (s.writeEngine ks (bytes.map (·, false)))
    | (.bad _, s) => .next (s.rejectDma port rid pasid addr.toNat)
    | (.wait, s) => .next s) s

/-- What the package sends. -/
def State.reply (s : State) (b : List Byte) : State := { s with replies := s.replies ++ [b] }

/-- A completion with data read, which says whether a word of it is poisoned. -/
def State.replyData (s : State) (ks : List Nat) : State :=
  let snap := s.snapshot ks
  s.reply ((if snap.any (·.2) then 2 else 0) :: snap.map (·.1))

/-- DMA_READ (R277, R348). -/
def execDmaRead (port rid : Nat) (pasid : Option (BitVec 20)) (translated : Bool) (addr : Dword) (len : Nat) (s : State) : Res :=
  atPort "DMA_READ" port (fun s => match s.dmaKeys port rid pasid translated addr.toNat len accLoad with
    | (.keys ks, s) => .next (s.replyData ks)
    | (.bad _, s) => .next ((s.rejectDma port rid pasid addr.toNat).reply [1])
    | (.wait, s) => .next s) s

/-- ATOMICOP_REQUEST (R335): op 0 FetchAdd, 1 Swap, 2 CAS, of 4 or 8 bytes, as one event that answers with the old value. A
poisoned word is left as it is, but for Swap. -/
def execAtomicopRequest (port rid : Nat) (pasid : Option (BitVec 20)) (translated : Bool) (addr : Dword) (op size : Nat) (x y : Dword)
    (s : State) : Res :=
  atPort "ATOMICOP_REQUEST" port (fun s =>
  if 2 < op || !(size == 4 || size == 8) || addr.toNat % size != 0 then .next ((s.rejectDma port rid pasid addr.toNat).reply [1])
  else match s.dmaKeys port rid pasid translated addr.toNat size accAtomic with
    | (.keys ks, s) =>
      let (old, pz) := s.readKeys ks
      let m := 2 ^ (8 * size)
      let new := if op = 0 then (old + x.toNat) % m else if op = 1 then x.toNat % m else if old = x.toNat % m then y.toNat % m else old
      let t := s.replyData ks
      .next (if (pz && op != 1) || (op = 2 && old != x.toNat % m) then t else t.writeEngine ks ((leBytes size new).map (·, false)))
    | (.bad _, s) => .next ((s.rejectDma port rid pasid addr.toNat).reply [1])
    | (.wait, s) => .next s) s

/-- The leaf that translates an address, if one does: page, level and permissions (R349). -/
inductive AtsAns where
  | leaf (page level : Nat) (perms : Perms)
  | none
  | wait
  deriving DecidableEq, Repr, Inhabited

/-- Ask the translation home for the leaf of an address, whose whole page a TLB entry gives: its piece of a 1 GiB leaf lies in
that leaf's machine page (R349, R363). -/
def State.atsLook (s : State) (p asid va : Nat) : AtsAns × State :=
  let w : Who := { part := some p, asid := asid }
  if (s.asidFault w).isSome then (.none, s)
  else match s.tlbFind asid va with
    | some t => (.leaf (t.mpage * 2 ^ tlbShift t.level / 2 ^ levelShift t.level * 2 ^ levelShift t.level) t.level t.perms, s)
    | Option.none =>
      let s := s.walkRead w va
      match s.walk w va with
      | .leaf page level perms entry => (.leaf page level perms, s.tlbInstall asid va page level perms entry)
      | .moving => (.wait, s)
      | .held m => (.wait, s.markWait {} m 8)
      | .fault _ _ => (.none, s)

/-- TRANSLATION_REQUEST (R349): the page, its size code and its read and write permissions; both 0 for a page that is not
mapped or not a user page. -/
def execTranslationRequest (port rid : Nat) (pasid : Option (BitVec 20)) (addr : Dword) (s : State) : Res :=
  atPort "TRANSLATION_REQUEST" port (fun s => match s.boundFn port rid with
  | none => .next ((s.rejectDma port rid pasid addr.toNat).reply [1])
  | some f =>
    let p := bindPart s f
    match (if bitOf (bindFlags s f) 5 && !(s.part p).closed && s.rd asidTblAddr 8 % 2 = 1 && decide (addr.toNat < 2 ^ 56) &&
        classOf addr.toNat = .global then s.dmaAsid f pasid else none) with
    | none => .next ((s.rejectDma port rid pasid addr.toNat).reply [1])
    | some asid => match s.atsLook p asid addr.toNat with
      | (.leaf page level perms, s) =>
        let bits := if perms.u then (if perms.r then 1 else 0) + (if perms.w then 2 else 0) else 0
        .next (s.reply ([0] ++ leBytes 8 page ++ leBytes 1 level ++ leBytes 1 bits))
      | (.none, s) => .next (s.reply ([0] ++ List.replicate 10 0))
      | (.wait, s) => .next s) s

/-! ### Page requests (R350) -/

/-- The machine addresses of the entries that a walk of an address reads, from level 3 down to the last one that is there
(R359). -/
def State.walkEntries (s : State) (va : Nat) : Nat → List Nat → List Nat
  | _, [] => []
  | node, lvl :: lvls =>
    let p := node + 8 * (va / 2 ^ levelShift lvl % levelCount lvl)
    let e := s.rd p 8
    p :: (if bitOf e 0 && !malformed lvl e && !bitOf e 1 then s.walkEntries va (bitsOf e 47 9 * 512) lvls else [])

/-- A PRG response. -/
def State.prgResponse (s : State) (rid prg code : Nat) : State := s.reply (leBytes 4 (rid + prg * 2 ^ 16 + code * 2 ^ 25))

/-- What the first-touch path answers: the page is mapped; the request goes on to the queue core; or it waits. -/
inductive Touched where
  | mapped (s : State)
  | passed
  | wait (s : State)

/-- The first-touch path (R350, R360): the request's walk waits at an EXCLUSIVE check-out of an entry, and reads again one that is
being moved. -/
def State.firstTouch (s : State) (f asid va : Nat) : Touched :=
  let p := bindPart s f
  let w : Who := { part := some p, asid := asid }
  match (if (s.asidFault w).isSome then none else s.asidEntry asid) with
  | none => .passed
  | some a =>
    let ps := s.walkEntries va (bitsOf a 47 16 * 65536) [3, 2, 1, 0]
    let s := s.readThrough ps
    match ps.find? fun q => s.checkedOut {} q 8, ps[3]? with
    | some q, _ => .wait (s.markWait {} q 8)
    | none, none => .passed
    | none, some slot =>
      let e := s.rd slot 8
      if !bitOf e 0 && bitOf e 6 then .wait s
      else if bitOf (bindFlags s f) 7 && s.framesValid && !bitOf e 0 && bitOf e 8 then
        match s.popPage p (stackOrder 0 0) with
        | some (m, s) => .mapped ((s.takePage p m 0 1).devWrite slot 8 (m + bitsOf e 5 2 * 4 + 3))
        | none => .passed
      else .passed

/-- The queue-core path: an entry of the ring of the queue thread bound to the function, and an interrupt for that thread, whose
number the manual does not give (log 7). A request whose entry's line makes the write wait stays at the port, and one whose ring
cannot be reached gets Invalid Request as from a full ring (log 7). -/
def State.queueRequest (s : State) (f asid port rid : Nat) (pasid rd wr last : Bool) (va prg : Nat) : State :=
  let p := bindPart s f
  let thread := s.rd (bindBase f + 6) 1
  let ring := s.pageReqs.get {} thread
  let size := 2 ^ (s.rd (bindBase f + 7) 1 % 32)
  let bit (b : Bool) (n : Nat) : Nat := if b then 2 ^ n else 0
  let bytes := leBytes 8 (va / 65536 * 65536) ++ leBytes 2 rid ++
    leBytes 2 (prg + bit rd 9 + bit wr 10 + bit last 11 + bit pasid 12) ++ leBytes 2 asid ++ leBytes 2 port
  if size ≤ ring.waiting.length then s.prgResponse rid prg 1
  else match State.engineLines (s.svWho p) accStore 2 (s.rd (bindBase f + 8) 8 + 16 * (ring.written % size)) 16 s with
    | (.keys ks, s) =>
      let (k, s) := s.fresh
      let n := Config.freeNat k % 2 ^ 16
      let s := s.writeEngine ks (bytes.map (·, false))
      let ring : PageRing := { written := ring.written + 1, waiting := ring.waiting ++ [requestKey port rid prg] }
      { s with pageReqs := s.pageReqs.insert thread ring }.updAgent (32 + thread) fun a =>
        { a with intrs := if a.intrs.contains n then a.intrs else a.intrs ++ [n] }
    | (.wait, s) => s
    | (.bad _, s) => s.prgResponse rid prg 1

/-- PAGE_REQUEST (R350). -/
def execPageRequest (port rid : Nat) (pasid : Option (BitVec 20)) (addr : Dword) (prg : BitVec 9) (rd wr last : Bool) (s : State) : Res :=
  atPort "PAGE_REQUEST" port (fun s => match s.boundFn port rid with
    | none => .next (s.rejectDma port rid pasid addr.toNat)
    | some f =>
      if !bitOf (bindFlags s f) 6 || (s.part (bindPart s f)).closed then .next (s.rejectDma port rid pasid addr.toNat)
      else match s.dmaAsid f pasid with
        | none => .next ((s.rejectDma port rid pasid addr.toNat).prgResponse rid prg.toNat 1)
        | some asid => match s.firstTouch f asid addr.toNat with
          | .mapped s => .next (if last then s.prgResponse rid prg.toNat 0 else s)
          | .wait s => .next s
          | .passed => .next (s.queueRequest f asid port rid pasid.isSome rd wr last addr.toNat prg.toNat)) s

/-! ### Message interrupts and port errors (R337, R346) -/

/-- Whether an endpoint's message passes every check of R346. -/
def State.msixOk (s : State) (f i size : Nat) : Bool :=
  let w := s.rd (intMapBase i) 4
  let x := s.rd (intMapBase i + 4) 4
  let p := bindPart s f
  decide (i < 4096) && size == 4 && (w % 4 = 1 || w % 4 = 2) && bitsOf w 7 4 == p && !(s.part p).closed &&
  (w % 4 != 1 || s.inHearthRanges p (x % 2 ^ 27 / 16 * 16))

/-- MSIX_WRITE (R346): delivered, or pending while masked, or discarded with a record and counted; one of an unbound function is
a dropped DMA request (R337). -/
def execMsixWrite (port rid : Nat) (data : Word32) (size : Nat) (s : State) : Res :=
  let i := data.toNat
  atPort "MSIX_WRITE" port (fun s => match s.boundFn port rid with
    | some f =>
      if s.msixOk f i size then
        let w := s.rd (intMapBase i) 4
        .next (if bitOf w 2 then s.wr (intMapBase i) 4 (setBits w 3 3 1) else s.deliverIntr i)
      else .next ((s.rejectDma port rid none 0x30C000010000).countPkg 0x201)
    | none => .next (s.rejectDma port rid none 0x30C000010000)) s

/-! ### The invalidate command queue (R349, R364, R365) -/

/-- Drop the TLB entries of an ASID that overlap a range, of the sizes that HINT names. -/
def State.dropTlb (s : State) (asid lo n hint : Nat) : State :=
  { s with tlb := s.tlb.filter fun t =>
      let sh := tlbShift t.level
      !(t.asid.toNat = asid && decide (t.level ≤ hint) && decide (t.vpage * 2 ^ sh < lo + n ∧ lo < (t.vpage + 1) * 2 ^ sh)) }

/-- The ATS Invalidate Request that a function is sent, as the model writes it: 3, port, requester ID, ASID, address and length
(R349, log 7). -/
def atsRequest (port rid asid lo n : Nat) : List Byte :=
  leBytes 1 3 ++ leBytes 1 port ++ leBytes 2 rid ++ leBytes 2 asid ++ leBytes 8 lo ++ leBytes 8 n

/-- Steps 2 and 3 of an invalidation (R365): its lines and TLB entries go, and the ATS-enabled functions of the partition whose
ASID it is are asked; with what step 4 waits for. -/
def State.invalidate (s : State) (part asid lo n hint : Nat) : Outstanding × State :=
  let s := s.dropRange none asid lo n
  let out := s.outstanding asid lo n
  let s := s.dropTlb asid lo n hint
  let fns := (List.range 4096).filter fun f => bindValid s f && bindPart s f == part && bitOf (bindFlags s f) 5 && bindAsid s f == asid
  let s := fns.foldl (fun (s : State) f => s.reply (atsRequest (bindPort s f) (bindRid s f) asid lo n)) s
  let waits : List (Nat × Nat × Nat) := fns.map fun f => (f, part, s.time.toNat)
  (out, { s with atsWait := s.atsWait ++ waits })

/-- Whether step 4 of an invalidation is over: what it waits for has finished, its dirty lines are written back, and the
functions have answered. -/
def State.invalidated (s : State) (part asid lo n : Nat) (out : Outstanding) : Bool :=
  s.finished out && s.rangeWritten asid lo n && s.atsWait.all fun w => w.2.1 != part

/-- Acknowledge the command in execution: the ACK word, then one arrival, unless AOBJ is no object of the partition's
ranges. -/
def State.ackInvalidate (s : State) (p code : Nat) : State :=
  let q := s.part p
  let c := s.partField p 0x208 8 + 32 * (q.invDone % 64)
  let obj := s.rd (c + 0x18) 8
  let s := s.devWrite (c + 0x14) 4 code
  let s := if classOf obj = .hearth && obj % 16 == 0 && s.inHearthRanges p (obj - hearthWindow) then s.arriveDevice p (obj - hearthWindow) else s
  s.updPart p fun q => { q with invDone := q.invDone + 1, invActive := false, invWaits := {} }

/-- INVALIDATE_COMMAND (R365): the next command drops what it names; it is acknowledged once the dropped lines are
written back and what it waits for is done. -/
def execInvalidateCommand (part : Nat) (s : State) : Res :=
  let q := s.part part
  let base := s.partField part 0x208 8
  let c := base + 32 * (q.invDone % 64)
  let va := s.rd c 8
  let len := s.rd (c + 8) 8
  let asid := s.rd (c + 0x10) 2
  let hint := s.rd (c + 0x12) 1
  let obj := s.rd (c + 0x18) 8
  let objOk := obj = 0 || (classOf obj = .hearth && obj % 16 == 0 && s.inHearthRanges part (obj - hearthWindow))
  let lo := if len = 0 then 0 else va
  let n := if len = 0 then 2 ^ 56 else len
  if q.invDone % 2 ^ 32 = s.rd (invTailAddr part) 4 then noEvent "INVALIDATE_COMMAND"
  else if q.invActive then
    if s.invalidated part asid lo n q.invWaits then .next (s.ackInvalidate part 1) else noEvent "INVALIDATE_COMMAND"
  else if s.asidPart asid != some part then .next (s.ackInvalidate part 0x84)
  else if va % 2 ^ 16 != 0 || 2 ^ 56 ≤ va || len % 65536 != 0 || 3 < hint || !objOk then
    .next (s.ackInvalidate part 0x82)
  else
    let r := s.invalidate part asid lo n hint
    .next (r.2.updPart part fun q => { q with invActive := true, invWaits := r.1 })

/-- INVALIDATE_COMPLETION (R349). -/
def execInvalidateCompletion (fn : Nat) (s : State) : Res :=
  if s.atsWait.any fun w => w.1 = fn then .next { s with atsWait := s.atsWait.filter fun w => w.1 != fn }
  else noEvent "INVALIDATE_COMPLETION"

/-- ATS_INVALIDATE_TIMEOUT (R349): the function's ATS is disabled, and a record written. -/
def execAtsInvalidateTimeout (fn : Nat) (s : State) : Res :=
  match s.atsWait.find? fun w => w.1 = fn with
  | some (_, p, t) =>
    if s.expires (t + 62500) then
      let s := s.wr (bindBase fn + 2) 1 (setBits (bindFlags s fn) 5 5 0)
      .next ({ s with atsWait := s.atsWait.filter fun w => w.1 != fn }.record (some p)
        { port := bindPort s fn, rid := bindRid s fn, asid := bindAsid s fn })
    else noEvent "ATS_INVALIDATE_TIMEOUT"
  | none => noEvent "ATS_INVALIDATE_TIMEOUT"

/-! ### The event writer (R433) -/

/-- EVENT_WRITE: the oldest event is written, or lost. -/
def execEventWrite (s : State) : Res :=
  match s.events with
  | [] => noEvent "EVENT_WRITE"
  | e :: rest =>
    let s := { s with events := rest }
    let ctl := s.rd evctlAddr 8
    let base := bitsOf ctl 47 12 * 2 ^ 12
    let prod := s.rd base 8
    if ctl % 2 = 0 || 252 ≤ (prod + 2 ^ 64 - s.rd (base + 8) 8) % 2 ^ 64 then .next (s.countPkg 0x205)
    else
      let v := e.time.toNat + 2 ^ 64 * (e.code % 2 ^ 8) + 2 ^ 72 * e.part.toNat + 2 ^ 80 * (e.extra % 2 ^ 16) + 2 ^ 96 * e.operand.toNat
      .next ((s.devWrite (base + 0x40 + 16 * (prod % 252)) 16 v).devWrite base 8 ((prod + 1) % 2 ^ 64))

end Sys2Proof.Machine
end

