-- ==== Sys2Proof/Machine/Balloon.lean ====
section
/-! DEFINITION. Machine/Balloon.lean: the balloon engine's steps and its moves of cold pages (R374, R377, R378). -/
namespace Sys2Proof.Machine

/-! ### What the engine has to do (R377) -/

/-- Whether the balloon engine works for a partition: an episode has begun, and a pool is below the goal. It stops at the goal, not
at the episode's end (R377, R427). -/
def State.ballooning (s : State) (p : Nat) : Bool :=
  ((s.part p).episode.isSome || (s.part p).working) && s.belowGoal p

/-- Whether a granule's entry is coded under the generation that is not current (R374). -/
def State.oldCode (s : State) (g : Nat) : Bool :=
  let e := (s.granules.get 0 g).toNat
  bitsOf e 63 62 = 1 && bitOf e 58 != (s.palette (bitsOf e 55 52) (granuleHome g / 6)).current

/-- Whether step 1 changes a granule: it is of the other generation, or FAST where a palette is valid, no line of it is held, and
it has a place. -/
def State.recodes (s : State) (g : Nat) : Bool :=
  let e := (s.granules.get 0 g).toNat
  let p := bitsOf e 55 52
  !bitOf e 56 && (s.oldCode g || (bitOf e 51 && (s.palette p (granuleHome g / 6)).now.valid)) && s.storeFits p g false

/-- Whether step 2 changes a granule: it is FAST, no line of it is held, and all its words are zero. -/
def State.zeroes (s : State) (g : Nat) : Bool :=
  let e := (s.granules.get 0 g).toNat
  !bitOf e 56 && bitOf e 51 && (s.granuleWords g).all (· == 0)

/-- Whether a page may be moved, and where its entry stands (R378). -/
def State.eligible (s : State) (page : Nat) : Option (Nat × Nat) :=
  match s.frameAddr page, s.pageOwner page with
  | some f, some p =>
    let w := s.rd f 4
    let pte := s.rd (f + 8) 8
    let e := s.rd pte 8
    let cold := s.partField p 0x114 4 % 16
    let held := (s.granules.filter fun c => c.1 / 128 = page / 65536).any fun c => bitOf c.2.toNat 56
    if page % 65536 = 0 && targetOf page = .hbm && frameState w = 1 && bitOf w 13 && !bitOf w 12 && !bitOf w 7 && !held &&
        bitsOf w 11 8 ≤ (if cold = 0 then 1 else cold) && bitOf e 0 && bitOf e 1 && !malformed 0 e && bitsOf e 47 16 * 65536 == page &&
        !(s.ranges.any fun r => !r.recalled && r.pieces.any fun q => decide (q.1 < page + 65536 ∧ page < q.1 + q.2)) then
      some (p, pte)
    else none
  | _, _ => none

/-- The moves of a partition that have not yet taken their new page or slot. -/
def State.begunMoves (s : State) (p : Nat) (out : Bool) : Nat :=
  (s.moves.filter fun m => m.part = p && m.pageOut == out && m.phase = 1).length

/-- The slots on a partition's SWAPSTK. -/
def State.swapSlots (s : State) (p : Nat) : Nat :=
  match s.swapKeys p 0 accLoad with
  | some (ks, s) => leValue (ks.map (Memory.read s.mem))
  | none => 0

/-- Whether a page of the CXL stack, or a slot of the swap area, is there for another move (R370, R378). -/
def State.moveRoom (s : State) (p : Nat) (out : Bool) : Bool :=
  if out then
    let h := s.partField p 0x210 2
    regValid s h && regPart s h == p && decide (s.begunMoves p true < s.swapSlots p)
  else s.stackPresent p 12 && decide (s.begunMoves p false < (s.stack p 12).length)

/-- Whether a step of R377 has something to do for a partition. -/
def State.stepWork (s : State) (p code : Nat) : Bool :=
  let mine (f : Nat → Bool) : Bool := s.granules.any fun c => bitsOf c.2.toNat 55 52 = p && c.2 != 0 && f c.1
  let page : Bool := (s.ownedPages p).any fun m => s.eligible m != none
  match code with
  | 1 => mine s.recodes
  | 2 => mine s.zeroes
  | 3 => s.moveRoom p false && page
  | 4 => s.moveRoom p true && page
  | _ => false

/-- The codes of a partition's RORDER, in order (R377, R380). -/
def State.balloonOrder (s : State) (p : Nat) : List Nat :=
  let r := s.partDefault p 0x110 4 0x78D1
  (List.range 5).map fun i => bitsOf r (3 * i + 2) (3 * i)

/-- Whether the balloon engine is at a step for a partition: RORDER names it, and nothing is left to do for an earlier one; a
request comes after all of them. -/
def State.balloonStep (s : State) (p code : Nat) : Bool :=
  let order := s.balloonOrder p
  s.ballooning p && if code = 7 then order.all fun c => !s.stepWork p c
    else order.contains code && (order.takeWhile (· != code)).all fun c => !s.stepWork p c

/-! ### Recoding, zero detection and requests (R374, R377) -/

/-- Whether a palette waits for the other generation's granules (R374). -/
def PaletteState.waits (t : PaletteState) : Bool := t.learning && decide (2 ^ 20 ≤ t.sampled)

/-- BALLOON_RECODE (R377): a granule of the other generation, or a FAST one, is stored again; the other generation is
also recoded while a new palette waits for it (R374). -/
def execBalloonRecode (granule : Nat) (run : BitVec 29) (s : State) : Res :=
  let p := bitsOf (s.granules.get 0 granule).toNat 55 52
  let waits := (s.palette p (granuleHome granule / 6)).waits && s.oldCode granule
  if s.recodes granule && (s.balloonStep p 1 || waits) then
    match s.storeGranule p granule (4 * granule) run false with
    | some s => .next s
    | none => noEvent "BALLOON_RECODE"
  else noEvent "BALLOON_RECODE"

/-- BALLOON_ZERO (R377). -/
def execBalloonZero (granule : Nat) (s : State) : Res :=
  let p := bitsOf (s.granules.get 0 granule).toNat 55 52
  if s.balloonStep p 2 && s.zeroes granule then .next (s.releaseGranule granule) else noEvent "BALLOON_ZERO"

/-- BALLOON_REQUEST (R377): chunks are asked of the host-core supervisor. -/
def execBalloonRequest (part ctrl : Nat) (s : State) : Res :=
  let goal := s.freeGoal part
  if s.balloonStep part 7 && ctrl < 24 && s.partField part (0x140 + 4 * ctrl) 4 != 0 && s.freeAt part ctrl < goal then
    .next (s.sendEvent 0x08 (some part) ctrl (BitVec.ofNat 32 (goal - s.freeAt part ctrl)))
  else noEvent "BALLOON_REQUEST"

/-! ### Page moves (R378) -/

/-- The entry of a page that is being moved: V = 0 and MV = 1, keeping ADDR. -/
abbrev movingEntry (e : Nat) : Nat := setBits (setBits e 0 0 0) 6 6 1

/-- Steps 1 and 2 of a move: its entry is marked, its frame is MOVING, and the invalidate command runs. -/
def State.beginMove (s : State) (p page pte f : Nat) (out : Bool) : State :=
  let e := s.rd pte 8
  let s := (s.frameSet [page] 3).devWrite pte 8 (movingEntry e)
  let r := s.invalidate p (s.rd (f + 4) 2) (s.rd (f + 16) 8) 65536 0
  { r.2 with moves := r.2.moves ++ [{ page := page, pageOut := out, part := p, pteAddr := pte, oldPte := BitVec.ofNat 64 e, waits := r.1 }] }

/-- The move of a page that waits for its invalidate command, once that is done. -/
def State.readyMove (s : State) (page : Nat) (out : Bool) : Option Move :=
  match s.frameAddr page, s.moves.find? fun m => m.page = page && m.pageOut == out && m.phase = 1 with
  | some f, some m => if s.invalidated m.part (s.rd (f + 4) 2) (s.rd (f + 16) 8) 65536 m.waits then some m else none
  | _, _ => none

/-- Whether a moved page's entry is still as the engine marked it: whether the CAS of step 3 succeeds. -/
def State.stillMoving (s : State) (m : Move) : Bool := s.rd m.pteAddr 8 == movingEntry m.oldPte.toNat

/-- A move whose CAS fails: its entry stays as software wrote it, and its page is LIVE again. -/
def State.failMove (s : State) (m : Move) : State := s.frameSet [m.page] 1

/-- Step 3 of a demotion: the page is copied with its poison, and its entry names the copy. -/
def State.finishDemote (s : State) (m : Move) (new : Nat) : State :=
  let s := s.takePage m.part new 0 1
  let s := (((List.range 512).map (m.page / 128 + ·)).filter fun l => (s.dir.find? l).isNone).foldl State.readBlocks s
  let s := s.writeEngine ((List.range 65536).map (new + ·)) (s.snapshot ((List.range 65536).map (m.page + ·)))
  if s.stillMoving m then (s.devWrite m.pteAddr 8 (m.oldPte.toNat % 2 ^ 9 + new)).pushPage m.part m.page 0
  else (s.pushPage m.part new 0).failMove m

/-- DEMOTE (R378): a cold page moves to a page of the partition's CXL stack, and its old page is pushed. The first of the two
happenings of a page marks its entry; the second, after the invalidate command, moves it. -/
def execDemote (page : Nat) (s : State) : Res :=
  match s.readyMove page false with
  | some m =>
    let s := { s with moves := s.moves.filter fun x => x != m }
    match s.popPage m.part [12] with
    | some (new, s) => .next (s.finishDemote m new)
    | none => noEvent "DEMOTE"
  | none => match s.eligible page, s.frameAddr page with
    | some (p, pte), some f =>
      if s.balloonStep p 3 && s.moveRoom p false then .next (s.beginMove p page pte f false) else noEvent "DEMOTE"
    | _, _ => noEvent "DEMOTE"

/-- The Write command of a page-out (R378, R380): its identifier is the slot modulo 2^16, its namespace SWAP's, and its first LBA that
of the slot, as many LBAs after SWAP's first as the device has in 64 KiB for each slot before (log 15). -/
def State.swapWrite (s : State) (m : Move) (slot h k : Nat) : SwapWrite :=
  { handle := h, slot := k, cid := slot % 2 ^ 16, namespace_ := s.partField m.part 0x214 4
    lba := (s.partField m.part 0x218 8 + slot * Config.lbasPerSlot h) % 2 ^ 64, page := m.page }

/-- Step 3 of a page-out: its entry names the slot, and the write of the page is posted through the swap registration. -/
def State.finishPageOut (s : State) (m : Move) (slot h k : Nat) : State :=
  if s.stillMoving m then
    let s := s.devWrite m.pteAddr 8 (swapEntry slot)
    let s : State := { s with swapWrites := s.swapWrites ++ [s.swapWrite m slot h k] }
    { s with moves := s.moves ++ [{ m with target := slot, phase := 2, waits := {} }] }.acceptSlot h k
  else (s.returnSlot m.part slot).failMove m

/-- PAGE_OUT (R378): a cold page is written to the swap area, in the two happenings of `execDemote`; BALACK completes it. -/
def execPageOut (page : Nat) (s : State) : Res :=
  match s.readyMove page true with
  | some m =>
    let h := s.partField m.part 0x210 2
    let s := { s with moves := s.moves.filter fun x => x != m }
    if !s.stillMoving m then .next (s.failMove m)
    else match s.reserveSlots none h 1 with
      | (some k, s) =>
        if 2 ^ 63 ≤ k || !s.acceptsSlot (some m.part) h k then noEvent "PAGE_OUT"
        else match s.popSlot m.part with
          | some (slot, s) => .next (s.finishPageOut m slot h k)
          | none => noEvent "PAGE_OUT"
      | (none, _) => noEvent "PAGE_OUT"
  | none => match s.eligible page, s.frameAddr page with
    | some (p, pte), some f =>
      if s.balloonStep p 4 && s.moveRoom p true then .next (s.beginMove p page pte f true) else noEvent "PAGE_OUT"
    | _, _ => noEvent "PAGE_OUT"

end Sys2Proof.Machine
end

