-- ==== Sys2Proof/Machine/Barrier.lean ====
section
/-! DEFINITION. Machine/Barrier.lean: barrier objects, time and event counters, 0xE0 to 0xE5 (R386 to R395). -/
namespace Sys2Proof.Machine

/-- The checks of a barrier instruction's address (R388): steps 1 to 6 of R228 over 16 bytes, then PAGE_PROT outside the
Hearth; `go` gets the object's Hearth offset. -/
def atObject (a : BitVec 7) (acc : Nat) (go : Nat → State → Res) (s : State) : Res :=
  let x := (s.me.getS a.toNat).val
  match s.checkAddrs (s.me.scalarAddr a.toNat 0) 16 0 acc with
  | some (c, _) => trap c s
  | none =>
    if classOf x.toNat = .hearth then go (x.toNat - hearthWindow) s
    else trap { code := 0x21, addr := x, acc := acc } s

/-- The register that a scalar result goes to. -/
def Agent.sDst (a : Agent) (d : BitVec 7) : Reg := if d = 0 then .s 0 else a.sName d.toNat

/-- A barrier update enters the store queue (R389). -/
def barrierStore (n : Need) (kind : StoreKind) (d a : BitVec 7) (h : Nat) (s : State) : Res :=
  queueStores n [{ kind := kind, addr := (s.me.getS a.toNat).val, size := 16, ret := some (s.me.sDst d),
                   keys := (List.range 16).map fun i => hearthKey (h + i) }] s

/-- BARINIT (R389): its own ILLEGAL comes after the checks of its address (R228, R388). -/
def execBarinit (d a b : BitVec 7) (s : State) : Res :=
  let n := s.me.scalarNeed [d.toNat] [a.toNat, b.toNat] 0
  issue n (fun s =>
    let y := s.me.getS b.toNat
    consume [s.me.getS a.toNat, y] (fun s =>
      atObject a accStore (fun h s =>
        if y.val = 0 || 2 ^ 32 ≤ y.val.toNat then trap .illegal s
        else barrierStore n (.barInit (y.val.setWidth 32)) d a h s) s) s) s

/-- BARARR (R389). -/
def execBararr (d a : BitVec 7) (s : State) : Res :=
  let n := s.me.scalarNeed [d.toNat] [a.toNat] 0
  issue n (fun s =>
    consume [s.me.getS a.toNat] (atObject a accStore (barrierStore n .barArr d a)) s) s

/-- What a load of an object's generation answers BARWAIT: its result, once it does not wait (R390). -/
def State.barwaitAnswer (s : State) (h : Nat) (g : Word32) : Option Dword :=
  if s.objPoison h then some (BitVec.ofNat 64 (2 ^ 63 + 0x80))
  else if !s.objValid h then some (BitVec.ofNat 64 (2 ^ 63 + 0x81))
  else if s.objGen h = g.toNat then none
  else some (BitVec.ofNat 64 (s.objGen h))

/-- BARWAIT (R390). -/
def execBarwait (d a b : BitVec 7) (s : State) : Res :=
  let n := s.me.scalarNeed [d.toNat] [a.toNat, b.toNat] 0
  issue n (waitPerformed fun s =>
    let y := s.me.getS b.toNat
    consume [s.me.getS a.toNat, y] (atObject a accLoad fun h s =>
      let g : Word32 := y.val.setWidth 32
      let s := s.noteRead [unitOf (hearthKey h)]
      match s.barwaitAnswer h g with
      | some v => .next (retire n (s.setS d.toNat (clean v)))
      | none => .next (s.updMe fun a => { a with wait := .barwait d h g })) s) s

/-- BARWAIT_COMPLETE (R390): a load after a write to the object's row ends the wait. -/
def execBarwaitComplete (agent : Nat) (s : State) : Res :=
  onAgent "BARWAIT_COMPLETE" agent (fun s =>
    match s.me.wait with
    | .barwait d h g => match s.barwaitAnswer h g with
      | some v => .next (retire {} ((s.noteRead [unitOf (hearthKey h)]).setS d.toNat (clean v)))
      | none => noEvent "BARWAIT_COMPLETE"
    | _ => noEvent "BARWAIT_COMPLETE") s

/-- BARTST (R389): GEN and COUNT of one load, with their poison. -/
def execBartst (d a : BitVec 7) (s : State) : Res :=
  let n := s.me.scalarNeed [d.toNat] [a.toNat] 0
  issue n (fun s =>
    consume [s.me.getS a.toNat] (atObject a accLoad fun h s =>
      if !s.loadMayLook s.me.ns then .next s.countWait
      else
        let x : LaneAddr := { lane := none, addr := (s.me.getS a.toNat).val, poison := false }
        sendLoad n (.scalar (s.me.sDst d)) false
          [(x, (List.range 4).map (fun i => hearthKey (h + 8 + i)) ++ (List.range 4).map fun i => hearthKey (h + i))] s) s) s

/-- TIMERD (R391). -/
def execTimerd (d : BitVec 7) (s : State) : Res := readInto d 8 (·.time) s

/-- CNTRD (R394, R395). A thread that acts for no partition has no partition counters to read: a free value (log 7). -/
def execCntrd (d : BitVec 7) (n : BitVec 17) (s : State) : Res :=
  let nd := s.me.scalarNeed [d.toNat] [] 8
  let c := n.toNat
  issue nd (fun s =>
    if 0x100 ≤ c ∧ c ≤ 0x10B then
      match s.partOf s.me with
      | some p => .next (retire nd (s.setS d.toNat (clean (s.counters.get 0 (4096 * p + c)))))
      | none => .next (retire nd (s.fresh.2.setS d.toNat (clean (BitVec.ofNat 64 (Config.freeNat s.fresh.1)))))
    else if 0x200 ≤ c ∧ c ≤ 0x206 then
      if s.me.kind = .host && s.me.regs.priv then .next (retire nd (s.setS d.toNat (clean (s.counters.get 0 c))))
      else trap .privileged s
    else trap .illegal s) s

end Sys2Proof.Machine
end

