-- ==== Sys2Proof/Machine/Blocks.lean ====
section
/-! DEFINITION. Machine/Blocks.lean: the b4 block format and its instructions 0x8D to 0x8F (R104 to R107, R165 to R168). -/
namespace Sys2Proof.Machine

/-! ### Codes (R105, R107) -/

/-- The magnitudes of a block type's levels, rising, in eighths. -/
def blockLevels (bt : Nat) : List Nat :=
  if bt = 0 then [4, 12, 20, 28, 36, 44, 52, 60]
  else if bt = 1 then [0, 4, 8, 12, 16, 24, 32, 48]
  else if bt = 2 then [1, 2, 4, 8, 16, 32, 64, 128]
  else [0, 8, 16, 24, 32, 48, 64, 96]

/-- The magnitude of level j in eighths. -/
abbrev blockLevel (bt j : Nat) : Nat := (blockLevels bt)[j]?.getD 0

/-- The code of level j with a sign. -/
def blockCode (bt : Nat) (neg : Bool) (j : Nat) : Nat := if !neg then j else if bt = 0 then 15 - j else 8 + j

/-- The value of a code at scale exponent E (R105), exactly. -/
def blockValue (bt e c : Nat) : Num :=
  let neg := decide (8 ≤ c)
  let j := if !neg then c else if bt = 0 then 15 - c else c - 8
  .exact neg (blockLevel bt j) ((e : Int) - 34)

/-- The highest level whose magnitude does not exceed X, in units shared by both. -/
def levelBelow (bt : Nat) (unit x : Nat) : Option Nat := (List.range 8).reverse.find? fun j => decide (blockLevel bt j * unit ≤ x)

/-- Round a value into a block (R107): the code and the exceptions. -/
def blockRound (bt e rnd pattern : Nat) (v : Num) : Nat × Nat :=
  match v with
  | .nan _ => (0, excInvalid)
  | .inf neg => (blockCode bt neg 7, excInvalid)
  | .fin neg m q _ =>
    let lo := min q ((e : Int) - 34)
    let x := m * 2 ^ (q - lo).toNat
    let unit := 2 ^ ((e : Int) - 34 - lo).toNat
    match levelBelow bt unit x with
    | none =>
      let other := if m = 0 || rnd = 0 || rnd = 4 then false
        else if rnd = 1 then Config.crossesZero pattern else if rnd = 2 then neg else !neg
      (blockCode bt (neg != other) 0, excInexact)
    | some j =>
      let below := blockLevel bt j * unit
      let above := blockLevel bt (j + 1) * unit
      if x = below then (blockCode bt neg j, 0)
      else if j = 7 then (blockCode bt neg 7, excOverflow + excInexact)
      else
        let half := if 2 * x < below + above then 1 else if 2 * x = below + above then 2 else 3
        let up := roundsUp rnd neg (blockCode bt neg j % 2 == 1) half
        (blockCode bt neg (if up then j + 1 else j), excInexact)

/-! ### Sets (R165) -/

/-- The registers of a set: an octet under f32, a quartet under bf16. -/
def setRegs (t base : Nat) : List Nat := (List.range (if t = 0x09 then 8 else 4)).map (base + ·)

/-- The types of blocks, and the alignment of a set. -/
def setOk (t base : Nat) : Bool := (t == 0x09 && base % 8 == 0) || (t == 0x0B && base % 4 == 0)

/-- The pattern of value i of a lane's set. -/
def Agent.setValue (a : Agent) (t base l i : Nat) : Nat :=
  if t = 0x09 then (a.getV (base + i) l).val.toNat else elemOf 16 (a.getV (base + i / 2) l).val.toNat (i % 2)

/-- Whether a lane's set holds poison. -/
def Agent.setPoison (a : Agent) (t base l : Nat) : Bool := (setRegs t base).any fun r => (a.getV r l).poison

/-- The need of a block instruction, its set among its sources or destinations. -/
def Agent.blockNeed (a : Agent) (base : Nat) (dsts srcs : List Nat) : Need :=
  (a.vecNeed (setOk a.ty base) false dsts srcs 4 false).rounding 1

/-! ### Instructions -/

/-- The value of VBSCALE's result for the block that starts at a lane (R166). -/
def blockScale (g : Agent) (t base vb first : Nat) : Nat :=
  let f := fmtOf t
  let vals : List Num := (List.range 4).flatMap fun i => (List.range 8).map fun j =>
    f.read (modeFtz g.regs.mode) (g.setValue t base (first + i) j)
  let bt := modeBtype g.regs.mode
  let reaches (e : Nat) (v : Num) : Bool := match v with
    | .nan _ => true
    | .inf _ => false
    | .fin _ m q _ =>
      let lo := min q ((e : Int) - 34)
      decide (m * 2 ^ (q - lo).toNat ≤ blockLevel bt 7 * 2 ^ ((e : Int) - 34 - lo).toNat)
  let e : Nat :=
    if vals.all (fun v => v.isNan || v.isZero) then 0
    else match (List.range 64).find? fun e => vals.all (reaches e) with
      | some e => e
      | none => 63
  let low := ((List.range 4).map (first + ·)).find? fun l => g.exec.getLsbD l
  let k : Int := toInt 8 (g.getV vb (low.getD first)).val.toNat
  bt * 64 + (clampInt ((e : Int) + k) 0 63).toNat

/-- VBSCALE (R166). Every set element of a block with an exec lane is consumed, in whichever lane it lies, and so is the scale
of its lowest exec lane: POISON names every exec lane of such a block (log 47). -/
def execVbscale (d a b : BitVec 8) (s : State) : Res :=
  let t := s.me.ty
  let n := s.me.blockNeed a.toNat [d.toNat] (setRegs t a.toNat ++ [b.toNat])
  issue n (fun s =>
    let g := s.me
    let bad (l : Nat) : Bool :=
      let first := l / 4 * 4
      (List.range 4).any (fun i => g.setPoison t a.toNat (first + i)) ||
      (match ((List.range 4).map (first + ·)).find? fun l => g.exec.getLsbD l with
        | some m => (g.getV b.toNat m).poison
        | none => false)
    consumeLanes bad (fun s =>
      .next (retire n (writeLanes false d.toNat (fun l =>
        clean (BitVec.ofNat 64 (blockScale g t a.toNat b.toNat (l / 4 * 4)))) s))) s) s

/-- VBPACK (R167). -/
def execVbpack (d a b : BitVec 8) (s : State) : Res :=
  let t := s.me.ty
  let n := s.me.blockNeed a.toNat [d.toNat] (setRegs t a.toNat ++ [b.toNat])
  issue n (fun s =>
    let g := s.me
    let bt := modeBtype g.regs.mode
    let r (l i : Nat) : Nat × Nat :=
      let v := g.setValue t a.toNat l i
      blockRound bt ((g.getV b.toNat l).val.toNat % 64) (modeRnd g.regs.mode) v ((fmtOf t).read (modeFtz g.regs.mode) v)
    consumeLanes (fun l => g.setPoison t a.toNat l || (g.getV b.toNat l).poison) (fun s =>
      commitLanes (g.execLanes.map fun l => (l, (List.range 8).foldl (fun x i => x ||| (r l i).2) 0)) (fun s =>
        .next (retire n (writeLanes false d.toNat (fun l =>
          clean (BitVec.ofNat 64 (joinElems 4 8 fun i => (r l i).1))) s))) s) s) s

/-- VBUNP (R168). -/
def execVbunp (d a b : BitVec 8) (s : State) : Res :=
  let t := s.me.ty
  let n := s.me.blockNeed d.toNat (setRegs t d.toNat) [a.toNat, b.toNat]
  issue n (fun s =>
    let g := s.me
    let value (l i : Nat) : Nat :=
      let sc := (g.getV b.toNat l).val.toNat % 256
      ((fmtOf t).round 0 false (blockValue (sc / 64) (sc % 64) (elemOf 4 (g.getV a.toNat l).val.toNat i))).1
    let word (l i : Nat) : Nat := if t = 0x09 then value l i else value l (2 * i) + value l (2 * i + 1) * 2 ^ 16
    consumeLanes (fun l => (g.getV a.toNat l).poison || (g.getV b.toNat l).poison) (fun s =>
      .next (retire n ((List.range (setRegs t d.toNat).length).foldl (fun s i =>
        writeLanes false (d.toNat + i) (fun l => clean (BitVec.ofNat 64 (word l i))) s) s))) s) s

end Sys2Proof.Machine
end

