-- ==== Sys2Proof/Machine/Channels.lean ====
section
/-! DEFINITION. Machine/Channels.lean: CHNINIT, CHNWAIT and CHNREL (R326 to R330). -/
namespace Sys2Proof.Machine

/-- Bind a channel to the agent whose turn it is, or reserve it in an open sketch (R327). -/
def State.bindChannel (s : State) (c base log2 : Nat) : State :=
  let a := s.me
  let ch : Channel := { bound := a.sketch.isNone, launch := a.launch, teamid := a.teamid, base := base, log2size := log2,
                        pendingBind := if a.sketch.isSome then some s.meId else none }
  { s with channels := s.channels.insert c ch }

/-- CHNINIT, binding (R327). -/
def execChninit (d a b : BitVec 7) (s : State) : Res :=
  let n := { s.me.scalarNeed [d.toNat] [a.toNat, b.toNat] 0 with legal := s.me.isTeam }
  issue n (fun s =>
    let x := s.me.getS a.toNat
    let y := s.me.getS b.toNat
    consume [x, y] (fun s =>
      let v := x.val.toNat
      let base := bitsOf v 20 0
      let log2 := bitsOf v 25 21
      let free (c : Nat) : Bool := (s.channels.find? (16 * s.me.cluster + c)).isNone
      let bind (c : Nat) : Res := giveStatus n d (0x100 + c) (s.bindChannel (16 * s.me.cluster + c) base log2)
      if 2 ^ 26 ≤ v || base % 256 != 0 || log2 < 8 || 20 < log2 || s.me.grant < base + 2 ^ log2 || 16 < y.val.toNat then
        giveStatus n d 0x82 s
      else if y.val.toNat < 16 then
        if free y.val.toNat then bind y.val.toNat else giveStatus n d 0x83 s
      else match (List.range 16).find? free with
        | some c => bind c
        | none => waitRoom s) s) s

/-- CHNINIT, freeing (R327): at once, or at the ink of an open sketch. -/
def execChninitFree (d b : BitVec 7) (s : State) : Res :=
  let n := { s.me.scalarNeed [d.toNat] [b.toNat] 0 with legal := s.me.isTeam }
  issue n (fun s =>
    let y := s.me.getS b.toNat
    consume [y] (fun s =>
      let c := 16 * s.me.cluster + y.val.toNat
      let ch := s.channels.get {} c
      let mine := decide (y.val.toNat < 16) && ch.launch = s.me.launch && ch.teamid = s.me.teamid && !ch.closing
      if mine && ch.pendingBind = some s.meId then giveStatus n d 1 { s with channels := s.channels.remove c }
      else if mine && ch.bound && ch.pendingFree.isNone then
        giveStatus n d 1 (if s.me.sketch.isSome then
            { s with channels := s.channels.insert c { ch with pendingFree := some s.meId } }
          else s.unbind c)
      else giveStatus n d 0x84 s) s) s

/-- What CHNWAIT reads of a channel, when its condition holds (R329). -/
def Channel.waited (ch : Channel) (data : Bool) (count : Nat) : Option Dword :=
  if count ≤ (if data then ch.fill else ch.room) then
    some (BitVec.ofNat 64 ((if data then ch.cons else ch.prod).toNat + 2 ^ 32 * ch.fill))
  else none

/-- CHNWAIT (R329). -/
def execChnwait (d a b : BitVec 7) (c : Bool) (s : State) : Res :=
  let n := { s.me.scalarNeed [d.toNat] [a.toNat, b.toNat] 0 with legal := s.me.isTeam }
  issue n (waitPerformed fun s =>
    let x := s.me.getS a.toNat
    let y := s.me.getS b.toNat
    consume [x, y] (fun s =>
      let key := 16 * s.me.cluster + x.val.toNat
      let ch := s.channels.get {} key
      let count := y.val.toNat
      if 15 < x.val.toNat || !ch.serves s.me.launch || count = 0 || 2 ^ ch.log2size < count then trap .illegal s
      else match ch.waited c count with
        | some v => .next (retire n (s.setS d.toNat (clean v)))
        | none => .next (s.updMe fun a => { a with wait := .chnwait d key count c false })) s) s

/-- CHNWAIT_COMPLETE (R329): room or fill suffices, or the channel was unbound. -/
def execChnwaitComplete (agent : Nat) (s : State) : Res :=
  onAgent "CHNWAIT_COMPLETE" agent (fun s =>
    match s.me.wait with
    | .chnwait d key count data unbound =>
      if unbound then .next (retire {} (s.setS d.toNat (clean (BitVec.ofNat 64 (2 ^ 63)))))
      else match (s.channels.get {} key).waited data count with
        | some v => .next (retire {} (s.setS d.toNat (clean v)))
        | none => noEvent "CHNWAIT_COMPLETE"
    | _ => noEvent "CHNWAIT_COMPLETE") s

/-- CHNREL (R330): a store-kind access that advances CONS or PROD when it is performed. -/
def execChnrel (d a b : BitVec 7) (e : Bool) (s : State) : Res :=
  let n := { s.me.scalarNeed [d.toNat] [a.toNat, b.toNat] 0 with legal := s.me.isTeam }
  issue n (fun s =>
    let x := s.me.getS a.toNat
    let y := s.me.getS b.toNat
    consume [x, y] (fun s =>
      let key := 16 * s.me.cluster + x.val.toNat
      let ch := s.channels.get {} key
      if 15 < x.val.toNat || !ch.serves s.me.launch then giveStatus n d 0x84 s
      else if y.val = 0 || 2 ^ ch.log2size < y.val.toNat then giveStatus n d 0x82 s
      else if 4096 < s.me.storeQ.length + 1 then hold s
      else queueStores n [{ kind := .chnRel key e y.val.toNat, addr := 0, size := 0 }] (s.setS d.toNat (clean 1))) s) s

end Sys2Proof.Machine
end

