-- ==== Sys2Proof/Machine/Lane.lean ====
section
/-! DEFINITION. Machine/Lane.lean: lane moves, reductions, scans and mask instructions 0x5A to 0x68 (R114, R115, R138 to
R144). -/
namespace Sys2Proof.Machine

/-! ### Lane moves (R138 to R140) -/

/-- The lane of l's group with a given number in the group. -/
def Agent.groupLane (a : Agent) (l i : Nat) : Nat := l / a.gw * a.gw + i % a.gw

/-- VLANE (R139). -/
def execVlane (d : BitVec 8) (f : BitVec 9) (s : State) : Res :=
  let n := s.me.vecNeed (decide (f.toNat < 6)) false [d.toNat] [] 6 false
  issue n (fun s =>
    let a := s.me
    let v (l : Nat) : Dword :=
      if f = 0 then BitVec.ofNat 64 (l % a.gw)
      else if f = 1 then BitVec.ofNat 64 l
      else if f = 2 then BitVec.ofNat 64 (l / a.gw)
      else if f = 3 then a.teamid.setWidth 64
      else if f = 4 then BitVec.ofNat 64 a.gw
      else BitVec.ofNat 64 a.lanes
    .next (retire n (writeLanes false d.toNat (fun l => clean (v l)) s))) s

/-- VSHUF (R140): the index is consumed, the value carries its poison. Under a 64-bit type the index's poison is that of
either word of its pair (log 47). -/
def execVshuf (d a b : BitVec 8) (s : State) : Res :=
  let wide := isWideType s.me.ty
  let n := s.me.vecNeed true wide [d.toNat] [a.toNat, b.toNat] 6 false
  issue n (fun s =>
    let g := s.me
    consumeLanes (fun l => (g.getUnit wide b.toNat l).poison) (fun s =>
      .next (retire n (writeLanes wide d.toNat (fun l =>
        g.getUnit wide a.toNat (g.groupLane l (g.getV b.toNat l).val.toNat)) s))) s) s

/-- VROT (R140). A count at or beyond the group width is ILLEGAL, with TMASK the active mask (log 47). -/
def execVrot (d a k : BitVec 8) (s : State) : Res :=
  let wide := isWideType s.me.ty
  let n := s.me.vecNeed true wide [d.toNat] [a.toNat] 6 false
  issue n (fun s =>
    let g := s.me
    if g.gw ≤ k.toNat then trap .illegal s
    else .next (retire n (writeLanes wide d.toNat (fun l => g.getUnit wide a.toNat (g.groupLane l (l + k.toNat))) s))) s

/-- VBCL (R140). -/
def execVbcl (d : BitVec 8) (c : BitVec 7) (a : BitVec 8) (s : State) : Res :=
  let wide := isWideType s.me.ty
  let n0 := s.me.vecNeed true wide [d.toNat] [a.toNat] 6 false
  let n := { n0 with reads := s.me.sRegs c.toNat ++ n0.reads }
  issue n (fun s =>
    let g := s.me
    let x := g.getS c.toNat
    consumeLanes (fun _ => x.poison) (fun s =>
      .next (retire n (writeLanes wide d.toNat (fun l =>
        g.getUnit wide a.toNat (g.groupLane l x.val.toNat)) s))) s) s

/-! ### Reductions and scans (R114, R115, R141) -/

/-- A present value with the exceptions of the combinations that formed it. -/
abbrev Leaf := Option (Nat × Nat)

/-- The value of a node from its children (R114). A lone present child goes up as it stands, its pattern not rewritten by
R87, R89 or R96 and with no exception (log 47). -/
def combine (f : Nat → Nat → Nat × Nat) : Leaf → Leaf → Leaf
  | some x, some y => some ((f x.1 y.1).1, x.2 ||| y.2 ||| (f x.1 y.1).2)
  | some x, none => some x
  | none, y => y

/-- Node (h, j) of the tree over leaves (R114). -/
def treeNode (f : Nat → Nat → Nat × Nat) (leaf : Nat → Leaf) : Nat → Nat → Leaf
  | 0, j => leaf j
  | h + 1, j => combine f (treeNode f leaf h (2 * j)) (treeNode f leaf h (2 * j + 1))

/-- The scan of the first n leaves (R115): the blocks at the set bits of n, from the most significant down, combined
from left to right. -/
def scanOf (f : Nat → Nat → Nat × Nat) (leaf : Nat → Leaf) (n : Nat) : Leaf :=
  ([6, 5, 4, 3, 2, 1, 0].foldl (fun (acc : Leaf × Nat) b =>
    if bitOf n b then (combine f acc.1 (treeNode f leaf b (acc.2 / 2 ^ b)), acc.2 + 2 ^ b) else acc) (none, 0)).1

/-- The types and operations that R141 allows together. -/
def reduceOk (t op : Nat) : Bool :=
  if isIntType t then decide (op < 6)
  else if isFloatType t || t == 0x0E then decide (op < 3)
  else t == 0x10 && decide (3 ≤ op ∧ op < 6)

/-- One combination of a reduction (R114, R141), with its exceptions. -/
def reduceOp (t op rnd : Nat) (ftz : Bool) (x y : Nat) : Nat × Nat :=
  if op = 3 then (x &&& y, 0)
  else if op = 4 then (x ||| y, 0)
  else if op = 5 then (x ^^^ y, 0)
  else if isIntType t then
    if op = 0 then ((x + y) % 2 ^ typeWidth t, 0)
    else if op = 1 then (if readInt t x ≤ readInt t y then x else y, 0)
    else (if readInt t x ≤ readInt t y then y else x, 0)
  else if t = 0x0E then
    let u := Dec.read x
    let v := Dec.read y
    if op = 0 then decFinish rnd (u.add rnd v) (min u.expo v.expo) else decMinMax (op == 2) u v
  else
    let g := fmtOf t
    if op = 0 then g.finish rnd ftz ((g.read ftz x).add rnd (g.read ftz y)) else g.minMax ftz (op == 2) x y

/-- The identity of an exclusive scan with no leaf (R115). Under the bit type, which R115's table leaves out, `and` takes all ones
and `or` and `xor` zero, as under the integer types (log 47). -/
def reduceIdentity (t op : Nat) : Nat :=
  let w := typeWidth t
  if op = 3 then 2 ^ w - 1
  else if op = 4 || op = 5 then 0
  else if isIntType t then (if op = 0 then 0 else ofInt w (if op = 1 then intMax t else intMin t))
  else if t = 0x0E then (if op = 0 then decBits false 0 0 else decInf (op == 2))
  else
    let g := fmtOf t
    if op = 0 then 0 else if g.inf then g.infBits (op == 2) else g.maxBits (op == 2)

/-- log2 of a group width. -/
def groupLog (w : Nat) : Nat := if w = 16 then 4 else if w = 32 then 5 else 6

/-- The leaf of one element position in a lane: present in exec lanes. -/
def Agent.leafOf (a : Agent) (r e : Nat) (l : Nat) : Leaf :=
  if a.exec.getLsbD l then
    some (elemOf (typeWidth a.ty) (a.getUnit (isWideType a.ty) r l).val.toNat e, 0)
  else none

/-- A reduction or scan: `pick` forms the value of a lane's element from the leaves of its group. -/
def reduceLanes (ok : Bool) (d a : BitVec 8) (op : BitVec 4)
    (pick : (Nat → Nat → Nat × Nat) → (Nat → Leaf) → Nat → Leaf) (s : State) : Res :=
  let t := s.me.ty
  let wide := isWideType t
  let lat := if s.me.gw = 16 then 10 else if s.me.gw = 32 then 12 else 14
  let n := { s.me.vecNeed (ok && reduceOk t op.toNat) wide [d.toNat] [a.toNat] lat false with arith := true }
  issue n (fun s =>
    let g := s.me
    let w := typeWidth t
    let f := reduceOp t op.toNat (modeRnd g.regs.mode) (modeFtz g.regs.mode)
    consumeLanes (fun l => (g.getUnit wide a.toNat l).poison) (fun s =>
      let of (l e : Nat) : Leaf := pick f (fun i => g.leafOf a.toNat e (l / g.gw * g.gw + i)) (l % g.gw)
      let val (l e : Nat) : Nat := match of l e with | some x => x.1 | none => reduceIdentity t op.toNat
      let exc (l : Nat) : Nat :=
        (List.range (elemCount w)).foldl (fun x e => x ||| (match of l e with | some y => y.2 | none => 0)) 0
      commitLanes (g.execLanes.map fun l => (l, exc l)) (fun s =>
        .next (retire n (writeLanes wide d.toNat (fun l =>
          clean (BitVec.ofNat 64 (joinElems w (elemCount w) (val l)))) s))) s) s) s

/-- VRED (R141): every exec lane of a group takes the root. -/
def execVred (d a : BitVec 8) (o : BitVec 4) (s : State) : Res :=
  reduceLanes true d a o (fun f leaf _ => treeNode f leaf (groupLog s.me.gw) 0) s

/-- VSCAN (R141): each exec lane takes its own scan. -/
def execVscan (d a : BitVec 8) (e : Bool) (o : BitVec 4) (s : State) : Res :=
  reduceLanes true d a o (fun f leaf i => scanOf f leaf (if e then i else i + 1)) s

/-! ### Lanes and scalars (R142) -/

/-- VTOS: mask-scalar (R118). A lane that the team does not have is ILLEGAL, with TMASK the active mask (log 47). -/
def execVtos (a : BitVec 8) (d : BitVec 7) (l : BitVec 9) (s : State) : Res :=
  let wide := isWideType s.me.ty
  let n : Need := { legal := s.me.isTeam && (!wide || a.toNat % 2 == 0), reads := vRegs wide a.toNat,
                    writes := s.me.sRegs d.toNat, words := some [l.toNat / 32], pass := 1, lat := 6 }
  issue n (fun s =>
    if s.me.lanes ≤ l.toNat then trap .illegal s
    else .next (retire n (s.setS d.toNat (s.me.getUnit wide a.toNat l.toNat)))) s

/-- STOV: acts only when the lane is in exec, and makes its pass there (R45). A lane that the team does not have is ILLEGAL,
with TMASK the active mask (log 47). -/
def execStov (d : BitVec 8) (a : BitVec 7) (l : BitVec 9) (s : State) : Res :=
  let wide := isWideType s.me.ty
  let n0 := s.me.vecNeed true wide [d.toNat] [] 6 false
  let lane := s.me.exec &&& maskOf [l.toNat]
  let n := { n0 with reads := s.me.sRegs a.toNat ++ n0.reads, mask := some lane, words := some (s.me.wordsOf lane) }
  issue n (fun s =>
    if s.me.lanes ≤ l.toNat then trap .illegal s
    else .next (retire n (if s.me.exec.getLsbD l.toNat then
      s.updMe fun g => g.setUnit wide d.toNat l.toNat (g.getS a.toNat) else s))) s

/-! ### Masks (R143, R144) -/

/-- The lane function of MLOGIC (R59). -/
def maskOp (o : Nat) (x y : Bool) : Bool :=
  match o with
  | 0 => x && y
  | 1 => x || y
  | 2 => x != y
  | 3 => x && !y
  | 4 => x || !y
  | 5 => !(x && y)
  | 6 => !(x || y)
  | 7 => x == y
  | 8 => !x
  | _ => x

/-- MLOGIC (R143): `.not` and `.mov` take md and ma only. -/
def execMlogic (o d a b : BitVec 4) (s : State) : Res :=
  let n0 := s.me.vecNeed (decide (o.toNat < 8) || (decide (o.toNat < 10) && b == 0)) false [] [] 2 false
  let srcs : List Reg := if o.toNat < 8 then [.m a.toNat, .m b.toNat] else [.m a.toNat]
  let n := { n0 with reads := srcs ++ n0.reads, writes := [.m d.toNat] }
  issue n (fun s =>
    let x := s.me.getM a.toNat
    let y := s.me.getM b.toNat
    .next (retire n (writeMask d.toNat (fun l => maskOp o.toNat (x.getLsbD l) (y.getLsbD l)) s))) s

/-- A mask-scalar instruction that writes a scalar register from a mask. -/
def maskToScalar (f : Agent → LaneMask → Dword) (d : BitVec 7) (a : BitVec 4) (s : State) : Res :=
  let n : Need := { legal := s.me.isTeam, reads := [.m a.toNat], writes := s.me.sRegs d.toNat, lat := 2 }
  issue n (fun s => .next (retire n (s.setS d.toNat (clean (f s.me (s.me.getM a.toNat)))))) s

def execMcount (d : BitVec 7) (a : BitVec 4) (s : State) : Res :=
  maskToScalar (fun g m => BitVec.ofNat 64 (lanesOf m g.lanes).length) d a s
def execMfirst (d : BitVec 7) (a : BitVec 4) (s : State) : Res :=
  maskToScalar (fun g m => match lanesOf m g.lanes with | l :: _ => BitVec.ofNat 64 l | [] => BitVec.allOnes 64) d a s
def execMtos (d : BitVec 7) (a i : BitVec 4) (s : State) : Res :=
  maskToScalar (fun _ m => (m >>> (64 * i.toNat)).setWidth 64) d a s

/-- STOM (R144). -/
def execStom (m : BitVec 4) (a : BitVec 7) (i : BitVec 4) (s : State) : Res :=
  let n : Need := { legal := s.me.isTeam, reads := .m m.toNat :: s.me.sRegs a.toNat, writes := [.m m.toNat], lat := 2 }
  issue n (fun s =>
    let x := s.me.getS a.toNat
    consume [x] (fun s =>
      let field : LaneMask := (BitVec.allOnes 64).setWidth 1024 <<< (64 * i.toNat)
      let new := (s.me.getM m.toNat &&& ~~~field) ||| (x.val.setWidth 1024 <<< (64 * i.toNat))
      .next (retire n (s.updMe fun g => g.setM m.toNat new))) s) s

/-- MTOV (R143). -/
def execMtov (d : BitVec 8) (m : BitVec 4) (s : State) : Res :=
  let n0 := s.me.vecNeed true false [d.toNat] [] 6 false
  let n := { n0 with reads := .m m.toNat :: n0.reads }
  issue n (fun s =>
    let x := s.me.getM m.toNat
    .next (retire n (writeLanes false d.toNat (fun l => clean (if x.getLsbD l then 1 else 0)) s))) s

/-- VTOM (R143). -/
def execVtom (m : BitVec 4) (a : BitVec 8) (s : State) : Res :=
  let n0 := s.me.vecNeed true false [] [a.toNat] 6 false
  let n := { n0 with writes := [.m m.toNat] }
  issue n (fun s =>
    let g := s.me
    consumeLanes (fun l => (g.getV a.toNat l).poison) (fun s =>
      .next (retire n (writeMask m.toNat (fun l => (g.getV a.toNat l).val != 0) s))) s) s

end Sys2Proof.Machine
end

