-- ==== Sys2Proof/Machine/Engines.lean ====
section
/-! DEFINITION. Machine/Engines.lean: CHKOUT, CHKIN, CPY, GATH, SCAT and COLL, and the start, firing, completion and recall of
engine operations (R245 to R247, R268 to R270, R318 to R325, R328). -/
namespace Sys2Proof.Machine

/-! ### Issue (R268, R269, R318) -/

/-- Whether a cluster, as 32d + c, belongs to a partition (R380). -/
def State.clusterIn (s : State) (p c : Nat) : Bool := bitOf (s.partField p 0xC0 16) c

/-- The engine cluster of a copy command (R320): a team's own, or the one a thread names in its partition. -/
def State.copyCluster (s : State) (ecl : Nat) : Option Nat :=
  if s.me.isTeam then (if ecl = 0 then some s.me.cluster else none)
  else match s.partOf s.me with
    | some p => if s.clusterIn p ecl then some ecl else none
    | none => none

/-- A command's range is well formed (R320): one window class, and a SCRATCH range in a team's grant. -/
def State.rangeOk (s : State) (a n : Nat) : Bool :=
  oneClass a n && (classOf a != .scratch || (s.me.isTeam && decide (a - scratchWindow + n ≤ s.me.grant)))

/-- What a command that is read asks for: the queue it enters, its engine's cluster, and the byte count that each of
its channels must hold; none where it is malformed. -/
structure Asked where
  queue : Nat
  cluster : Nat
  srcLen : Nat := 0
  dstLen : Nat := 0
  /-- N of a collective's group. -/
  count : Nat := 0
  deriving DecidableEq, Repr, Inhabited

/-- The format of a CPY command. -/
def cpyForm (b : List Byte) (s : State) : Option Asked :=
  let c := field b 0x14 4
  let len := field b 0x10 4
  let src := bitsOf c 1 0
  let dst := bitsOf c 3 2
  match s.copyCluster (bitsOf c 22 16) with
  | none => none
  | some q =>
    if bitsOf c 31 23 = 0 && field b 0x1C 4 == 0 && decide (1 ≤ len ∧ len ≤ 2 ^ 24 ∧ src ≤ 1 ∧ dst ≤ 1) &&
        (src == 1 || s.rangeOk (field b 0 8) len) && (dst == 1 || s.rangeOk (field b 8 8) len) then
      let r : Asked := { queue := q, cluster := q, srcLen := len, dstLen := len }
      some r
    else none

/-- The format of a GATH or SCAT command. -/
def listForm (b : List Byte) (s : State) : Option Asked :=
  let c := field b 0x14 4
  let count := field b 0x10 4
  let esz := 2 ^ bitsOf c 2 0
  match s.copyCluster (bitsOf c 22 16) with
  | none => none
  | some q =>
    if bitsOf c 31 23 = 0 && bitsOf c 15 6 == 0 && !bitOf c 3 && field b 0x1C 4 == 0 &&
        decide (1 ≤ count ∧ count ≤ 2 ^ 21 ∧ count * esz ≤ 2 ^ 24) && field b 0 8 % 8 == 0 &&
        s.rangeOk (field b 0 8) (8 * count) && s.rangeOk (field b 8 8) (count * esz) then
      let r : Asked := { queue := q, cluster := q }
      some r
    else none

/-- A COLL command's fields (R322). -/
structure CollCmd where
  kind : Nat
  op : Nat
  ty : Nat
  rnd : Nat
  len : Nat
  rank : Nat
  root : Nat
  seqNo : Nat
  deriving DecidableEq, Repr, Inhabited

/-- Read them. -/
def collOf (b : List Byte) : CollCmd :=
  let c := field b 0x1C 4
  { kind := bitsOf c 3 0, op := bitsOf c 7 4, ty := bitsOf c 12 8, rnd := bitsOf c 15 13, len := field b 0x18 4,
    rank := field b 0x20 4, root := field b 0x24 4, seqNo := field b 0x28 8 }

/-- The bytes a rank receives. -/
def CollCmd.outLen (c : CollCmd) (n : Nat) : Nat := if c.kind = 2 then n * c.len else c.len

/-- GID and N of a group table at the issue of its COLL, where they can be read (R322, R323); in a peer window they are whatever
that package holds there. -/
def State.groupOf (s : State) (o : EngineOp) : Option (Nat × Nat) :=
  match (s.engineKeys o (field o.bytes 0x10 8) 8 0 accLoad).1 with
  | .keys ks =>
    let v := if ks.any isPeer then Config.peerTable (ks.headD 0) s.time.toNat % 2 ^ 64 else (s.readKeys ks).1
    some (v % 2 ^ 32, v / 2 ^ 32)
  | _ => none

/-- The format of a COLL command: a group table that cannot be read leaves what depends on it to the start. -/
def collForm (b : List Byte) (s : State) : Option Asked :=
  let w := field b 0x1C 4
  let c := collOf b
  let edie := field b 0x34 4
  let grp := field b 0x10 8
  let esz := if isWideType c.ty then 8 else 4
  let q := if s.me.isTeam then (if edie = 0 then some (128 + s.me.die) else none)
    else if edie < 4 && s.me.kind != .root then some (128 + edie) else none
  let n := match s.groupOf (s.newOp .coll 0 0 b none) with | some g => some g.2 | none => none
  let group := match n with
    | some n => decide (1 ≤ n ∧ n ≤ 2 ^ 18 ∧ c.rank < n ∧ c.root < n ∧ c.outLen n ≤ 2 ^ 24)
    | none => true
  let out := c.outLen (n.getD 1)
  match q with
  | none => none
  | some q =>
    if bitsOf w 31 28 = 0 && field b 0x38 8 == 0 && bitsOf w 17 16 ≤ 1 && bitsOf w 19 18 ≤ 1 && c.rnd ≤ 4 &&
        decide (0x04 ≤ c.ty ∧ c.ty ≤ 0x09) && c.op ≤ 5 && !(isFloatType c.ty && decide (3 ≤ c.op)) && c.kind ≤ 3 &&
        decide (4 ≤ c.len ∧ c.len ≤ 2 ^ 24) && c.len % esz == 0 && grp % 64 == 0 && classOf grp == .global && group &&
        (bitsOf w 17 16 == 1 || s.rangeOk (field b 0 8) c.len) && (bitsOf w 19 18 == 1 || s.rangeOk (field b 8 8) out) then
      let r : Asked := { queue := q, cluster := s.me.cluster, srcLen := c.len, dstLen := out, count := n.getD 1 }
      some r
    else none

/-- The format of a check command (R268, R269). -/
def checkForm (b : List Byte) (s : State) : Option Asked :=
  let base := field b 0 8
  let len := field b 8 4
  let c := field b 0x0C 4
  if base % 4 = 0 && classOf base == .global && oneClass base len && len % 4 == 0 && decide (4 ≤ len ∧ len ≤ 2 ^ 24) &&
      c % 4 == 0 && bitsOf c 31 23 == 0 && decide (bitsOf c 20 0 + len ≤ s.me.grant) && field b 0x14 8 == 0 &&
      field b 0x1C 4 == 0 then
    let r : Asked := { queue := s.me.cluster, cluster := s.me.cluster }
    some r
  else none

/-- Whether a queue has room for a partition's command: 64 commands, and on a die's collective engine the
partition's share (R305, R380). -/
def State.queueRoom (s : State) (q p : Nat) : Bool :=
  decide (s.queueLength q < 64) &&
  (q < 128 || decide (s.queueShare q p < bitsOf (s.partField p 0x104 4) 21 16))

/-- What a command's channels answer: an issue status where one does not serve the issuer's launch or is too small
(R318, R320). -/
def State.channelStatus (s : State) (o : EngineOp) (r : Asked) : Option Nat :=
  let bad (c : Option Nat) (n : Nat) : Option Nat := match c with
    | none => none
    | some c =>
      let ch := s.channels.get {} c
      if !(s.me.isTeam && ch.serves s.me.launch) then some 0x84
      else if 2 ^ ch.log2size < n then some 0x82 else none
  (bad o.chans.1 r.srcLen).orElse fun _ => bad o.chans.2 r.dstLen

/-- The common course of the engine commands: the command is read and judged, and the operation enters its queue. -/
def engineCommand (kind : EngineKind) (legal : Bool) (size : Nat) (form : List Byte → State → Option Asked)
    (accept : Need → EngineOp → State → Res) (d a b : BitVec 7) (s : State) : Res :=
  let n := { s.me.scalarNeed [d.toNat] [a.toNat, b.toNat] 0 with legal := legal }
  issue n (fun s =>
    let x := s.me.getS a.toNat
    let y := s.me.getS b.toNat
    consume [x, y] (fun s =>
      if x.val.toNat % size != 0 then giveStatus n d 0x82 s
      else match readCommand n x.val size false trap s with
        | .stop r => r
        | .got bytes poison s' =>
          match s'.completionOf y.val.toNat, (if poison then none else form bytes s') with
          | some obj, some r =>
            let o := { s'.newOp kind r.queue x.val bytes obj with chanCluster := r.cluster, grp := (0, r.count) }
            match s'.channelStatus o r with
            | some st => giveStatus n d st s'
            | none => if s'.queueRoom r.queue o.part then accept n o s' else waitRoom s
          | _, _ => giveStatus n d 0x82 s') s) s

/-- Accept an operation with issue status 1. -/
def acceptOp (d : BitVec 7) (n : Need) (o : EngineOp) (s : State) : Res := giveStatus n d 1 (s.addOp o)

def execCpy (d a b : BitVec 7) (s : State) : Res := engineCommand .cpy true 32 cpyForm (acceptOp d) d a b s
def execGath (d a b : BitVec 7) (s : State) : Res := engineCommand .gath true 32 listForm (acceptOp d) d a b s
def execScat (d a b : BitVec 7) (s : State) : Res := engineCommand .scat true 32 listForm (acceptOp d) d a b s
def execColl (d a b : BitVec 7) (s : State) : Res := engineCommand .coll true 64 collForm (acceptOp d) d a b s
def execChkin (d a b : BitVec 7) (s : State) : Res := engineCommand .chkin s.me.isTeam 32 checkForm (acceptOp d) d a b s

/-! ### Check-out (R245, R270) -/

/-- What starting a check-out answers: the state with the operation started; a conflict; or a wait. -/
inductive Tried where
  | started (s : State)
  | conflict
  | wait

/-- Start a check-out. Its pages are translated before the range table is asked. -/
def State.tryCheckOut (s : State) (o : EngineOp) (mode : BitVec 2) : Tried :=
  let place := { s with ranges := [] }.engineKeys o (field o.bytes 0 8) (field o.bytes 8 4) 0
    (if mode.toNat = 0 then accLoad else accAtomic)
  let begun (st : Nat) (s : State) : State := s.updOp o.id fun p => { p with started := true, status := st }
  match place with
  | (.wait, _) => .wait
  | (.bad st, s') => .started (begun st { s' with ranges := s.ranges })
  | (.keys ks, s') =>
    let s' := { s' with ranges := s.ranges }
    if ks.any isPeer then .started (begun 4 s')
    else if s'.rangeConflict mode.toNat (piecesOf ks) then .conflict
    else .started (begun 1 (s'.checkOut o mode ks))

/-- CHKOUT. With fail-fast the range table's answer comes first: a conflict traps, and nothing is queued. -/
def execChkout (d a b : BitVec 7) (f : Bool) (m : BitVec 2) (s : State) : Res :=
  let ok := s.me.isTeam && m.toNat != 3
  if !f then engineCommand (.chkout m false) ok 32 checkForm (acceptOp d) d a b s
  else
    let accept (n : Need) (o : EngineOp) (s : State) : Res :=
      let s' := s.addOp o
      if !s'.opReady o then hold s
      else match s'.tryCheckOut o m with
        | .started s' => giveStatus n d 1 s'
        | .conflict => trap { code := 0x0D, addr := BitVec.ofNat 64 (field o.bytes 0 8) } s
        | .wait => hold s
    if ok then waitPerformed (engineCommand (.chkout m true) ok 32 checkForm accept d a b) s
    else engineCommand (.chkout m true) ok 32 checkForm accept d a b s

/-! ### Starting (R294, R319 to R325) -/

/-- An operation ends with an error status: nothing is written. -/
def State.failOp (s : State) (o : EngineOp) (st : Nat) : State :=
  s.updOp o.id fun p => { p with started := true, status := st }

/-- A copy starts: it reads its source, and knows where each byte goes. All its reads stand at one place of the order, and all
its writes at ENGINE_COMPLETION's: an order that the engine may choose (log 47). -/
def State.startCopy (s : State) (o : EngineOp) (src dst : List Nat) : State :=
  s.updOp o.id fun p => { p with started := true, data := s.snapshot src, peers := peersOf src, dst := dst }

/-- Go on with the keys of a place. -/
def withPlace (o : EngineOp) (r : Place × State) (f : List Nat → State → State) : State :=
  match r with
  | (.keys ks, s) => f ks s
  | (.bad st, s) => s.failOp o st
  | (.wait, s) => s

/-- CPY starts (R320). -/
def startCpy (o : EngineOp) (s : State) : State :=
  let c := field o.bytes 0x14 4
  let len := field o.bytes 0x10 4
  let swz (lo : Nat) : BitVec 2 := BitVec.ofNat 2 (c / 2 ^ lo)
  let src := match o.chans.1 with
    | some ch => (Place.keys (s.channelKeys ch (s.channels.get {} ch).cons.toNat len), s)
    | none => s.engineKeys o (field o.bytes 0 8) len (swz 4) accLoad
  withPlace o src fun ks s =>
    let dst := match o.chans.2 with
      | some ch => (Place.keys (s.channelKeys ch (s.channels.get {} ch).prod.toNat len), s)
      | none => s.engineKeys o (field o.bytes 8 8) len (swz 6) accStore
    withPlace o dst fun ds s => s.startCopy o ks ds

/-- The keys of the elements of a list, or STATUS 7 at an entry that is poisoned or misplaced (R321). -/
def State.listKeys (o : EngineOp) (esz kind : Nat) : List (Nat × Bool) → State → Place × State
  | [], s => (.keys [], s)
  | (a, poison) :: rest, s =>
    let bad := poison || !oneClass a esz || (classOf a == .hearth && a % min esz 8 != 0) ||
      (classOf a == .scratch && (!o.isTeam || decide (o.grant < a - scratchWindow + esz)))
    if bad then (.bad 7, s)
    else match s.engineKeys o a esz 0 kind with
      | (.keys ks, s) => match State.listKeys o esz kind rest s with
        | (.keys more, s) => (.keys (ks ++ more), s)
        | r => r
      | r => r

/-- The bytes of peers, filled into what an operation read; none where one is missing. -/
def fillPeers (data : List (Byte × Bool)) (remote : List (Nat × List (Byte × Bool))) : List (Nat × Nat) → Option (List (Byte × Bool))
  | [] => some data
  | (i, m) :: rest =>
    match remote.find? fun r => decide (r.1 ≤ m ∧ m < r.1 + r.2.length) with
    | some r => fillPeers (data.set i (r.2.getD (m - r.1) (0, false))) remote rest
    | none => none

/-- Go on with the bytes at some keys, those of peer windows as the outside world gives them: until it has, nothing happens. -/
def withBytes (ks : List Nat) (remote : List (Nat × List (Byte × Bool))) (s : State) (f : List (Byte × Bool) → State → State) : State :=
  match fillPeers (s.snapshot ks) remote (peersOf ks) with
  | some bs => f bs s
  | none => s

/-- The n-byte number at an offset of some bytes, with the OR of their poison. -/
def numberAt (bs : List (Byte × Bool)) (off n : Nat) : Nat × Bool :=
  let b := (bs.drop off).take n
  (leValue (b.map (·.1)), b.any (·.2))

/-- GATH and SCAT start (R321). -/
def startList (gather : Bool) (remote : List (Nat × List (Byte × Bool))) (o : EngineOp) (s : State) : State :=
  let c := field o.bytes 0x14 4
  let count := field o.bytes 0x10 4
  let esz := 2 ^ bitsOf c 2 0
  withPlace o (s.engineKeys o (field o.bytes 0 8) (8 * count) 0 accLoad) fun ls s =>
   withBytes ls remote s fun lb s =>
    let entry (k : Nat) : Nat × Bool := numberAt lb (8 * k) 8
    withPlace o (State.listKeys o esz (if gather then accLoad else accStore) ((List.range count).map entry) s) fun es s =>
      withPlace o (s.engineKeys o (field o.bytes 8 8) (count * esz) (BitVec.ofNat 2 (c / 2 ^ 4))
          (if gather then accStore else accLoad)) fun bs s =>
        if gather then s.startCopy o es bs else s.startCopy o bs es

/-- The package of a rank, where its entry of the group table names an engine: one whose bits 31:20 are not zero names none (R323,
log 50). -/
def EngineOp.rankPackage (o : EngineOp) (r : Nat) : Option Nat := (o.ranks[r]?).bind fun e => if e < 2 ^ 20 then some (e % 2 ^ 18) else none

/-- Whether a rank is one of another package. -/
def State.rankAway (s : State) (o : EngineOp) (r : Nat) : Bool := match o.rankPackage r with | some k => k != s.package | none => false

/-- Whether a participant finds another one where its group table says that rank is: on this package, at its C-die's engine. -/
def EngineOp.finds (o : EngineOp) (package : Nat) (p : EngineOp) : Bool :=
  o.ranks[(collOf p.bytes).rank]? == some (package + 2 ^ 18 * (p.queue - 128))

/-- Whether two started participants of one collective on this package disagree (R325). -/
def EngineOp.disagrees (o p : EngineOp) : Bool :=
  let a := collOf o.bytes
  let b := collOf p.bytes
  a.kind != b.kind || a.op != b.op || a.ty != b.ty || a.rnd != b.rnd || a.len != b.len || a.root != b.root ||
  o.grp.2 != p.grp.2 || a.rank == b.rank || o.part != p.part

/-- Whether a collective's ranks are known to have disagreed (R325). -/
def State.collBad (s : State) (gid seqNo : Nat) : Bool := s.badColls.any fun c => c.1 = gid && c.2.1 = seqNo

/-- Note that the ranks of a collective disagree. -/
def State.markColl (s : State) (gid seqNo : Nat) : State :=
  if s.collBad gid seqNo then s else { s with badColls := (gid, seqNo, 0) :: s.badColls }

/-- A rank of a collective whose ranks disagree has ended; the collective is forgotten with its last one. -/
def State.endBadRank (s : State) (o : EngineOp) : State :=
  let here (c : Nat × Nat × Nat) : Bool := !o.ranks.isEmpty && c.1 = o.grp.1 && c.2.1 = (collOf o.bytes).seqNo
  let counted := s.badColls.map fun (c : Nat × Nat × Nat) => if here c then (c.1, c.2.1, c.2.2 + 1) else c
  { s with badColls := counted.filter fun c => !(here c && decide (o.grp.2 ≤ c.2.2)) }

/-- The entries of a group table, one for each rank (R323). -/
def ranksOf (es : List (Byte × Bool)) (n : Nat) : List Nat := (List.range n).map fun k => (numberAt es (4 * k) 4).1

/-- The other participants of a collective on this package that have joined it. -/
def State.mates (s : State) (o : EngineOp) : List EngineOp :=
  s.engines.filter fun p => p.kind = .coll && p.id != o.id && p.started && !p.ranks.isEmpty && p.grp.1 = o.grp.1 &&
    (collOf p.bytes).seqNo = (collOf o.bytes).seqNo

/-- Enter a participant with its contribution, and exchange contributions with those of this package that have started, which find
one another by their group tables; where two disagree, all end with STATUS 8 (R323 to R325). -/
def State.joinColl (s : State) (o : EngineOp) (src dst : List Nat) : State :=
  let c := collOf o.bytes
  let mates := s.mates o
  let bad := s.collBad o.grp.1 c.seqNo || mates.any o.disagrees
  let mine := (c.rank, s.snapshot src)
  let s := if bad then s.markColl o.grp.1 c.seqNo else s
  { s with engines := s.engines.map fun p =>
      if p.id = o.id then
        { p with started := true, status := if bad then 8 else 1, grp := o.grp, ranks := o.ranks, data := mine.2, peers := peersOf src,
                 dst := dst, posts := o.posts,
                 got := (mates.filter fun m => o.finds s.package m).map fun m => ((collOf m.bytes).rank, m.data) }
      else if mates.contains p then
        { p with status := if bad then 8 else p.status, got := if p.finds s.package o then p.got ++ [mine] else p.got }
      else p }

/-- The send queues through which ranks are reached beyond the peer group: one entry for each such rank, at the registration that
the adapter route of its package names (R355). How many entries a rank takes, and what they hold, the manual does not say (log
50). -/
def State.adapters (s : State) (o : EngineOp) : List Nat :=
  (((List.range o.ranks.length).filterMap o.rankPackage).filter fun k => k != s.package && !(s.members.any fun m => m.2 = k)).map fun k =>
    match s.routes.find? fun r => r.1 = k with
    | some r => r.2.handle
    | none => 1024

/-- Whether the place that a collective writes suits the group table that its start has read: as long as its issue found it, for a
channel; in one window class and in the grant, for an address (R322; log 50). -/
def EngineOp.outFits (o : EngineOp) (n : Nat) : Bool :=
  let c := collOf o.bytes
  let a := field o.bytes 8 8
  match o.chans.2 with
  | some _ => c.outLen n == c.outLen o.grp.2
  | none => oneClass a (c.outLen n) && (classOf a != .scratch || (o.isTeam && decide (a - scratchWindow + c.outLen n ≤ o.grant)))

/-- COLL starts (R322 to R325, R355): it reads the group table and its contribution, and posts what it sends through network
adapters. -/
def startColl (remote : List (Nat × List (Byte × Bool))) (o : EngineOp) (s : State) : State :=
  let c := collOf o.bytes
  withPlace o (s.engineKeys o (field o.bytes 0x10 8) 8 0 accLoad) fun hs s =>
   withBytes hs remote s fun hb s =>
    let gid := (numberAt hb 0 4).1
    let n := (numberAt hb 4 4).1
    if n = 0 || 2 ^ 18 < n || n ≤ c.rank || n ≤ c.root || 2 ^ 24 < c.outLen n || !o.outFits n then s.failOp o 8
    else
      withPlace o (s.engineKeys o (field o.bytes 0x10 8 + 8) (4 * n) 0 accLoad) fun es s =>
       withBytes es remote s fun eb s =>
        let src := if c.kind = 3 && c.rank != c.root then (Place.keys [], s)
          else match o.chans.1 with
            | some ch => (Place.keys (s.channelKeys ch (s.channels.get {} ch).cons.toNat c.len), s)
            | none => s.engineKeys o (field o.bytes 0 8) c.len 0 accLoad
        withPlace o src fun ks s =>
          let dst := if c.kind = 1 && c.rank != c.root then (Place.keys [], s)
            else match o.chans.2 with
              | some ch => (Place.keys (s.channelKeys ch (s.channels.get {} ch).prod.toNat (c.outLen n)), s)
              | none => s.engineKeys o (field o.bytes 8 8) (c.outLen n) 0 accStore
          withPlace o dst fun ds s =>
            let o := { o with grp := (gid, n), ranks := ranksOf eb n }
            match s.postEntries o.part (s.adapters o) [] with
            | .done slots s => s.joinColl { o with posts := slots } ks ds
            | .refused => s.failOp o 9
            | .wait => s

/-- CHKIN starts (R270): its entry is found by holder, base and length; the dirty words are written as one event. After a recall
another holder may have the range EXCLUSIVE: the check-in then waits at it as any write does (R246, R247). -/
def startChkin (o : EngineOp) (s : State) : State :=
  let c := field o.bytes 0x0C 4
  match s.ranges.find? fun r => r.part = o.part && r.cluster = o.cluster && r.launch = o.launch && r.teamid = o.teamid &&
      r.vbase.toNat = field o.bytes 0 8 && r.vlen = field o.bytes 8 4 with
  | none => s.failOp o 6
  | some r =>
    let soff := bitsOf c 20 0
    let swz := BitVec.ofNat 2 (bitsOf c 22 21)
    let hot := if r.recalled && r.mode != 0#2 then (s.hotBytes r soff swz).map (·.1) else []
    if hot.any (s.keyBarred o.who) then s.markKeys o.who hot
    else (s.checkIn r soff swz).failOp o (if r.recalled then 2 else 1)

/-- ENGINE_START (R294): an operation makes its first access; one that was cancelled makes none; a check-out that
conflicts waits. -/
def execEngineStart (op : Config.OpStart) (s : State) : Res :=
  match s.engines.find? fun o => o.id = op.id with
  | none => noEvent "ENGINE_START"
  | some o =>
    if !s.opReady o then noEvent "ENGINE_START"
    else if o.status = 3 then .next (s.failOp o 3)
    else if (o.chans.1.isSome || o.chans.2.isSome) && !o.fired then noEvent "ENGINE_START"
    else
      let s := s.updOp op.id fun p => { p with spans := [] }
      match o.kind with
      | .cpy => .next (startCpy o s)
      | .gath => .next (startList true op.remote o s)
      | .scat => .next (startList false op.remote o s)
      | .coll => .next (startColl op.remote o s)
      | .chkout m _ => match s.tryCheckOut o m with
        | .started s => .next s
        | _ => .next s
      | .chkin => .next (startChkin o s)

/-- The bytes an operation's channels must hold or have room for. -/
def EngineOp.channelLens (o : EngineOp) : Nat × Nat :=
  match o.kind with
  | .coll => ((collOf o.bytes).len, (collOf o.bytes).outLen o.grp.2)
  | _ => (field o.bytes 0x10 4, field o.bytes 0x10 4)

/-- Whether an operation at the head of its team's entries may fire now (R328). -/
def State.mayFire (s : State) (o : EngineOp) : Bool :=
  let n := o.channelLens
  let waiting (p : EngineOp) : Bool := p.pendingOf.isNone && !p.started && s.opInOrder p && !p.fired && decide (p.id < o.id)
  let side (f : EngineOp → Option Nat) (ok : Channel → Bool) : Bool := match f o with
    | none => true
    | some c => ok (s.channels.get {} c) &&
      s.engines.all fun p => p.id = o.id || f p != some c || !(p.fired || waiting p)
  o.pendingOf.isNone && !o.started && !o.fired && (o.chans.1.isSome || o.chans.2.isSome) && s.opInOrder o && !s.grantAway o &&
  side (·.chans.1) (fun c => decide (n.1 ≤ c.fill)) && side (·.chans.2) (fun c => decide (n.2 ≤ c.room))

/-- CHANNEL_FIRE (R328). -/
def execChannelFire (op : Nat) (s : State) : Res :=
  match s.engines.find? fun o => o.id = op with
  | none => noEvent "CHANNEL_FIRE"
  | some o => if s.mayFire o then .next (s.updOp op fun p => { p with fired := true }) else noEvent "CHANNEL_FIRE"

/-! ### Completing (R319, R324, R325, R328) -/

/-- An operation that wrote advances its channels: each advance is one access after its reads or writes (R328). -/
def State.advanceChannels (s : State) (o : EngineOp) : State :=
  let n := o.channelLens
  let s := match o.chans.1 with
    | some c => { s with channels := s.channels.insert c { s.channels.get {} c with cons := (s.channels.get {} c).cons + BitVec.ofNat 32 n.1 } }
    | none => s
  match o.chans.2 with
  | some c => { s with channels := s.channels.insert c { s.channels.get {} c with prod := (s.channels.get {} c).prod + BitVec.ofNat 32 n.2 } }
  | none => s

/-- An element of a contribution. -/
def elemAt (esz : Nat) (d : List (Byte × Bool)) (e : Nat) : Nat := leValue (((d.drop (esz * e)).take esz).map (·.1))

/-- The result bytes of a collective at one rank from every rank's contribution, with the exceptions raised (R324). -/
def collResult (c : CollCmd) (n : Nat) (of_ : Nat → List (Byte × Bool)) : List (Byte × Bool) × Nat :=
  if c.kind = 2 then ((List.range n).flatMap of_, 0)
  else if c.kind = 3 then (of_ c.root, 0)
  else
    let esz := if isWideType c.ty then 8 else 4
    let height := if n ≤ 1 then 0 else Nat.log2 (n - 1) + 1
    let es := (List.range (c.len / esz)).map fun e =>
      (treeNode (reduceOp c.ty c.op c.rnd false) (fun r => if r < n then some (elemAt esz (of_ r) e, 0) else none)
        height 0).getD (0, 0)
    let poison (i : Nat) : Bool := (List.range n).any fun r => ((of_ r).getD i (0, false)).2
    ((es.flatMap fun x => leBytes esz x.1).zipIdx.map fun b => (b.1, poison b.2), orExc (es.map fun x => (0, x.2)))

/-- Whether an operation reads or writes in other packages: through peer windows, or with ranks of a collective there (R323,
R351, R355). -/
def State.reachesOut (s : State) (o : EngineOp) : Bool :=
  !o.peers.isEmpty || o.dst.any isPeer || (List.range o.ranks.length).any (s.rankAway o)

/-- The links that peer windows' bytes, and the ranks of members of the peer group, are reached by (R351). -/
def State.linksOf (s : State) (keys : List Nat) (o : EngineOp) : List Nat :=
  (((keys.filter isPeer).map fun k => (k - 0x200000000000) / 0x20000000000).filter (· != s.peerNumber)).map Config.linkTo ++
  ((List.range o.ranks.length).filter (s.rankAway o)).flatMap fun r =>
    (s.members.filter fun m => o.rankPackage r = some m.2).map fun m => Config.linkTo m.1

/-- The links that a started operation still needs (R354). -/
def State.linksNeeded (s : State) (o : EngineOp) : List Nat := s.linksOf (o.peers.map (·.2) ++ o.dst) o

/-- Whether an operation needs a link that is not up. -/
def State.linkLost (s : State) (o : EngineOp) : Bool := (s.linksNeeded o).any fun n => (s.links.get {} n).st != .up

/-- Whether the command of a rank on another package disagrees with an operation's, or two of such ranks are one RANK or lie in
two partitions of one package (R325). -/
def EngineOp.disagreesFar (o : EngineOp) (ts : List Config.CollTerms) : Bool :=
  let c := collOf o.bytes
  let ranks := c.rank :: o.got.map (·.1) ++ ts.map (·.rank)
  (ts.any fun t => t.kind != c.kind || t.op != c.op || t.ty != c.ty || t.rnd != c.rnd || t.len != c.len || t.root != c.root ||
    t.count != o.grp.2 || ts.any fun u => o.rankPackage t.rank == o.rankPackage u.rank && t.part != u.part) ||
  decide (ranks.eraseDups.length < ranks.length)

/-- The ranks of a collective are found to disagree as one of them completes: all on this package end with STATUS 8. -/
def State.failColl (s : State) (o : EngineOp) : State :=
  let mates := s.mates o
  { s.markColl o.grp.1 (collOf o.bytes).seqNo with
    engines := s.engines.map fun p => if mates.contains p then { p with status := 8 } else p }

/-- A collective completes at one rank, once every contribution is there and the tail writes of what it posted have been performed;
`remote` holds the contributions of other packages by rank, and `far` what is known of their commands. -/
def completeColl (o : EngineOp) (data : List (Byte × Bool)) (remote : List (Nat × List (Byte × Bool))) (far : Config.Far) (s : State) :
    Res :=
  let c := collOf o.bytes
  let n := o.grp.2
  let all : List (Nat × List (Byte × Bool)) := (c.rank, data) :: o.got ++ remote.filter fun r => s.rankAway o r.1
  let need (r : Nat) : Bool := (c.kind != 3 || r = c.root) && (c.kind != 1 || c.rank = c.root)
  let of_ (r : Nat) : Option (List (Byte × Bool)) := (all.find? fun x => x.1 = r).map (·.2)
  if (match far with | .ranks ts => o.disagreesFar ts | _ => false) then .next (((s.failColl o).endBadRank o).endOp o 8)
  else if !o.posts.isEmpty || !((List.range n).all fun r => (of_ r).isSome) then noEvent "ENGINE_COMPLETION"
  else if (List.range n).any fun r => need r && ((of_ r).getD []).length != c.len then .next (s.endOp o 8)
  else
    let r := collResult c n fun k => (of_ k).getD []
    .next (((s.writeEngine o.dst (if o.dst.isEmpty then [] else r.1)).advanceChannels o).endOp o (1 + 256 * r.2))

/-- ENGINE_COMPLETION (R319): the operation writes what it copied or combined, all of it here (log 47), its STATUS word and its
arrival. It waits where what it writes lies in an EXCLUSIVE check-out (R246), and ends with STATUS 9 where a link that it needs is
not up (R354). For a copy `remote` holds the bytes of peer windows by machine address, with their poison; for a collective, the
contributions of ranks on other packages by rank. -/
def execEngineCompletion (op : Nat) (remote : List (Nat × List (Byte × Bool))) (far : Config.Far) (s : State) : Res :=
  match s.engines.find? fun o => o.id = op with
  | none => noEvent "ENGINE_COMPLETION"
  | some o =>
    let place := s.engineKeys o (o.cmd.toNat + o.statusOff) 4 0 accStore
    if !o.started then noEvent "ENGINE_COMPLETION"
    else if place.1 = .wait then .next place.2
    else if o.status = 8 then .next ((s.endBadRank o).endOp o 8)
    else if o.status != 1 then .next (s.endOp o o.status)
    else if s.linkLost o || (far = .routeFailed && s.reachesOut o) then .next (s.endOp o 9)
    else if far = .refused && s.reachesOut o then .next (s.endOp o 5)
    else match fillPeers o.data remote o.peers with
      | none => noEvent "ENGINE_COMPLETION"
      | some data =>
        if o.dst.any (s.keyBarred o.who) then .next (s.markKeys o.who o.dst)
        else match o.kind with
        | .coll => completeColl o data remote far s
        | .chkout _ _ => .next (s.endOp o 1)
        | .chkin => .next (s.endOp o 1)
        | _ => .next (((s.writeEngine o.dst data).advanceChannels o).endOp o 1)

/-! ### Recall (R247) -/

/-- RECALL: an EXCLUSIVE check-out at which an access has waited 25,000 cycles is checked in for its holder, which must
be resident. -/
def execRecall (cid : Nat) (s : State) : Res :=
  match s.ranges.find? fun r => r.cid = cid with
  | none => noEvent "RECALL"
  | some r =>
    let home := ((s.agents.map (·.2)) ++ s.transit.map (·.1)).any fun a => a.isTeam && a.launch = r.launch && a.teamid = r.teamid
    match r.waitSince with
    | some t =>
      if home && r.mode.toNat = 1 && !r.recalled && decide (t + 25000 ≤ s.time.toNat) then
        let s := s.writeDirty r r.soff r.swz
        .next { s with ranges := s.ranges.map fun q => if q.cid = cid then { q with recalled := true, waitSince := none } else q }
      else noEvent "RECALL"
    | none => noEvent "RECALL"

end Sys2Proof.Machine
end

