-- ==== Sys2Proof/Machine/Links.lean ====
section
/-! DEFINITION. Machine/Links.lean: peer links: flits, keys, replay and training (R351 to R354, R383, R384). -/
namespace Sys2Proof.Machine

/-! ### Keys and flits (R352, R353, R383) -/

/-- The key slot of a link: direction false is send, true is receive. -/
abbrev keyOf (link : Nat) (receive slot : Bool) : Nat := 4 * link + (if receive then 2 else 0) + (if slot then 1 else 0)

def State.keyFlags (s : State) (k : Nat) : Nat := s.rd (keySlotBase k + 0x24) 4
def State.keyCount (s : State) (k : Nat) : Nat := s.rd (keySlotBase k + 0x28) 8
def State.setKeyFlag (s : State) (k bit v : Nat) : State := s.wr (keySlotBase k + 0x24) 4 (setBits (s.keyFlags k) bit bit v)

/-- A peer link, and its update. -/
def State.link? (s : State) (n : Nat) : PeerLink := s.links.get {} n
def State.updLink (s : State) (n : Nat) (f : PeerLink → PeerLink) : State :=
  { s with links := s.links.put {} n (f (s.link? n)) }

/-- The x16 ports in NTB mode, in order: the j-th has link j (R336, log 50). -/
def State.ntbPorts (s : State) : List Nat := (List.range 8).filter fun k => s.portModes[k]? = some .ntb

/-- Whether a peer link is there: link j is that of the j-th x16 port in NTB mode (R336, log 50), unless its start steps failed or
were skipped (R406). -/
def State.hasLink (s : State) (link : Nat) : Bool :=
  decide (link < 4) && (match s.ntbPorts[link]? with | some k => !s.stepLost (17 + k) && !s.stepLost 26 | none => false)

/-- Whether a slot has a key, and its counter lets a flit of a type use it: the value 2^32 - 1 is a marker's only. -/
def State.keyServes (s : State) (k kind : Nat) : Bool :=
  let c := s.keyCount k
  bitOf (s.keyFlags k) 0 && (decide (c < 2 ^ 32 - 1) || (c = 2 ^ 32 - 1 && kind == 1))

/-- Use a slot's counter once: it rises by 1; firmware is alerted when it reaches 2^31, and the value 2^32 - 1 spends the key. -/
def State.useKey (s : State) (k : Nat) : State :=
  let c := s.keyCount k
  let s := s.wr (keySlotBase k + 0x28) 8 (c + 1)
  let s := if c = 2 ^ 32 - 1 then s.setKeyFlag k 3 1 else s
  if c + 1 = 2 ^ 31 then (s.setKeyFlag k 2 1).sendEvent 0xB none k 0 else s

/-- The header of a flit: type, key slot and sequence number. -/
def flitHeader (kind : Nat) (slot : Bool) (n : Nat) : List Byte := leBytes 1 kind ++ leBytes 1 (if slot then 1 else 0) ++ leBytes 6 n

/-- The sequence number and key slot of a flit. -/
def flitSeq (f : List Byte) : Nat := leValue ((f.drop 2).take 6)
def flitSlot (f : List Byte) : Nat := leValue ((f.drop 1).take 1)
def flitKind (f : List Byte) : Nat := leValue (f.take 1)

/-- Whether a link may send a flit of a type now: it is up, its slot's key is loaded and the counter is within its limits, and
a flit that may have to be replayed finds room in the replay buffer. -/
def State.maySend (s : State) (link kind : Nat) : Bool :=
  let l := s.link? link
  s.hasLink link && l.st = .up && s.keyServes (keyOf link false l.txSlot) kind && decide (kind < 5) &&
  (decide (2 ≤ kind) || decide (l.replay.length < 1024))

/-- Encrypt and send a flit with a sequence number (R352). A marker moves the sender to the other slot. -/
def State.sendFlit (s : State) (link kind n : Nat) (payload : List Byte) : State :=
  let l := s.link? link
  let k := keyOf link false l.txSlot
  let c := s.keyCount k
  let body := fitBytes 232 (if kind = 1 then leBytes 1 (if l.txSlot then 0 else 1) ++ payload.drop 1 else payload)
  let head := flitHeader kind l.txSlot n
  let flit := head ++ fitBytes 248 (Config.sealFlit (Memory.readBytes s.mem (keySlotBase k) 32)
    (BitVec.ofNat 32 (s.rd (keySlotBase k + 0x20) 4)) c (head ++ body))
  let s := (s.useKey k).reply flit
  let s := if kind = 1 then (s.setKeyFlag k 1 0).setKeyFlag (keyOf link false (!l.txSlot)) 1 1 else s
  s.updLink link fun l =>
    { l with txSlot := if kind = 1 then !l.txSlot else l.txSlot,
             txSeq := if kind < 2 then (l.txSeq + 1) % 2 ^ 48 else l.txSeq,
             replay := if kind < 2 then l.replay ++ [(n, flit)] else l.replay }

/-- The sequence number that a flit of a type carries: data and markers take the next one; an acknowledgement names the last
flit received in order, a negative one the flit now expected. -/
def State.seqFor (s : State) (link kind : Nat) : Nat :=
  let l := s.link? link
  if kind = 2 then (l.rxSeq + 2 ^ 48 - 1) % 2 ^ 48 else if kind = 3 then l.rxSeq else l.txSeq

/-- FLIT_SEND (R352). -/
def execFlitSend (link kind : Nat) (payload : List Byte) (s : State) : Res :=
  if s.maySend link kind then .next (s.sendFlit link kind (s.seqFor link kind) payload) else noEvent "FLIT_SEND"

/-! ### Receiving (R351, R353, R354, R384) -/

/-- How far a sequence number lies after another. -/
def seqAfter (a b : Nat) : Nat := (a + 2 ^ 48 - b) % 2 ^ 48

/-- An operation as its start would leave it, were it to start now. -/
def State.startedNow (s : State) (o : EngineOp) : EngineOp :=
  let t := match o.kind with
    | .cpy => startCpy o s
    | .gath => startList true [] o s
    | .scat => startList false [] o s
    | .coll => startColl [] o s
    | _ => s
  (t.engines.find? fun p => p.id = o.id).getD o

/-- The keys of the table that an operation reads first: the list of GATH and SCAT, the group table of COLL. -/
def State.tableKeys (s : State) (o : EngineOp) : List Nat :=
  let at_ : Option (Nat × Nat) := match o.kind with
    | .gath => some (field o.bytes 0 8, 8 * field o.bytes 0x10 4)
    | .scat => some (field o.bytes 0 8, 8 * field o.bytes 0x10 4)
    | .coll => some (field o.bytes 0x10 8, 8)
    | _ => none
  match at_ with
  | some (a, n) => match (s.engineKeys o a n 0 accLoad).1 with | .keys ks => ks | _ => []
  | none => []

/-- Whether an operation still needs a link: bytes, or a rank, of a member that the link serves. One that a queue holds needs what
it will read and write (R354). -/
def State.needsLink (s : State) (o : EngineOp) (link : Nat) : Bool :=
  if o.started then (s.linksNeeded o).contains link
  else o.pendingOf.isNone && ((s.linksOf (s.tableKeys o) o).contains link || (s.linksNeeded (s.startedNow o)).contains link)

/-- A link goes down (R354): the replay buffer is discarded, a record written, and operations that need the link end, started or not;
it takes fresh keys to come up again. -/
def State.linkDown (s : State) (link : Nat) : State :=
  let s := s.updLink link fun l => { l with st := .down, replay := [], txFresh := false, rxFresh := false }
  let s := { s with engines := s.engines.map fun (o : EngineOp) =>
    if o.status = 1 && s.needsLink o link then { o with status := 9, started := true } else o }
  (s.record none { port := link }).sendEvent 0xC none link 0

/-- Whether a discarded flit counts as a failure of the one expected (R354): that one itself, or a later one which shows that it
was lost, once for each time that the sender has sent it. -/
def PeerLink.counts (l : PeerLink) (kind n : Nat) : Bool :=
  let d := seqAfter n l.rxSeq
  decide (kind < 2 ∧ d < 2 ^ 47) && (d == 0 || match l.ahead with | some a => decide (d ≤ seqAfter a l.rxSeq) | none => true)

/-- A flit that fails authentication or arrives out of sequence (R354): it is discarded and a negative acknowledgement sent;
the fourth failure of a flit takes the link down. -/
def State.flitFails (s : State) (link kind n : Nat) : State :=
  let s := s.updLink link fun l =>
    { l with fails := if l.counts kind n then l.fails + 1 else l.fails,
             ahead := if kind < 2 && decide (seqAfter n l.rxSeq < 2 ^ 47) then some n else l.ahead }
  if 4 ≤ (s.link? link).fails then s.linkDown link
  else if s.maySend link 3 then s.sendFlit link 3 (s.seqFor link 3) [] else s

/-- Receive a flit (R352 to R354): `go` has its payload once it is authenticated and, where its type is numbered, in
sequence. -/
def receive (row : String) (kind link : Nat) (flit : List Byte) (go : List Byte → State → Res) (s : State) : Res :=
  let l := s.link? link
  if !s.hasLink link || l.st != .up || flit.length != 256 then noEvent row
  else
    let k := keyOf link true l.rxSlot
    let head := flit.take 8
    let plain := if flitKind flit = kind && flitSlot flit = (if l.rxSlot then 1 else 0) && s.keyServes k kind &&
        (decide (2 ≤ kind) || flitSeq flit = l.rxSeq) then
      Config.openFlit (Memory.readBytes s.mem (keySlotBase k) 32) (BitVec.ofNat 32 (s.rd (keySlotBase k + 0x20) 4)) (s.keyCount k)
        (head ++ flit.drop 8) else none
    match plain with
    | none => .next (s.flitFails link kind (flitSeq flit))
    | some body =>
      let s := s.useKey k
      let s := if kind < 2 then s.updLink link fun l => { l with rxSeq := (l.rxSeq + 1) % 2 ^ 48, fails := 0, ahead := none } else s
      go (fitBytes 232 body) s

/-- The bytes of a peer's access. -/
def peerBytes (r : Config.PeerRequest) : Nat := match r.data with | some d => d.length | none => r.len

/-- The machine address that an inbound access reaches, if its export entry allows the access. -/
def State.exported (s : State) (r : Config.PeerRequest) : Option Nat :=
  let e := exportBase (bitsOf r.offset 40 35)
  let o := bitsOf r.offset 34 0
  let f := s.rd (e + 0x10) 1
  if bitOf f 6 && bitOf (s.rd (e + 0x11) 1) r.member && decide (o + peerBytes r ≤ s.rd (e + 8) 8) && bitOf f (if r.data.isSome then 5 else 4) &&
    decide (r.offset < 2 ^ 41) && !(s.part (bitsOf f 3 0)).closed
  then some (s.rd e 8 + o) else none

/-- Perform an inbound access as an endpoint's (R351, R277): a write takes place, a read is answered; a refused one is
answered so, and recorded; none where it waits at a check-out. -/
def State.peerAccess (s : State) (link : Nat) (r : Config.PeerRequest) : Option State :=
  match s.exported r with
  | none => some ((s.record none { port := link, addr := r.offset }).reply [1])
  | some m => match s.reachPages m (peerBytes r) ((List.range (peerBytes r)).map (m + ·)) (if r.data.isSome then accStore else accLoad), r.data with
    | (.keys ks, s), some d => some ((s.writeEngine ks d).reply [0])
    | (.keys ks, s), none => some (s.replyData ks)
    | _, _ => none

/-- DATA_FLIT (R351, R352): applied whole. A payload for another member goes on under the next link's key; one that is
neither belongs to an operation of this package, whose ENGINE_COMPLETION has its bytes. A flit whose access waits at a check-out
is not yet received. -/
def execDataFlit (link : Nat) (flit : List Byte) (s : State) : Res :=
  receive "DATA_FLIT" 0 link flit (fun body t =>
    match Config.forwardOn body with
    | some n => if t.maySend n 0 then .next (t.sendFlit n 0 (t.seqFor n 0) body) else noEvent "DATA_FLIT"
    | none => match Config.peerRequest body with
      | some r => match t.peerAccess link r with
        | some t => .next t
        | none => .next (s.markWait {} ((s.exported r).getD 0) (peerBytes r))
      | none => .next t) s

/-- MARKER_FLIT (R353): every later flit uses the slot that it names. -/
def execMarkerFlit (link : Nat) (flit : List Byte) (s : State) : Res :=
  receive "MARKER_FLIT" 1 link flit (fun body s =>
    let slot := bitOf (leValue (body.take 1)) 0
    let old := (s.link? link).rxSlot
    let s := (s.setKeyFlag (keyOf link true old) 1 0).setKeyFlag (keyOf link true slot) 1 1
    .next (s.updLink link fun l => { l with rxSlot := slot })) s

/-- ACKNOWLEDGE_FLIT (R354): flits up to the named one leave the replay buffer. -/
def execAcknowledgeFlit (link : Nat) (flit : List Byte) (s : State) : Res :=
  receive "ACKNOWLEDGE_FLIT" 2 link flit (fun _ s =>
    .next (s.updLink link fun l =>
      { l with replay := l.replay.filter fun c => !decide (seqAfter l.txSeq (flitSeq flit) ≤ seqAfter l.txSeq c.1) })) s

/-- NEGATIVE_ACKNOWLEDGE (R354): the flits from the named one on are sent again, as the same ciphertext. -/
def execNegativeAcknowledge (link : Nat) (flit : List Byte) (s : State) : Res :=
  receive "NEGATIVE_ACKNOWLEDGE" 3 link flit (fun _ s =>
    let l := s.link? link
    let again := l.replay.filter fun c => decide (seqAfter l.txSeq c.1 ≤ seqAfter l.txSeq (flitSeq flit))
    .next { s with replies := s.replies ++ again.map (·.2) }) s

/-- IDLE_FLIT (R352). -/
def execIdleFlit (link : Nat) (flit : List Byte) (s : State) : Res :=
  receive "IDLE_FLIT" 4 link flit (fun _ s => .next s) s

/-! ### Port errors (R335, R337) -/

/-- AER_ERROR (R335, R337): an error at a root port, peer ports among them, is recorded; DPC contains the port where it is enabled
for the error, which takes a peer port's link down (log 52). -/
def execAerError (port rid : Nat) (header : Config.AerReport) (s : State) : Res :=
  if s.hasPort port || s.contained.contains port || (port % 4 = 0 && s.ntbPorts.contains (port / 4)) then
    let p := (s.boundFn port rid).map fun f => bindPart s f
    let s : State := { s with contained := if header.contain && !s.contained.contains port then s.contained ++ [port] else s.contained }
    let s := s.record p { port := port, rid := rid, header := header.header.toNat }
    .next (match (if header.contain && port % 4 = 0 then s.ntbPorts.idxOf? (port / 4) else none) with
      | some link => if (s.link? link).st = .down then s else s.linkDown link
      | none => s)
  else noEvent "AER_ERROR"

/-! ### Training and keys (R353, R354) -/

/-- LINK_TRAINING: firmware retrains a link that is down; training ends with the link up, where both directions have had a fresh
key, or down again. -/
def execLinkTraining (link : Nat) (up : Bool) (s : State) : Res :=
  let l := s.link? link
  match s.hasLink link, l.st with
  | true, .down => .next (s.updLink link fun l => { l with st := .training })
  | true, .training =>
    if up && !(l.txFresh && l.rxFresh) then noEvent "LINK_TRAINING"
    else .next (s.updLink link fun l =>
      { l with st := if up then .up else .down, replay := [], txSeq := 0, rxSeq := 0, fails := 0, ahead := none })
  | _, _ => noEvent "LINK_TRAINING"

/-- Whether a key slot is the one that its link direction uses. -/
def State.slotInUse (s : State) (k : Nat) : Bool :=
  let l := s.link? (k / 4)
  decide (k < 16) && (k % 2 = 1) == (if k / 2 % 2 = 1 then l.rxSlot else l.txSlot)

/-- A direction of a link that is not up has a fresh key (R354). -/
def State.freshKey (s : State) (k : Nat) : State :=
  if s.slotInUse k && (s.link? (k / 4)).st != .up then
    s.updLink (k / 4) fun l => if k / 2 % 2 = 1 then { l with rxFresh := true } else { l with txFresh := true }
  else s

/-- Whether the IDE streams of a x16 port are up: the root-of-trust core has loaded a key in each direction, two slots for each port and
direction (R335, R383; log 51). Debug unlock zeroes the slots, and the streams go DOWN (R405). -/
def State.ideUp (s : State) (n : Nat) : Bool :=
  let has (k : Nat) : Bool := bitOf (s.keyFlags (16 + 4 * n + k)) 0
  (has 0 || has 1) && (has 2 || has 3)

/-- KEY_LOAD (R353, R383): the key and salt of a slot, its counter at 0. The slot in use is ACTIVE. -/
def execKeyLoad (slot : Nat) (key : List Byte) (salt : Word32) (s : State) : Res :=
  if 48 ≤ slot || key.length != 32 then noEvent "KEY_LOAD"
  else
    let b := keySlotBase slot
    let active := if s.slotInUse slot then 1 else 0
    let s := { s with mem := Memory.writeBytes s.mem b key }.freshKey slot
    .next (((s.wr (b + 0x20) 4 salt.toNat).wr (b + 0x24) 4 (1 + 2 * active)).wr (b + 0x28) 8 0)

end Sys2Proof.Machine
end

