-- ==== Sys2Proof/Machine/Matrix.lean ====
section
/-! DEFINITION. Machine/Matrix.lean: tiles, the matrix unit, gangs and the instructions 0xA0 to 0xA8 (R112, R113, R170 to
R183). An operation reads its operands and forms its result when it issues; the tile and FLAGS take the result when
MATRIX_OP_COMPLETE runs, in the order in which the unit takes operations (R173). -/
namespace Sys2Proof.Machine

/-! ### Shapes and views (R170, R171) -/

/-- A shape: MODE.TYPE, the format of the accumulator's elements, rows, columns, depth, bits of an input element. -/
structure MatShape where
  t : Nat
  acc : Nat
  m : Nat := 64
  n : Nat := 64
  k : Nat
  bits : Nat
  deriving DecidableEq, Repr, Inhabited

/-- The shape of a MODE.TYPE, if it has one. -/
def matShape (t : Nat) : Option MatShape :=
  match t with
  | 0x08 => some { t := t, acc := 0x08, m := 32, k := 4, bits := 64 }
  | 0x09 => some { t := t, acc := 0x09, k := 8, bits := 32 }
  | 0x0A => some { t := t, acc := 0x09, k := 32, bits := 16 }
  | 0x0B => some { t := t, acc := 0x09, k := 32, bits := 16 }
  | 0x0C => some { t := t, acc := 0x09, k := 64, bits := 8 }
  | 0x0D => some { t := t, acc := 0x09, k := 64, bits := 8 }
  | 0x00 => some { t := t, acc := 0x04, k := 64, bits := 8 }
  | 0x0F => some { t := t, acc := 0x09, k := 128, bits := 4 }
  | _ => none

/-- The words of one row of n elements; a b4 row has its four scale bytes after its codes (R176). -/
def MatShape.rowWords (h : MatShape) (n : Nat) : Nat := if h.t = 0x0F then 17 else n * h.bits / 32

/-- The view of a tile that an accumulator format has: element (i, j) (R170). -/
def tileElem (acc : Nat) (ws : Cells PWord) (i j : Nat) : PDword :=
  if acc = 0x08 then
    let q := (2 * i + j / 32) * 64 + 2 * (j % 32)
    let lo := ws.get {} q
    let hi := ws.get {} (q + 1)
    { val := hi.val ++ lo.val, poison := lo.poison || hi.poison }
  else
    let w := ws.get {} (64 * i + j)
    { val := w.val.setWidth 64, poison := w.poison }

/-- The words of a tile from its elements, poison clear. -/
def tileOf (acc : Nat) (f : Nat → Nat → Nat) : Cells PWord :=
  let word (q : Nat) : Nat :=
    if acc = 0x08 then
      let i := q / 128
      let j := q / 64 % 2 * 32 + q % 64 / 2
      f i j / 2 ^ (32 * (q % 2)) % 2 ^ 32
    else f (q / 64) (q % 64)
  (List.range 4096).filterMap fun q =>
    let v := word q
    if v = 0 then none else some (q, { val := BitVec.ofNat 32 v })

/-! ### Operands (R176, R178) -/

/-- Word w of row r of a register fragment, which lies in group 0 (R172, R176). -/
def Agent.fragWord (a : Agent) (wide : Bool) (base perRow r w : Nat) : PWord :=
  if wide then
    let e := r * (perRow / 2) + w / 2
    a.getV (base + 2 * (e / a.gw) + w % 2) (e % a.gw)
  else
    let q := r * perRow + w
    a.getV (base + q / a.gw) (q % a.gw)

/-- The registers of a fragment of n words. -/
def Agent.fragRegs (a : Agent) (base n : Nat) : List Reg := (List.range ((n + a.gw - 1) / a.gw)).map fun i => .v (base + i)

/-- The lanes of group 0 that hold a poisoned word of a fragment's registers. -/
def Agent.fragPoison (a : Agent) (base n : Nat) : List Nat :=
  (List.range a.gw).filter fun l =>
    (List.range ((n + a.gw - 1) / a.gw)).any fun i => (a.getV (base + i) l).poison

/-- A scratchpad descriptor (R178). -/
structure Desc where
  swz : BitVec 2
  rot : Nat
  depth : Nat
  tpitch : Nat
  rpitch : Nat
  base : Nat
  deriving DecidableEq, Repr, Inhabited

/-- Read a descriptor. -/
def descOf (v : Dword) : Desc :=
  let n := v.toNat
  { swz := BitVec.ofNat 2 (bitsOf n 63 62), rot := bitsOf n 61 56, depth := bitsOf n 55 53 + 1,
    tpitch := 16 * bitsOf n 52 37, rpitch := 4 * bitsOf n 36 21, base := bitsOf n 20 0 }

/-- The logical offset of row i of step r. -/
def Desc.row (d : Desc) (r i : Nat) : Nat := d.base + r * d.tpitch + i * d.rpitch

/-- The bank address of a logical offset. -/
def Desc.place (d : Desc) (u : Nat) : Nat :=
  let p := swizzle u d.swz
  p / 256 * 256 + (p / 4 % 64 + d.rot) % 64 * 4 + p % 4

/-- The key of a logical offset in an agent's grant. -/
def Agent.descKey (a : Agent) (d : Desc) (u : Nat) : Nat := scratchKey a.cluster (a.scratchBase + d.place u)

/-- A word of the scratchpad with its poison. -/
def State.wordAt (s : State) (k : Nat) : PWord :=
  { val := BitVec.ofNat 32 (s.rd k 4), poison := s.poison.get false (k / 4) }

/-- The lowest logical offset at or beyond the grant among rows of n bytes at the given offsets (R175). -/
def beyondGrant (grant : Nat) (rows : List Nat) (n : Nat) : Option Nat :=
  (rows.filterMap fun u => if grant < u + n then some (max u grant) else none).min?

/-- A matrix operand as its row words: row, word. -/
abbrev RowWords := Nat → Nat → PWord

/-- An element of a row as an exact value (R105, R112, R113). -/
def MatShape.elem (h : MatShape) (ftz : Bool) (row : Nat → PWord) (e : Nat) : Num :=
  let w (i : Nat) : Nat := (row i).val.toNat
  if h.t = 0x0F then
    let sc := elemOf 8 (w 16) (e / 32)
    blockValue (sc / 64) (sc % 64) (elemOf 4 (w (e / 8)) (e % 8))
  else if h.t = 0x00 then Num.ofInt (toInt 8 (elemOf 8 (w (e / 4)) (e % 4)))
  else
    let v := if h.bits = 64 then w (2 * e) + w (2 * e + 1) * 2 ^ 32
      else elemOf h.bits (w (e * h.bits / 32)) (e % (32 / h.bits))
    (fmtOf h.t).read ftz v

/-- The rows of A, each K values. -/
def MatShape.rowsA (h : MatShape) (ftz : Bool) (a : RowWords) : List (List Num) :=
  (List.range h.m).map fun i => (List.range h.k).map fun k => h.elem ftz (a i) k

/-- The columns of B, each K values; with T, element (k, j) is in row j. -/
def MatShape.colsB (h : MatShape) (ftz tr : Bool) (b : RowWords) : List (List Num) :=
  (List.range h.n).map fun j => (List.range h.k).map fun k =>
    if tr then h.elem ftz (b j) k else h.elem ftz (b k) j

/-- How many rows and words a row B has. -/
def MatShape.shapeB (h : MatShape) (tr : Bool) : Nat × Nat :=
  if tr then (h.n, h.rowWords h.k) else (h.k, h.rowWords h.n)

/-! ### Exact dots (R112) -/

/-- The terms of a sum so far: the finite part, what infinities and NaNs were met, and the exceptions. -/
structure DotSum where
  fin : Option Num := none
  pos : Bool := false
  neg : Bool := false
  nan : Bool := false
  exc : Nat := 0
  deriving DecidableEq, Repr, Inhabited

/-- Add an exact term. -/
def DotSum.term (rnd : Nat) (d : DotSum) (x : Num × Nat) : DotSum :=
  let d := { d with exc := d.exc ||| x.2 }
  match x.1 with
  | .nan sig => { d with nan := true, exc := if sig then d.exc ||| excInvalid else d.exc }
  | .inf n => if n then { d with neg := true } else { d with pos := true }
  | y => { d with fin := some (match d.fin with | some f => (f.add rnd y).1 | none => y) }

/-- The sum's exact value with its exceptions. -/
def DotSum.total (d : DotSum) : Num × Nat :=
  if d.pos && d.neg then (.nan false, d.exc ||| excInvalid)
  else if d.nan then (.nan false, d.exc)
  else if d.pos then (.inf false, d.exc)
  else if d.neg then (.inf true, d.exc)
  else (d.fin.getD (.exact false 0 0), d.exc)

/-- The products of a dot, added to a sum. -/
def DotSum.dot (rnd : Nat) : DotSum → List Num → List Num → DotSum
  | d, x :: xs, y :: ys => DotSum.dot rnd (d.term rnd (x.mul y)) xs ys
  | d, _, _ => d

/-- One accumulator element: the pattern and the exceptions (R112, R113). `mode` is 0 acc, 1 ovr, 2 decay. -/
def MatShape.cell (h : MatShape) (mode rnd : Nat) (ftz : Bool) (lam : Num) (c : Nat) (x y : List Num) : Nat × Nat :=
  if h.acc = 0x04 then
    match (DotSum.dot 0 {} x y).total.1 with
    | .fin neg m e _ => (ofInt 32 (signed neg (m * 2 ^ e.toNat) + if mode = 0 then (c : Int) else 0), 0)
    | _ => (0, 0)
  else
    let f := fmtOf h.acc
    let first : DotSum :=
      if mode = 1 then {}
      else
        let v := f.read ftz c
        DotSum.term rnd {} (if mode = 2 then lam.mul v else (v, 0))
    f.finish rnd ftz (DotSum.dot rnd first x y).total

/-- All elements of a product, with the exceptions of each row. -/
def MatShape.product (h : MatShape) (mode rnd : Nat) (ftz : Bool) (lam : Num) (tile : Cells PWord)
    (rows cols : List (List Num)) : Cells PWord × List (Nat × Nat) :=
  let cells : List (List (Nat × Nat)) := rows.zipIdx.map fun (x : List Num × Nat) =>
    cols.zipIdx.map fun (y : List Num × Nat) =>
      h.cell mode rnd ftz lam (tileElem h.acc tile x.2 y.2).val.toNat x.1 y.1
  (tileOf h.acc fun i j => ((cells.getD i []).getD j (0, 0)).1,
   cells.zipIdx.map fun (r : List (Nat × Nat) × Nat) => (r.2, orExc r.1))

/-- The exceptions of each lane from those of each row: row i belongs to lane i mod W (R172). -/
def ownerExc (w : Nat) (es : List (Nat × Nat)) : List (Nat × Nat) :=
  (List.range w).map fun l => (l, orExc (es.filter fun c => c.1 % w = l))

/-! ### The unit and its slots (R173, R174) -/

/-- The shadow slots of a core in use. -/
def State.slotsUsed (s : State) (core : Nat) : Nat :=
  ((s.matrix.get [] core).filter (·.slot)).length +
  ((s.agents.filter fun c => c.2.isTeam && c.2.core = core).map fun c =>
    match c.2.sketch with | some k => k.tiles.length | none => 0).sum

/-- Take the shadow slots that a write of a tile needs: one for the operation if it restores on a fault, or the
tile's tracing slot at its first write in the sketch; none while they are all in use. Answers whether the operation
itself holds a slot. -/
def State.takeSlot (s : State) (tile : Nat) (restores : Bool) : Option (Bool × State) :=
  match s.me.sketch with
  | some k =>
    if k.tiles.contains tile then
      if restores && decide (4 ≤ s.slotsUsed s.me.core) then none else some (restores, s)
    else if 4 ≤ s.slotsUsed s.me.core then none
    else some (false, s.updMe fun a => { a with sketch := some { k with tiles := tile :: k.tiles } })
  | none => if restores && decide (4 ≤ s.slotsUsed s.me.core) then none else some (restores, s)

/-- Give the unit an operation. -/
def State.addMatrixOp (s : State) (op : MatrixOp) : State :=
  let core := s.me.core
  { s with matrix := s.matrix.put [] core (s.matrix.get [] core ++ [op]) }

/-- An operation of the agent whose turn it is. -/
def State.matrixOp (s : State) (tile : Nat) (result : Cells PWord) (flags : Nat) (slot : Bool) : MatrixOp :=
  { agent := s.meId, tile := tile, result := result, flags := BitVec.ofNat 32 flags, cls := s.me.cls,
    admission := s.me.admission, slot := slot, inSketch := s.me.sketch.isSome, since := s.time.toNat }

/-- Scratchpad stores of an agent, in order: words by key, with their poison (R180, R232). -/
def State.storeWords (s : State) (agent : Nat) (ws : List (Nat × PWord)) : State :=
  (ws.foldl (fun (s : State) (c : Nat × PWord) =>
    let keys := (List.range 4).map (c.1 + ·)
    (s.writeKeys keys (leBytes 4 c.2.val.toNat) c.2.poison).markDirty keys) s).notifyWrite
    (some agent) (ws.map fun c => unitOf c.1).eraseDups

/-- MATRIX_OP_COMPLETE (R173, R182): the tile and FLAGS take the result of the running operation, or the scratchpad the words of
an AST, the members of a gang are released, and the unit takes its next operation. -/
def execMatrixOpComplete (core : Nat) (s : State) : Res :=
  match s.matrix.get [] core with
  | [] => .fault (.notEnabled "MATRIX_OP_COMPLETE")
  | o :: rest =>
    let s := { s with matrix := s.matrix.put [] core (s.pickNext rest) }
    let s := if !o.stores.isEmpty then s.storeWords o.agent o.stores
      else s.updAgent o.agent fun a => a.deliver o.inSketch fun a =>
        let a := a.setTile o.tile o.result
        { a with regs := { a.regs with flags := a.regs.flags ||| o.flags } }
    .next (o.members.foldl (fun s id => s.asAgent id fun s =>
      match s.me.wait with
      | .gang (.mmaDecay ..) => retire { ext := true } s
      | .gang (.mmadDecay ..) => retire { ext := true } s
      | .gang _ => retire {} s
      | _ => s) s)

/-! ### Multiply-accumulate (R177, R179, R182, R183) -/

/-- A multiply-accumulate's own fields: mode, T, G, tile, λ register; operands in registers or by descriptor. -/
structure MmaArgs where
  scratch : Bool
  mode : Nat
  tr : Bool
  gang : Bool
  tile : Nat
  a : Nat
  b : Nat
  lam : Option Nat := none
  deriving DecidableEq, Repr, Inhabited

/-- The fields of an instruction. -/
def mmaArgs : Instr → MmaArgs
  | .mma d t g m a b => { scratch := false, mode := if m then 1 else 0, tr := t, gang := g, tile := d.toNat, a := a.toNat, b := b.toNat }
  | .mmaDecay d t g a b l =>
    { scratch := false, mode := 2, tr := t, gang := g, tile := d.toNat, a := a.toNat, b := b.toNat, lam := some l.toNat }
  | .mmad d t g m a b => { scratch := true, mode := if m then 1 else 0, tr := t, gang := g, tile := d.toNat, a := a.toNat, b := b.toNat }
  | .mmadDecay d t g a b l =>
    { scratch := true, mode := 2, tr := t, gang := g, tile := d.toNat, a := a.toNat, b := b.toNat, lam := some l.toNat }
  | _ => default

/-- What an operand phase answers for one member: the rows of A and columns of B, or a cause with its lanes. -/
inductive MatOperands where
  | ok (rows cols : List (List Num))
  | bad (c : Cause) (lanes : LaneMask)
  deriving DecidableEq, Repr, Inhabited

/-- The operands of register form (R176, R177). -/
def Agent.regOperands (a : Agent) (h : MatShape) (ftz tr : Bool) (x : MmaArgs) : MatOperands :=
  let wide := h.bits == 64
  let wa := h.rowWords h.k
  let (rb, wb) := h.shapeB tr
  let na := h.m * wa
  let nb := rb * wb
  let legal := (a.fragRegs x.a na ++ a.fragRegs x.b nb).all a.inBudget && (!wide || (x.a % 2 == 0 && x.b % 2 == 0))
  let bad := (a.fragPoison x.a na ++ a.fragPoison x.b nb).eraseDups
  if !legal then .bad .illegal a.exec
  else if !bad.isEmpty then .bad .poison (maskOf bad)
  else .ok (h.rowsA ftz (a.fragWord wide x.a wa)) (h.colsB ftz tr (a.fragWord wide x.b wb))

/-- The operands of descriptor form (R175, R178, R179). -/
def State.descOperands (s : State) (a : Agent) (h : MatShape) (ftz tr : Bool) (x : MmaArgs) : MatOperands :=
  let va := a.getS x.a
  let vb := a.getS x.b
  if va.poison || vb.poison then .bad .poison a.exec
  else
    let da := descOf va.val
    let db := descOf vb.val
    if da.base % 4 != 0 || db.base % 4 != 0 || db.depth != 1 then .bad .illegal a.exec
    else
      let wa := h.rowWords h.k
      let (rb, wb) := h.shapeB tr
      let steps := List.range da.depth
      let startsA := steps.flatMap fun r => (List.range h.m).map (da.row r)
      let startsB := steps.flatMap fun r => (List.range rb).map (db.row r)
      match (beyondGrant a.grant startsA (4 * wa)).toList ++ (beyondGrant a.grant startsB (4 * wb)).toList with
      | u :: us => .bad { code := 0x09, addr := BitVec.ofNat 64 (scratchWindow + us.foldl min u) } a.exec
      | [] =>
        let word (d : Desc) (r i w : Nat) : PWord := s.wordAt (a.descKey d (d.row r i + 4 * w))
        let bad := steps.any fun r =>
          (List.range h.m).any (fun i => (List.range wa).any fun w => (word da r i w).poison) ||
          (List.range rb).any (fun i => (List.range wb).any fun w => (word db r i w).poison)
        if bad then .bad .poison a.exec
        else
          let cat (f : Nat → List (List Num)) : List (List Num) :=
            steps.foldl (fun acc r => if r = 0 then f 0 else acc.zipWith (· ++ ·) (f r)) []
          .ok (cat fun r => h.rowsA ftz (word da r)) (cat fun r => h.colsB ftz tr (word db r))

/-- The operands of a member under the leader's shape and transposition. -/
def State.operands (s : State) (a : Agent) (h : MatShape) (ftz tr : Bool) (x : MmaArgs) : MatOperands :=
  if x.scratch then s.descOperands a h ftz tr x else a.regOperands h ftz tr x

/-- What a leader's tile and λ answer: a cause, or the accumulator's words and λ (R177). -/
def Agent.accOperands (a : Agent) (ftz : Bool) (x : MmaArgs) : Cells PWord × Num × Bool :=
  let lam := match x.lam with | some l => a.getS l | none => {}
  let t := a.tile x.tile
  (t, (fmtOf 0x09).read ftz (lam.val.toNat % 2 ^ 32), lam.poison || (x.mode != 1 && t.any fun c => c.2.poison))

/-- Form the result and give it to the unit, or trap (R177, R182): the agent whose turn it is leads. -/
def mmaFinish (h : MatShape) (x : MmaArgs) (rows cols : List (List Num)) (slot : Bool) (members : List Nat)
    (done : State → State) (fail : Cause → LaneMask → State → State) (s : State) : Res :=
  let a := s.me
  let ftz := modeFtz a.regs.mode
  let (tile, lam, bad) := a.accOperands ftz x
  if bad then .next (fail .poison a.exec s)
  else
    let r := h.product x.mode (modeRnd a.regs.mode) ftz lam tile rows cols
    let es := ownerExc a.gw r.2
    let t := es.filter fun c => a.enabled c.2 != 0
    if t.isEmpty then
      .next (done (s.addMatrixOp { s.matrixOp x.tile r.1 (orExc es) slot with members := members }))
    else .next (fail (.arith (a.enabled (orExc t))) (maskOf (t.map (·.1))) s)

/-- A trap of the agent whose turn it is, its arrival withdrawn. -/
def withdrawn (c : Cause) (lanes : LaneMask) (s : State) : State :=
  (s.updMe fun a => { a with wait := .none }).issued.raise c lanes s.me.pc

/-- The members of a gang whose arrivals fire together, in slot order; none while one is missing (R182). -/
def State.gangMembers (s : State) : Option (List (Nat × Agent)) :=
  let a := s.me
  let slots := (List.range 32).filter fun i => a.regs.gang.getLsbD i
  let found := slots.map fun i => s.agents.find? fun c =>
    c.2.isTeam && c.2.core = a.core && c.2.slot = i && c.2.part = a.part && c.2.launch = a.launch &&
    c.2.regs.gang = a.regs.gang && (match c.2.wait with | .gang _ => true | _ => false)
  if found.all (·.isSome) then some (found.filterMap id) else none

/-- A member's instruction. -/
def Agent.gangArgs (a : Agent) : MmaArgs :=
  match a.wait with
  | .gang i => mmaArgs i
  | _ => default

/-- Fire the latch (R182, R183): the leader is the member in the lowest slot; faulting members withdraw and trap, and
the others keep their arrivals. -/
def fireGang (ms : List (Nat × Agent)) (s : State) : Res :=
  match ms with
  | [] => .next s
  | (lead, la) :: _ =>
    let x := la.gangArgs
    let ftz := modeFtz la.regs.mode
    match matShape la.ty with
    | none => .next (s.asAgent lead (withdrawn .illegal la.exec))
    | some h =>
      let os := ms.map fun (m : Nat × Agent) => (m, s.operands m.2 h ftz x.tr m.2.gangArgs)
      let bad := os.filter fun o => match o.2 with | .bad .. => true | .ok .. => false
      let (_, _, leadBad) := la.accOperands ftz x
      if !bad.isEmpty || leadBad then
        let s := bad.foldl (fun s (o : (Nat × Agent) × MatOperands) => match o.2 with
          | .bad c lanes => s.asAgent o.1.1 (withdrawn c lanes)
          | .ok .. => s) s
        .next (if leadBad && bad.all (fun o => o.1.1 != lead) then s.asAgent lead (withdrawn .poison la.exec) else s)
      else
        let cat (f : MatOperands → List (List Num)) : List (List Num) :=
          (os.map fun o => f o.2).foldl (fun acc r => if acc.isEmpty then r else acc.zipWith (· ++ ·) r) []
        let rows := cat fun o => match o with | .ok r _ => r | .bad .. => []
        let cols := cat fun o => match o with | .ok _ c => c | .bad .. => []
        match s.switchTo lead with
        | none => .next s
        | some s' => match mmaFinish h x rows cols true (ms.map (·.1)) id withdrawn s' with
          | .next s'' => .next ((s''.switchTo s.meId).getD s'')
          | r => r

/-- Whether a gang member's own GANG names another slot, the lowest, as its leader's (R182). -/
def Agent.led (a : Agent) : Bool :=
  match (List.range 32).find? fun i => a.regs.gang.getLsbD i with
  | some j => j != a.slot
  | none => false

/-- Whether nothing is pending on any v or s register of the agent whose turn it is: a member that another team leads arrives
only then, since the leader's type decides which registers its fields cover (R43, R182). -/
def State.settled (s : State) : Bool :=
  s.me.loads.isEmpty && s.me.varlat.isEmpty && s.me.transforms.isEmpty && s.me.storeQ.all (·.ret.isNone) &&
  s.me.score.all fun c => decide (c.2 ≤ s.time.toNat)

/-- MMA and MMAD (R177, R179): an empty execution mask has no effect; a gang member arrives at the latch. Of a member that another
team leads, the tile field is judged by budget alone, and A and B under the leader's MODE and T when the latch fires (R182).
GANG = 0 with G = 1 is a field's illegal value, judged with ILLEGAL of step 3 of R63 (log 47). -/
def mma (i : Instr) (s : State) : Res :=
  let x := mmaArgs i
  let a := s.me
  let led := x.gang && a.led
  let h := matShape a.ty
  let ext := x.lam.isSome
  let regs : List Reg :=
    if x.scratch then a.sRegs x.a ++ a.sRegs x.b
    else if led then []
    else match h with
      | some h => a.fragRegs x.a (h.m * h.rowWords h.k) ++ a.fragRegs x.b ((h.shapeB x.tr).1 * (h.shapeB x.tr).2)
      | none => []
  let typeOk := match h with
    | some h => !(h.t == 0x00 && x.mode == 2) && !(h.t == 0x0F && !x.tr) &&
        (x.scratch || h.bits != 64 || (x.a % 2 == 0 && x.b % 2 == 0))
    | none => false
  let n : Need := { legal := a.isTeam && (if led then a.inBudget (.a x.tile) else typeOk) && (!x.gang || a.regs.gang != 0#32),
                    ext := ext, lat := 0
                    reads := regs ++ (match x.lam with | some l => a.sRegs l | none => []) ++ a.guardReg
                    writes := if led then [] else [.a x.tile] }
  issue n (fun s =>
    if s.me.exec = 0 then .next (retire n s)
    else if x.gang then
      (if x.scratch then waitPerformed else waitInk) (fun s =>
        if 4 ≤ s.slotsUsed s.me.core || (led && !s.settled) then hold s
        else
          let s := s.updMe fun a => { a with wait := .gang i }
          match s.gangMembers with
          | some ms => fireGang ms s
          | none => .next s) s
    else
      (if x.scratch then waitPerformed else fun (f : State → Res) (s : State) => f s) (fun s =>
        match h with
        | none => trap .illegal s
        | some h =>
          match s.operands s.me h (modeFtz s.me.regs.mode) x.tr x with
          | .bad c lanes => trapIn c lanes s
          | .ok rows cols =>
            match s.takeSlot x.tile true with
            | none => hold s
            | some (slot, s) =>
              mmaFinish h x rows cols slot [] (retire n) (fun c lanes s => s.issued.raise c lanes s.me.pc) s) s) s

def execMma (d : BitVec 4) (t g m : Bool) (a b : BitVec 8) (s : State) : Res := mma (.mma d t g m a b) s
def execMmaDecay (d : BitVec 4) (t g : Bool) (a b : BitVec 8) (l : BitVec 7) (s : State) : Res :=
  mma (.mmaDecay d t g a b l) s
def execMmad (d : BitVec 4) (t g m : Bool) (a b : BitVec 7) (s : State) : Res := mma (.mmad d t g m a b) s
def execMmadDecay (d : BitVec 4) (t g : Bool) (a b l : BitVec 7) (s : State) : Res := mma (.mmadDecay d t g a b l) s

/-! ### Tile moves, scaling and sums (R180) -/

/-- A tile instruction that needs no scratchpad: `f` answers the result with its exceptions, or a cause; the write of
the tile is traced by a shadow slot in a sketch. -/
def tileInstr (n : Need) (tile : Nat) (f : Agent → Option (Cells PWord × List (Nat × Nat))) (s : State) : Res :=
  issue n (fun s =>
    if s.me.exec = 0 then .next (retire n s)
    else match f s.me with
      | none => trapIn .poison s.me.exec s
      | some (ws, rows) =>
        let es := ownerExc s.me.gw rows
        let t := es.filter fun c => s.me.enabled c.2 != 0
        if !t.isEmpty then trapIn (.arith (s.me.enabled (orExc t))) (maskOf (t.map (·.1))) s
        else match s.takeSlot tile false with
          | none => hold s
          | some (_, s) => .next (retire n (s.addMatrixOp (s.matrixOp tile ws (orExc es) false)))) s

/-- The need of a tile instruction. -/
def Agent.tileNeed (a : Agent) (ok : Bool) (dst : Nat) (srcs : List Reg) : Need :=
  { legal := a.isTeam && ok, reads := srcs ++ a.guardReg, writes := [.a dst], lat := 0 }

/-- AZERO. -/
def execAzero (d : BitVec 4) (s : State) : Res :=
  tileInstr (s.me.tileNeed true d.toNat []) d.toNat (fun _ => some ([], [])) s

/-- AMOV: bits and poison. -/
def execAmov (d a : BitVec 4) (s : State) : Res :=
  tileInstr (s.me.tileNeed true d.toNat [.a a.toNat]) d.toNat (fun g => some (g.tile a.toNat, [])) s

/-- A function of the tile's elements with exceptions, by rows. -/
def tileMap (h : MatShape) (f : Nat → Nat → Nat × Nat) : Cells PWord × List (Nat × Nat) :=
  let cells := (List.range h.m).map fun i => (List.range h.n).map fun j => f i j
  (tileOf h.acc fun i j => ((cells.getD i []).getD j (0, 0)).1,
   cells.zipIdx.map fun (r : List (Nat × Nat) × Nat) => (r.2, orExc r.1))

/-- ASCL. -/
def execAscl (d : BitVec 4) (x : BitVec 7) (s : State) : Res :=
  let h := matShape s.me.ty
  let ok := match h with | some h => h.acc != 0x04 | none => false
  tileInstr (s.me.tileNeed ok d.toNat (.a d.toNat :: s.me.sRegs x.toNat)) d.toNat (fun g =>
    let v := g.getS x.toNat
    let t := g.tile d.toNat
    if v.poison || t.any (fun c => c.2.poison) then none
    else match h with
      | none => none
      | some h =>
        let f := fmtOf h.acc
        let ftz := modeFtz g.regs.mode
        let k := f.read ftz (v.val.toNat % 2 ^ f.w)
        some (tileMap h fun i j =>
          f.finish (modeRnd g.regs.mode) ftz (k.mul (f.read ftz (tileElem h.acc t i j).val.toNat)))) s

/-- AADD. -/
def execAadd (d a : BitVec 4) (s : State) : Res :=
  let h := matShape s.me.ty
  tileInstr (s.me.tileNeed h.isSome d.toNat [.a d.toNat, .a a.toNat]) d.toNat (fun g =>
    let t := g.tile d.toNat
    let u := g.tile a.toNat
    if (t ++ u).any (fun c => c.2.poison) then none
    else match h with
      | none => none
      | some h =>
        let f := fmtOf h.acc
        let ftz := modeFtz g.regs.mode
        let rnd := modeRnd g.regs.mode
        some (tileMap h fun i j =>
          let x := (tileElem h.acc t i j).val.toNat
          let y := (tileElem h.acc u i j).val.toNat
          if h.acc = 0x04 then ((x + y) % 2 ^ 32, 0)
          else f.finish rnd ftz ((f.read ftz x).add rnd (f.read ftz y)))) s

/-- ALD and AST: the descriptor is judged, then every row against the grant (R175, R178). -/
def tileMove (n : Need) (x : BitVec 7) (acc : Nat) (body : Desc → State → Res) (s : State) : Res :=
  issue n (fun s =>
    if s.me.exec = 0 then .next (retire n s)
    else waitPerformed (fun s =>
      let v := s.me.getS x.toNat
      let d := descOf v.val
      if v.poison then trapIn .poison s.me.exec s
      else if d.base % 4 != 0 || d.depth != 1 then trapIn .illegal s.me.exec s
      else match beyondGrant s.me.grant ((List.range 64).map (d.row 0)) 256 with
        | some u => trapIn { code := 0x09, addr := BitVec.ofNat 64 (scratchWindow + u), acc := acc } s.me.exec s
        | none => body d s) s) s

/-- ALD. -/
def execAld (d : BitVec 4) (x : BitVec 7) (s : State) : Res :=
  let n := s.me.tileNeed true d.toNat (s.me.sRegs x.toNat)
  tileMove n x accLoad (fun e s =>
    let ws : Cells PWord := (List.range 4096).filterMap fun q =>
      let w := s.wordAt (s.me.descKey e (e.row 0 (q / 64) + 4 * (q % 64)))
      if w = {} then none else some (q, w)
    .next (retire n (s.addMatrixOp (s.matrixOp d.toNat ws 0 false)))) s

/-- AST: its words are stores of the team, which the unit writes; its operand phase lasts as long as it holds the unit, so the
team issues nothing younger before (R173, R180, R232). Where a descriptor's rows overlap (R178), the later row stays, of which no
rule speaks (log 47). -/
def execAst (d : BitVec 4) (x : BitVec 7) (s : State) : Res :=
  let n := { s.me.tileNeed true d.toNat (.a d.toNat :: s.me.sRegs x.toNat) with writes := [] }
  tileMove n x accStore (fun e s =>
    let ws := s.me.tile d.toNat
    let words := (List.range 4096).map fun q => (s.me.descKey e (e.row 0 (q / 64) + 4 * (q % 64)), ws.get {} q)
    .next (retire n (s.addMatrixOp { s.matrixOp d.toNat [] 0 false with stores := words }))) s

/-- GANG (R181). -/
def execGang (a : BitVec 7) (s : State) : Res :=
  let n := { s.me.scalarNeed [] [a.toNat] with legal := s.me.isTeam }
  issue n (fun s =>
    let x := s.me.getS a.toNat
    consume [x] (fun s =>
      let g := s.me
      let slots := (List.range 32).filter fun i => x.val.getLsbD i
      let ok := x.val == 0 || (decide (x.val.toNat < 2 ^ 32) && decide (2 ≤ slots.length ∧ slots.length ≤ 6) &&
        slots.contains g.slot && decide (g.lanes = g.gw) && g.span.isNone)
      if ok then .next (retire n (s.updMe fun g => { g with regs := { g.regs with gang := x.val.setWidth 32 } }))
      else trap .illegal s) s) s

end Sys2Proof.Machine
end

