-- ==== Sys2Proof/Machine/Transform.lean ====
section
/-! DEFINITION. Machine/Transform.lean: the transform pipe, XDEC and XCRC (R184 to R189). An instruction is judged when it
issues, and TRANSFORM_REPLY runs it. -/
namespace Sys2Proof.Machine

/-- Send an instruction to the pipe of each core that has lanes of its execution mask: it has issued, and its destination
registers are pending until the last of them has replied (R43, R184). -/
def toPipe (n : Need) (o : TransformOp) (s : State) : State :=
  let o := { o with regs := n.writes, exec := s.me.exec, mode := s.me.regs.mode, pc := s.me.pc, since := s.time.toNat,
                    inSketch := s.me.sketch.isSome, cores := (s.me.execLanes.map s.me.coreOf).eraseDups }
  (retire n (s.updMe fun a => { a with transforms := a.transforms ++ [o] })).feedPipes s.me

/-! ### XCRC (R189) -/

/-- The groups that have an exec lane, each as its exec lanes. -/
def Agent.execGroups (a : Agent) : List (List Nat) :=
  ((List.range (a.lanes / a.gw)).map fun g => a.execLanes.filter fun l => l / a.gw = g).filter (!·.isEmpty)

/-- Feed n bits of a word to a CRC state, least significant first. -/
def crcBits (poly : Nat) : Nat → Nat → Nat → Nat
  | 0, _, crc => crc
  | n + 1, w, crc => crcBits poly n (w / 2) ((crc / 2) ^^^ (if (crc ^^^ w) % 2 = 1 then poly else 0))

/-- The need of XCRC. -/
def Agent.xcrcNeed (a : Agent) (d x y c : Nat) : Need :=
  { a.vecNeed (c % 2 == 0) false [d] [x, y, c, c + 1] 0 true with lat := 0, pass := 0 }

/-- What XCRC writes: every exec lane of a group takes the CRC of its exec lanes' bytes (R189). -/
def Agent.xcrcWrites (g : Agent) (d a b c : Nat) : List RegWrite :=
  let crc (ls : List Nat) : Nat :=
    let first := ls.headD 0
    let poly := if (g.getV (c + 1) first).val.toNat % 4 = 0 then 0xEDB88320 else 0x82F63B78
    ls.foldl (fun st l => crcBits poly (8 * ((g.getV b l).val.toNat % 8)) (g.getV a l).val.toNat st)
      (g.getV c first).val.toNat
  g.execGroups.flatMap fun ls => ls.map fun l => { reg := .v d, lane := l, val := clean (BitVec.ofNat 64 (crc ls)) }

/-- XCRC. -/
def execXcrc (d a b c : BitVec 8) (s : State) : Res :=
  issue (s.me.xcrcNeed d.toNat a.toNat b.toNat c.toNat) (fun s =>
    let g := s.me
    let low (l : Nat) : Bool := g.execGroups.any fun ls => ls.head? = some l
    let p (r l : Nat) : Bool := (g.getV r l).poison
    let n := g.xcrcNeed d.toNat a.toNat b.toNat c.toNat
    consumeLanes (fun l => p a.toNat l || p b.toNat l || (low l && (p c.toNat l || p (c.toNat + 1) l))) (fun s =>
      let bad := g.execLanes.filter fun l =>
        decide (4 < (g.getV b.toNat l).val.toNat % 8) || (low l && decide (1 < (g.getV (c.toNat + 1) l).val.toNat % 4))
      if g.exec = 0 then .next (retire n s)
      else if !bad.isEmpty then trapIn .illegal (maskOf bad) s
      else .next (toPipe n { writes := g.xcrcWrites d.toNat a.toNat b.toNat c.toNat } s)) s) s

/-! ### XDEC (R185 to R188) -/

/-- The need of XDEC. -/
def Agent.xdecNeed (a : Agent) (d x k c : Nat) : Need :=
  let n := a.vecNeed (d % 4 == 0 && x % 2 == 0 && c % 2 == 0) false [d, d + 1, d + 2, d + 3] [d, d + 1, x, x + 1, c, c + 1] 0 true
  { n with writes := .m k :: n.writes, lat := 0, pass := 0 }

/-- A lane's stream from its registers. -/
def Agent.xlane (a : Agent) (d x c l : Nat) : XLane :=
  let v (r : Nat) : Nat := (a.getV r l).val.toNat
  { ip := v d, op := v (d + 1), ie := v x, oe := v (x + 1), ws := v c, ct := v (c + 1) }

/-- A byte of the grant at a logical offset, with the poison of its word. -/
def State.grantByte (s : State) (o : Nat) : Nat × Bool :=
  let k := s.me.scratchAt o 0
  ((Memory.read s.mem k).toNat, s.poison.get false (k / 4))

/-- n bits of the input from a position, bits at or past the end read as 0, and whether a poisoned word was read. -/
def State.inBits (s : State) (ie pos n : Nat) : Nat × Bool :=
  (List.range n).foldl (fun (acc : Nat × Bool) i =>
    if ie ≤ pos + i then acc
    else
      let b := s.grantByte ((pos + i) / 8)
      (acc.1 + (if bitOf b.1 ((pos + i) % 8) then 2 ^ i else 0), acc.2 || b.2)) (0, false)

/-- A word of the grant. -/
def State.grantWord (s : State) (o : Nat) : Nat × Bool :=
  let b (i : Nat) := s.grantByte (o + i)
  ((b 0).1 + 2 ^ 8 * (b 1).1 + 2 ^ 16 * (b 2).1 + 2 ^ 24 * (b 3).1, (b 0).2 || (b 1).2 || (b 2).2 || (b 3).2)

/-- The lowest offset at or beyond the grant that a lane would access (R185). -/
def State.xbound (s : State) (x : XLane) : Option Nat :=
  let g := s.me.grant
  let range (lo hi : Nat) : List Nat := if lo < hi ∧ g < hi then [max lo g] else []
  let header := if x.ct + 4 ≤ g then (s.grantWord x.ct).1 % 16 else 0
  ((if x.ip < x.ie then range (x.ip / 8) ((x.ie - 1) / 8 + 1) else []) ++ range x.op x.oe ++
   (if g ≤ x.ws then [x.ws] else []) ++ range x.ct (x.ct + 4 + 4 * 2 ^ header)).min?

/-- Write one byte of a lane's output: a store of the team, with its poison (R185, R187, R232). -/
def State.putGrant (s : State) (o v : Nat) (poison : Bool) : State :=
  let k := s.me.scratchAt o 0
  (s.writeKeys [k] [BitVec.ofNat 8 v] poison).markDirty [k]

/-- Copy a match, byte by byte in turn. -/
def copyMatch (o dist : Nat) : Nat → State → State
  | 0, s => s
  | n + 1, s =>
    let b := s.grantByte (o - dist)
    copyMatch (o + 1) dist n (s.putGrant o b.1 b.2)

/-- What a lane answers: its stream, its status, the bytes it wrote, and the state after its accesses. -/
structure XDone where
  x : XLane
  status : Nat
  bytes : Nat
  s : State

/-- The procedure of R187, with how many tokens may still be decoded before it stops. An entry whose NB exceeds L, of which no rule
speaks, counts as a code of that length (log 47). -/
def xdecLane (x : XLane) (n : Nat) : Nat → State → XDone
  | 0, s => { x := x, status := 4, bytes := n, s := s }
  | fuel + 1, s =>
    let stop (st : Nat) : XDone := { x := x, status := st, bytes := n, s := s }
    if 4096 ≤ n then stop 4
    else if x.ip = x.ie then stop 1
    else
      let h := s.grantWord x.ct
      let w := h.1 % 16
      let code := s.inBits x.ie x.ip w
      let e := s.grantWord (x.ct + 4 + 4 * code.1)
      let nb := bitsOf e.1 31 28
      let ex := bitsOf e.1 27 24
      let kind := bitsOf e.1 23 22
      let dw := h.1 / 16 % 16
      let need := nb + ex + (if kind = 1 then dw + 1 else 0)
      if h.2 then stop 7
      else if w = 0 || 12 < w then stop 6
      else if code.2 || e.2 then stop 7
      else if nb = 0 || 12 < ex || kind = 3 then stop 6
      else if x.ie < x.ip + need then stop 2
      else if kind = 2 then { x := { x with ip := x.ip + nb }, status := 0, bytes := n, s := s }
      else
        let extra := s.inBits x.ie (x.ip + nb) ex
        let dist := s.inBits x.ie (x.ip + nb + ex) (if kind = 1 then dw + 1 else 0)
        let d := dist.1 + 1
        let len := if kind = 0 then 1 else e.1 % 4096 + extra.1
        if extra.2 || dist.2 then stop 7
        else if x.oe < x.op + len then stop 3
        else if kind = 1 && x.op < x.ws + d then stop 5
        else
          let s := if kind = 0 then s.putGrant x.op (e.1 % 256) false else copyMatch x.op d len s
          xdecLane { x with ip := x.ip + need, op := x.op + len } (n + len) fuel s

/-- XDEC: poison, the table's alignment and the grant are judged at issue (R175, R185). TCAUSE.ACC of its SCRATCH_BOUND is
load, also where only the output range reaches beyond the grant (log 47). -/
def execXdec (d a : BitVec 8) (k : BitVec 4) (c : BitVec 8) (s : State) : Res :=
  let n := s.me.xdecNeed d.toNat a.toNat k.toNat c.toNat
  issue n (fun s =>
    if s.me.exec = 0 then .next (retire n s)
    else waitPerformed (fun s =>
      let g := s.me
      consumeLanes (fun l => [d.toNat, d.toNat + 1, a.toNat, a.toNat + 1, c.toNat, c.toNat + 1].any fun r =>
          (g.getV r l).poison) (fun s =>
        let x (l : Nat) := g.xlane d.toNat a.toNat c.toNat l
        if g.execLanes.any fun l => (x l).ct % 4 != 0 then trapIn .illegal g.exec s
        else
          let bad := g.execLanes.filterMap fun l => (s.xbound (x l)).map fun u => (l, u)
          match (bad.map (·.2)).min? with
          | some u => trapIn { code := 0x09, addr := BitVec.ofNat 64 (scratchWindow + u) } (maskOf (bad.map (·.1))) s
          | none => .next (toPipe n { lanes := g.execLanes.map fun l => (l, x l), vd := d.toNat, maskReg := k.toNat } s)) s) s) s

/-- A trap of an instruction that has left the PC behind: its record and its resume address are its own (R188). A sketch that
younger instructions have opened erases, and a trap that one of them has pending gives way; without a sketch, the younger
instructions keep what they did, and run again after RETT (log 48). -/
def State.raiseAt (s : State) (pc : BitVec 56) (c : Cause) (lanes : LaneMask) : State :=
  ((s.erase s.meId 5).updMe fun a => { a with pendingTrap := none }.setPc pc).raise c lanes pc

/-- Lanes of an XDEC run in turn to their stops, and answer their statuses (R187). It is older than any open sketch, so what it
writes stays when that erases. -/
def runLanes (o : TransformOp) (lanes : List (Nat × XLane)) (tokens : Nat) (s : State) : State × List (Nat × Nat) :=
  let g := s.me
  let run := lanes.foldl (fun (acc : State × List (Nat × Nat) × List Nat) (c : Nat × XLane) =>
    let l := c.1
    let x := c.2
    let r := xdecLane x 0 tokens acc.1
    let put (i v : Nat) (a : Agent) : Agent := a.setV (o.vd + i) l { val := BitVec.ofNat 32 v }
    (r.s.updMe (Agent.deliver false fun a => put 3 r.bytes (put 2 r.status (put 1 r.x.op (put 0 r.x.ip a)))),
     acc.2.1 ++ [(l, r.status)],
     acc.2.2 ++ (List.range (r.x.op - x.op)).map fun i => unitOf (g.scratchAt (x.op + i) 0))) (s, [], [])
  let erring := (run.2.1.filter fun c => decide (5 ≤ c.2)).map (·.1)
  let ran := maskOf (lanes.map (·.1))
  ((run.1.updMe (Agent.deliver false fun a => a.setM o.maskReg ((a.getM o.maskReg &&& ~~~ran) ||| maskOf erring))).notifyWrite
    (some s.meId) run.2.2.eraseDups, run.2.1)

/-- The errors of an XDEC, judged after every lane has stopped: poison before invalid (R188). -/
def judgeXdec (o : TransformOp) (st : List (Nat × Nat)) (s : State) : State :=
  let with_ (ok : Nat → Bool) : List Nat := (st.filter fun c => ok c.2).map (·.1)
  let poisoned := with_ (· == 7)
  let invalid := with_ fun t => t == 5 || t == 6
  if !poisoned.isEmpty then s.raiseAt o.pc .poison (maskOf poisoned)
  else if invalid.isEmpty then s
  else if excInvalid &&& modeTrapen o.mode != 0 then s.raiseAt o.pc (.arith excInvalid) (maskOf invalid)
  else s.updMe (Agent.deliver false fun a => { a with regs := { a.regs with flags := a.regs.flags ||| BitVec.ofNat 32 excInvalid } })

/-- Whether something cuts an XDEC short: a pre-emption deadline that has passed, an order to end the team, a trap that
waits for the reply, or a migration (R187, R205, R214, R401). -/
def State.cutPending (s : State) (a : Agent) : Bool :=
  a.killed || a.pendingTrap.isSome || a.migrating ||
  (match a.preq with | some (t, _) => decide (t ≤ s.time.toNat) | none => false)

/-- One register element of a result that arrives. -/
def Agent.writeResult (a : Agent) (w : RegWrite) : Agent :=
  match w.reg with
  | .v n => a.setV n w.lane { val := w.val.val.setWidth 32, poison := w.val.poison }
  | g => a.setReg g w.val

/-- The reply of one core's pipe with the lanes of an instruction on that core; XDEC's errors are judged when the last pipe has
replied (R184, R187 to R189). -/
def replyPart (o : TransformOp) (i core tokens : Nat) (s : State) : State :=
  let on (l : Nat) : Bool := s.me.coreOf l = core
  let left := o.cores.erase core
  let r := if o.lanes.isEmpty then
      (s.updMe fun a => a.deliver o.inSketch fun a => (o.writes.filter fun w => on w.lane).foldl Agent.writeResult a, [])
    else runLanes o (o.lanes.filter fun c => on c.1) tokens s
  let st := o.stats ++ r.2
  if left.isEmpty then
    let s := r.1.updMe fun a => { a with transforms := a.transforms.eraseIdx i, migrating := false }
    if o.lanes.isEmpty then s else judgeXdec o st s
  else r.1.updMe fun a => { a with
    transforms := a.transforms.set i { o with cores := left, runningOn := o.runningOn.erase core, stats := st }, migrating := false }

/-- TRANSFORM_REPLY (R184, R187, R189): a pipe of the agent's cores replies with the instruction it runs, and takes the next; of
two that run its instructions, the one with the older, and then the one that began first. A reply that is cut short stops each
lane after `tokens` tokens. -/
def execTransformReply (agent tokens : Nat) (s : State) : Res :=
  match s.switchTo agent with
  | none => .fault (.notEnabled "TRANSFORM_REPLY")
  | some s =>
    let i := s.me.transforms.findIdx fun o => !o.runningOn.isEmpty
    match s.me.transforms[i]?.bind fun o => o.runningOn.head?.map fun c => (o, c) with
    | none => .fault (.notEnabled "TRANSFORM_REPLY")
    | some (o, core) => .next ((replyPart o i core (if s.cutPending s.me then min tokens 4096 else 4096) s).feedPipe core)

end Sys2Proof.Machine
end

