-- ==== Sys2Proof/Machine/Sketch.lean ====
section
/-! DEFINITION. Machine/Sketch.lean: what comes about after issue: sectors return, results arrive, stores are performed or
fault, sketches ink or erase, and the replay queue drains at RETT (R119, R209, R251, R252, R277, R286 to R289, R295 to
R298, R301). -/
namespace Sys2Proof.Machine

/-! ### Ink (R286, R293, R301) -/

/-- Whether the open sketch inks (R286). -/
def Agent.inks (a : Agent) : Bool := a.sketch.isSome && a.loads.isEmpty && a.storeQ.all (·.held)

/-- What an ink does to the agent itself. -/
def Agent.inked (a : Agent) (reads : List Nat) : Agent :=
  let full := decide (256 ≤ a.inkRun + 1) && a.specLvl != 0
  { a with sketch := none, storeQ := a.storeQ.map fun r => { r with held := false },
           varlat := a.varlat.map fun v => { v with inSketch := false },
           transforms := a.transforms.map fun o => { o with inSketch := false },
           spawnQ := a.spawnQ.map fun t => { t with pendingOf := none },
           refs := reads.foldl (fun r u => r.insert u false) a.refs,
           eraseRun := 0, inkRun := if full then 0 else min 255 (a.inkRun + 1),
           specLvl := if full then 0 else a.specLvl }

/-- Ink the sketch of the agent whose turn it is: its pending commands are released, its channels bound and freed. -/
def State.ink (s : State) : State :=
  match s.me.sketch with
  | none => s
  | some k =>
    let id := s.meId
    let free (p : Option Nat) : Option Nat := if p = some id then none else p
    let freed := (s.channels.filter fun c => c.2.pendingFree = some id).map (·.1)
    let s : State := { s with
      me := s.me.inked k.reads
      launches := s.launches.map fun l => { l with pendingOf := free l.pendingOf }
      engines := s.engines.map fun o => { o with pendingOf := free o.pendingOf }
      bins := s.bins.map fun b => { b with threads := b.threads.map fun t => { t with pendingOf := free t.pendingOf } }
      parts := s.parts.map fun (c : Nat × PartState) =>
        (c.1, { c.2 with ringNotes := c.2.ringNotes.filterMap fun (n : Nat × RingNote) =>
          let m : RingNote := { n.2 with pendingOf := free n.2.pendingOf }
          if m = {} then none else some (n.1, m) })
      channels := s.channels.map fun c =>
        (c.1, if c.2.pendingBind = some id then { c.2 with bound := true, pendingBind := none }
              else { c.2 with pendingFree := free c.2.pendingFree })
      matrix := s.matrix.map fun c => (c.1, c.2.map fun o => if o.agent = id then { o with inSketch := false } else o) }
    (freed.foldl State.unbind s.lightFull).count (s.partOf s.me) 0x102

/-- The sketch of the agent whose turn it is inks at the first moment at which it may (R286). -/
def State.inkNow (s : State) : State := if s.me.inks then s.ink else s

/-! ### Results (R119, R147, R252) -/

/-- The keys of a lane's first line, where it spans two (R227). -/
def LaneReq.firstLine (r : LaneReq) : List Nat :=
  let f := r.keys.takeWhile fun k => unitOf k = unitOf (r.keys.headD 0)
  if f.length = r.keys.length || 2 ^ 48 ≤ r.keys.headD 0 then [] else f

/-- The bytes and the poison of a lane whose sectors are in; those of its first line are already read if they came earlier. -/
def State.readLane (s : State) (seq : Nat) (r : LaneReq) : Nat × Bool :=
  match r.got with
  | some g =>
    let n := r.firstLine.length
    let h := s.readForward seq (r.keys.drop n)
    (g.1 + h.1 * 2 ^ (8 * n), g.2 || h.2)
  | none => s.readForward seq r.keys

/-- A lane that spans two lines reads the first one's bytes at a place of their own, once their sectors are in: the accesses
stand in address order (R227, R251). -/
def State.readFirst (s : State) (seq : Nat) (left : List Nat) (r : LaneReq) : LaneReq :=
  let f := r.firstLine
  if f.isEmpty || r.got.isSome || f.any fun k => left.contains (sectorOf k) then r else { r with got := some (s.readForward seq f) }

/-- Write one lane's loaded value; a value narrower than its register is extended (R253). -/
def Agent.writeLoaded (p : PendingLoad) (r : LaneReq) (v : Nat × Bool) (a : Agent) : Agent :=
  let n := 8 * r.keys.length
  let x : PDword := { val := if p.signed then BitVec.ofInt 64 (toInt n v.1) else BitVec.ofNat 64 v.1, poison := v.2 }
  match p.dst with
  | .vec d pair => a.setUnit pair d (r.lane.getD 0) x
  | .scalar g => a.setReg g x

/-- The lanes of a load whose lane word needed a sector and now needs no other (R252). -/
def PendingLoad.completed (p : PendingLoad) (sector : Nat) : List LaneReq :=
  let left := p.sectors.filter (· != sector)
  let word (r : LaneReq) : Nat := r.lane.getD 0 / 32
  let uses (t : Nat) (r : LaneReq) : Bool := r.keys.any fun k => sectorOf k = t
  let open_ (w : Nat) : Bool := p.lanes.any fun r => word r = w && left.any fun t => uses t r
  let touched (w : Nat) : Bool := p.lanes.any fun r => word r = w && uses sector r
  p.lanes.filter fun r => touched (word r) && !open_ (word r)

/-- SECTOR_RETURN (R227, R252, R282, R289): a sector of a load returns; every lane word that is now whole reads its bytes and
is written. Where an EXCLUSIVE check-out of another holder has come over them since they were found, it waits (R246). The sketch
inks where this was the last load it waited for (R286). -/
def execSectorReturn (agent load sector : Nat) (s : State) : Res :=
  onAgent "SECTOR_RETURN" agent (fun s =>
    match s.me.loads[load]? with
    | none => noEvent "SECTOR_RETURN"
    | some p =>
      if !p.sectors.contains sector then noEvent "SECTOR_RETURN"
      else
        let done := p.completed sector
        let vals := done.map fun r => (r, s.readLane p.seq r)
        let left := p.sectors.filter (· != sector)
        let lanes := p.lanes.map (s.readFirst p.seq left)
        let read := (done.flatMap (·.keys)) ++ ((p.lanes.zip lanes).filter fun c => c.1.got.isNone && c.2.got.isSome).flatMap fun c => c.1.firstLine
        if read.any fun k => s.keyBarred s.who k then .next (s.markKeys s.who read)
        else
          let s := if p.inSketch then s else s.noteRead (read.map unitOf).eraseDups
          .next (s.updMe fun a =>
            let a := a.deliver p.inSketch fun a => vals.foldl (fun a c => a.writeLoaded p c.1 c.2) a
            { a with loads := if left.isEmpty then a.loads.eraseIdx load else a.loads.set load { p with sectors := left, lanes := lanes } }).inkNow) s

/-- VARIABLE_LATENCY_RESULT (R119, R147): a result and its exceptions are written. -/
def execVariableLatencyResult (agent k : Nat) (s : State) : Res :=
  onAgent "VARIABLE_LATENCY_RESULT" agent (fun s =>
    match s.me.varlat[k]? with
    | none => noEvent "VARIABLE_LATENCY_RESULT"
    | some v =>
      .next (s.updMe fun a =>
        let a := a.deliver v.inSketch fun a =>
          let a := v.writes.foldl Agent.writeResult a
          { a with regs := { a.regs with flags := a.regs.flags ||| v.flags } }
        { a with varlat := a.varlat.eraseIdx k })) s

/-! ### Stores (R251, R277, R295) -/

/-- Whether an entry of the store queue may be performed now: released, of the oldest instruction, no older load
outstanding, not before the first piece of its own store, and no earlier lane of a plain store writing the same bytes (R227,
R251). -/
def State.storeReady (s : State) (k : Nat) (r : StoreReq) : Bool :=
  let q := s.me.storeQ
  let keys := s.peekKeys r
  !r.held && (q.head?.map (·.seq)) = some r.seq && s.me.loads.all (fun l => decide (r.seq ≤ l.seq)) &&
  (r.kind != .store || (q.take k).all fun e => !r.follows e && (e.kind != .store || !((s.peekKeys e).any keys.contains)))

/-- Whether performing an entry meets a translation fault, with its code and level. -/
def State.storeFaults (s : State) (r : StoreReq) : Option (Nat × Nat) :=
  match s.performReq r with
  | .fault c l _ => some (c, l)
  | _ => none

/-- An entry after an attempt that has to be made again: QRSV counts from its first attempt, and keeps what it answers if no
later one finds room (R341). -/
def State.tryAgain (s : State) (r : StoreReq) : StoreReq :=
  match r.kind with
  | .qrsv h _ => { r with since := some (r.since.getD s.time.toNat), lastTry := s.noRoom h }
  | _ => r

/-- STORE_PERFORM (R251, R277): one access takes its place in the order. A QRSV without room starts its wait. An open sketch inks where
this was the last older access (R286). -/
def execStorePerform (agent k : Nat) (s : State) : Res :=
  onAgent "STORE_PERFORM" agent (fun s =>
    match s.me.storeQ[k]? with
    | none => noEvent "STORE_PERFORM"
    | some r =>
      if !s.storeReady k r then noEvent "STORE_PERFORM"
      else match s.performReq r with
        | .done s => .next (s.updMe fun a => { a with storeQ := a.storeQ.eraseIdx k }).inkNow
        | .wait s => .next (s.updMe fun a => { a with storeQ := a.storeQ.set k (s.tryAgain r) })
        | .fault _ _ _ => noEvent "STORE_PERFORM") s

/-- The lanes that an entry names in TMASK. -/
def Agent.reqMask (a : Agent) (rs : List StoreReq) : LaneMask :=
  if rs.any (·.lane.isNone) then a.active else maskOf (rs.filterMap (·.lane))

/-- Whether a store fault must wait: the instruction at the PC is executing a joint operation or spawning, and its end is the
next boundary (R183, R295). -/
def State.midway (s : State) : Bool :=
  match s.me.wait with
  | .gang _ => s.matrixBusy s.meId
  | .spawn _ => true
  | _ => false

/-- The stores of the oldest instruction in the queue that fault now, each with its code and level. -/
def State.faultingStores (s : State) : List (StoreReq × Nat × Nat) :=
  let q := s.me.storeQ
  let group := q.filter fun r => !r.held && (q.head?.map (·.seq)) = some r.seq && r.kind = .store
  group.filterMap fun r => (s.storeFaults r).map fun c => (r, c)

/-- STORE_FAULT (R295 to R297): the oldest store faults. It and every younger access made in user mode move to the replay
queue, an open sketch erases, and the agent traps at its next boundary, where the instruction that waits has not issued. A store
issued in supervisor mode stops its agent (R207), or is dropped where the agent is stopped already; while a handler runs, or
another trap is on its way, the store faults again when it drains. -/
def execStoreFault (agent : Nat) (s : State) : Res :=
  onAgent "STORE_FAULT" agent (fun s =>
    match s.faultingStores with
    | [] => noEvent "STORE_FAULT"
    | (r0, c0) :: rest =>
      if s.midway || !(s.me.loads.all fun l => l.inSketch || decide (r0.seq ≤ l.seq)) then noEvent "STORE_FAULT"
      else
        let s := s.erase s.meId 5
        if r0.sup then
          let s := s.updMe fun a => { a with storeQ := a.storeQ.filter fun r => r.seq != r0.seq }
          .next (if s.me.sstop != 0 then s else s.supervisorStop (BitVec.ofNat 32 c0.1))
        else
          let (r, c) := rest.foldl (fun m x => if x.1.lane.getD 0 < m.1.lane.getD 0 then x else m) (r0, c0)
          let cause : Cause := { code := c.1, addr := r.addr, acc := accStore, lvl := c.2 }
          let s := s.updMe fun a =>
            { a with replayQ := a.replayQ ++ a.storeQ.filter (!·.sup), storeQ := a.storeQ.filter (·.sup) }
          if s.me.hasFrame || s.me.pendingTrap.isSome || s.me.sstop != 0 then .next s
          else
            let s := s.withdrawArrival.updMe fun a => { a with wait := if a.wait = .halted then a.wait else .none }
            .next (s.raise cause (s.me.reqMask (r0 :: rest.map (·.1))) s.me.pc)) s

/-! ### Ink and erase (R286, R289) -/

/-- SKETCH_INK (R286): in a state that a run reaches, a sketch that may ink has inked within the access that made it so
(`State.inkNow`). -/
def execSketchInk (agent : Nat) (s : State) : Res :=
  onAgent "SKETCH_INK" agent (fun s => if s.me.inks then .next s.ink else noEvent "SKETCH_INK") s

/-- ERASE (R287, R289): of kind 4 once the pre-emption deadline has passed, of kind 5 once the oldest store faults. An erase of
kinds 1 to 3 takes place within the write, the invalidation or the eviction that is its cause (`State.eraseReaders`). -/
def execErase (agent kind : Nat) (s : State) : Res :=
  onAgent "ERASE" agent (fun s =>
    let due : Bool := match s.me.preq with | some (t, _) => decide (t ≤ s.time.toNat) | none => false
    match s.me.sketch with
    | some _ =>
      if (kind == 4 && due) || (kind == 5 && !s.midway && !s.faultingStores.isEmpty) then .next (s.erase agent kind)
      else noEvent "ERASE"
    | none => noEvent "ERASE") s

/-! ### The drain and RETT (R209, R298) -/

/-- How a drain ends: every entry performed; a wait; or a fault of an entry. -/
inductive Drained where
  | done (s : State)
  | wait (s : State)
  | fault (r : StoreReq) (code lvl : Nat) (s : State)

/-- Perform the entries of the replay queue in order; the first number bounds them. -/
def State.drain : Nat → State → Drained
  | 0, s => .done s
  | n + 1, s =>
    match s.me.replayQ with
    | [] => .done s
    | r :: rest =>
      match s.performReq r with
      | .done s => State.drain n (s.updMe fun a => { a with replayQ := rest })
      | .wait s => .wait (s.updMe fun a => { a with replayQ := s.tryAgain r :: rest })
      | .fault c l s => .fault r c l s

/-- The cause of a drain fault. -/
def drainCause (r : StoreReq) (code lvl : Nat) : Cause := { code := code, addr := r.addr, acc := r.acc, lvl := lvl }

/-- The drain before the first instruction of a team restored in user mode: a fault runs the trap vector, with TPC the
image's PC. -/
def State.drainBeforeIssue (s : State) : State :=
  match s.drain s.me.replayQ.length with
  | .done s => s
  | .wait s => s
  | .fault r c l s => s.raise (drainCause r c l) (s.me.reqMask [r]) s.me.pc

/-- The entries left when the topmost trap frame and all above it are popped. -/
def belowFrame : List StackEntry → List StackEntry
  | [] => []
  | e :: rest => if e.kind = .frame then rest else belowFrame rest

/-- The return of RETT: to the entry below the topmost trap frame; a thread without one goes to CR_UPC (R206, R209). Its pops
fill a stack of more than 32 entries from the spill area (R192). -/
def rettReturn (n : Need) (s : State) : Res :=
  let a := s.me
  match belowFrame (a.regs.top :: a.regs.rest) with
  | t :: rest =>
    withSpill a.depth (fun s =>
      if badTarget (t.pc.setWidth 64) then trap (.illegalTarget (t.pc.setWidth 64)) s
      else .next (retireTo t.pc n (s.updMe fun a =>
        { a with regs := { a.regs with top := t, rest := rest, mode := t.mode, priv := false } }))) s
  | [] =>
    if badTarget a.upc then trap (.illegalTarget a.upc) s
    else .next (retireTo (a.upc.setWidth 56) n (s.updMe fun a => { a with regs := { a.regs with priv := false } }))

/-- A fault of the drain at RETT: the record is rewritten, and the team issues again from the supervisor entry (R298). -/
def State.rettFault (s : State) (r : StoreReq) (code lvl : Nat) : State :=
  let a := s.me
  let entry : Nat := if a.isTeam then s.partField a.part 8 8 else a.hvec.toNat
  let c := drainCause r code lvl
  s.updMe fun a => { a with tcause := c.tcause, taddr := c.addr, tmask := a.reqMask [r] }.setPc (BitVec.ofNat 56 (entry + 4))

/-- The entries that RETT pops, by their places from the bottom: the topmost trap frame and all above it; none of a stack without
one. -/
def Agent.rettPops (a : Agent) : List TraceItem :=
  match resumeIndex (a.regs.top :: a.regs.rest) with
  | some k => (List.range k).map fun i => .entry (a.depth - 1 - i)
  | none => []

/-- RETT (R209, R298). An open sketch logs the entries it pops (R283). -/
def execRett (s : State) : Res :=
  let n : Need := { sup := true, items := s.me.rettPops }
  issue n (fun s =>
    if s.me.isTeam && !s.me.hasFrame then trap .illegal s
    else if s.me.replayQ.isEmpty then rettReturn n s
    else waitPerformed (fun s =>
      match s.drain s.me.replayQ.length with
      | .done s => rettReturn n s
      | .wait s => .next s
      | .fault r c l s => .next (s.rettFault r c l)) s) s

end Sys2Proof.Machine
end

