-- ==== Sys2Proof/Machine/Startup.lean ====
section
/-! DEFINITION. Machine/Startup.lean: the images and the start steps, package reset, attestation and debug unlock (R403 to R410). -/
namespace Sys2Proof.Machine

/-! ### Start steps (R403, R406 to R408) -/

/-- Whether an image is accepted (R403): a vendor key that is fused and not revoked signs its header, the digest and the length are
its body's, and its security version is at least the fused rollback counter. -/
def accepted (m : Config.Image) : Bool :=
  let hash := Config.sha512 (Config.imageHeader m.ident m.version m.length m.digest)
  ((List.range 4).any fun k => Config.vendorKey k && Config.signedBy k hash m.signature) &&
  m.digest == fitBytes 64 (Config.sha512 m.body) && m.length == m.body.length && decide (Config.rollback.toNat ≤ m.version.toNat)

/-- Extend measurement register i with a digest (R403). -/
def State.extend (s : State) (i : Nat) (digest : List Byte) : State :=
  { s with measures := s.measures.modify i fun m => fitBytes 64 (Config.sha512 (m ++ digest)) }

/-- The fields of a step record (R407). -/
abbrev recOut (w : Word32) : Nat := w.toNat % 8
abbrev recWay (w : Word32) : Nat := bitsOf w.toNat 3 3
abbrev recFails (w : Word32) : Nat := bitsOf w.toNat 7 4
abbrev recAlt (w : Word32) : Nat := bitsOf w.toNat 8 8
def recWord (out way fails alt : Nat) : Word32 := BitVec.ofNat 32 (out + way * 2 ^ 3 + min 15 fails * 2 ^ 4 + alt * 2 ^ 8)

/-- Whether a step is required, and whether it has an alternate (R406). -/
def stepRequired (i : Nat) : Bool := decide (i ≤ 16)
def stepAlternate (i : Nat) : Bool := i != 1 && i != 25

/-- Whether a way of a step verifies an image: the host firmware, and the signed configuration (R403, R406). -/
def stepImage (i way : Nat) : Bool := i = 2 || (i = 16 && way = 0)

/-- Whether a way of a step can end well with what the outside world gives it: the images that it verifies are accepted. -/
def stepGood (i way : Nat) (boot : Config.Boot) : Bool :=
  (!(i = 1 || stepImage i way) || boot.images.all accepted) && (!stepImage i way || !boot.images.isEmpty)

/-- What a start does with a step. -/
inductive StepAction where
  | primary | alternate | skip | recovery
  deriving DecidableEq, Repr, Inhabited

/-- The first row of R408 whose condition a record meets, with its ALT. A step found started has failed once more. A record whose
FAILS and ALT host firmware has had cleared, a failure or one done by the alternate, takes the primary way (log 45). -/
def stepAction (i : Nat) (w : Word32) : StepAction × Nat :=
  let out := recOut w
  let failed := out = 1 || out = 3
  let fails := if out = 1 then recFails w + 1 else recFails w
  if out = 0 then (.primary, recAlt w)
  else if failed && stepRequired i && 3 ≤ fails then (.recovery, recAlt w)
  else if out = 2 then (.primary, recAlt w)
  else if out = 4 then (if recAlt w = 1 then .alternate else .primary, recAlt w)
  else if out = 5 then (.skip, recAlt w)
  else if fails = 0 then (.primary, recAlt w)
  else if recWay w = 0 then
    if stepAlternate i then (.alternate, 1) else if stepRequired i then (.primary, recAlt w) else (.skip, recAlt w)
  else if stepRequired i then (.primary, 0) else (.skip, recAlt w)

/-- A x16 port's mode is one of R336's; the default is four endpoint ports (log 50). -/
def portMode (m : Config.PortMode) : Config.PortMode :=
  match m with
  | .endpoint n => if n = 1 || n = 2 then m else .endpoint 4
  | .cxl n => if n = 2 then m else .cxl 1
  | .ntb => .ntb

/-- The modes of x16 ports, at most so many of them peer ports (R18). -/
def settleModes : Nat → List Config.PortMode → List Config.PortMode
  | _, [] => []
  | n, m :: ms =>
    if portMode m = .ntb then (if n = 0 then .endpoint 4 else .ntb) :: settleModes (n - 1) ms else portMode m :: settleModes n ms

/-- Extend a measurement register with the digests of images. -/
def State.measure (s : State) (i : Nat) (ms : List Config.Image) : State := ms.foldl (fun (s : State) m => s.extend i m.digest) s

/-- What a step that has ended well does: the measurements, the channel that an HBM4E stack brought up by its alternate does
without (which one it is, is a free value, log 7), and what the signed configuration, its partitions among it, and host firmware
settle (R336, R403, R406, log 50). -/
def State.stepDone (s : State) (i : Nat) (alternate : Bool) (boot : Config.Boot) : State :=
  if i = 1 then s.measure 0 boot.images
  else if i = 2 then s.measure 1 boot.images
  else if i = 16 then
    if alternate then s
    else
      let s : State := { s.measure 2 boot.images with
        portModes := settleModes 4 ((List.range 8).map fun k => boot.modes.getD k (.endpoint 4))
        package := boot.package % 2 ^ 18, routes := boot.routes }
      boot.partitions.foldl (fun (s : State) c => if c.1 < 16 then s.writePartition c.1 (partBase c.1) 1024 (leValue (fitBytes 1024 c.2)) else s) s
  else if 17 ≤ i && i < 25 then
    { s with ioTimeouts := (boot.timeouts.filter fun c => c.1 / 4 = i - 17).foldl (fun m c => m.insert c.1 c.2) s.ioTimeouts }
  else if i = 26 then { s with peerNumber := boot.peer % 8, members := boot.members }
  else if 4 ≤ i && i < 16 && alternate then
    let (k, s) := s.fresh
    { s with failedChannels := s.failedChannels ++ [(i - 4, Config.freeNat k % 36)] }
  else s

/-- START_STEP (R406 to R408): the first one of the next step writes what the step record says before it begins, or skips the step;
the second one ends it, well or (none, or images that are not accepted) as a failure. A required step that fails ends the start. In the
recovery state the package accepts only a signed firmware image, which is measured. -/
def execStartStep (i : Nat) (ok : Option Config.Boot) (s : State) : Res :=
  if s.recovery && i = 2 then
    match ok.filter (stepGood 2 0) with
    | some boot => .next (s.measure 1 boot.images)
    | none => noEvent "START_STEP"
  else if i != s.bootStep || i = 0 || 26 < i then noEvent "START_STEP"
  else
    let w := s.stepRecord.get 0 i
    let put (s : State) (v : Word32) : State := { s with stepRecord := s.stepRecord.put 0 i v }
    if s.stepBegun then
      let way := recWay w
      match ok.filter (stepGood i way) with
      | some boot =>
        .next { (put s (recWord (if way = 0 then 2 else 4) way (recFails w) (recAlt w))).stepDone i (way = 1) boot with
          bootStep := i + 1, stepBegun := false }
      | none =>
        .next { put s (recWord 3 way (recFails w + 1) (recAlt w)) with
          bootStep := if stepRequired i then 28 else i + 1, stepBegun := false }
    else
      let (act, alt) := stepAction i w
      let fails := if recOut w = 1 then recFails w + 1 else recFails w
      match act with
      | .primary => .next { put s (recWord 1 0 fails alt) with stepBegun := true }
      | .alternate => .next { put s (recWord 1 1 fails alt) with stepBegun := true }
      | .skip => .next { put s (recWord 5 (recWay w) fails alt) with bootStep := i + 1 }
      | .recovery => .next { put s (recWord (recOut w) (recWay w) fails alt) with bootStep := 28, recovery := true }

/-- STEP_RECORD_CLEAR (R408): FAILS, ALT, and the OUT 5 of optional steps. -/
def execStepRecordClear (s : State) : Res :=
  let clear (c : Nat × Word32) : Option (Nat × Word32) :=
    let v := recWord (if recOut c.2 = 5 then 0 else recOut c.2) (recWay c.2) 0 0
    if v = 0 then none else some (c.1, v)
  .next { s with stepRecord := s.stepRecord.filterMap clear }

/-! ### Resets and heat (R409, R410) -/

/-- Every piece of state takes its reset value; the step record, the root-of-trust core's ROM and its count of nonces are nonvolatile,
and what the environment has still to do stands. -/
def State.packageReset (s : State) : State :=
  { State.reset with stepRecord := s.stepRecord, nonces := s.nonces, turns := s.turns, freeCount := s.freeCount
                     mem := s.mem.filter fun c => isRom c.1 }

def execPackageReset (s : State) : Res := .next s.packageReset
def execThermalTrip (s : State) : Res := .next s.packageReset

/-- THROTTLE (R410): issue is withheld in some cycles, which changes no result. -/
def execThrottle (on : Bool) (s : State) : Res := .next { s with throttled := on }

/-! ### Reports and debug (R404, R405) -/

/-- The bytes of the step record. -/
def State.stepBytes (s : State) : List Byte := (List.range 64).flatMap fun i => leBytes 4 (s.stepRecord.get 0 i).toNat

/-- The report, up to its signature. -/
def State.reportBytes (s : State) (part : Word32) (nonce : List Byte) : List Byte :=
  let entry := if part.toNat < 16 then fitBytes 64 (Config.sha512 (Memory.readBytes s.mem (partBase part.toNat) 1024)) else List.replicate 64 0
  leBytes 4 0x7A375201 ++ leBytes 4 s.lifecycle ++ fitBytes 16 Config.deviceId ++ leBytes 4 Config.rollback.toNat ++
  leBytes 4 part.toNat ++ fitBytes 64 nonce ++ (s.measures.flatMap (fitBytes 64)) ++ fitBytes 64 (Config.sha512 s.stepBytes) ++
  entry ++ List.replicate 32 0

/-- REPORT_REQUEST (R404). -/
def execReportRequest (part : Word32) (nonce : List Byte) (s : State) : Res :=
  let body := s.reportBytes part nonce
  .next { s with replies := s.replies ++ [body ++ fitBytes 132 (Config.sign (Config.sha512 body))] }

/-- What a debug token binds beside itself (R405): the device identifier, the lifecycle, and the nonce that the root-of-trust core has
issued and no unlock has used. -/
def State.tokenBinds (s : State) : List Byte :=
  fitBytes 16 Config.deviceId ++ leBytes 4 s.lifecycle ++ fitBytes 64 (Config.nonce s.nonces)

/-- DEBUG_UNLOCK (R405): key slots are wiped, with which IDE streams go DOWN, and peer links go DOWN before anything is opened. The
token's nonce is spent; a token that fails leaves everything unchanged. -/
def execDebugUnlock (token : List Byte) (s : State) : Res :=
  if Config.tokenVerifies (s.tokenBinds ++ token) then
    let s : State := { s with mem := Memory.clear s.mem (keySlotBase 0) 0xC00, nonces := s.nonces + 1 }
    let s := (List.range 4).foldl (fun (s : State) n => if s.hasLink n && (s.link? n).st != .down then s.linkDown n else s) s
    .next { s.extend 3 (Config.sha512 token) with lifecycle := 3, debugOpen := true }
  else .next s

end Sys2Proof.Machine
end

