-- ==== Sys2Proof/Machine/Dispatch.lean ====
section
/-! DEFINITION. Machine/Dispatch.lean: one arm per step of Instr. -/
namespace Sys2Proof.Machine

/-- What a step does: each arm calls its meaning. -/
def exec (i : Instr) (s : State) : Host.Outcome State Fault Refusal :=
  match i with
  | .sadd d a b => Sys2Proof.Machine.execSadd d a b s
  | .ssub d a b => Sys2Proof.Machine.execSsub d a b s
  | .smul d a b => Sys2Proof.Machine.execSmul d a b s
  | .smulh d a b u => Sys2Proof.Machine.execSmulh d a b u s
  | .sdiv d a b u => Sys2Proof.Machine.execSdiv d a b u s
  | .srem d a b u => Sys2Proof.Machine.execSrem d a b u s
  | .sand d a b => Sys2Proof.Machine.execSand d a b s
  | .sor d a b => Sys2Proof.Machine.execSor d a b s
  | .sxor d a b => Sys2Proof.Machine.execSxor d a b s
  | .sshl d a b => Sys2Proof.Machine.execSshl d a b s
  | .sshr d a b => Sys2Proof.Machine.execSshr d a b s
  | .ssar d a b => Sys2Proof.Machine.execSsar d a b s
  | .smin d a b u => Sys2Proof.Machine.execSmin d a b u s
  | .smax d a b u => Sys2Proof.Machine.execSmax d a b u s
  | .scmp d a b r => Sys2Proof.Machine.execScmp d a b r s
  | .ssel d a b f c => Sys2Proof.Machine.execSsel d a b f c s
  | .sbits d a f => Sys2Proof.Machine.execSbits d a f s
  | .sbfx d a b s1 => Sys2Proof.Machine.execSbfx d a b s1 s
  | .sbfi d a b => Sys2Proof.Machine.execSbfi d a b s
  | .smov d a => Sys2Proof.Machine.execSmov d a s
  | .sli d n => Sys2Proof.Machine.execSli d n s
  | .sliExt d n p => Sys2Proof.Machine.execSliExt d n p s
  | .slih d n => Sys2Proof.Machine.execSlih d n s
  | .saddi d n => Sys2Proof.Machine.execSaddi d n s
  | .saddiExt d n p => Sys2Proof.Machine.execSaddiExt d n p s
  | .sandi d n => Sys2Proof.Machine.execSandi d n s
  | .sori d n => Sys2Proof.Machine.execSori d n s
  | .sshli d n => Sys2Proof.Machine.execSshli d n s
  | .sfop d a b f => Sys2Proof.Machine.execSfop d a b f s
  | .sfcmp d a b r => Sys2Proof.Machine.execSfcmp d a b r s
  | .sfcvt d a f => Sys2Proof.Machine.execSfcvt d a f s
  | .bra o => Sys2Proof.Machine.execBra o s
  | .brz a o => Sys2Proof.Machine.execBrz a o s
  | .brnz a o => Sys2Proof.Machine.execBrnz a o s
  | .brv m o j => Sys2Proof.Machine.execBrv m o j s
  | .brall m o => Sys2Proof.Machine.execBrall m o s
  | .brany m o => Sys2Proof.Machine.execBrany m o s
  | .call o => Sys2Proof.Machine.execCall o s
  | .calli a => Sys2Proof.Machine.execCalli a s
  | .ret a => Sys2Proof.Machine.execRet a s
  | .jmpi a => Sys2Proof.Machine.execJmpi a s
  | .loop a o => Sys2Proof.Machine.execLoop a o s
  | .exit => Sys2Proof.Machine.execExit s
  | .setmode a b => Sys2Proof.Machine.execSetmode a b s
  | .getmode d => Sys2Proof.Machine.execGetmode d s
  | .yield a b => Sys2Proof.Machine.execYield a b s
  | .trap n => Sys2Proof.Machine.execTrap n s
  | .rett => Sys2Proof.Machine.execRett s
  | .bkpt n => Sys2Proof.Machine.execBkpt n s
  | .prchk d => Sys2Proof.Machine.execPrchk d s
  | .syscall n => Sys2Proof.Machine.execSyscall n s
  | .csrrd d n => Sys2Proof.Machine.execCsrrd d n s
  | .csrwr a n => Sys2Proof.Machine.execCsrwr a n s
  | .ctxsave d a => Sys2Proof.Machine.execCtxsave d a s
  | .ctxload d a => Sys2Proof.Machine.execCtxload d a s
  | .wfi => Sys2Proof.Machine.execWfi s
  | .halt => Sys2Proof.Machine.execHalt s
  | .nop => Sys2Proof.Machine.execNop s
  | .vadd d a b => Sys2Proof.Machine.execVadd d a b s
  | .vsub d a b => Sys2Proof.Machine.execVsub d a b s
  | .vmul d a b => Sys2Proof.Machine.execVmul d a b s
  | .vmulh d a b => Sys2Proof.Machine.execVmulh d a b s
  | .vmad d a b c => Sys2Proof.Machine.execVmad d a b c s
  | .vmin d a b => Sys2Proof.Machine.execVmin d a b s
  | .vmax d a b => Sys2Proof.Machine.execVmax d a b s
  | .vabsd d a b => Sys2Proof.Machine.execVabsd d a b s
  | .vand d a b => Sys2Proof.Machine.execVand d a b s
  | .vor d a b => Sys2Proof.Machine.execVor d a b s
  | .vxor d a b => Sys2Proof.Machine.execVxor d a b s
  | .vlogt d a b c t => Sys2Proof.Machine.execVlogt d a b c t s
  | .vshl d a b => Sys2Proof.Machine.execVshl d a b s
  | .vshr d a b => Sys2Proof.Machine.execVshr d a b s
  | .vsar d a b => Sys2Proof.Machine.execVsar d a b s
  | .vfun d a b c => Sys2Proof.Machine.execVfun d a b c s
  | .vbits d a f => Sys2Proof.Machine.execVbits d a f s
  | .vbfx d a b => Sys2Proof.Machine.execVbfx d a b s
  | .vcmp r m a b => Sys2Proof.Machine.execVcmp r m a b s
  | .vsel d a b k => Sys2Proof.Machine.execVsel d a b k s
  | .vmov d a => Sys2Proof.Machine.execVmov d a s
  | .vbcast d a h => Sys2Proof.Machine.execVbcast d a h s
  | .vli d n => Sys2Proof.Machine.execVli d n s
  | .vliExt d n h => Sys2Proof.Machine.execVliExt d n h s
  | .vlih d n => Sys2Proof.Machine.execVlih d n s
  | .vaddi d n => Sys2Proof.Machine.execVaddi d n s
  | .vaddiExt d n h => Sys2Proof.Machine.execVaddiExt d n h s
  | .vcvt d a t => Sys2Proof.Machine.execVcvt d a t s
  | .vlane d f => Sys2Proof.Machine.execVlane d f s
  | .vshuf d a b => Sys2Proof.Machine.execVshuf d a b s
  | .vrot d a n => Sys2Proof.Machine.execVrot d a n s
  | .vbcl d s1 a => Sys2Proof.Machine.execVbcl d s1 a s
  | .vred d a o => Sys2Proof.Machine.execVred d a o s
  | .vscan d a e o => Sys2Proof.Machine.execVscan d a e o s
  | .vtos a d l => Sys2Proof.Machine.execVtos a d l s
  | .stov d a l => Sys2Proof.Machine.execStov d a l s
  | .mlogic o d a b => Sys2Proof.Machine.execMlogic o d a b s
  | .mcount d a => Sys2Proof.Machine.execMcount d a s
  | .mfirst d a => Sys2Proof.Machine.execMfirst d a s
  | .mtos d a n => Sys2Proof.Machine.execMtos d a n s
  | .stom m a n => Sys2Proof.Machine.execStom m a n s
  | .mtov d m => Sys2Proof.Machine.execMtov d m s
  | .vtom m a => Sys2Proof.Machine.execVtom m a s
  | .vfadd d a b => Sys2Proof.Machine.execVfadd d a b s
  | .vfsub d a b => Sys2Proof.Machine.execVfsub d a b s
  | .vfmul d a b => Sys2Proof.Machine.execVfmul d a b s
  | .vfma d a b c => Sys2Proof.Machine.execVfma d a b c s
  | .vfms d a b c => Sys2Proof.Machine.execVfms d a b c s
  | .vfnma d a b c => Sys2Proof.Machine.execVfnma d a b c s
  | .vfdiv d a b => Sys2Proof.Machine.execVfdiv d a b s
  | .vfsqrt d a => Sys2Proof.Machine.execVfsqrt d a s
  | .vfrcp d a => Sys2Proof.Machine.execVfrcp d a s
  | .vfrsq d a => Sys2Proof.Machine.execVfrsq d a s
  | .vfmin d a b => Sys2Proof.Machine.execVfmin d a b s
  | .vfmax d a b => Sys2Proof.Machine.execVfmax d a b s
  | .vfabs d a => Sys2Proof.Machine.execVfabs d a s
  | .vfneg d a => Sys2Proof.Machine.execVfneg d a s
  | .vfcmp r m a b => Sys2Proof.Machine.execVfcmp r m a b s
  | .vfclass d a => Sys2Proof.Machine.execVfclass d a s
  | .vfrnd d a => Sys2Proof.Machine.execVfrnd d a s
  | .vfcvt d a t => Sys2Proof.Machine.execVfcvt d a t s
  | .vfi2f d a t => Sys2Proof.Machine.execVfi2f d a t s
  | .vff2i d a t => Sys2Proof.Machine.execVff2i d a t s
  | .vfexp2 d a => Sys2Proof.Machine.execVfexp2 d a s
  | .vflog2 d a => Sys2Proof.Machine.execVflog2 d a s
  | .vfscalb d a b => Sys2Proof.Machine.execVfscalb d a b s
  | .vdqnt d a b => Sys2Proof.Machine.execVdqnt d a b s
  | .vdsame m a b => Sys2Proof.Machine.execVdsame m a b s
  | .vdexp d a => Sys2Proof.Machine.execVdexp d a s
  | .vdsig d a => Sys2Proof.Machine.execVdsig d a s
  | .vdmake d a b => Sys2Proof.Machine.execVdmake d a b s
  | .vdcanon d a => Sys2Proof.Machine.execVdcanon d a s
  | .vbscale d a b => Sys2Proof.Machine.execVbscale d a b s
  | .vbpack d a b => Sys2Proof.Machine.execVbpack d a b s
  | .vbunp d a b => Sys2Proof.Machine.execVbunp d a b s
  | .flagrd d => Sys2Proof.Machine.execFlagrd d s
  | .flagclr a => Sys2Proof.Machine.execFlagclr a s
  | .gang a => Sys2Proof.Machine.execGang a s
  | .mma d t g m a b => Sys2Proof.Machine.execMma d t g m a b s
  | .mmaDecay d t g a b l => Sys2Proof.Machine.execMmaDecay d t g a b l s
  | .mmad d t g m a b => Sys2Proof.Machine.execMmad d t g m a b s
  | .mmadDecay d t g a b l => Sys2Proof.Machine.execMmadDecay d t g a b l s
  | .azero d => Sys2Proof.Machine.execAzero d s
  | .ald d s1 => Sys2Proof.Machine.execAld d s1 s
  | .ast d s1 => Sys2Proof.Machine.execAst d s1 s
  | .amov d a => Sys2Proof.Machine.execAmov d a s
  | .ascl d s1 => Sys2Proof.Machine.execAscl d s1 s
  | .aadd d a => Sys2Proof.Machine.execAadd d a s
  | .xdec d a k c => Sys2Proof.Machine.execXdec d a k c s
  | .xcrc d a b c => Sys2Proof.Machine.execXcrc d a b c s
  | .vldb d a b k => Sys2Proof.Machine.execVldb d a b k s
  | .vldbExt d a b k p => Sys2Proof.Machine.execVldbExt d a b k p s
  | .vldh d a b k => Sys2Proof.Machine.execVldh d a b k s
  | .vldhExt d a b k p => Sys2Proof.Machine.execVldhExt d a b k p s
  | .vldw d a b k => Sys2Proof.Machine.execVldw d a b k s
  | .vldwExt d a b k p => Sys2Proof.Machine.execVldwExt d a b k p s
  | .vldd d a b k => Sys2Proof.Machine.execVldd d a b k s
  | .vlddExt d a b k p => Sys2Proof.Machine.execVlddExt d a b k p s
  | .vstb d a b k => Sys2Proof.Machine.execVstb d a b k s
  | .vstbExt d a b k p => Sys2Proof.Machine.execVstbExt d a b k p s
  | .vsth d a b k => Sys2Proof.Machine.execVsth d a b k s
  | .vsthExt d a b k p => Sys2Proof.Machine.execVsthExt d a b k p s
  | .vstw d a b k => Sys2Proof.Machine.execVstw d a b k s
  | .vstwExt d a b k p => Sys2Proof.Machine.execVstwExt d a b k p s
  | .vstd d a b k => Sys2Proof.Machine.execVstd d a b k s
  | .vstdExt d a b k p => Sys2Proof.Machine.execVstdExt d a b k p s
  | .sld d z x b => Sys2Proof.Machine.execSld d z x b s
  | .sldExt d z x b p => Sys2Proof.Machine.execSldExt d z x b p s
  | .sst d z b => Sys2Proof.Machine.execSst d z b s
  | .sstExt d z b p => Sys2Proof.Machine.execSstExt d z b p s
  | .vatom d a b k v o => Sys2Proof.Machine.execVatom d a b k v o s
  | .satom d z b v o => Sys2Proof.Machine.execSatom d z b v o s
  | .vcas d a b k c => Sys2Proof.Machine.execVcas d a b k c s
  | .hred d a b k o => Sys2Proof.Machine.execHred d a b k o s
  | .mwait d b => Sys2Proof.Machine.execMwait d b s
  | .mwaitExt d b p => Sys2Proof.Machine.execMwaitExt d b p s
  | .ink => Sys2Proof.Machine.execInk s
  | .pref a b k => Sys2Proof.Machine.execPref a b k s
  | .prefExt a b k p => Sys2Proof.Machine.execPrefExt a b k p s
  | .iord d z x b => Sys2Proof.Machine.execIord d z x b s
  | .iordExt d z x b p => Sys2Proof.Machine.execIordExt d z x b p s
  | .iowr d z b => Sys2Proof.Machine.execIowr d z b s
  | .iowrExt d z b p => Sys2Proof.Machine.execIowrExt d z b p s
  | .chkout d a b f m => Sys2Proof.Machine.execChkout d a b f m s
  | .chkin d a b => Sys2Proof.Machine.execChkin d a b s
  | .cinva a b => Sys2Proof.Machine.execCinva a b s
  | .vlds d a b z w => Sys2Proof.Machine.execVlds d a b z w s
  | .vldsExt d a b z w p => Sys2Proof.Machine.execVldsExt d a b z w p s
  | .vsts d a b z w => Sys2Proof.Machine.execVsts d a b z w s
  | .vstsExt d a b z w p => Sys2Proof.Machine.execVstsExt d a b z w p s
  | .launch d a b => Sys2Proof.Machine.execLaunch d a b s
  | .spawn m a s1 => Sys2Proof.Machine.execSpawn m a s1 s
  | .tmig d a => Sys2Proof.Machine.execTmig d a s
  | .cpy d a b => Sys2Proof.Machine.execCpy d a b s
  | .gath d a b => Sys2Proof.Machine.execGath d a b s
  | .scat d a b => Sys2Proof.Machine.execScat d a b s
  | .coll d a b => Sys2Proof.Machine.execColl d a b s
  | .chninit d a b => Sys2Proof.Machine.execChninit d a b s
  | .chninitFree d b => Sys2Proof.Machine.execChninitFree d b s
  | .chnwait d a b c => Sys2Proof.Machine.execChnwait d a b c s
  | .chnrel d a b e => Sys2Proof.Machine.execChnrel d a b e s
  | .qrsv d a b => Sys2Proof.Machine.execQrsv d a b s
  | .qpost a b => Sys2Proof.Machine.execQpost a b s
  | .barinit d a b => Sys2Proof.Machine.execBarinit d a b s
  | .bararr d a => Sys2Proof.Machine.execBararr d a s
  | .barwait d a b => Sys2Proof.Machine.execBarwait d a b s
  | .bartst d a => Sys2Proof.Machine.execBartst d a s
  | .timerd d => Sys2Proof.Machine.execTimerd d s
  | .cntrd d n => Sys2Proof.Machine.execCntrd d n s
  | .poppg d z => Sys2Proof.Machine.execPoppg d z s
  | .pushpg a z => Sys2Proof.Machine.execPushpg a z s
  | .ext p => Sys2Proof.Machine.execExt p s
  | .reconvergencePop agent => Sys2Proof.Machine.execReconvergencePop agent s
  | .sketchInk agent => Sys2Proof.Machine.execSketchInk agent s
  | .erase agent kind => Sys2Proof.Machine.execErase agent kind s
  | .sectorReturn agent load sector => Sys2Proof.Machine.execSectorReturn agent load sector s
  | .variableLatencyResult agent k => Sys2Proof.Machine.execVariableLatencyResult agent k s
  | .storePerform agent k => Sys2Proof.Machine.execStorePerform agent k s
  | .storeFault agent => Sys2Proof.Machine.execStoreFault agent s
  | .matrixOpComplete core => Sys2Proof.Machine.execMatrixOpComplete core s
  | .transformReply agent tokens => Sys2Proof.Machine.execTransformReply agent tokens s
  | .trapVector agent => Sys2Proof.Machine.execTrapVector agent s
  | .intr agent => Sys2Proof.Machine.execIntr agent s
  | .forcedSave agent => Sys2Proof.Machine.execForcedSave agent s
  | .teamPlacement part => Sys2Proof.Machine.execTeamPlacement part s
  | .yieldReactivation part k => Sys2Proof.Machine.execYieldReactivation part k s
  | .migrationArrival k => Sys2Proof.Machine.execMigrationArrival k s
  | .firmwareMigration agent target => Sys2Proof.Machine.execFirmwareMigration agent target s
  | .barwaitComplete agent => Sys2Proof.Machine.execBarwaitComplete agent s
  | .mwaitComplete agent => Sys2Proof.Machine.execMwaitComplete agent s
  | .mwaitTimeout agent => Sys2Proof.Machine.execMwaitTimeout agent s
  | .chnwaitComplete agent => Sys2Proof.Machine.execChnwaitComplete agent s
  | .kindlingThreadArrival agent => Sys2Proof.Machine.execKindlingThreadArrival agent s
  | .kindlingTimer die bin => Sys2Proof.Machine.execKindlingTimer die bin s
  | .kindlingDrop agent => Sys2Proof.Machine.execKindlingDrop agent s
  | .kindlingRingRefill part => Sys2Proof.Machine.execKindlingRingRefill part s
  | .engineStart op => Sys2Proof.Machine.execEngineStart op s
  | .engineCompletion op remote far => Sys2Proof.Machine.execEngineCompletion op remote far s
  | .channelFire op => Sys2Proof.Machine.execChannelFire op s
  | .recall cid => Sys2Proof.Machine.execRecall cid s
  | .joinArrival handle => Sys2Proof.Machine.execJoinArrival handle s
  | .wdog part cls => Sys2Proof.Machine.execWdog part cls s
  | .translationWalk asid va => Sys2Proof.Machine.execTranslationWalk asid va s
  | .directoryRequest agent va write => Sys2Proof.Machine.execDirectoryRequest agent va write s
  | .writeBack line run fast => Sys2Proof.Machine.execWriteBack line run fast s
  | .paletteInstall part die => Sys2Proof.Machine.execPaletteInstall part die s
  | .heldWritebackRetry line run => Sys2Proof.Machine.execHeldWritebackRetry line run s
  | .balloonRecode granule run => Sys2Proof.Machine.execBalloonRecode granule run s
  | .balloonZero granule => Sys2Proof.Machine.execBalloonZero granule s
  | .demote page => Sys2Proof.Machine.execDemote page s
  | .pageOut page => Sys2Proof.Machine.execPageOut page s
  | .balloonRequest part ctrl => Sys2Proof.Machine.execBalloonRequest part ctrl s
  | .heatHalving => Sys2Proof.Machine.execHeatHalving s
  | .balloonDeadline part => Sys2Proof.Machine.execBalloonDeadline part s
  | .spaceStuck part => Sys2Proof.Machine.execSpaceStuck part s
  | .invalidateCommand part => Sys2Proof.Machine.execInvalidateCommand part s
  | .atsInvalidateTimeout fn => Sys2Proof.Machine.execAtsInvalidateTimeout fn s
  | .doorbellTailWrite h portUp => Sys2Proof.Machine.execDoorbellTailWrite h portUp s
  | .proxyHole h => Sys2Proof.Machine.execProxyHole h s
  | .dmaWrite port rid pasid translated addr bytes => Sys2Proof.Machine.execDmaWrite port rid pasid translated addr bytes s
  | .dmaRead port rid pasid translated addr len => Sys2Proof.Machine.execDmaRead port rid pasid translated addr len s
  | .atomicopRequest port rid pasid translated addr op size x y => Sys2Proof.Machine.execAtomicopRequest port rid pasid translated addr op size x y s
  | .translationRequest port rid pasid addr => Sys2Proof.Machine.execTranslationRequest port rid pasid addr s
  | .pageRequest port rid pasid addr prg rd wr last => Sys2Proof.Machine.execPageRequest port rid pasid addr prg rd wr last s
  | .msixWrite port rid data size => Sys2Proof.Machine.execMsixWrite port rid data size s
  | .mmioCompletion agent ok data => Sys2Proof.Machine.execMmioCompletion agent ok data s
  | .iordCompletionTimeout agent => Sys2Proof.Machine.execIordCompletionTimeout agent s
  | .aerError port rid header => Sys2Proof.Machine.execAerError port rid header s
  | .eventWrite => Sys2Proof.Machine.execEventWrite s
  | .proxyRegistrationWrite agent addr size value => Sys2Proof.Machine.execProxyRegistrationWrite agent addr size value s
  | .interruptMapWrite agent addr size value => Sys2Proof.Machine.execInterruptMapWrite agent addr size value s
  | .prgresp agent addr size value => Sys2Proof.Machine.execPrgresp agent addr size value s
  | .invalidateTailWrite agent addr size value => Sys2Proof.Machine.execInvalidateTailWrite agent addr size value s
  | .balack agent addr size value => Sys2Proof.Machine.execBalack agent addr size value s
  | .partitionTableWrite agent addr size value => Sys2Proof.Machine.execPartitionTableWrite agent addr size value s
  | .functionBindingWrite agent addr size value => Sys2Proof.Machine.execFunctionBindingWrite agent addr size value s
  | .asidtblWrite agent addr size value => Sys2Proof.Machine.execAsidtblWrite agent addr size value s
  | .frametblWrite agent addr size value => Sys2Proof.Machine.execFrametblWrite agent addr size value s
  | .registerWrite agent addr size value => Sys2Proof.Machine.execRegisterWrite agent addr size value s
  | .preEmptTeam agent part => Sys2Proof.Machine.execPreEmptTeam agent part s
  | .withdrawPreEmption agent part => Sys2Proof.Machine.execWithdrawPreEmption agent part s
  | .killTeam agent part => Sys2Proof.Machine.execKillTeam agent part s
  | .killLaunch agent part => Sys2Proof.Machine.execKillLaunch agent part s
  | .resetPartition agent part => Sys2Proof.Machine.execResetPartition agent part s
  | .pcmdReservedOp agent part op => Sys2Proof.Machine.execPcmdReservedOp agent part op s
  | .kill agent => Sys2Proof.Machine.execKill agent s
  | .partitionResetDone part => Sys2Proof.Machine.execPartitionResetDone part s
  | .flitSend link kind payload => Sys2Proof.Machine.execFlitSend link kind payload s
  | .dataFlit link flit => Sys2Proof.Machine.execDataFlit link flit s
  | .markerFlit link flit => Sys2Proof.Machine.execMarkerFlit link flit s
  | .acknowledgeFlit link flit => Sys2Proof.Machine.execAcknowledgeFlit link flit s
  | .negativeAcknowledge link flit => Sys2Proof.Machine.execNegativeAcknowledge link flit s
  | .idleFlit link flit => Sys2Proof.Machine.execIdleFlit link flit s
  | .linkTraining link up => Sys2Proof.Machine.execLinkTraining link up s
  | .keyLoad slot key salt => Sys2Proof.Machine.execKeyLoad slot key salt s
  | .packageReset => Sys2Proof.Machine.execPackageReset s
  | .startStep n ok => Sys2Proof.Machine.execStartStep n ok s
  | .thermalTrip => Sys2Proof.Machine.execThermalTrip s
  | .throttle on => Sys2Proof.Machine.execThrottle on s
  | .reportRequest part nonce => Sys2Proof.Machine.execReportRequest part nonce s
  | .debugUnlock token => Sys2Proof.Machine.execDebugUnlock token s
  | .stepRecordClear => Sys2Proof.Machine.execStepRecordClear s
  | .sramError key correctable => Sys2Proof.Machine.execSramError key correctable s
  | .channelRebuild stack channel => Sys2Proof.Machine.execChannelRebuild stack channel s
  | .invalidateCompletion fn => Sys2Proof.Machine.execInvalidateCompletion fn s
  | .channelFailure stack channel => Sys2Proof.Machine.execChannelFailure stack channel s
  | .queueFullTimeout agent => Sys2Proof.Machine.execQueueFullTimeout agent s

end Sys2Proof.Machine
end

