-- ==== Sys2Proof/Machine/Turns.lean ====
section
/-! DEFINITION. Machine/Turns.lean: what comes before an agent's issue (R193, R205, R206, R298), and the default turn
when the environment's schedule is empty (log 6). -/
namespace Sys2Proof.Machine

/-- What an agent does at its turn before it issues. -/
inductive Before where
  | happening (i : Instr)
  | drain
  | blocked
  | ready
  deriving DecidableEq, Repr

/-- Whether the top entry is a path entry that has reached its reconvergence address (R193). -/
def Agent.popDue (a : Agent) : Bool := a.regs.top.kind = .path && a.regs.top.rpc = some a.regs.top.pc

/-- Whether the package has started, so far as an agent is concerned: the root-of-trust core runs from reset on, and in the recovery
state no other core but host core 0 (R403, R408). -/
def State.running (s : State) : Bool := s.bootStep == 27 || s.me.kind = .root || (s.recovery && decide (s.meId < 4))

/-- Whether the agent whose turn it is must leave: it is ordered killed and does not exit, or its pre-emption deadline has passed
(R213, R401, R411). -/
def State.mustLeave (s : State) : Bool := (s.me.killed && !s.exitNext) || s.deadlinePassed

/-- Whether an AST of the agent whose turn it is has not left the matrix unit: its operand phase lasts until then, and the team
issues no younger instruction (R173). -/
def State.storesTile (s : State) : Bool := s.matrix.any fun c => c.2.any fun o => o.agent = s.meId && !o.stores.isEmpty

/-- Whether the wait of the agent whose turn it is lets its instruction issue (R33, R173, R201, R206). -/
def State.mayIssue (s : State) : Bool :=
  s.running && s.me.sstop = 0#32 && !s.mustLeave && !s.storesTile && (match s.me.wait with
    | .none => true
    | .room _ => true
    | .wfi => !s.me.intrs.isEmpty
    | .yield (some h) g => s.objGen h != g.toNat
    | _ => false)

/-- A pending trap, the drain of a restored replay queue, a pop and a pending interrupt come before an issue, in that
order. -/
def State.beforeIssue (s : State) : Before :=
  let a := s.me
  if a.pendingTrap.isSome then (if s.vectorReady then .happening (.trapVector s.meId) else .blocked)
  else if !a.regs.priv && !a.replayQ.isEmpty && s.running && !s.mustLeave then .drain
  else if !s.mayIssue then .blocked
  else if a.popDue then .happening (.reconvergencePop s.meId)
  else if !a.isTeam && !a.regs.priv && !a.intrs.isEmpty && a.atBoundary then .happening (.intr s.meId)
  else .ready

/-- The cycles until an agent's stall count has passed (R40). -/
def State.stallLeft (s : State) : Nat := s.me.notBefore / s.me.rate - s.time.toNat

/-! ### Selection (R34, R46) -/

/-- The class that a ready team is chosen by: 0 once it has not issued for 256 cycles (R34). -/
def State.issueClass (s : State) (a : Agent) : Nat := if a.lastIssue + 256 ≤ s.time.toNat then 0 else a.cls

/-- Whether team a goes before team b (R34): the higher class, then the earlier admission, then the lower TEAMID of one
launch, or the lower launch handle. -/
def State.goesBefore (s : State) (a b : Agent) : Bool :=
  let ca := s.issueClass a
  let cb := s.issueClass b
  decide (ca < cb) || (ca == cb && (decide (a.admission < b.admission) || (a.admission == b.admission &&
    (if a.launch = b.launch then decide (a.teamid.toNat < b.teamid.toNat) else decide (a.launch.toNat < b.launch.toNat)))))

/-- The agents that would go before the one whose turn it is, were they ready: the better teams of its quadrants; the
threads of its core from the one after the last to issue (R34, R46). -/
def State.rivals (s : State) : List Nat :=
  let a := s.me
  let ps := a.portsOf s.meId
  let same := s.others.filter fun c => c.2.isTeam = a.isTeam && (c.2.portsOf c.1).any ps.contains
  if a.isTeam then (same.filter fun c => s.goesBefore c.2 a).map (·.1)
  else
    let n := if s.meId < 32 then 4 else 2
    let from_ := (ps.map fun p => (s.ports.get {} p).next).headD 0
    let turn (id : Nat) : Nat := (id % n + n - from_) % n
    (same.filter fun c => decide (turn c.1 < turn s.meId)).map (·.1)

/-- What the agent whose turn it is does when it issues: the instruction at the PC, with its stall count. -/
def State.attempt (s : State) : Nat × Res :=
  match s.fetch with
  | (.run i stall ns, s) => (stall, exec i (s.updMe fun a => { a with ns := ns }))
  | (.raise c, s) => (0, if s.awaitsExceptions then holdUntil s.me.excUntil s else trap c s)
  | (.wait, s) => (0, .next s)

/-- Whether an agent is ready: its instruction would issue in this cycle (R33). -/
def State.readyNow (s : State) (id : Nat) : Bool :=
  match s.switchTo id with
  | none => false
  | some s => s.beforeIssue == .ready && s.slotNow s.meId s.me && issuedBy s.meId s.me s.attempt.2

/-- Whether the agent whose turn it is may issue now: its ports have not issued in this cycle, and no agent that goes before
it is ready (R34, R46). -/
def State.chosen (s : State) : Bool := s.slotNow s.meId s.me && s.rivals.all fun id => !s.readyNow id

/-! ### Limits (R392) -/

/-- The limits that an agent counts to, with what happens there: its deadline, and what its wait counts to (R213, R264, R308, R313,
R318, R337, R341). -/
def State.waitTimer (s : State) (id : Nat) (a : Agent) : List (Nat × (State → Res)) :=
  (match a.wait with
    | .mwait _ _ _ due false => [(due, execMwaitTimeout id)]
    | .iord _ _ _ m _ _ since => [(since + { s with me := a }.ioLimit m, execIordCompletionTimeout id)]
    | .room since => [(since + 4096, execQueueFullTimeout id)]
    | .spawn _ => a.spawnQ.flatMap fun t => t.arrived.toList.flatMap fun since =>
      [(since + 4096, execKindlingThreadArrival id), (since + 4096, execKindlingDrop id)]
    | _ => []) ++ (a.preq.map fun r => (r.1, execForcedSave id)).toList ++
  (a.storeQ.take 1 ++ a.replayQ.take 1).flatMap fun r => (r.since.map fun t => (t + 4096, execQueueFullTimeout id)).toList

/-- The limits that a partition counts to (R379, R393). -/
def State.partTimers (s : State) (p : Nat) : List (Nat × (State → Res)) :=
  let q := s.part p
  (q.wdog.map fun w => (w.2 + 2 ^ 28, execWdog p w.1)) ++
  (match q.exhausted, q.episode with
    | some t, _ => if q.stuckSent then [] else [(t + s.partDefault p 0x138 4 125000000, execSpaceStuck p)]
    | none, some t => [(t + s.partDefault p 0x1C 4 2500000, execBalloonDeadline p)]
    | none, none => [])

/-- Every limit that is being counted to, with what happens in the cycle that reaches it (R247, R314, R344, R349, R378). -/
def State.timers (s : State) : List (Nat × (State → Res)) :=
  (s.agents.flatMap fun c => s.waitTimer c.1 c.2) ++ (List.range 16).flatMap s.partTimers ++
  ((List.range 4).flatMap fun d => (s.bins.filter fun b => b.die = d).zipIdx.flatMap fun c =>
    ((s.binDue c.1).map fun t => (t, execKindlingTimer d c.2)).toList) ++
  (s.holes.map fun h => (h.2 + s.partDefault (regPart s h.1) 0x18 4 62500, execProxyHole h.1)) ++
  (s.ranges.flatMap fun r => (r.waitSince.map fun t => (t + 25000, execRecall r.cid)).toList) ++
  (s.atsWait.map fun w => (w.2.2 + 62500, execAtsInvalidateTimeout w.1)) ++
  [((s.halvings + 1) * 2 ^ 24, execHeatHalving)]

/-- The state after the first happening of a list that changes something. -/
def State.firstChange (s : State) : List (State → Res) → Option State
  | [] => none
  | f :: rest => match f s with
    | .next t => if t = s then s.firstChange rest else some t
    | _ => s.firstChange rest

/-- What a limit that is reached brings at the end of the cycle (R392). -/
def State.fireTimer (s : State) : Option State :=
  s.firstChange ((s.timers.filter fun c => decide (c.1 ≤ s.time.toNat)).map (·.2))

/-- The first cycle of the next dt, before the last of them, that reaches a limit. -/
def State.nextLimit (s : State) (dt : Nat) : Option Nat :=
  ((s.timers.map (·.1)).filter fun t => decide (s.time.toNat < t ∧ t < s.time.toNat + dt)).min?

/-! ### The default turn (log 6) -/

/-- Whether its MWAIT has been woken: by default no line is evicted from an L1 (log 6). -/
def State.mwaitWoken (s : State) : Bool := match s.me.wait with | .mwait _ _ _ _ woken => woken | _ => false

/-- The happenings of the agent whose turn it is. -/
def State.ownHappenings (s : State) : List (State → Res) :=
  let id := s.meId
  let a := s.me
  [execKill id, execTrapVector id, execForcedSave id, execStoreFault id] ++
  (a.loads.zipIdx.flatMap fun (c : PendingLoad × Nat) => c.1.sectors.map fun x => execSectorReturn id c.2 x) ++
  ((List.range a.varlat.length).map fun k => execVariableLatencyResult id k) ++
  [execSketchInk id] ++ ((List.range a.storeQ.length).map fun k => execStorePerform id k) ++
  [execMatrixOpComplete a.core, execTransformReply id 4096, execBarwaitComplete id] ++
  (if s.mwaitWoken then [execMwaitComplete id] else []) ++
  [execChnwaitComplete id, execKindlingThreadArrival id, execKindlingDrop id]

/-- The happenings of a partition. -/
def State.partitionHappenings (s : State) (p : Nat) : List (State → Res) :=
  [execTeamPlacement p, execInvalidateCommand p, execKindlingRingRefill p, execPartitionResetDone p] ++
  ((List.range (s.resume.filter fun r => r.part = p).length).map fun k => execYieldReactivation p k)

/-- The chunks that a granule takes by default: the lowest free run that its form needs (log 6). -/
def State.defaultRun (s : State) (line : Nat) : BitVec 29 :=
  match s.pageOwner (line * 128 / 65536 * 65536) with
  | some p => BitVec.ofNat 29 (s.freeRun (granuleHome (line / 4)) (s.chunkNeed p (line / 4) false).1)
  | none => 0

/-- The happenings of the package that name something in its state. -/
def State.packageHappenings (s : State) : List (State → Res) :=
  [execStartStep s.bootStep (some {})] ++
  ((s.dir.filter fun c => (c.2.detached || c.2.passing) && c.2.dirty && c.2.st != .held).map fun c =>
    execWriteBack c.1 (s.defaultRun c.1) false) ++
  ((s.dir.filter fun c => c.2.st = .held).map fun c => execHeldWritebackRetry c.1 (s.defaultRun c.1)) ++
  (s.engines.flatMap fun o => [execChannelFire o.id, execEngineStart { id := o.id }, execEngineCompletion o.id [] .fine]) ++
  ((List.range s.transit.length).map fun k => execMigrationArrival k) ++
  (s.launches.map fun l => execJoinArrival l.handle) ++
  ((List.range 16).flatMap s.partitionHappenings) ++ (s.tails.map fun h => execDoorbellTailWrite h true) ++ [execEventWrite]

/-- The agent after the one whose turn it is, by number; the first one after the last. -/
def State.nextAgent (s : State) : Nat :=
  let ids := s.others.map (·.1)
  match (ids.filter fun n => decide (s.meId < n)).min? with
  | some n => n
  | none => min (ids.min?.getD s.meId) s.meId

/-- What happens by default before an agent issues: the first happening of the agent whose turn it was, or of the package,
that changes something. -/
def State.defaultHappening (s : State) : Option State := s.firstChange (s.ownHappenings ++ s.packageHappenings)

end Sys2Proof.Machine
end

