-- ==== Sys2Proof/Machine/Step.lean ====
section
/-! DEFINITION. Machine/Step.lean: one step of the package. `turns` says which agent issues next or which happening
comes next; when it is empty the default turn goes on in the model's own order (log 6). -/
namespace Sys2Proof.Machine

/-- One issue by the agent whose turn it is: a pending trap, a pop, an interrupt or a drain goes first; an agent that waits,
and one before which another of its quadrant or core goes, does not issue; one whose stall count has not passed issues once it
has; otherwise the instruction at the PC is fetched and run, and its stall count paces the next. -/
def issueTurn (s : State) : Res :=
  match s.beforeIssue with
  | .happening i => exec i s
  | .drain => .next s.drainBeforeIssue
  | .blocked => .next s
  | .ready =>
    if s.stallLeft != 0 then .next { s with turns := (s.stallLeft, .issue s.meId) :: s.turns }
    else if s.chosen then pace s.meId s.me (s.slotOf s.meId s.me) s.attempt.1 s.attempt.2
    else .next s

/-- Take a turn. A turn that names no agent, and a happening that is an instruction word, do nothing. -/
def takeTurn (t : Turn) (s : State) : Res :=
  match t with
  | .issue id => match s.switchTo id with
    | some s => issueTurn s
    | none => .next s
  | .happen i => if i.isWord then .next s else exec i s

/-- The next turn, when the cycle is over: time passes to it, or only to the first limit that is reached before it. -/
def State.nextTurn (s : State) : Res :=
  match s.turns with
  | (dt, t) :: rest => match s.nextLimit dt with
    | some n => .next { s with time := BitVec.ofNat 64 n, turns := (dt - (n - s.time.toNat), t) :: rest }
    | none => takeTurn t { s with turns := rest, time := s.time + BitVec.ofNat 64 dt }
  | [] =>
    let s := { s with time := s.time + 1 }
    match s.defaultHappening with
    | some t => .next t
    | none => takeTurn (.issue s.nextAgent) s

/-- One step: a turn of this cycle is taken; or, at its end, a limit that is reached takes effect (R392); or time passes, and the
next turn is taken. -/
def step (s : State) : Host.Outcome State Fault Refusal :=
  match s.turns with
  | (0, t) :: rest => takeTurn t { s with turns := rest }
  | _ => match s.fireTimer with
    | some t => .next t
    | none => s.nextTurn

/-- s with an instruction stored where the agent whose turn it is fetches next, and that agent ready to issue it: its
PC mapped, the bundle's schedule word clear, and the next turn its own. A row that only a compute team runs finds the
agent made the team of a loaded program (log 2). -/
def State.withFetchWord (s : State) (nbits w : Nat) : State :=
  let words := tableWords (w % 2 ^ nbits)
  let w0 := w % 2 ^ nbits % 2 ^ 32
  let head := if w0 / 2 ^ 24 = 0xFF then w % 2 ^ nbits / 2 ^ 32 else w0
  let a := if s.me.isTeam || !Instr.teamOnly head then s.me else loadedTeam head s.me
  let s := { s with me := { a with wait := .none, sstop := 0, pendingTrap := none, notBefore := 0, excUntil := 0 },
                    turns := [(0, .issue s.meId)], bootStep := 27, throttled := false, ports := [], pipes := [] }
  let (s, m) := s.mapFetch
  let s := s.wr (m / 32 * 32) 4 0
  let bytes := (if m / 4 % 8 = 7 then words.take 1 else words).flatMap bytesOfWord
  { s with mem := Memory.writeBytes s.mem m bytes }

end Sys2Proof.Machine
end

