-- ==== Sys2Proof/Safety.lean ====
section
/-! DEFINITION. Safety.lean: the terms in which statements speak: what the machine keeps in every state, when nothing
holds an instruction back, and what an instruction leaves unchanged. -/
namespace Sys2Proof.Safety
open Sys2Proof.Machine

/-- The memory stands in its canonical form (log 4): addresses strictly rising, nothing listed that reads as an unlisted
address does. -/
def MemoryCanonical (s : State) : Prop := Memory.wf s.mem = true

/-- Nothing holds back an instruction that reads or writes the registers `rs`, outside a sketch (R43, R48, R148, R285): they
lie in the agent's budgets, none is pending, and no older result is awaited. -/
def Free (s : State) (rs : List Reg) : Bool :=
  rs.all s.me.inBudget && decide (s.me.readyAt s.coreNow rs ≤ s.coreNow) && !s.pendingVar rs &&
  !s.awaitsExceptions && s.me.sketch.isNone

/-- The datapaths of the team's quadrants are free (R44). -/
def PipesFree (s : State) : Bool := decide (s.pipeFree ≤ s.time.toNat)

/-- The registers that s fields name. -/
def scalars (s : State) (ns : List (BitVec 7)) : List Reg := ns.flatMap fun n => s.me.sRegs n.toNat

/-- Nothing holds back an instruction with a need: it is legal, has the privilege it needs, and the datapaths for its passes (R44,
R62, R63). -/
def Takes (s : State) (n : Need) : Bool := n.legal && (!n.sup || s.me.regs.priv) && Free s (n.reads ++ n.writes) && !s.pipeHeld n

/-- No register of a list of s fields is poisoned. -/
def Unpoisoned (s : State) (ns : List (BitVec 7)) : Bool := ns.all fun n => !(s.me.getS n.toNat).poison

/-- No exec lane of the units of some v registers is poisoned. -/
def CleanLanes (s : State) (wide : Bool) (rs : List (BitVec 8)) : Bool :=
  s.me.execLanes.all fun l => rs.all fun r => !(s.me.getUnit wide r.toNat l).poison

/-- Nothing holds back a vector instruction on units of some v registers, and more registers: the agent is a compute team, the
v registers are even where the units are pairs, all of them and the guard are free, and so are the datapaths (R43, R44, R48, R62,
R80). -/
def VecFree (s : State) (wide : Bool) (rs : List (BitVec 8)) (more : List Reg := []) : Bool :=
  s.me.isTeam && PipesFree s && rs.all (fun r => !wide || r.toNat % 2 == 0) &&
  Free s (rs.flatMap (fun r => vRegs wide r.toNat) ++ s.me.guardReg ++ more)

/-- The exec lanes in which the unit of one of some v registers is poisoned. -/
def poisonedLanes (s : State) (wide : Bool) (rs : List (BitVec 8)) : List Nat :=
  s.me.execLanes.filter fun l => rs.any fun r => (s.me.getUnit wide r.toNat l).poison

/-- Registers with the PC moved. -/
def atPc (r : Regs) (pc : BitVec 56) : Regs := { r with top := { r.top with pc := pc } }

/-- What completing an instruction does to the state `u` that its own effect left: the agent's registers are `regs`, its place
in its own order moves on, its scoreboard may take the result, with the cycles that younger instructions wait for (R111, R148);
nothing else of the agent changes, and of the package nothing but the cycles at which datapaths are free (R44) and event counters. -/
def Retired (u t : State) (regs : Regs) : Prop :=
  t = { u with me := t.me, pipes := t.pipes, counters := t.counters } ∧
  t.me = { u.me with regs := regs, seq := u.me.seq + 1, waited := false, wait := .none, score := t.me.score, excUntil := t.me.excUntil,
                       arithUntil := t.me.arithUntil }

/-- Instruction `i` completes at `s`: its own effect leaves `u`, and the PC goes to `pc`. -/
def Jumps (i : Instr) (s u : State) (pc : BitVec 56) : Prop := ∃ t, exec i s = .next t ∧ Retired u t (atPc u.me.regs pc)

/-- Instruction `i`, with or without an EXT, completes at `s`: its own effect leaves `u`, and the PC goes to the successor. -/
def Does (ext : Bool) (i : Instr) (s u : State) : Prop := Jumps i s u (s.me.next ext)

/-- What a push to, or a pop from, a stack of `depth` entries does: up to 32 entries it goes on as `good` says; beyond them the spill
area is translated with supervisor privilege, and it goes on where that gives memory, waits while it waits, and stops the agent where it
fails (R192, R207). `r` is what it answers. -/
def Spills (depth : Nat) (s : State) (r : Res) (good : State → Prop) : Prop :=
  (depth ≤ 32 → good s) ∧
  (32 < depth → match s.translate { s.who with user := false } s.me.spill.toNat accStore with
    | (.at m _ _, v) => if targetOf m = .hbm ∨ targetOf m = .cxl then good v else r = .next (v.supervisorStop 0x0B)
    | (.wait, v) => r = .next v
    | (.fault _ _ _, v) => r = .next (v.supervisorStop 0x0B))

/-- Instruction `i` traps at `s` with a cause and TMASK, and resumes at its own address; it is counted as issued (R395). -/
def Traps (i : Instr) (s : State) (c : Cause) (lanes : LaneMask) : Prop := exec i s = .next (s.issued.raise c lanes s.me.pc)

/-- The state with the registers of the agent whose turn it is changed. -/
def withRegs (s : State) (f : Regs → Regs) : State := s.updMe fun g => { g with regs := f g.regs }

/-- The handler that a trap of the agent whose turn it is enters, with its MODE: the partition's for a team, CR_HVEC with MODE
0 for a host or queue thread (R205, R206). -/
def handlerOf (s : State) : Nat × Word32 :=
  if s.me.isTeam then (s.partField s.me.part 8 8, BitVec.ofNat 32 (s.partField s.me.part 0x10 4)) else (s.me.hvec.toNat, 0)

/-- `t` is `s` with its agent in its handler (R205, R206): the record is the cause, the PC and the lanes; the top entry keeps
the resume address and MODE; a trap frame stands on it whose mask is TMASK; privilege is 1, and MODE the handler's. Only the
agent changed, and of the package nothing but event counters. -/
def Enters (s t : State) (c : Cause) (lanes : LaneMask) (resume : BitVec 56) : Prop :=
  t = { s with me := t.me, counters := t.counters } ∧
  t.me = { s.me with
    seq := t.me.seq, tcause := c.tcause, tpc := s.me.pc, taddr := c.addr, tmask := lanes, pendingTrap := none, wait := .none,
    regs := { s.me.regs with
      priv := true, mode := (handlerOf s).2,
      top := { pc := BitVec.ofNat 56 ((handlerOf s).1 + 4), rpc := none, mode := (handlerOf s).2, kind := .frame, mask := lanes },
      rest := { s.me.regs.top with pc := resume, mode := s.me.regs.mode } :: s.me.regs.rest } }

/-- A scalar result in flight (R119, R147): its register's write and its exceptions, until VARIABLE_LATENCY_RESULT. -/
def flying (s : State) (d : BitVec 7) (v : Dword) (e : Nat) : State :=
  s.updMe fun g => { g with varlat := g.varlat ++
    [{ writes := (g.sRegs d.toNat).map fun r => { reg := r, val := clean v }, flags := BitVec.ofNat 32 e }] }

/-- Vector instruction `i` closes as commit_arith does (R70, R109, R110, R150), `res` giving each exec lane its unit and its
exceptions: with none of them enabled, FLAGS takes them all and every exec lane of d its unit; otherwise the lanes that meet
an enabled one trap with their enabled ones. -/
def Closes (ext : Bool) (i : Instr) (s : State) (wide : Bool) (d : BitVec 8) (res : Nat → Nat × Nat) : Prop :=
  let es := s.me.execLanes.map fun l => (l, (res l).2)
  let bad := es.filter fun c => s.me.enabled c.2 != 0
  (bad = [] → Does ext i s (writeLanes wide d.toNat (fun l => clean (BitVec.ofNat 64 (res l).1)) (s.orFlags (orExc es)))) ∧
  (bad ≠ [] → Traps i s (.arith (s.me.enabled (orExc bad))) (maskOf (bad.map (·.1))))

/-- A lane's unit and exceptions from its elements, each a function of the elements of the sources there (R84, R109). -/
def elementwise (s : State) (srcs : List (BitVec 8)) (f : List Nat → Nat × Nat) (l : Nat) : Nat × Nat :=
  let w := typeWidth s.me.ty
  let r (e : Nat) := f (srcs.map fun a => elemOf w (s.me.getUnit (isWideType s.me.ty) a.toNat l).val.toNat e)
  (joinElems w (elemCount w) fun e => (r e).1, (List.range (elemCount w)).foldl (fun x e => x ||| (r e).2) 0)

/-- The agent waits for nothing, and no sketch is open: finding bytes then changes caches, tables and counts of use, and nothing of
the agent (log 5). -/
def Quiet (s : State) : Prop := s.me.wait = .none ∧ s.agents.all (fun c => c.2.sketch.isNone) = true

/-- The agent is the same in `u`: it was quiet at `s`, or has in any case not changed. -/
def Keeps (s u : State) : Prop := Quiet s ∨ u.me = s.me

/-- The bytes of a scratchpad access of n bytes (R226, R230). -/
def grantKeys (s : State) (n : Nat) (x : LaneAddr) : List Nat :=
  (List.range n).map fun j => s.me.scratchAt (x.addr.toNat - scratchWindow + j) 0

/-- The bytes of a Hearth access of n bytes (R226). -/
def hearthKeys (n : Nat) (x : LaneAddr) : List Nat := (List.range n).map fun j => hearthKey (x.addr.toNat - hearthWindow + j)

/-- Clean, aligned addresses of n bytes in the SCRATCH window and in the team's grant: no step of R228 fails, and nothing is
translated (R226, R230). -/
def InGrant (s : State) (xs : List LaneAddr) (n : Nat) : Prop :=
  ∀ x ∈ xs, x.poison = false ∧ x.addr.toNat % n = 0 ∧ scratchWindow ≤ x.addr.toNat ∧
    x.addr.toNat + n ≤ scratchWindow + min s.me.grant (2 ^ 21)

/-- Clean, aligned addresses of n bytes in the HEARTH window and in the ranges of the agent's partition (R226, R228). -/
def InHearth (s : State) (xs : List LaneAddr) (n : Nat) : Prop :=
  ∃ p, s.partOf s.me = some p ∧ ∀ x ∈ xs, x.poison = false ∧ x.addr.toNat % n = 0 ∧ hearthWindow ≤ x.addr.toNat ∧
    x.addr.toNat + n ≤ hearthWindow + 2 ^ 27 ∧ s.inHearthRanges p (x.addr.toNat - hearthWindow) = true ∧
    s.inHearthRanges p (x.addr.toNat + n - 1 - hearthWindow) = true

end Sys2Proof.Safety
end

