-- ==== Sys2Proof/Certificates/Slice0/Obligations.lean ====
section
/-! DEFINITION. Certificates/Slice0/Obligations.lean: the statements for the provers. Each says the rule of spec/ that it
formalises. `Does`, `Jumps` and `Traps` (Safety.lean) hold the frame: what an instruction's own effect is not said to change
stays as it was. -/
open Sys2Proof Sys2Proof.Machine Sys2Proof.Safety

/-! ### Encoding (R38, R47 to R62) -/

/-- R38, R47 to R52: the decoder reads from an instruction's bytes, its words in order and each word least significant byte
first, that instruction, every operand at every value its field holds. -/
def Obligations.DecodeOfEncode : Prop := ∀ i : Instr, i.isWord = true →
  decodeBytes ((encode i).flatMap bytesOfWord) = .ok i ∧ (i.hasExt = true → ∃ p c, encode i = [p, c] ∧ p.toNat / 2 ^ 24 = 0xFF) ∧
  (i.hasExt = false → ∃ w, encode i = [w])

/-- R48, R52, R62: no bit of a word is ignored: the words of a decoded instruction are the words it was decoded from. -/
def Obligations.EncodeOfDecode : Prop := ∀ (ws : List Word32) (i : Instr), decode ws = .ok i →
  i.isWord = true ∧ encode i = ws.take (if i.hasExt then 2 else 1) ∧
  (∀ j, encode i = encode j → j = i)

/-- R47 to R62: words written out from the spec's encodings: one or two of each family, and words that are none. -/
def Obligations.DecodeSamples : Prop :=
  decode [0x00060410#32] = .ok (.sadd 3 1 2) ∧ decode [0xFF000001#32, 0x14020003#32] = .ok (.sliExt 1 3 1) ∧
  decode [0x20FFFFFF#32] = .ok (.bra 0xFFFFFF) ∧ decode [0x2B000000#32] = .ok .exit ∧
  decode [0x40020304#32] = .ok (.vadd 2 3 4) ∧ decode [0x52120304#32] = .ok (.vcmp 1 2 3 4) ∧
  decode [0xFF000009#32, 0x73010203#32] = .ok (.vfma 1 2 3 9) ∧ decode [0xA3500000#32] = .ok (.azero 5) ∧
  decode [0xFF000004#32, 0xAA010203#32] = .ok (.xcrc 1 2 3 4) ∧ decode [0xB2010304#32] = .ok (.vldw 1 3 2 false) ∧
  decode [0xB805C00C#32] = .ok (.sld 5 3 false 6) ∧ decode [0xD3020818#32] = .ok (.cpy 1 2 3) ∧
  decode [0xDB000818#32] = .ok (.qpost 2 3) ∧ decode [0xE1020800#32] = .ok (.bararr 1 2) ∧
  decode [0xE5020100#32] = .ok (.cntrd 1 0x100) ∧
  decode [0x1D000000#32] = .error (.unassignedOpcode 0x1D) ∧ decode [0x00060411#32] = .error (.reservedField 0x00) ∧
  decode [0x73010203#32] = .error (.missingExt 0x73) ∧ decode [0xFF000009#32, 0x00060410#32] = .ok (.ext 9)

/-! ### A step (R33, R38 to R42, R50, R62, R63) -/

/-- A turn of this cycle is taken at once; otherwise, where no limit is reached before it, time passes to it (log 6). In its turn an
agent that is ready, whose stall count has passed and that R34 chooses, issues the instruction that its words in memory decode
to, with the NS bit of its bundle, and its stall count paces the next (R34, R39, R40, R50); a turn that names a happening runs that
happening. `w` is the word at the PC, `next` the word after it, `sched` the bundle's schedule word. -/
def Obligations.StepRunsTheDecodedInstruction : Prop :=
  (∀ (s r v : State) (id m : Nat) (rest : List (Nat × Turn)) (i : Instr),
    s.turns = (0, .issue id) :: rest → ({ s with turns := rest } : State).switchTo id = some r → r.beforeIssue = .ready →
    r.stallLeft = 0 → r.chosen = true → badTarget (r.me.pc.setWidth 64) = false → r.fetchAt = (.inl (some m), v) →
    let n := m / 4 % 8
    let sched := v.bundleWord m 0
    let w := v.bundleWord m n
    let next := v.bundleWord m (n + 1)
    let pair := w / 2 ^ 24 = 0xFF ∧ n ≠ 7 ∧ next / 2 ^ 24 ≠ 0xFF
    let stall (k : Nat) := sched / 2 ^ (4 * (k - 1)) % 16
    let issues (k : Nat) : Prop := step s =
      pace r.meId r.me (r.slotOf r.meId r.me) (stall k) (exec i (v.updMe fun a => { a with ns := bitOf sched 30 }))
    (∀ t, immediateTarget (if pair then r.me.pc + 4 else r.me.pc) (if pair then next else w) = some t →
      badTarget (t.setWidth 64) = false) →
    (n = 1 → bitsOf sched 29 28 = 0) →
    (¬ pair → decode [BitVec.ofNat 32 w] = .ok i → issues n) ∧
    (pair → stall n = 0 → decode [BitVec.ofNat 32 w, BitVec.ofNat 32 next] = .ok i → issues (n + 1))) ∧
  (∀ (s : State) (rest : List (Nat × Turn)) (i : Instr), s.turns = (0, .happen i) :: rest → i.isWord = false →
    step s = exec i { s with turns := rest }) ∧
  (∀ (s : State) (dt : Nat) (t : Turn) (rest : List (Nat × Turn)), s.turns = (dt, t) :: rest → dt ≠ 0 → s.fireTimer = none →
    s.nextLimit dt = none → step s = step { s with turns := (0, t) :: rest, time := s.time + BitVec.ofNat 64 dt })

/-- R34, R40, R46: what an issue leaves: one port of the agent issues nothing more in that cycle of its core's clock, its next word
comes a stall count later, and an agent whose stall count has not passed issues nothing until then. Of two teams that are ready one
goes before the other: the higher class, where a team that has not issued for 256 cycles counts as class 0 (that those cycles count
whether or not it was ready in them is the model's reading, log 6); then the earlier admission, the lower TEAMID of one launch, the
lower launch handle. -/
def Claims.IssuesArePaced : Prop :=
  (∀ (id slot stall : Nat) (a b : Agent) (t : State), t.agent? id = some b → b.seq ≠ a.seq → ∃ u, pace id a slot stall (.next t) = .next u ∧
    u.agent? id = some { b with notBefore := max b.notBefore (slot + 1 + stall), lastIssue := t.time.toNat } ∧
    (∀ n, n ≠ id → u.agent? n = t.agent? n) ∧ (∀ p ∈ a.portsOf id, (u.ports.get {} p).free = slot + 1) ∧
    (∀ p, p ∉ a.portsOf id → u.ports.get {} p = t.ports.get {} p) ∧ u.mem = t.mem) ∧
  (∀ (s r : State) (id : Nat) (rest : List (Nat × Turn)), s.turns = (0, .issue id) :: rest →
    ({ s with turns := rest } : State).switchTo id = some r → r.beforeIssue = .ready → r.stallLeft ≠ 0 →
    step s = .next { r with turns := (r.stallLeft, .issue r.meId) :: r.turns }) ∧
  (∀ (s : State) (a b : Agent),
    s.issueClass a = (if a.lastIssue + 256 ≤ s.time.toNat then 0 else a.cls) ∧
    ¬ (s.goesBefore a b = true ∧ s.goesBefore b a = true) ∧
    ((a.launch, a.teamid) ≠ (b.launch, b.teamid) → s.goesBefore a b = true ∨ s.goesBefore b a = true) ∧
    (s.issueClass a < s.issueClass b → s.goesBefore a b = true) ∧
    (s.issueClass a = s.issueClass b → a.admission < b.admission → s.goesBefore a b = true) ∧
    (s.issueClass a = s.issueClass b → a.admission = b.admission → a.launch = b.launch → a.teamid.toNat < b.teamid.toNat →
      s.goesBefore a b = true) ∧
    (s.issueClass a = s.issueClass b → a.admission = b.admission → a.launch.toNat < b.launch.toNat → s.goesBefore a b = true))

/-- R62, R63, R148: what an issue turn does instead where the words at the PC are no instruction: ILLEGAL_TARGET for a PC or an
immediate target that is none, and ILLEGAL for reserved schedule bits at word 1, for an EXT with a stall count of its own, and
for words that do not decode. A fetch that faults in translation raises its fault. Each waits for older exception sets. -/
def Obligations.StepTrapsBadWords : Prop := ∀ (s r : State) (id : Nat) (rest : List (Nat × Turn)),
  s.turns = (0, .issue id) :: rest → ({ s with turns := rest } : State).switchTo id = some r → r.beforeIssue = .ready →
  r.stallLeft = 0 → r.chosen = true →
  let raises (c : Cause) (u : State) : Prop := step s = pace r.meId r.me (r.slotOf r.meId r.me) 0
    (if u.awaitsExceptions then holdUntil u.me.excUntil u else trap c u)
  (badTarget (r.me.pc.setWidth 64) = true → raises (.illegalTarget (r.me.pc.setWidth 64)) r) ∧
  (badTarget (r.me.pc.setWidth 64) = false →
    (∀ c v, r.fetchAt = (.inr c, v) → raises c v) ∧
    (∀ m v, r.fetchAt = (.inl (some m), v) →
      let n := m / 4 % 8
      let sched := v.bundleWord m 0
      let w := v.bundleWord m n
      let next := v.bundleWord m (n + 1)
      let pair := w / 2 ^ 24 = 0xFF ∧ n ≠ 7 ∧ next / 2 ^ 24 ≠ 0xFF
      let target := immediateTarget (if pair then r.me.pc + 4 else r.me.pc) (if pair then next else w)
      (∀ t, target = some t → badTarget (t.setWidth 64) = true → raises (.illegalTarget (t.setWidth 64)) v) ∧
      ((∀ t, target = some t → badTarget (t.setWidth 64) = false) →
        (n = 1 ∧ bitsOf sched 29 28 ≠ 0) ∨ (pair ∧ sched / 2 ^ (4 * (n - 1)) % 16 ≠ 0) ∨
        (¬ pair ∧ ∃ e, decode [BitVec.ofNat 32 w] = .error e) → raises .illegal v)))

/-- R62: the instructions of vectors, matrices and transforms, and those that act on a team's slot, grant or channels, are
ILLEGAL on a host or queue thread, and WFI on a compute core, before anything else is judged. R63, R197, R209, R210, R217, R218:
RETT, CSRWR, CTXSAVE, CTXLOAD, WFI and HALT in user mode raise PRIV, their registers within budget. Only the wait for older
exception sets comes first (R148). -/
def Claims.CoreAndPrivilegeChecks : Prop := ∀ s : State, s.awaitsExceptions = false →
  (s.me.isTeam = false → ∀ i : Instr, Instr.teamOnly ((encodeNat i).getLastD 0) = true → Traps i s .illegal s.me.active) ∧
  (s.me.isTeam = true → Traps .wfi s .illegal s.me.active) ∧
  (s.me.regs.priv = false →
    Traps .rett s .privileged s.me.active ∧ Traps .halt s .privileged s.me.active ∧
    (s.me.isTeam = false → Traps .wfi s .privileged s.me.active) ∧
    (∀ (a : BitVec 7) (n : BitVec 17), (scalars s [a]).all s.me.inBudget = true → Traps (.csrwr a n) s .privileged s.me.active) ∧
    (∀ d a : BitVec 7, (scalars s [d, a]).all s.me.inBudget = true → Traps (.ctxload d a) s .privileged s.me.active ∧
      (s.me.isTeam = true → Traps (.ctxsave d a) s .privileged s.me.active)))

/-- R43, R44, R45, R148: nothing issues while older exception sets are awaited. An instruction that makes a pass, or needs none, and
issues before a register's fixed-latency producer is its latency past waits until then, and raises STALL_SHORT instead when SB_CHECK is set; one
that needs a busy datapath waits for it; one that makes no pass waits for every lane word; one whose register is pending
from a producer of variable latency, in a lane word of its passes, waits. None of it executes. Cycles are those of its core's clock (R46). A register beyond budget is ILLEGAL (R62, R73). -/
def Claims.ScoreboardAndBudget : Prop := ∀ (s : State) (n : Need) (body : State → Res),
  let rs := n.reads ++ n.writes
  let now := s.coreNow
  let first := s.me.firstReadyAt now n
  let every := s.me.readyAt now rs
  let waitsFor (t : Nat) : Prop :=
    issue n body s = .next (s.updMe fun a => { a with notBefore := max a.notBefore t })
  (s.awaitsExceptions = true → waitsFor s.me.excUntil) ∧
  (s.awaitsExceptions = false → n.legal = false ∨ rs.all s.me.inBudget = false →
    issue n body s = .next (s.issued.raise .illegal s.me.active s.me.pc)) ∧
  (s.awaitsExceptions = false → n.legal = true → rs.all s.me.inBudget = true → (n.sup = true → s.me.regs.priv = true) →
    (s.pipeHeld n = true → waitsFor s.pipeFree) ∧
    (s.pipeHeld n = false →
      (now < first → s.checking = false → waitsFor first) ∧
      (now < first → s.checking = true → issue n body s = .next (s.issued.raise .stallShort s.me.active s.me.pc)) ∧
      (first ≤ now → n.words = none → now < every → waitsFor every) ∧
      (first ≤ now → (n.words = none → every ≤ now) → s.pendingVar rs n.words = true → issue n body s = .next s) ∧
      (first ≤ now → (n.words = none → every ≤ now) → s.pendingVar rs n.words = false → s.me.sketch = none → issue n body s = body s)))

/-! ### State -/

/-- What every step keeps (log 4): memory stands in its canonical form, and so does the order of the step record. -/
def Obligations.EveryStepKeepsMemoryCanonical : Prop := ∀ s t : State,
  MemoryCanonical s → s.stepRecord.rising = true → step s = .next t → MemoryCanonical t ∧ t.stepRecord.rising = true

/-- R74, R206, R409: the package right after reset. Every host and queue thread is in supervisor mode, MODE 0, with one base
entry on its stack, no pending interrupt and an empty replay queue, and reads its number from TEAMID; the special registers
whose reset R74 gives are zero; SB_CHECK is clear (R43); no partition or link exists, no team is resident beside the root-of-trust core (R17), and memory is in its
canonical form. Values no rule gives stand as log 1 names them and are not stated. -/
def Obligations.ResetState : Prop :=
  let s := State.reset
  (∀ n, n < 128 → ∃ a, s.agent? n = some a ∧ a.isTeam = false ∧ (a.kind = .host ↔ n < 32) ∧ a.regs.priv = true ∧ a.regs.mode = 0 ∧
    a.regs.flags = 0 ∧ a.regs.gang = 0 ∧ a.regs.rest = [] ∧ a.regs.top.kind = .base ∧ a.regs.top.rpc = none ∧ a.regs.top.mask = 1 ∧
    a.teamid = BitVec.ofNat 32 n ∧ a.tcause = 0 ∧ a.tpc = 0 ∧ a.tmask = 0 ∧ a.taddr = 0 ∧ a.eraseCnt = 0 ∧ a.specLvl = 0 ∧
    a.loads = [] ∧ a.storeQ = [] ∧ a.replayQ = [] ∧ a.sketch = none ∧ a.intrs = [] ∧ a.sstop = 0) ∧
  (∀ n, 128 ≤ n → n ≠ rootId → s.agent? n = none) ∧ (s.agent? rootId).any (fun a => a.kind == .root) = true ∧ (∀ p, s.partValid p = false) ∧ (∀ n, (s.links.get {} n).st = .down) ∧
  (∀ g, s.sbCheck.get false g = false) ∧ s.launches = [] ∧ s.engines = [] ∧ s.channels = [] ∧ s.dir = [] ∧
  (∀ m, m ∈ s.measures → m = List.replicate 64 0) ∧ s.measures.length = 4 ∧ s.debugOpen = false ∧
  MemoryCanonical s ∧ s.stepRecord.rising = true

/-- R73: the scalar register file. Number 0 reads zero with its poison clear and a write to it is discarded; any other number
reads what was last written to it. In supervisor mode 112 to 127 name the k bank: the user's registers of those numbers are
neither read nor written; in user mode the k bank is neither. The numbers within budget are those that R73 gives. -/
def Claims.ScalarRegisterFile : Prop := ∀ (a : Agent) (m n : BitVec 7) (v : PDword),
  let inMode (p : Bool) (g : Agent) : Agent := { g with regs := { g.regs with priv := p } }
  a.getS 0 = {} ∧ a.setS 0 v = a ∧
  (m ≠ 0 → (a.setS m.toNat v).getS m.toNat = v) ∧ (m ≠ n → (a.setS m.toNat v).getS n.toNat = a.getS n.toNat) ∧
  (112 ≤ m.toNat → ∀ p, (inMode (!p) ((inMode p a).setS m.toNat v)).getS n.toNat = (inMode (!p) a).getS n.toNat) ∧
  (m.toNat < 112 → ∀ p, (inMode (!p) ((inMode p a).setS m.toNat v)).getS m.toNat = ((inMode p a).setS m.toNat v).getS m.toNat) ∧
  (((a.sRegs m.toNat).all a.inBudget = true) ↔
    m = 0 ∨ m.toNat < a.bs ∨ (if a.regs.priv then 112 ≤ m.toNat else m = 127))

/-- R71, R72, R81, R244: a vector register holds a word with a poison bit in each lane, and a 64-bit unit is a pair with the low
half in the first register, poisoned when either word is; a write of one lane leaves every other register and lane. A mask
register holds a bit for each lane, and reads zero at and above the lane count. -/
def Claims.VectorRegisterFile : Prop := ∀ (a : Agent) (n l n' l' : Nat) (w : PWord) (d : PDword) (k k' : Nat) (m : LaneMask),
  l < 1024 → l' < 1024 →
  ((a.setV n l w).getV n' l' = if n' = n ∧ l' = l then w else a.getV n' l') ∧
  (a.setPair n l d).getPair n l = d ∧
  (¬ (l' = l ∧ (n' = n ∨ n' = n + 1)) → (a.setPair n l d).getV n' l' = a.getV n' l') ∧
  (a.getPair n l).poison = ((a.getV n l).poison || (a.getV (n + 1) l).poison) ∧
  (a.getPair n l).val = (a.getV (n + 1) l).val ++ (a.getV n l).val ∧
  ((a.setM k m).getM k' = if k' = k then m &&& lanesBelow a.lanes else a.getM k') ∧
  (a.lanes ≤ l → (a.getM k).getLsbD l = false)

/-- R3, and the canonical form of log 4: memory reads at each address what was last written there, a number's bytes least
significant first; every operation on it keeps the canonical form, and two memories in that form that read the same everywhere
are the same data. -/
def Obligations.MemoryReadsBack : Prop := ∀ m : List Host.Cell,
  (∀ k (bs : List Byte) j, Memory.read (Memory.writeBytes m k bs) j =
    if k ≤ j ∧ j < k + bs.length then bs.getD (j - k) 0 else Memory.read m j) ∧
  (∀ k n v, Memory.readNat (Memory.writeNat m k n v) k n = v % 256 ^ n) ∧
  (∀ k n i, i < n → Memory.readNat m k n / 256 ^ i % 256 = (Memory.read m (k + i)).toNat) ∧
  (∀ lo n j, Memory.read (Memory.clear m lo n) j = if lo ≤ j ∧ j < lo + n then 0 else Memory.read m j) ∧
  (Memory.wf m = true → (∀ k (bs : List Byte), Memory.wf (Memory.writeBytes m k bs) = true) ∧
    (∀ lo n, Memory.wf (Memory.clear m lo n) = true) ∧
    (∀ m' : List Host.Cell, Memory.wf m' = true → (∀ k, Memory.read m k = Memory.read m' k) → m = m'))

/-! ### Scalar instructions (R121 to R129) -/

/-- R121: the scalar integer instructions of two sources, from x = s[sa] and y = s[sb]; a write to s0 is discarded (R73). -/
def Obligations.ScalarIntegerResults : Prop := ∀ (s : State) (d a b : BitVec 7),
  Free s (scalars s [a, b, d]) = true → Unpoisoned s [a, b] = true →
  let x := (s.me.getS a.toNat).val
  let y := (s.me.getS b.toNat).val
  let put (v : Dword) : State := s.setS d.toNat (clean v)
  Does false (.sadd d a b) s (put (x + y)) ∧ Does false (.ssub d a b) s (put (x - y)) ∧
  Does false (.smul d a b) s (put (x * y)) ∧ Does false (.sand d a b) s (put (x &&& y)) ∧
  Does false (.sor d a b) s (put (x ||| y)) ∧ Does false (.sxor d a b) s (put (x ^^^ y)) ∧
  Does false (.sshl d a b) s (put (x <<< (y.toNat % 64))) ∧ Does false (.sshr d a b) s (put (x >>> (y.toNat % 64))) ∧
  Does false (.ssar d a b) s (put (x.sshiftRight (y.toNat % 64))) ∧
  (∀ u, Does false (.smulh d a b u) s (put
    (if u then BitVec.ofNat 64 (x.toNat * y.toNat / 2 ^ 64) else BitVec.ofInt 64 (x.toInt * y.toInt / 2 ^ 64)))) ∧
  (∀ u, Does false (.smin d a b u) s (put (if (if u then x.ult y else x.slt y) then x else y))) ∧
  (∀ u, Does false (.smax d a b u) s (put (if (if u then y.ult x else y.slt x) then x else y)))

/-- R121, R123, R126: moves, selects, compares and immediates. -/
def Claims.ScalarMovesAndImmediates : Prop := ∀ (s : State) (d a b c : BitVec 7),
  let x := s.me.getS a.toNat
  let y := s.me.getS b.toNat
  let z := s.me.getS d.toNat
  let put (v : Dword) : State := s.setS d.toNat (clean v)
  (Free s (scalars s [a, d]) = true → Does false (.smov d a) s (s.setS d.toNat x)) ∧
  (Free s (scalars s [a, b, c, d]) = true → Unpoisoned s [c] = true → ∀ f,
    Does true (.ssel d a b f c) s (s.setS d.toNat
      (if f then (if (s.me.getS c.toNat).val = 0 then x else y) else if (s.me.getS c.toNat).val ≠ 0 then x else y))) ∧
  (Free s (scalars s [a, b, d]) = true → Unpoisoned s [a, b] = true → ∀ r : BitVec 3,
    Does false (.scmp d a b r) s (put (if [x.val == y.val, x.val != y.val, x.val.slt y.val, x.val.sle y.val,
      y.val.slt x.val, y.val.sle x.val, x.val.ult y.val, x.val.ule y.val].getD r.toNat false then 1 else 0))) ∧
  (Free s (scalars s [d]) = true → ∀ (i : BitVec 17) (p : BitVec 24),
    Does false (.sli d i) s (put (i.signExtend 64)) ∧ Does true (.sliExt d i p) s (put ((p ++ i).signExtend 64))) ∧
  (Free s (scalars s [d]) = true → Unpoisoned s [d] = true → ∀ (i : BitVec 17) (p : BitVec 24) (k : BitVec 6),
    Does false (.slih d i) s (put (z.val <<< 17 ||| i.setWidth 64)) ∧
    Does false (.saddi d i) s (put (z.val + i.signExtend 64)) ∧
    Does true (.saddiExt d i p) s (put (z.val + (p ++ i).signExtend 64)) ∧
    Does false (.sandi d i) s (put (z.val &&& i.signExtend 64)) ∧
    Does false (.sori d i) s (put (z.val ||| i.setWidth 64)) ∧ Does false (.sshli d k) s (put (z.val <<< k.toNat)))

/-- R124, R125: the bit function and the bit-field instructions on 64 bits. SBFX takes k = min(n, 64 - p) bits of x from bit p
on, where p is control bits 5:0 and n is bits 13:8 plus 1, and sign-extends them when x is 1; SBFI puts the low k bits of
s[sa] there in s[sd]. -/
def Claims.ScalarBitInstructions : Prop := ∀ (s : State) (d a b : BitVec 7),
  let x := (s.me.getS a.toNat).val
  let c := (s.me.getS b.toNat).val.toNat
  let z := (s.me.getS d.toNat).val
  let p := c % 64
  let k := min (c / 256 % 64 + 1) (64 - p)
  let m : Dword := BitVec.ofNat 64 (2 ^ k - 1) <<< p
  let put (v : Dword) : State := s.setS d.toNat (clean v)
  (Free s (scalars s [a, d]) = true → ∀ f : BitVec 3,
    (f.toNat < 6 → Unpoisoned s [a] = true → Does false (.sbits d a f) s (put (BitVec.ofNat 64 (bitFun f.toNat 64 x.toNat)))) ∧
    (6 ≤ f.toNat → Traps (.sbits d a f) s .illegal s.me.active)) ∧
  (Free s (scalars s [a, b, d]) = true → Unpoisoned s [a, b] = true →
    Does false (.sbfx d a b false) s (put ((x >>> p) &&& BitVec.ofNat 64 (2 ^ k - 1))) ∧
    Does false (.sbfx d a b true) s (put (((x >>> p).setWidth k).signExtend 64))) ∧
  (Free s (scalars s [d, a, b]) = true → Unpoisoned s [d, a, b] = true →
    Does false (.sbfi d a b) s (put ((z &&& ~~~m) ||| ((x <<< p) &&& m))))

/-- R58, R124, R134: what the bit functions compute on the low w bits of x: population count, leading and trailing zeros, bit
reversal, byte reversal and parity. -/
def Obligations.BitFunctionMeanings : Prop := ∀ w x : Nat, w = 8 ∨ w = 16 ∨ w = 32 ∨ w = 64 → x < 2 ^ w →
  bitFun 0 w x = ((List.range w).map fun i => if x.testBit i then 1 else 0).sum ∧
  (x = 0 → bitFun 1 w x = w ∧ bitFun 2 w x = w) ∧
  (x ≠ 0 → bitFun 1 w x < w ∧ x.testBit (w - 1 - bitFun 1 w x) = true ∧
    ∀ i, w - 1 - bitFun 1 w x < i → x.testBit i = false) ∧
  (x ≠ 0 → bitFun 2 w x < w ∧ x.testBit (bitFun 2 w x) = true ∧ ∀ i, i < bitFun 2 w x → x.testBit i = false) ∧
  (∀ i, i < w → (bitFun 3 w x).testBit i = x.testBit (w - 1 - i)) ∧
  (∀ j, j < w / 8 → bitFun 4 w x / 2 ^ (8 * j) % 256 = x / 2 ^ (w - 8 - 8 * j) % 256) ∧
  bitFun 5 w x = bitFun 0 w x % 2

/-- R122: SDIV and SREM. A division by zero gives 0, or x for the remainder, and the division-by-zero exception; the signed
quotient is truncated toward zero, wrapping for -2^63 over -1. The result is in flight until VARIABLE_LATENCY_RESULT (R119),
and an enabled exception traps at issue (R117). -/
def Obligations.ScalarDivision : Prop := ∀ (s : State) (d a b : BitVec 7) (u : Bool),
  Free s (scalars s [a, b, d]) = true → Unpoisoned s [a, b] = true →
  let x := (s.me.getS a.toNat).val
  let y := (s.me.getS b.toNat).val
  let e := if y = 0 then excDivZero else 0
  let q : Dword := if y = 0 then 0 else if u then x / y else BitVec.ofInt 64 (x.toInt.tdiv y.toInt)
  let r : Dword := if y = 0 then x else if u then x % y else BitVec.ofInt 64 (x.toInt.tmod y.toInt)
  (s.me.enabled e = 0 → Does false (.sdiv d a b u) s (flying s d q e) ∧ Does false (.srem d a b u) s (flying s d r e)) ∧
  (s.me.enabled e ≠ 0 → Traps (.sdiv d a b u) s (.arith excDivZero) s.me.active ∧
    Traps (.srem d a b u) s (.arith excDivZero) s.me.active)

/-- R127 to R129: the f64 helpers. With no exception of the result enabled, add, subtract, multiply, min, max, the compares and
the conversions write their result and OR its exceptions into FLAGS, and div and sqrt put both in flight; an enabled
exception traps (R117). -/
def Obligations.ScalarFloatHelpers : Prop := ∀ (s : State) (d a b : BitVec 7) (f : BitVec 3),
  let g := fmtOf 0x08
  let rnd := modeRnd s.me.regs.mode
  let ftz := modeFtz s.me.regs.mode
  let xv := (s.me.getS a.toNat).val.toNat
  let yv := (s.me.getS b.toNat).val.toNat
  let x := g.read ftz xv
  let y := g.read ftz yv
  let closes (i : Instr) (r : Nat × Nat) : Prop :=
    (s.me.enabled r.2 = 0 → Does false i s ((s.orFlags r.2).setS d.toNat (clean (BitVec.ofNat 64 r.1)))) ∧
    (s.me.enabled r.2 ≠ 0 → Traps i s (.arith (s.me.enabled r.2)) s.me.active)
  let flies (i : Instr) (r : Nat × Nat) : Prop :=
    (s.me.enabled r.2 = 0 → Does false i s (flying s d (BitVec.ofNat 64 r.1) r.2)) ∧
    (s.me.enabled r.2 ≠ 0 → Traps i s (.arith (s.me.enabled r.2)) s.me.active)
  (Free s (scalars s [a, b, d]) = true → Unpoisoned s [a, b] = true →
    closes (.sfop d a b 0) (g.finish rnd ftz (x.add rnd y)) ∧ closes (.sfop d a b 1) (g.finish rnd ftz (x.add rnd y.neg)) ∧
    closes (.sfop d a b 2) (g.finish rnd ftz (x.mul y)) ∧ flies (.sfop d a b 3) (g.finish rnd ftz (x.div y)) ∧
    closes (.sfop d a b 4) (g.minMax ftz false xv yv) ∧ closes (.sfop d a b 5) (g.minMax ftz true xv yv) ∧
    closes (.sfcmp d a b f) (if (x.rel f.toNat y).1 then 1 else 0, (x.rel f.toNat y).2)) ∧
  (Free s (scalars s [a, d]) = true → Unpoisoned s [a] = true →
    flies (.sfop d a 0 6) (g.finish rnd ftz x.sqrt) ∧
    closes (.sfcvt d a 0) (g.round rnd ftz (Machine.Num.ofInt (readInt 0x06 xv))) ∧ closes (.sfcvt d a 1) (x.toIntType rnd 0x06) ∧
    closes (.sfcvt d a 2) (g.round rnd ftz (Machine.Num.ofInt (readInt 0x07 xv))) ∧ closes (.sfcvt d a 3) (x.toIntType rnd 0x07) ∧
    closes (.sfcvt d a 4) ((fmtOf 0x09).round rnd ftz x) ∧
    closes (.sfcvt d a 5) (g.round rnd ftz ((fmtOf 0x09).read ftz (xv % 2 ^ 32))))

/-! ### Control transfers, the stack and traps (R42, R190 to R211) -/

/-- R47, R191, R195: branches and calls. Offsets count words from the instruction's own word; a branch that is not taken goes
to the successor; the link is register number 127. -/
def Claims.BranchesAndCalls : Prop := ∀ (s : State) (a : BitVec 7) (m : BitVec 4) (o : BitVec 17) (j : BitVec 24),
  let near := s.me.pc + (o.signExtend 54 ++ 0#2)
  let far := s.me.pc + (j.signExtend 54 ++ 0#2)
  let succ := if s.me.pc.toNat % 32 = 0x1C then s.me.pc + 8 else s.me.pc + 4
  let x := s.me.getS a.toNat
  let link := s.setS 127 (clean (succ.setWidth 64))
  (badTarget (far.setWidth 64) = false →
    (Free s [] = true → Jumps (.bra j) s s far) ∧ (Free s (scalars s [127]) = true → Jumps (.call j) s link far)) ∧
  (badTarget (near.setWidth 64) = false →
    (Free s (scalars s [a]) = true → Unpoisoned s [a] = true →
      Jumps (.brz a o) s s (if x.val = 0 then near else succ) ∧ Jumps (.brnz a o) s s (if x.val ≠ 0 then near else succ) ∧
      Jumps (.loop a o) s (s.setS a.toNat (clean (x.val - 1))) (if x.val - 1 ≠ 0 then near else succ)) ∧
    (Free s [.m m.toNat] = true →
      Jumps (.brall m o) s s (if s.me.active &&& ~~~(s.me.getM m.toNat) = 0 then near else succ) ∧
      Jumps (.brany m o) s s (if s.me.active &&& s.me.getM m.toNat ≠ 0 then near else succ))) ∧
  (Free s (scalars s [a]) = true → x.poison = false → badTarget x.val = false →
    Jumps (.ret a) s s (x.val.setWidth 56) ∧ Jumps (.jmpi a) s s (x.val.setWidth 56) ∧
    (Free s (scalars s [a, 127]) = true → Jumps (.calli a) s link (x.val.setWidth 56)))

/-- R42, R63, R148, R191: a bad target traps with the target in TADDR: an immediate one, once no older exception set is awaited,
whatever else holds, taken or not, and before any effect; a register one after its poison. Good targets are exactly the words of GLOBAL addresses below 2^56 that are not
schedule words. -/
def Claims.BadTargetsTrap : Prop := ∀ (s : State) (a : BitVec 7) (m : BitVec 4) (o : BitVec 17) (j : BitVec 24),
  let near := (branchTarget s.me.pc o).setWidth 64
  let far := (branchTarget s.me.pc j).setWidth 64
  let x := s.me.getS a.toNat
  (s.awaitsExceptions = false → badTarget far = true → Traps (.bra j) s (.illegalTarget far) s.me.active ∧ Traps (.call j) s (.illegalTarget far) s.me.active) ∧
  (s.awaitsExceptions = false → badTarget near = true → Traps (.brz a o) s (.illegalTarget near) s.me.active ∧
    Traps (.brnz a o) s (.illegalTarget near) s.me.active ∧ Traps (.loop a o) s (.illegalTarget near) s.me.active ∧
    Traps (.brall m o) s (.illegalTarget near) s.me.active ∧ Traps (.brany m o) s (.illegalTarget near) s.me.active) ∧
  (Free s (scalars s [a]) = true → badTarget x.val = true →
    let c : Cause := if x.poison then .poison else .illegalTarget x.val
    Traps (.ret a) s c s.me.active ∧ Traps (.jmpi a) s c s.me.active ∧
    (Free s (scalars s [a, 127]) = true → Traps (.calli a) s c s.me.active)) ∧
  ∀ t : Dword, badTarget t = false ↔ t.toNat % 4 = 0 ∧ t.toNat % 32 ≠ 0 ∧ t.toNat < 2 ^ 56 ∧ classOf t.toNat = .global

/-- R193, R196: BRV. With no lane or every lane branching it is a plain branch; otherwise the join entry, the fall-through path
and the taken path stand on the stack, each with the MODE in force; past 255 entries STACK_OVER. A path entry whose PC has
reached its rpc is popped, and PC and MODE come from the entry below. Where either needs a spill area that cannot be reached, the
team stops (R192, R207); while its translation waits, they wait. -/
def Obligations.DivergenceAndReconvergence : Prop :=
  (∀ (s : State) (m : BitVec 4) (o : BitVec 17) (j : BitVec 24),
    let here := s.me.pc + 4
    let t := branchTarget here o
    let join := branchTarget here j
    let c := s.me.active &&& s.me.getM m.toNat
    let u := s.me.active &&& ~~~(s.me.getM m.toNat)
    let path (pc : BitVec 56) (k : LaneMask) : StackEntry :=
      { pc := pc, rpc := some join, mode := s.me.regs.mode, kind := .path, mask := k }
    badTarget (t.setWidth 64) = false → badTarget (join.setWidth 64) = false → Free s [.m m.toNat] = true →
    (c = 0 → Does true (.brv m o j) s s) ∧ (c ≠ 0 → u = 0 → Jumps (.brv m o j) s s t) ∧
    (c ≠ 0 → u ≠ 0 → 255 < s.me.depth + 2 → Traps (.brv m o j) s .stackOver s.me.active) ∧
    (c ≠ 0 → u ≠ 0 → s.me.depth + 2 ≤ 255 → Spills (s.me.depth + 2) s (exec (.brv m o j) s) fun v =>
      Jumps (.brv m o j) s (withRegs v fun r => { r with
        top := path t c, rest := path (succOf here) u :: { r.top with pc := join, mode := r.mode } :: r.rest }) t)) ∧
  (∀ (s u : State) (n : Nat) (below : StackEntry) (rest : List StackEntry), s.switchTo n = some u → u.me.sketch = none →
    u.me.regs.rest = below :: rest → u.me.regs.top.kind = .path → u.me.regs.top.rpc = some u.me.pc →
    u.me.pendingTrap = none → u.me.sstop = 0 → u.me.atBoundary = true →
    Spills u.me.depth u (exec (.reconvergencePop n) s) fun v =>
      exec (.reconvergencePop n) s = .next (withRegs v fun r => { r with top := below, rest := rest, mode := below.mode }))

/-- R75, R78, R199: SETMODE changes the bits of MODE that its mask names, but not bits 31:25 and 15:13, not LOCK, and not
TRAPEN while LOCK is 1; a result that is not well-formed traps; GETMODE reads MODE. -/
def Claims.ModeChanges : Prop := ∀ (s : State) (d a b : BitVec 7) (new : Word32),
  let x := s.me.getS a.toNat
  let y := s.me.getS b.toNat
  let old := s.me.regs.mode
  (Free s (scalars s [d]) = true → Does false (.getmode d) s (s.setS d.toNat (clean (old.setWidth 64)))) ∧
  (Free s (scalars s [a, b]) = true → Unpoisoned s [a, b] = true →
    (∀ i, i < 32 → new.getLsbD i =
      if y.val.getLsbD i && (decide (i < 13) || decide (21 ≤ i ∧ i < 24) || (decide (16 ≤ i ∧ i < 21) && !old.getLsbD 24))
      then x.val.getLsbD i else old.getLsbD i) →
    if new.toNat % 32 ≤ 0x10 ∧ new.toNat / 32 % 8 ≤ 4 ∧ (new.getLsbD 12 = false → new.toNat / 256 % 16 = 0)
    then Does false (.setmode a b) s (withRegs s fun r => { r with mode := new })
    else Traps (.setmode a b) s .illegal s.me.active)

/-- R200, R202: PRCHK reads the pre-emption state, NOP does nothing, WFI holds a supervisor thread until an interrupt is pending,
and HALT stops its agent for good and sends the HALT event. -/
def Claims.SmallSystemInstructions : Prop := ∀ (s : State) (d : BitVec 7),
  (Free s (scalars s [d]) = true → Does false (.prchk d) s (s.setS d.toNat (clean (match s.me.preq with
    | some (due, _) => BitVec.ofNat 64 (1 + min (due - s.time.toNat) 0xFFFFFFFF * 2 ^ 32)
    | none => 0)))) ∧
  (Free s [] = true → Does false .nop s s) ∧
  (Free s [] = true → s.me.isTeam = false → s.me.regs.priv = true →
    (s.me.intrs ≠ [] → Does false .wfi s s) ∧ (s.me.intrs = [] → exec .wfi s = .next (s.updMe fun a => { a with wait := .wfi }))) ∧
  (Free s [] = true → s.me.regs.priv = true → ∃ t, exec .halt s = .next t ∧
    t = { s with me := t.me, counters := t.counters, events := t.events } ∧
    t.me = { s.me with regs := atPc s.me.regs (s.me.next false), seq := s.me.seq + 1, waited := false, wait := .halted, score := t.me.score } ∧
    ∃ e, t.events = s.events ++ [e] ∧ e.code = 0x03 ∧ e.time = s.time)

/-- R204, R208: TRAP, BKPT and SYSCALL complete by raising causes 0x10 to 0x12, the immediate in TADDR, TMASK the active mask, and the
successor the resume address. In user mode, with no result in flight and room on the stack, they enter the handler; an EXT with no
consumer is ILLEGAL (R50). -/
def Claims.SoftwareTraps : Prop := ∀ (s : State) (i : BitVec 17) (p : BitVec 24), Free s [] = true →
  let cause (code : Nat) : Cause := { code := code, addr := i.setWidth 64, imm := i.toNat }
  let rows : List (Nat × Instr) := [(0x10, .trap i), (0x11, .bkpt i), (0x12, .syscall i)]
  (∀ c ∈ rows, exec c.2 s = .next (s.issued.raise (cause c.1) s.me.active (s.me.next false))) ∧
  (s.me.regs.priv = false → s.inFlight s.meId s.me = false → s.me.depth < 32 → badTarget s.vectorTarget = false →
    ∀ c ∈ rows, ∃ t, exec c.2 s = .next t ∧ Enters s t (cause c.1) s.me.active (s.me.next false)) ∧
  Traps (.ext p) s .illegal s.me.active

/-- R42, R192, R203 to R206: a cause raised in user mode writes the record, and enters the handler when no sketch is open, no result is
in flight and its push spills nothing; otherwise the trap waits, and TRAP_VECTOR delivers it then, or stops the team where the spill
area cannot be reached. A handler at a bad target only leaves the record of that. INTR takes the lowest pending interrupt of a
user-mode thread that stands at an instruction boundary. -/
def Claims.TrapEntry : Prop :=
  (∀ (s : State) (c : Cause) (lanes : LaneMask) (resume : BitVec 56), s.me.regs.priv = false → (∀ i, s.me.wait ≠ .gang i) →
    (s.vectorReady = true → s.me.depth < 32 → badTarget s.vectorTarget = false → Enters s (s.raise c lanes resume) c lanes resume) ∧
    (s.vectorReady = false ∨ 32 ≤ s.me.depth → s.raise c lanes resume = s.updMe fun a =>
      { a with tcause := c.tcause, tpc := a.pc, taddr := c.addr, tmask := lanes, pendingTrap := some (resume, 0) })) ∧
  (∀ (s u : State) (n : Nat) (resume : BitVec 56), s.switchTo n = some u → u.me.pendingTrap = some (resume, 0) →
    u.vectorReady = true →
    Spills (u.me.depth + 1) u (exec (.trapVector n) s) fun v =>
      (badTarget v.vectorTarget = false → ∃ t, exec (.trapVector n) s = .next t ∧
        t = { v with me := t.me } ∧ t.me.regs.priv = true ∧ t.me.pendingTrap = none ∧
        (t.me.tcause, t.me.tpc, t.me.taddr, t.me.tmask) = (u.me.tcause, u.me.tpc, u.me.taddr, u.me.tmask) ∧
        t.me.regs.top.pc = BitVec.ofNat 56 ((handlerOf v).1 + 4) ∧ t.me.regs.top.mask = u.me.tmask ∧
        t.me.regs.rest = { u.me.regs.top with pc := resume, mode := u.me.regs.mode } :: u.me.regs.rest) ∧
      (badTarget v.vectorTarget = true → exec (.trapVector n) s = .next (v.updMe fun a =>
        { a with tcause := (Cause.illegalTarget v.vectorTarget).tcause, tpc := a.pc, taddr := v.vectorTarget, tmask := a.active,
                 pendingTrap := some (a.pc, 0) }))) ∧
  (∀ (s u : State) (n k : Nat), s.switchTo n = some u → u.me.intrs.min? = some k → u.me.isTeam = false →
    u.me.regs.priv = false → u.me.pendingTrap = none → u.me.sstop = 0 → u.me.atBoundary = true →
    let v := u.updMe fun a => { a with intrs := a.intrs.filter (· != k) }
    let c : Cause := { code := 0x13, addr := BitVec.ofNat 64 k }
    exec (.intr n) s = .next (v.raise c u.me.active u.me.pc) ∧
    (u.vectorReady = true → u.me.depth < 32 → badTarget u.vectorTarget = false → Enters v (v.raise c u.me.active u.me.pc) c u.me.active u.me.pc))

/-- R207: a cause raised in supervisor mode stops the agent: SSTOP takes the code, the record and the registers keep theirs,
and the stop event goes out, with the stopping PC. -/
def Claims.SupervisorStop : Prop := ∀ (s : State) (c : Cause) (lanes : LaneMask) (resume : BitVec 56),
  s.me.regs.priv = true → s.vectorReady = true → s.me.depth < 32 → 0 < c.code → c.code < 256 → c.imm < 2 ^ 17 →
  ∃ e, s.raise c lanes resume =
      { s with me := { s.me with sstop := BitVec.ofNat 32 (c.code + c.imm * 2 ^ 8), pendingTrap := none },
               events := s.events ++ [e] } ∧
    e.code = 0x04 ∧ e.extra = c.code ∧ e.time = s.time ∧ e.pc = s.me.pc

/-- R192, R206, R209: RETT in supervisor mode pops every entry down to and with the topmost trap frame, and PC, MODE and the active
mask come from the entry below, in user mode; a thread with no trap frame goes to CR_UPC; a team with none traps; a bad
address traps; pops that need a spill area that cannot be reached stop it. Accesses of the replay queue are performed first. -/
def Obligations.ReturnFromTrap : Prop := ∀ (s u : State), Free s [] = true → s.me.regs.priv = true →
  (s.me.isTeam = true → s.me.hasFrame = false → Traps .rett s .illegal s.me.active) ∧
  (s.me.replayQ = [] → s.me.depth ≤ 32 → ∀ top rest, belowFrame (s.me.regs.top :: s.me.regs.rest) = top :: rest →
    badTarget (top.pc.setWidth 64) = false →
    Jumps .rett s (withRegs s fun r => { r with top := top, rest := rest, mode := top.mode, priv := false }) top.pc) ∧
  ((s.me.replayQ = [] ∧ u = s) ∨ (s.me.replayQ ≠ [] ∧ s.me.allPerformed = true ∧ s.drain s.me.replayQ.length = .done u) →
    s.me.isTeam = false ∨ s.me.hasFrame = true →
    let traps (v : State) (t : Dword) : Prop := exec .rett s = .next (v.issued.raise (.illegalTarget t) v.me.active v.me.pc)
    (∀ top rest, belowFrame (u.me.regs.top :: u.me.regs.rest) = top :: rest →
      Spills u.me.depth u (exec .rett s) fun v =>
        (badTarget (top.pc.setWidth 64) = false →
          Jumps .rett s (withRegs v fun r => { r with top := top, rest := rest, mode := top.mode, priv := false }) top.pc) ∧
        (badTarget (top.pc.setWidth 64) = true → traps v (top.pc.setWidth 64))) ∧
    (belowFrame (u.me.regs.top :: u.me.regs.rest) = [] →
      (badTarget u.me.upc = false → Jumps .rett s (withRegs u fun r => { r with priv := false }) (u.me.upc.setWidth 56)) ∧
      (badTarget u.me.upc = true → traps u u.me.upc)))

/-- R210, R211: CSRRD reads what the table lists, on teams and on threads; CR_INTR takes the lowest pending interrupt; a number
that is not listed traps. -/
def Claims.ControlRegisterReads : Prop := ∀ (s : State) (d : BitVec 7) (n : BitVec 17), Free s (scalars s [d]) = true →
  let a := s.me
  let team (v : Dword) : Dword := if a.isTeam then v else 0
  let thread (v : Dword) : Dword := if a.isTeam then 0 else v
  let reads : List (Nat × Dword) :=
    [(0x000, a.regs.mode.setWidth 64), (0x001, a.regs.flags.setWidth 64), (0x002, a.tcause.setWidth 64), (0x003, a.tpc.setWidth 64),
     (0x004, a.taddr), (0x005, a.eraseCnt.setWidth 64), (0x006, a.specLvl.setWidth 64), (0x007, BitVec.ofNat 64 a.ldcnt),
     (0x008, team (a.regs.gang.setWidth 64)), (0x009, a.teamid.setWidth 64), (0x00A, if a.regs.priv then 1 else 0),
     (0x00B, team (BitVec.ofNat 64 a.slot)), (0x00D, BitVec.ofNat 64 (a.regs.rest.length + 1)), (0x00E, a.tresume),
     (0x00F, s.preqWord), (0x020, team a.spill), (0x022, thread a.hvec), (0x023, a.asid.setWidth 64), (0x025, thread a.upc),
     (0x026, team a.launch), (0x100, team (if s.sbCheck.get false a.core then 1 else 0))] ++
    ((List.range 16).map fun i => (0x010 + i, (a.tmask >>> (64 * i)).setWidth 64)) ++
    (if a.isTeam then [(0x00C, BitVec.ofNat 64 (a.quad + 4 * (a.core % 2) + 8 * (a.core / 2 % 32) + 256 * (a.core / 64) +
        (if a.span.isSome then 1024 else 0))), (0x021, BitVec.ofNat 64 (a.part + 256 * a.cls)), (0x024, 0)] else [])
  (∀ v, (n.toNat, v) ∈ reads → Does false (.csrrd d n) s (s.setS d.toNat (clean v))) ∧
  (a.isTeam = false → n.toNat = 0x024 →
    (a.intrs = [] → Does false (.csrrd d n) s (s.setS d.toNat (clean (BitVec.ofNat 64 (2 ^ 63))))) ∧
    (∀ k, a.intrs.min? = some k → Does false (.csrrd d n) s
      ((s.updMe fun g => { g with intrs := g.intrs.filter (· != k) }).setS d.toNat (clean (BitVec.ofNat 64 k))))) ∧
  (0x026 < n.toNat → n.toNat ≠ 0x100 → Traps (.csrrd d n) s .illegal a.active)

/-- R209 to R211: CSRWR in supervisor mode writes TRESUME while a trap frame exists, CR_HVEC, ASID and CR_UPC of threads, and
CR_CORE_CTL of teams; every other number traps. -/
def Claims.ControlRegisterWrites : Prop := ∀ (s : State) (a : BitVec 7) (n : BitVec 17),
  Free s (scalars s [a]) = true → Unpoisoned s [a] = true → s.me.regs.priv = true →
  let v := (s.me.getS a.toNat).val
  let thread := !s.me.isTeam
  (n.toNat = 0x022 → thread = true → Does false (.csrwr a n) s (s.updMe fun g => { g with hvec := v })) ∧
  (n.toNat = 0x023 → thread = true → Does false (.csrwr a n) s (s.updMe fun g => { g with asid := v.setWidth 16 })) ∧
  (n.toNat = 0x025 → thread = true → Does false (.csrwr a n) s (s.updMe fun g => { g with upc := v })) ∧
  (n.toNat = 0x100 → thread = false →
    Does false (.csrwr a n) s { s with sbCheck := s.sbCheck.put false s.me.core (v.getLsbD 0) }) ∧
  (n.toNat = 0x00E → ∀ es frame below rest, s.me.regs.top :: s.me.regs.rest = es ++ frame :: below :: rest →
    es.all (fun e => e.kind != .frame) = true → frame.kind = .frame →
    Does false (.csrwr a n) s (withRegs s fun r => { r with rest := (es ++ frame :: { below with pc := v.setWidth 56 } :: rest).tail })) ∧
  ((n.toNat ∉ [0x00E, 0x022, 0x023, 0x025, 0x100]) ∨ (n.toNat = 0x00E ∧ s.me.hasFrame = false) ∨
      (n.toNat ∈ [0x022, 0x023, 0x025] ∧ thread = false) ∨ (n.toNat = 0x100 ∧ thread = true) →
    Traps (.csrwr a n) s .illegal s.me.active)

/-! ### Vector integer, logic, lane and mask instructions (R130 to R144) -/

/-- R71, R80, R116: writing a unit in every exec lane changes those lanes' elements of the destination, or of its pair, and no
other element; nothing else of the machine changes. -/
def Obligations.ExecLanesAloneAreWritten : Prop := ∀ (s : State) (wide : Bool) (d n l : Nat) (f : Nat → PDword),
  s.me.lanes ≤ 1024 → l < 1024 →
  let t := writeLanes wide d f s
  let acts := l < s.me.lanes ∧ s.me.exec.getLsbD l = true
  t = { s with me := { s.me with regs := { s.me.regs with v := t.me.regs.v } } } ∧
  t.me.getV n l =
    if acts ∧ n = d then { val := (f l).val.setWidth 32, poison := (f l).poison }
    else if acts ∧ wide = true ∧ n = d + 1 then { val := ((f l).val >>> 32).setWidth 32, poison := (f l).poison }
    else s.me.getV n l

/-- R84: the elements of a unit stand side by side from bit 0 up, and each is read back where it was put. -/
def Obligations.ElementsReadBack : Prop := ∀ (w n : Nat) (f : Nat → Nat), 0 < w →
  joinElems w n f < 2 ^ (w * n) ∧ (∀ e, e < n → elemOf w (joinElems w n f) e = f e % 2 ^ w) ∧
  (∀ u, u < 2 ^ (w * n) → joinElems w n (elemOf w u) = u)

/-- R131, R133: elementwise integer arithmetic under the integer types, element by element, each result modulo 2^w; poison of a
source traps POISON in the lanes that meet it. -/
def Obligations.VectorIntegerResults : Prop := ∀ (s : State) (d a b c : BitVec 8), isIntType s.me.ty = true →
  let t := s.me.ty
  let w := typeWidth t
  let wide := isWideType t
  let el (r : BitVec 8) (l e : Nat) : Nat := elemOf w (s.me.getUnit wide r.toNat l).val.toNat e
  let puts (ext : Bool) (i : Instr) (f : Nat → Nat → Nat) : Prop :=
    Does ext i s (writeLanes wide d.toNat (fun l => clean (BitVec.ofNat 64 (joinElems w (elemCount w) (f l)))) s)
  let rd (r : BitVec 8) (l e : Nat) : Int := readInt t (el r l e)
  (VecFree s wide [a, b, d] = true → poisonedLanes s wide [a, b] = [] →
    puts false (.vadd d a b) (fun l e => el a l e + el b l e) ∧
    puts false (.vsub d a b) (fun l e => el a l e + (2 ^ w - el b l e)) ∧
    puts false (.vmul d a b) (fun l e => el a l e * el b l e) ∧
    puts false (.vmulh d a b) (fun l e => ofInt w (rd a l e * rd b l e / 2 ^ w)) ∧
    puts false (.vmin d a b) (fun l e => if rd a l e ≤ rd b l e then el a l e else el b l e) ∧
    puts false (.vmax d a b) (fun l e => if rd a l e ≤ rd b l e then el b l e else el a l e) ∧
    puts false (.vabsd d a b) (fun l e => (rd a l e - rd b l e).natAbs) ∧
    puts false (.vshl d a b) (fun l e => el a l e * 2 ^ (el b l e % w)) ∧
    puts false (.vshr d a b) (fun l e => el a l e / 2 ^ (el b l e % w)) ∧
    puts false (.vsar d a b) (fun l e => ofInt w (toInt w (el a l e) / 2 ^ (el b l e % w)))) ∧
  (VecFree s wide [a, b, d] = true → poisonedLanes s wide [a, b] ≠ [] →
    ∀ i ∈ [Instr.vadd d a b, .vsub d a b, .vmul d a b, .vmulh d a b, .vmin d a b, .vmax d a b, .vabsd d a b, .vshl d a b,
      .vshr d a b, .vsar d a b], Traps i s .poison (maskOf (poisonedLanes s wide [a, b]))) ∧
  (VecFree s wide [a, b, c, d] = true → poisonedLanes s wide [a, b, c] = [] →
    puts true (.vmad d a b c) (fun l e => el a l e * el b l e + el c l e) ∧
    puts true (.vfun d a b c) (fun l e => (el a l e * 2 ^ w + el b l e) / 2 ^ (el c l e % w))) ∧
  (VecFree s wide [a, b, c, d] = true → poisonedLanes s wide [a, b, c] ≠ [] → ∀ i ∈ [Instr.vmad d a b c, .vfun d a b c],
    Traps i s .poison (maskOf (poisonedLanes s wide [a, b, c])))

/-- R124, R125, R131, R134: bit functions, bit fields and immediate adds of elements. VBITS takes the integer types and functions
0 to 5, and VBFX the types of 32 and 64 bits; any other trap ILLEGAL. -/
def Claims.VectorBitFields : Prop := ∀ (s : State) (d a b f : BitVec 8) (i h : BitVec 16),
  let t := s.me.ty
  let w := typeWidth t
  let wide := isWideType t
  let el (r : BitVec 8) (l e : Nat) : Nat := elemOf w (s.me.getUnit wide r.toNat l).val.toNat e
  let puts (ext : Bool) (i : Instr) (f : Nat → Nat → Nat) : Prop :=
    Does ext i s (writeLanes wide d.toNat (fun l => clean (BitVec.ofNat 64 (joinElems w (elemCount w) (f l)))) s)
  (isIntType t = true → f.toNat < 6 → VecFree s wide [a, d] = true → poisonedLanes s wide [a] = [] →
    puts false (.vbits d a f) (fun l e => bitFun f.toNat w (el a l e))) ∧
  (s.awaitsExceptions = false → isIntType t = false ∨ 6 ≤ f.toNat → Traps (.vbits d a f) s .illegal s.me.active) ∧
  (0x04 ≤ t → t ≤ 0x07 → VecFree s wide [a, b, d] = true → poisonedLanes s wide [a, b] = [] →
    puts false (.vbfx d a b) (fun l e =>
      let p := el b l e % 64
      let k := min (el b l e / 256 % 64 + 1) (w - p)
      let v := el a l e / 2 ^ p % 2 ^ k
      if t % 2 = 0 ∧ 0 < k ∧ 2 ^ (k - 1) ≤ v then v + (2 ^ w - 2 ^ k) else v)) ∧
  (s.awaitsExceptions = false → t < 0x04 ∨ 0x07 < t → Traps (.vbfx d a b) s .illegal s.me.active) ∧
  (isIntType t = true → VecFree s wide [d] = true → poisonedLanes s wide [d] = [] →
    puts false (.vaddi d i) (fun l e => el d l e + ofInt w i.toInt) ∧
    puts true (.vaddiExt d i h) (fun l e => el d l e + ofInt w (h ++ i).toInt))

/-- R132, R136: logic on whole units under every type, and moves, which carry poison. Bit 4a + 2b + c of VLOGT's table is the
result for bits a, b and c of the sources. -/
def Obligations.VectorLogicAndMoves : Prop := ∀ (s : State) (d a b c tab : BitVec 8) (m : BitVec 4) (r : BitVec 7) (i h : BitVec 16),
  let wide := isWideType s.me.ty
  let u (r : BitVec 8) (l : Nat) : Dword := (s.me.getUnit wide r.toNat l).val
  let puts (ext : Bool) (i : Instr) (f : Nat → Dword) : Prop := Does ext i s (writeLanes wide d.toNat (fun l => clean (f l)) s)
  let carry (ext : Bool) (i : Instr) (f : Nat → PDword) : Prop := Does ext i s (writeLanes wide d.toNat f s)
  let words (ext : Bool) (i : Instr) (f : Nat → PDword) : Prop := Does ext i s (writeLanes false d.toNat f s)
  (VecFree s wide [a, b, d] = true → poisonedLanes s wide [a, b] = [] →
    puts false (.vand d a b) (fun l => u a l &&& u b l) ∧ puts false (.vor d a b) (fun l => u a l ||| u b l) ∧
    puts false (.vxor d a b) (fun l => u a l ^^^ u b l)) ∧
  (VecFree s wide [a, b, c, d] = true → poisonedLanes s wide [a, b, c] = [] →
    ∃ g : Nat → Dword, puts true (.vlogt d a b c tab) g ∧ ∀ l j, j < 64 → (g l).getLsbD j =
      tab.getLsbD (4 * ((u a l).getLsbD j).toNat + 2 * ((u b l).getLsbD j).toNat + ((u c l).getLsbD j).toNat)) ∧
  (VecFree s wide [a, b, d] = true → poisonedLanes s wide [a, b] ≠ [] → ∀ i ∈ [Instr.vand d a b, .vor d a b, .vxor d a b],
    Traps i s .poison (maskOf (poisonedLanes s wide [a, b]))) ∧
  (VecFree s wide [a, b, c, d] = true → poisonedLanes s wide [a, b, c] ≠ [] →
    Traps (.vlogt d a b c tab) s .poison (maskOf (poisonedLanes s wide [a, b, c]))) ∧
  (VecFree s wide [a, d] = true → carry false (.vmov d a) (fun l => s.me.getUnit wide a.toNat l)) ∧
  (VecFree s wide [a, b, d] [.m m.toNat] = true →
    carry true (.vsel d a b m) (fun l => s.me.getUnit wide (if (s.me.getM m.toNat).getLsbD l then a.toNat else b.toNat) l)) ∧
  (VecFree s false [d] (s.me.sRegs r.toNat) = true → ∀ hi : Bool,
    words false (.vbcast d r hi) (fun _ => { val := if hi then (s.me.getS r.toNat).val >>> 32 else (s.me.getS r.toNat).val,
                                             poison := (s.me.getS r.toNat).poison })) ∧
  (VecFree s false [d] = true →
    words false (.vli d i) (fun _ => clean (i.signExtend 64)) ∧ words true (.vliExt d i h) (fun _ => clean ((h ++ i).setWidth 64)) ∧
    words false (.vlih d i) (fun l => { val := (i ++ (s.me.getV d.toNat l).val.setWidth 16).setWidth 64,
                                        poison := (s.me.getV d.toNat l).poison }))

/-- R138 to R140: lane moves. VLANE writes lane and group numbers, TEAMID, the group width and the lane count; VSHUF, VROT and
VBCL read the source from another lane of the group, carrying its poison; VROT by the group width or more traps ILLEGAL, whose TMASK,
the active mask, is the model's choice (log 47). -/
def Claims.LaneMoves : Prop := ∀ (s : State) (d a b k : BitVec 8) (c : BitVec 7) (f : BitVec 9),
  let wide := isWideType s.me.ty
  let g := s.me.gw
  let other (l i : Nat) : PDword := s.me.getUnit wide a.toNat (l / g * g + i % g)
  let carry (i : Instr) (f : Nat → PDword) : Prop := Does false i s (writeLanes wide d.toNat f s)
  (VecFree s false [d] = true → f.toNat < 6 → Does false (.vlane d f) s (writeLanes false d.toNat (fun l => clean
    ([BitVec.ofNat 64 (l % g), BitVec.ofNat 64 l, BitVec.ofNat 64 (l / g), s.me.teamid.setWidth 64, BitVec.ofNat 64 g,
      BitVec.ofNat 64 s.me.lanes].getD f.toNat 0)) s)) ∧
  (s.awaitsExceptions = false → 6 ≤ f.toNat → Traps (.vlane d f) s .illegal s.me.active) ∧
  (VecFree s wide [a, b, d] = true → s.me.execLanes.filter (fun l => (s.me.getUnit wide b.toNat l).poison) = [] →
    carry (.vshuf d a b) (fun l => other l (s.me.getV b.toNat l).val.toNat)) ∧
  (VecFree s wide [a, d] = true → k.toNat < g → carry (.vrot d a k) (fun l => other l (l + k.toNat))) ∧
  (VecFree s wide [a, d] = true → g ≤ k.toNat → Traps (.vrot d a k) s .illegal s.me.active) ∧
  (VecFree s wide [a, d] (s.me.sRegs c.toNat) = true → Unpoisoned s [c] = true →
    carry (.vbcl d c a) (fun l => other l (s.me.getS c.toNat).val.toNat))

/-- R114, R115, R141: reductions and scans combine a group's exec lanes in the order of a fixed tree: with no exception of the
result enabled VRED gives every exec lane of a group the root, and VSCAN the scan of the lanes below it, its own included
unless the scan is exclusive, where a lane with nothing below it takes the identity. -/
def Claims.ReductionsAndScans : Prop := ∀ (s : State) (d a : BitVec 8) (x : Bool) (o : BitVec 4),
  let t := s.me.ty
  let wide := isWideType t
  let w := typeWidth t
  let g := s.me.gw
  let f := reduceOp t o.toNat (modeRnd s.me.regs.mode) (modeFtz s.me.regs.mode)
  let leaf (l e i : Nat) : Leaf := s.me.leafOf a.toNat e (l / g * g + i)
  let writes (i : Instr) (r : Nat → Nat → Leaf) : Prop :=
    let exc (l : Nat) : Nat := (List.range (elemCount w)).foldl (fun n e => n ||| (match r l e with | some y => y.2 | none => 0)) 0
    let es := s.me.execLanes.map fun l => (l, exc l)
    es.all (fun c => s.me.enabled c.2 == 0) = true →
    Does false i s (writeLanes wide d.toNat (fun l => clean (BitVec.ofNat 64 (joinElems w (elemCount w) fun e =>
      match r l e with | some y => y.1 | none => reduceIdentity t o.toNat))) (s.orFlags (orExc es)))
  VecFree s wide [a, d] = true →
  (reduceOk t o.toNat = true → poisonedLanes s wide [a] = [] →
    writes (.vred d a o) (fun l e => treeNode f (leaf l e) (groupLog g) 0) ∧
    writes (.vscan d a x o) (fun l e => scanOf f (leaf l e) (if x then l % g else l % g + 1))) ∧
  (reduceOk t o.toNat = false → Traps (.vred d a o) s .illegal s.me.active ∧ Traps (.vscan d a x o) s .illegal s.me.active)

/-- R114, R141: the integer sum. Under an integer type VRED with operation 0 gives every exec lane of a group, element by
element, the sum over the group's exec lanes modulo 2^w, whatever the tree. -/
def Claims.IntegerReductionIsTheSum : Prop := ∀ (s : State) (d a : BitVec 8),
  let t := s.me.ty
  let wide := isWideType t
  let w := typeWidth t
  let g := s.me.gw
  isIntType t = true → g = 16 ∨ g = 32 ∨ g = 64 → VecFree s wide [a, d] = true → poisonedLanes s wide [a] = [] →
  Does false (.vred d a 0) s (writeLanes wide d.toNat (fun l => clean (BitVec.ofNat 64 (joinElems w (elemCount w) fun e =>
    ((List.range g).map fun i => if s.me.exec.getLsbD (l / g * g + i) then
      elemOf w (s.me.getUnit wide a.toNat (l / g * g + i)).val.toNat e else 0).sum))) s)

/-- R118, R142: VTOS and STOV move one lane's unit, carrying poison; STOV acts only when the lane is an exec lane, and VTOS
whatever exec holds; a lane at or above the lane count traps ILLEGAL, whose TMASK, the active mask, is the model's choice (log 47). -/
def Claims.LanesAndScalars : Prop := ∀ (s : State) (a d : BitVec 8) (r : BitVec 7) (l : BitVec 9),
  let wide := isWideType s.me.ty
  let teamFree : Prop := s.me.isTeam = true ∧ PipesFree s = true ∧ (wide = true → a.toNat % 2 = 0) ∧
    Free s (vRegs wide a.toNat ++ s.me.sRegs r.toNat) = true
  (teamFree → l.toNat < s.me.lanes → Does false (.vtos a r l) s (s.setS r.toNat (s.me.getUnit wide a.toNat l.toNat))) ∧
  (teamFree → s.me.lanes ≤ l.toNat → Traps (.vtos a r l) s .illegal s.me.active) ∧
  (VecFree s wide [d] (s.me.sRegs r.toNat) = true →
    (s.me.lanes ≤ l.toNat → Traps (.stov d r l) s .illegal s.me.active) ∧
    (l.toNat < s.me.lanes → s.me.exec.getLsbD l.toNat = true →
      Does false (.stov d r l) s (s.updMe fun g => g.setUnit wide d.toNat l.toNat (g.getS r.toNat))) ∧
    (l.toNat < s.me.lanes → s.me.exec.getLsbD l.toNat = false → Does false (.stov d r l) s s))

/-- R59, R71, R118, R143, R144: mask instructions. Bits of lanes outside exec keep their value in MLOGIC and VTOM; MCOUNT,
MFIRST, MTOS and STOM act on the whole mask. -/
def Obligations.MaskInstructions : Prop := ∀ (s : State) (o m p q i : BitVec 4) (d : BitVec 8) (r : BitVec 7),
  s.me.lanes ≤ 1024 → s.me.isTeam = true →
  let x := s.me.getM p.toNat
  let y := s.me.getM q.toNat
  let z := s.me.getM m.toNat
  let lanes := lanesOf x s.me.lanes
  let puts (i : Instr) (f : Nat → Bool) : Prop := ∀ new : LaneMask,
    (∀ l, l < 1024 → new.getLsbD l = if l < s.me.lanes ∧ s.me.exec.getLsbD l = true then f l else z.getLsbD l) →
    Does false i s (s.updMe fun g => g.setM m.toNat new)
  let table (a b : Bool) : List Bool := [a && b, a || b, a != b, a && !b, a || !b, !(a && b), !(a || b), a == b, !a, a]
  (PipesFree s = true → Free s ((if o.toNat < 8 then [.m p.toNat, .m q.toNat] else [.m p.toNat]) ++ .m m.toNat :: s.me.guardReg) = true →
    o.toNat < 8 ∨ (o.toNat < 10 ∧ q = 0) →
    puts (.mlogic o m p q) (fun l => (table (x.getLsbD l) (y.getLsbD l)).getD o.toNat false)) ∧
  (s.awaitsExceptions = false → 10 ≤ o.toNat ∨ (8 ≤ o.toNat ∧ q ≠ 0) → Traps (.mlogic o m p q) s .illegal s.me.active) ∧
  (Free s (.m p.toNat :: s.me.sRegs r.toNat) = true →
    Does false (.mcount r p) s (s.setS r.toNat (clean (BitVec.ofNat 64 lanes.length))) ∧
    Does false (.mfirst r p) s (s.setS r.toNat (clean (match lanes with | l :: _ => BitVec.ofNat 64 l | [] => BitVec.allOnes 64))) ∧
    Does false (.mtos r p i) s (s.setS r.toNat (clean ((x >>> (64 * i.toNat)).setWidth 64)))) ∧
  (Free s (.m m.toNat :: s.me.sRegs r.toNat) = true → Unpoisoned s [r] = true → ∀ new : LaneMask,
    (∀ l, l < 1024 → new.getLsbD l = if l / 64 = i.toNat then (s.me.getS r.toNat).val.getLsbD (l % 64) else z.getLsbD l) →
    Does false (.stom m r i) s (s.updMe fun g => g.setM m.toNat new)) ∧
  (VecFree s false [d] [.m m.toNat] = true →
    Does false (.mtov d m) s (writeLanes false d.toNat (fun l => clean (if z.getLsbD l then 1 else 0)) s) ∧
    (poisonedLanes s false [d] = [] → puts (.vtom m d) (fun l => (s.me.getV d.toNat l).val != 0)))

/-- R135, R137: VCMP sets each exec lane's bit from a relation of i32, n32, i64 or n64 values; VCVT saturates integers to
another integer type, and gives zero to the elements that have no source. -/
def Claims.IntegerCompareAndConvert : Prop := ∀ (s : State) (r m : BitVec 4) (a b d : BitVec 8) (k : BitVec 5),
  let t := s.me.ty
  let wide := isWideType t
  let rd (v : BitVec 8) (l : Nat) : Int := readInt t (s.me.getUnit wide v.toNat l).val.toNat
  let rel (x y : Int) : List Bool := [decide (x = y), decide (x ≠ y), decide (x < y), decide (x ≤ y), decide (y < x), decide (y ≤ x)]
  let u := k.toNat
  (0x04 ≤ t → t ≤ 0x07 → r.toNat < 6 → VecFree s wide [a, b] [.m m.toNat] = true → poisonedLanes s wide [a, b] = [] →
    s.me.lanes ≤ 1024 → ∀ new : LaneMask,
    (∀ l, l < 1024 → new.getLsbD l = if l < s.me.lanes ∧ s.me.exec.getLsbD l = true
      then (rel (rd a l) (rd b l)).getD r.toNat false else (s.me.getM m.toNat).getLsbD l) →
    Does false (.vcmp r m a b) s (s.updMe fun g => g.setM m.toNat new)) ∧
  (s.awaitsExceptions = false → t < 0x04 ∨ 0x07 < t ∨ 6 ≤ r.toNat → Traps (.vcmp r m a b) s .illegal s.me.active) ∧
  (isIntType t = true → isIntType u = true → s.me.isTeam = true → PipesFree s = true → (wide = true → a.toNat % 2 = 0) →
    (isWideType u = true → d.toNat % 2 = 0) → Free s (vRegs wide a.toNat ++ s.me.guardReg ++ vRegs (isWideType u) d.toNat) = true →
    poisonedLanes s wide [a] = [] →
    Does false (.vcvt d a k) s (writeLanes (isWideType u) d.toNat (fun l => clean (BitVec.ofNat 64
      (joinElems (typeWidth u) (elemCount (typeWidth u)) fun e =>
        if e < elemCount (typeWidth t) then ofInt (typeWidth u) (max (intMin u) (min (intMax u)
          (readInt t (elemOf (typeWidth t) (s.me.getUnit wide a.toNat l).val.toNat e)))) else 0))) s)) ∧
  (s.awaitsExceptions = false → isIntType t = false ∨ isIntType u = false → Traps (.vcvt d a k) s .illegal s.me.active)

/-! ### Float and decimal instructions (R86 to R113, R145 to R169) -/

/-- R91, R92: rounding a value that a format holds gives its pattern back with no exception, under every rounding mode, FTZ
clear: for every pattern of the six binary formats that is no NaN. -/
def Claims.RoundingKeepsRepresentableValues : Prop := ∀ t v rnd : Nat, 0x08 ≤ t → t ≤ 0x0D → v < 2 ^ typeWidth t →
  ((fmtOf t).read false v).isNan = false → rnd < 5 → (fmtOf t).round rnd false ((fmtOf t).read false v) = (v, 0)

/-- R150 to R156: elementwise binary float arithmetic: each result is the exact one rounded to the type under MODE.RND and FTZ,
and closes with its exceptions. -/
def Claims.VectorFloatArithmetic : Prop := ∀ (s : State) (d a b c : BitVec 8), isFloatType s.me.ty = true →
  let t := s.me.ty
  let wide := isWideType t
  let g := fmtOf t
  let rnd := modeRnd s.me.regs.mode
  let ftz := modeFtz s.me.regs.mode
  let fin (r : Machine.Num × Nat) : Nat × Nat := g.finish rnd ftz r
  let one (f : Nat → Nat × Nat) : List Nat → Nat × Nat := fun xs => f (xs.headD 0)
  let two (f : Nat → Nat → Nat × Nat) : List Nat → Nat × Nat := fun xs => f (xs.headD 0) (xs.getD 1 0)
  let three (f : Machine.Num → Machine.Num → Machine.Num → Machine.Num × Nat) : List Nat → Nat × Nat := fun xs =>
    fin (f (g.read ftz (xs.headD 0)) (g.read ftz (xs.getD 1 0)) (g.read ftz (xs.getD 2 0)))
  let rd (x : Nat) : Machine.Num := g.read ftz x
  let on (ext : Bool) (i : Instr) (srcs : List (BitVec 8)) (f : List Nat → Nat × Nat) : Prop :=
    Closes ext i s wide d (elementwise s srcs f)
  (VecFree s wide [a, b, d] = true → poisonedLanes s wide [a, b] = [] →
    on false (.vfadd d a b) [a, b] (two fun x y => fin ((rd x).add rnd (rd y))) ∧
    on false (.vfsub d a b) [a, b] (two fun x y => fin ((rd x).add rnd (rd y).neg)) ∧
    on false (.vfmul d a b) [a, b] (two fun x y => fin ((rd x).mul (rd y))) ∧
    on false (.vfmin d a b) [a, b] (two fun x y => g.minMax ftz false x y) ∧
    on false (.vfmax d a b) [a, b] (two fun x y => g.minMax ftz true x y) ∧
    on false (.vfscalb d a b) [a, b] (two fun x y => fin ((rd x).scalb (toInt g.w y)))) ∧
  (VecFree s wide [a, b, c, d] = true → poisonedLanes s wide [a, b, c] = [] →
    on true (.vfma d a b c) [a, b, c] (three fun x y z => Machine.Num.fma rnd false x y z) ∧
    on true (.vfms d a b c) [a, b, c] (three fun x y z => Machine.Num.fma rnd false x y z.neg) ∧
    on true (.vfnma d a b c) [a, b, c] (three fun x y z => Machine.Num.fma rnd true x y z)) ∧
  (VecFree s wide [a, d] = true → poisonedLanes s wide [a] = [] →
    on false (.vfabs d a) [a] (one (g.absNeg ftz false)) ∧ on false (.vfneg d a) [a] (one (g.absNeg ftz true)) ∧
    on false (.vfrnd d a) [a] (one (g.toIntegral rnd ftz)) ∧
    on false (.vfclass d a) [a] (one fun x => (g.classOf ftz x, 0)) ∧
    (t = 0x09 ∨ t = 0x0A ∨ t = 0x0B →
      on false (.vfrcp d a) [a] (one fun x => fin (rd x).rcp) ∧ on false (.vfrsq d a) [a] (one fun x => fin (rd x).rsq) ∧
      on false (.vfexp2 d a) [a] (one fun x => fin (rd x).exp2) ∧ on false (.vflog2 d a) [a] (one fun x => fin (rd x).log2)) ∧
    (t ≠ 0x09 → t ≠ 0x0A → t ≠ 0x0B → ∀ i ∈ [Instr.vfrcp d a, .vfrsq d a, .vfexp2 d a, .vflog2 d a], Traps i s .illegal s.me.active))

/-- R97, R150 to R152, R158, R160 to R164: d64 arithmetic. Each result is the exact one rounded to 16 digits under MODE.RND with
its preferred exponent: the lesser of the two for a sum, the sum for a product. -/
def Claims.VectorDecimalArithmetic : Prop := ∀ (s : State) (d a b c : BitVec 8), s.me.ty = 0x0E →
  let rnd := modeRnd s.me.regs.mode
  let q (x : Nat) : Int := (Dec.read x).expo
  let one (f : Nat → Nat × Nat) : List Nat → Nat × Nat := fun xs => f (xs.headD 0)
  let two (f : Nat → Nat → Nat × Nat) : List Nat → Nat × Nat := fun xs => f (xs.headD 0) (xs.getD 1 0)
  let fma (neg : Bool) (f : Dec → Dec) : List Nat → Nat × Nat := fun xs =>
    let x := xs.headD 0
    let y := xs.getD 1 0
    let z := xs.getD 2 0
    decFinish rnd (Dec.fma rnd neg (.read x) (.read y) (f (.read z))) (min (q x + q y) (q z))
  let on (ext : Bool) (i : Instr) (srcs : List (BitVec 8)) (f : List Nat → Nat × Nat) : Prop :=
    Closes ext i s true d (elementwise s srcs f)
  (VecFree s true [a, b, d] = true → poisonedLanes s true [a, b] = [] →
    on false (.vfadd d a b) [a, b] (two fun x y => decFinish rnd ((Dec.read x).add rnd (Dec.read y)) (min (q x) (q y))) ∧
    on false (.vfsub d a b) [a, b] (two fun x y => decFinish rnd ((Dec.read x).add rnd (Dec.read y).neg) (min (q x) (q y))) ∧
    on false (.vfmul d a b) [a, b] (two fun x y => decFinish rnd ((Dec.read x).mul (Dec.read y)) (q x + q y)) ∧
    on false (.vfmin d a b) [a, b] (two fun x y => decMinMax false (Dec.read x) (Dec.read y)) ∧
    on false (.vfmax d a b) [a, b] (two fun x y => decMinMax true (Dec.read x) (Dec.read y)) ∧
    on false (.vdqnt d a b) [a, b] (two fun x y => decQuantize rnd (Dec.read x) (Dec.read y)) ∧
    on false (.vdmake d a b) [a, b] (two fun x y =>
      let t := max (-10000) (min 10000 (toInt 64 y))
      (Dec.exact (decide (toInt 64 x < 0)) (toInt 64 x).natAbs t).place rnd t)) ∧
  (VecFree s true [a, b, c, d] = true → poisonedLanes s true [a, b, c] = [] →
    on true (.vfma d a b c) [a, b, c] (fma false id) ∧ on true (.vfms d a b c) [a, b, c] (fma false Dec.neg) ∧
    on true (.vfnma d a b c) [a, b, c] (fma true id)) ∧
  (VecFree s true [a, d] = true → poisonedLanes s true [a] = [] →
    on false (.vfclass d a) [a] (one fun x => ((Dec.read x).classOf, 0)) ∧
    on false (.vdcanon d a) [a] (one fun x => ((Dec.read x).canon, 0)) ∧
    on false (.vdexp d a) [a] (one fun x => ((match Dec.read x with | .fin _ _ e _ => ofInt 64 e | _ => 2 ^ 63), 0)) ∧
    on false (.vdsig d a) [a] (one fun x => ((match Dec.read x with | .fin _ k _ _ => k | _ => 0), 0)))

/-- R119, R147, R148, R151: VFDIV and VFSQRT put the results of each lane word with an exec lane in flight, one result a word,
with the union of its exceptions; an enabled exception traps at issue. -/
def Obligations.VectorDivideAndRoot : Prop := ∀ (s : State) (d a b : BitVec 8),
  let t := s.me.ty
  let wide := isWideType t
  let rnd := modeRnd s.me.regs.mode
  let ftz := modeFtz s.me.regs.mode
  let g := fmtOf t
  let div (xs : List Nat) : Nat × Nat :=
    if t = 0x0E then decFinish rnd ((Dec.read (xs.headD 0)).div (Dec.read (xs.getD 1 0))) (decDivExpo (xs.headD 0) (xs.getD 1 0))
    else g.finish rnd ftz ((g.read ftz (xs.headD 0)).div (g.read ftz (xs.getD 1 0)))
  let root (xs : List Nat) : Nat × Nat :=
    if t = 0x0E then decFinish rnd (Dec.read (xs.headD 0)).sqrt ((Dec.read (xs.headD 0)).expo / 2)
    else g.finish rnd ftz (g.read ftz (xs.headD 0)).sqrt
  let flies (i : Instr) (res : Nat → Nat × Nat) : Prop :=
    let bad := s.me.execLanes.filter fun l => s.me.enabled (res l).2 != 0
    (bad ≠ [] → Traps i s (.arith (s.me.enabled (orExc (bad.map fun l => (l, (res l).2))))) (maskOf bad)) ∧
    (bad = [] → ∃ vs : List VarResult, Does false i s (s.updMe fun m => { m with varlat := m.varlat ++ vs }) ∧
      vs.length = ((List.range 32).filter fun w => s.me.execLanes.any fun l => l / 32 = w).length ∧
      vs.all (fun v => !v.inSketch) = true ∧
      ∀ l ∈ s.me.execLanes, l < 1024 → ∃ v ∈ vs, v.flags ||| BitVec.ofNat 32 (res l).2 = v.flags ∧
        (if wide then ⟨.v d.toNat, l, clean (BitVec.ofNat 64 ((res l).1 % 2 ^ 32))⟩ ∈ v.writes ∧
            ⟨.v (d.toNat + 1), l, clean (BitVec.ofNat 64 (res l).1 >>> 32)⟩ ∈ v.writes
          else ⟨.v d.toNat, l, clean (BitVec.ofNat 64 (res l).1)⟩ ∈ v.writes))
  isFloatType t = true ∨ t = 0x0E →
  (VecFree s wide [a, b, d] = true → poisonedLanes s wide [a, b] = [] → flies (.vfdiv d a b) (elementwise s [a, b] div)) ∧
  (VecFree s wide [a, d] = true → poisonedLanes s wide [a] = [] → flies (.vfsqrt d a) (elementwise s [a] root))

/-- R157, R161: VFCMP and VDSAME set an exec lane's mask bit when every element of the lane holds the relation, with the
exceptions of the compares. -/
def Claims.FloatCompares : Prop := ∀ (s : State) (r m : BitVec 4) (a b : BitVec 8) (new : LaneMask),
  let t := s.me.ty
  let wide := isWideType t
  let w := typeWidth t
  let ftz := modeFtz s.me.regs.mode
  let el (v : BitVec 8) (l e : Nat) : Nat := elemOf w (s.me.getUnit wide v.toNat l).val.toNat e
  let tests (i : Instr) (f : Nat → Nat → Bool × Nat) : Prop :=
    let es := s.me.execLanes.map fun l => (l, (List.range (elemCount w)).foldl (fun x e => x ||| (f (el a l e) (el b l e)).2) 0)
    let bad := es.filter fun c => s.me.enabled c.2 != 0
    (bad = [] → (∀ l, l < 1024 → new.getLsbD l = if l < s.me.lanes ∧ s.me.exec.getLsbD l = true
        then (List.range (elemCount w)).all fun e => (f (el a l e) (el b l e)).1 else (s.me.getM m.toNat).getLsbD l) →
      Does false i s ((s.orFlags (orExc es)).updMe fun g => g.setM m.toNat new)) ∧
    (bad ≠ [] → Traps i s (.arith (s.me.enabled (orExc bad))) (maskOf (bad.map (·.1))))
  VecFree s wide [a, b] [.m m.toNat] = true → poisonedLanes s wide [a, b] = [] → s.me.lanes ≤ 1024 →
  (isFloatType t = true → r.toNat < 8 → tests (.vfcmp r m a b) fun x y => ((fmtOf t).read ftz x).rel r.toNat ((fmtOf t).read ftz y)) ∧
  (t = 0x0E → r.toNat < 8 → tests (.vfcmp r m a b) fun x y => (Dec.read x).rel r.toNat (Dec.read y)) ∧
  (t = 0x0E → tests (.vdsame m a b) fun x y => (decSame (Dec.read x) (Dec.read y), 0)) ∧
  (8 ≤ r.toNat → Traps (.vfcmp r m a b) s .illegal s.me.active) ∧ (t ≠ 0x0E → Traps (.vdsame m a b) s .illegal s.me.active)

/-- R92 to R94, R159: conversions between formats. The elements that have no source become zero; a pair of types that the
instruction does not take traps ILLEGAL. -/
def Claims.FormatConversions : Prop := ∀ (s : State) (d a : BitVec 8) (k : BitVec 5),
  let t := s.me.ty
  let u := k.toNat
  let rnd := modeRnd s.me.regs.mode
  let ftz := modeFtz s.me.regs.mode
  let conv (i : Instr) (f : Nat → Nat × Nat) : Prop := Closes false i s (isWideType u) d (fun l =>
    let el (e : Nat) : Nat := elemOf (typeWidth t) (s.me.getUnit (isWideType t) a.toNat l).val.toNat e
    (joinElems (typeWidth u) (elemCount (typeWidth u)) fun e => if e < elemCount (typeWidth t) then (f (el e)).1 else 0,
     (List.range (min (elemCount (typeWidth t)) (elemCount (typeWidth u)))).foldl (fun x e => x ||| (f (el e)).2) 0))
  (s.me.isTeam = true → PipesFree s = true → (isWideType t = true → a.toNat % 2 = 0) → (isWideType u = true → d.toNat % 2 = 0) →
    Free s (vRegs (isWideType t) a.toNat ++ s.me.guardReg ++ vRegs (isWideType u) d.toNat) = true →
    poisonedLanes s (isWideType t) [a] = [] →
    (isFloatType t = true → isFloatType u = true → conv (.vfcvt d a k) fun x => (fmtOf u).round rnd ftz ((fmtOf t).read ftz x)) ∧
    (t = 0x0E → u = 0x08 → conv (.vfcvt d a k) fun x => (fmtOf u).round rnd ftz (Dec.read x).toNum) ∧
    (t = 0x08 → u = 0x0E → conv (.vfcvt d a k) fun x => ((fmtOf t).read ftz x).toDec.place rnd 0) ∧
    (isIntType t = true → isFloatType u = true → conv (.vfi2f d a k) fun x => (fmtOf u).round rnd ftz (Machine.Num.ofInt (readInt t x))) ∧
    (t = 0x06 ∨ t = 0x07 → u = 0x0E → conv (.vfi2f d a k) fun x =>
      (Dec.exact (decide (readInt t x < 0)) (readInt t x).natAbs 0).place rnd 0) ∧
    (isFloatType t = true → isIntType u = true → conv (.vff2i d a k) fun x => ((fmtOf t).read ftz x).toIntType rnd u) ∧
    (t = 0x0E → u = 0x06 ∨ u = 0x07 → conv (.vff2i d a k) fun x => (Dec.read x).toIntType rnd u)) ∧
  (s.awaitsExceptions = false → isIntType t = true ∨ isIntType u = true → Traps (.vfcvt d a k) s .illegal s.me.active) ∧
  (s.awaitsExceptions = false → isIntType t = false ∨ isIntType u = true → Traps (.vfi2f d a k) s .illegal s.me.active) ∧
  (s.awaitsExceptions = false → isIntType u = false ∨ isIntType t = true → Traps (.vff2i d a k) s .illegal s.me.active)

/-- R111, R169: FLAGRD reads the five sticky flags and FLAGCLR clears the ones its source names, once no older arithmetic
result is outstanding and, for FLAGRD, every older one of fixed latency has ended it; before that both wait. -/
def Claims.StickyFlags : Prop := ∀ (s : State) (d a : BitVec 7),
  let flags := s.me.regs.flags
  (Free s (scalars s [d]) = true →
    (s.inFlight s.meId s.me = false →
      (s.me.arithUntil ≤ s.coreNow → Does false (.flagrd d) s (s.setS d.toNat (clean ((flags &&& 0x1F).setWidth 64)))) ∧
      (s.coreNow < s.me.arithUntil → exec (.flagrd d) s = .next (s.updMe fun g => { g with notBefore := max g.notBefore g.arithUntil }))) ∧
    (s.inFlight s.meId s.me = true → exec (.flagrd d) s = .next s)) ∧
  (Free s (scalars s [a]) = true → Unpoisoned s [a] = true →
    (s.inFlight s.meId s.me = false → Does false (.flagclr a) s (withRegs s fun r => { r with flags :=
      flags &&& ~~~((s.me.getS a.toNat).val.setWidth 32 &&& 0x1F) })) ∧
    (s.inFlight s.meId s.me = true → exec (.flagclr a) s = .next s))

/-! ### Blocks, tiles, the matrix unit and the transform pipe (R104 to R107, R165 to R189) -/

/-- R105, R107: a block code's value rounds back to the code with no exception, at every scale, in every block type and under
every rounding mode. -/
def Claims.BlockCodesReadBack : Prop := ∀ bt e c rnd p : Nat, bt < 4 → e < 64 → c < 16 → rnd < 5 →
  blockRound bt e rnd p (blockValue bt e c) = (c, 0)

/-- R165 to R168: VBSCALE gives each exec lane of a block the block type and the least scale exponent E at which the type's
largest level reaches every finite value of the block (63 if none does, 0 if all are zeros or NaNs), moved by the signed byte
in vb of the block's lowest exec lane; VBPACK rounds eight values of a lane into codes; VBUNP decodes them, by the type in
the scale byte. -/
def Obligations.BlockInstructions : Prop := ∀ (s : State) (d a b : BitVec 8),
  let t := s.me.ty
  let set (n : Nat) : List Nat := (List.range (if t = 0x09 then 8 else 4)).map (n + ·)
  let aligned (n : Nat) : Prop := (t = 0x09 ∧ n % 8 = 0) ∨ (t = 0x0B ∧ n % 4 = 0)
  let regs (ns : List Nat) : List Reg := ns.map .v
  let val (n l i : Nat) : Nat := if t = 0x09 then (s.me.getV (n + i) l).val.toNat
    else elemOf 16 (s.me.getV (n + i / 2) l).val.toNat (i % 2)
  let rd (l i : Nat) : Machine.Num := (fmtOf t).read (modeFtz s.me.regs.mode) (val a.toNat l i)
  let free (ns : List Nat) : Prop := s.me.isTeam = true ∧ PipesFree s = true ∧ Free s (regs ns ++ s.me.guardReg) = true
  let blocks : List Nat := s.me.execLanes.map (fun l => l / 4 * 4)
  let low (f : Nat) : Nat := (((List.range 4).map (f + ·)).find? fun l => s.me.exec.getLsbD l).getD f
  let reach (e : Nat) (v : Machine.Num) : Prop := match v with
    | .fin _ m q _ => m * 2 ^ (q - min q ((e : Int) - 34)).toNat ≤
        blockLevel (modeBtype s.me.regs.mode) 7 * 2 ^ ((e : Int) - 34 - min q ((e : Int) - 34)).toNat
    | .nan _ => True
    | .inf _ => False
  (aligned a.toNat → free (set a.toNat ++ [b.toNat, d.toNat]) →
    (∀ f ∈ blocks, (∀ i, i < 4 → ∀ r ∈ set a.toNat, (s.me.getV r (f + i)).poison = false) ∧ (s.me.getV b.toNat (low f)).poison = false) →
    ∃ scale : Nat → Nat, Does false (.vbscale d a b) s (writeLanes false d.toNat (fun l => clean (BitVec.ofNat 64 (scale (l / 4 * 4)))) s) ∧
      ∀ f ∈ blocks, ∃ e : Nat, e ≤ 63 ∧
        (scale f : Int) = modeBtype s.me.regs.mode * 64 + max 0 (min 63 (e + toInt 8 (s.me.getV b.toNat (low f)).val.toNat)) ∧
        ((∀ i j, i < 4 → j < 8 → (rd (f + i) j).isNan = true ∨ (rd (f + i) j).isZero = true) → e = 0) ∧
        (¬ (∀ i j, i < 4 → j < 8 → (rd (f + i) j).isNan = true ∨ (rd (f + i) j).isZero = true) →
          (e < 63 → ∀ i j, i < 4 → j < 8 → reach e (rd (f + i) j)) ∧
          ∀ e', e' < e → ∃ i j, i < 4 ∧ j < 8 ∧ ¬ reach e' (rd (f + i) j))) ∧
  (aligned a.toNat → free (set a.toNat ++ [b.toNat, d.toNat]) →
    s.me.execLanes.all (fun l => (b.toNat :: set a.toNat).all fun r => !(s.me.getV r l).poison) = true →
    let code (l i : Nat) : Nat × Nat := blockRound (modeBtype s.me.regs.mode) ((s.me.getV b.toNat l).val.toNat % 64)
      (modeRnd s.me.regs.mode) (val a.toNat l i) (rd l i)
    Closes false (.vbpack d a b) s false d fun l =>
      (joinElems 4 8 fun i => (code l i).1, (List.range 8).foldl (fun x i => x ||| (code l i).2) 0)) ∧
  (aligned d.toNat → free (set d.toNat ++ [a.toNat, b.toNat]) → poisonedLanes s false [a, b] = [] →
    let sc (l : Nat) : Nat := (s.me.getV b.toNat l).val.toNat % 256
    let value (l i : Nat) : Nat := ((fmtOf t).round 0 false
      (blockValue (sc l / 64) (sc l % 64) (elemOf 4 (s.me.getV a.toNat l).val.toNat i))).1
    Does false (.vbunp d a b) s ((List.range (if t = 0x09 then 8 else 4)).foldl (fun u i => writeLanes false (d.toNat + i)
      (fun l => clean (BitVec.ofNat 64 (if t = 0x09 then value l i else value l (2 * i) + value l (2 * i + 1) * 2 ^ 16))) u) s)) ∧
  (s.awaitsExceptions = false → ¬ aligned a.toNat → Traps (.vbscale d a b) s .illegal s.me.active ∧ Traps (.vbpack d a b) s .illegal s.me.active) ∧
  (s.awaitsExceptions = false → ¬ aligned d.toNat → Traps (.vbunp d a b) s .illegal s.me.active)

/-- R113: an element of an i8 matrix product is the integer dot of its row and column, added to the accumulator unless the form
overwrites it, modulo 2^32, with no exception; under i8 the decay forms are ILLEGAL. -/
def Obligations.IntegerMatrixElement : Prop :=
  (∀ (h : MatShape) (mode rnd c : Nat) (ftz : Bool) (lam : Machine.Num) (x y : List Int), matShape 0x00 = some h → x.length = y.length →
    h.cell mode rnd ftz lam c (x.map Machine.Num.ofInt) (y.map Machine.Num.ofInt) =
      (ofInt 32 ((List.zipWith (· * ·) x y).sum + if mode = 0 then (c : Int) else 0), 0)) ∧
  (∀ (s : State) (d : BitVec 4) (t g : Bool) (a b : BitVec 8) (x y l : BitVec 7), s.me.ty = 0x00 → s.awaitsExceptions = false →
    Traps (.mmaDecay d t g a b l) s .illegal s.me.active ∧ Traps (.mmadDecay d t g x y l) s .illegal s.me.active)

/-- R170, R173, R176 to R179: MMA and MMAD outside a gang give the unit their whole product: the operands are read at issue, a
fault of them traps, an enabled exception of a row traps its lane, and otherwise the operation waits for MATRIX_OP_COMPLETE.
With an empty execution mask they have no effect. -/
def Obligations.MatrixMultiply : Prop := ∀ (s : State) (i : Instr) (h : MatShape),
  let x := mmaArgs i
  (∃ d t m a b, i = .mma d t false m a b) ∨ (∃ d t a b l, i = .mmaDecay d t false a b l) ∨
    (∃ d t m a b, i = .mmad d t false m a b) ∨ (∃ d t a b l, i = .mmadDecay d t false a b l) →
  matShape s.me.ty = some h → s.me.isTeam = true → ¬ (h.t = 0x00 ∧ x.mode = 2) → (h.t = 0x0F → x.tr = true) →
  (x.scratch = false → h.bits = 64 → x.a % 2 = 0 ∧ x.b % 2 = 0) →
  let reads := (if x.scratch then s.me.sRegs x.a ++ s.me.sRegs x.b
    else s.me.fragRegs x.a (h.m * h.rowWords h.k) ++ s.me.fragRegs x.b ((h.shapeB x.tr).1 * (h.shapeB x.tr).2)) ++
    (match x.lam with | some l => s.me.sRegs l | none => []) ++ s.me.guardReg
  Free s (reads ++ [.a x.tile]) = true →
  let ftz := modeFtz s.me.regs.mode
  (s.me.exec = 0 → Does x.lam.isSome i s s) ∧
  (s.me.exec ≠ 0 → (x.scratch = true → s.me.allPerformed = true) →
    (∀ c lanes, s.operands s.me h ftz x.tr x = .bad c lanes → Traps i s c lanes) ∧
    (∀ rows cols, s.operands s.me h ftz x.tr x = .ok rows cols → s.slotsUsed s.me.core < 4 →
      ((s.me.accOperands ftz x).2.2 = true → Traps i s .poison s.me.exec) ∧
      ((s.me.accOperands ftz x).2.2 = false →
        let r := h.product x.mode (modeRnd s.me.regs.mode) ftz (s.me.accOperands ftz x).2.1 (s.me.accOperands ftz x).1 rows cols
        let es := ownerExc s.me.gw r.2
        let bad := es.filter fun c => s.me.enabled c.2 != 0
        (bad ≠ [] → Traps i s (.arith (s.me.enabled (orExc bad))) (maskOf (bad.map (·.1)))) ∧
        (bad = [] → Does x.lam.isSome i s (s.addMatrixOp (s.matrixOp x.tile r.1 (orExc es) true))))))

/-- R173, R180, R182, R232: MATRIX_OP_COMPLETE writes the running operation's result to its tile and its exceptions to FLAGS, and the
unit takes another; it moves no other register. Of an AST it writes the words to the scratchpad, with their poison, and no register; a
team whose AST has not left the unit issues nothing. -/
def Claims.MatrixCompletion : Prop :=
  (∀ (s : State) (o : MatrixOp) (rest : List MatrixOp) (a : Agent),
    s.matrix.get [] s.me.core = o :: rest → s.agent? o.agent = some a → a.sketch = none → o.members = [] → o.stores = [] →
    ∃ t, exec (.matrixOpComplete s.me.core) s = .next t ∧ t.mem = s.mem ∧
      t.matrix.get [] s.me.core = s.pickNext rest ∧ (∀ n, n ≠ o.agent → t.agent? n = s.agent? n) ∧
      (t.agent? o.agent = some { a with regs := { (a.setTile o.tile o.result).regs with flags := a.regs.flags ||| o.flags } })) ∧
  (∀ (s : State) (o : MatrixOp) (rest : List MatrixOp),
    s.matrix.get [] s.me.core = o :: rest → o.members = [] → o.stores ≠ [] → s.agents.all (fun c => c.2.sketch.isNone) = true →
    ∃ t, exec (.matrixOpComplete s.me.core) s = .next t ∧ t.me.regs = s.me.regs ∧ t.matrix.get [] s.me.core = s.pickNext rest ∧
      (∀ k, (∀ c ∈ o.stores, ∀ b, b < 4 → k ≠ c.1 + b) → Memory.read t.mem k = Memory.read s.mem k) ∧
      ((∀ c ∈ o.stores, c.1 % 4 = 0) → (o.stores.map (·.1)).Nodup → ∀ c ∈ o.stores,
        t.rd c.1 4 = c.2.val.toNat ∧ t.poison.get false (c.1 / 4) = c.2.poison)) ∧
  (∀ (s : State) (n : Nat) (os : List MatrixOp), s.matrix.get [] n = os → (∃ o ∈ os, o.agent = s.meId ∧ o.stores ≠ []) →
    s.mayIssue = false)

/-- R174, R175, R180: AZERO, AMOV, ASCL and AADD give the unit their result; ALD reads 64 rows of 256 bytes and AST writes them,
by a descriptor, once every older access is performed; a row beyond the grant traps SCRATCH_BOUND. AST gives the unit the tile's words
in the order of their rows, each with its place in the grant. -/
def Obligations.TileInstructions : Prop := ∀ (s : State) (d a : BitVec 4) (x : BitVec 7),
  let ftz := modeFtz s.me.regs.mode
  let rnd := modeRnd s.me.regs.mode
  let gives (i : Instr) (ws : Cells PWord) (rows : List (Nat × Nat)) : Prop :=
    let es := ownerExc s.me.gw rows
    let bad := es.filter fun c => s.me.enabled c.2 != 0
    (s.me.exec = 0 → Does false i s s) ∧
    (s.me.exec ≠ 0 → bad = [] → Does false i s (s.addMatrixOp (s.matrixOp d.toNat ws (orExc es) false))) ∧
    (s.me.exec ≠ 0 → bad ≠ [] → Traps i s (.arith (s.me.enabled (orExc bad))) (maskOf (bad.map (·.1))))
  let sd := s.me.getS x.toNat
  let e := descOf sd.val
  let key (r w : Nat) : Nat := s.me.descKey e (e.row 0 r + 4 * w)
  let ready : Prop := s.me.exec ≠ 0 ∧ s.me.allPerformed = true ∧ sd.poison = false ∧ e.base % 4 = 0 ∧ e.depth = 1 ∧
    ∀ r, r < 64 → e.row 0 r + 256 ≤ s.me.grant
  s.me.isTeam = true →
  (Free s ([.a d.toNat, .a a.toNat] ++ s.me.guardReg) = true →
    gives (.azero d) [] [] ∧ gives (.amov d a) (s.me.tile a.toNat) [] ∧
    (∀ h, matShape s.me.ty = some h → (s.me.tile d.toNat ++ s.me.tile a.toNat).all (fun c => !c.2.poison) = true →
      let r := tileMap h fun i j =>
        let u := (tileElem h.acc (s.me.tile d.toNat) i j).val.toNat
        let v := (tileElem h.acc (s.me.tile a.toNat) i j).val.toNat
        if h.acc = 0x04 then ((u + v) % 2 ^ 32, 0)
        else (fmtOf h.acc).finish rnd ftz (((fmtOf h.acc).read ftz u).add rnd ((fmtOf h.acc).read ftz v))
      gives (.aadd d a) r.1 r.2)) ∧
  (Free s (.a d.toNat :: s.me.sRegs x.toNat ++ s.me.guardReg) = true →
    (∀ h, matShape s.me.ty = some h → h.acc ≠ 0x04 → sd.poison = false → (s.me.tile d.toNat).all (fun c => !c.2.poison) = true →
      let r := tileMap h fun i j => (fmtOf h.acc).finish rnd ftz (((fmtOf h.acc).read ftz (sd.val.toNat % 2 ^ (fmtOf h.acc).w)).mul
        ((fmtOf h.acc).read ftz (tileElem h.acc (s.me.tile d.toNat) i j).val.toNat))
      gives (.ascl d x) r.1 r.2) ∧
    (ready → ∃ ws : Cells PWord, Does false (.ald d x) s (s.addMatrixOp (s.matrixOp d.toNat ws 0 false)) ∧
      ∀ q, q < 4096 → ws.get {} q = { val := BitVec.ofNat 32 (s.rd (key (q / 64) (q % 64)) 4),
                                      poison := s.poison.get false (key (q / 64) (q % 64) / 4) }) ∧
    (ready → ∃ ws : List (Nat × PWord), Does false (.ast d x) s (s.addMatrixOp { s.matrixOp d.toNat [] 0 false with stores := ws }) ∧
      ws.length = 4096 ∧ ∀ r w, r < 64 → w < 64 → ws[64 * r + w]? = some (key r w, (s.me.tile d.toNat).get {} (64 * r + w))) ∧
    (s.me.exec ≠ 0 → s.me.allPerformed = true → sd.poison = false → e.base % 4 = 0 → e.depth = 1 →
      ∀ u, beyondGrant s.me.grant ((List.range 64).map (e.row 0)) 256 = some u →
      Traps (.ald d x) s { code := 0x09, addr := BitVec.ofNat 64 (scratchWindow + u), acc := accLoad } s.me.exec ∧
      Traps (.ast d x) s { code := 0x09, addr := BitVec.ofNat 64 (scratchWindow + u), acc := accStore } s.me.exec))

/-- R181 to R183: GANG takes 0, or a mask of two to six slots of the core that holds the team's own, from a team of one group on
one core; any other value traps. A member of a gang that is not complete waits at the latch; of one that another slot leads only the
budget of its tile is judged, and it arrives once nothing is pending on its registers (the model's reading, log 39). -/
def Claims.Gangs : Prop := ∀ (s : State) (x : BitVec 7) (d : BitVec 4) (t m : Bool) (a b : BitVec 8) (h : MatShape),
  let v := (s.me.getS x.toNat).val
  let slots := ((List.range 32).filter fun i => v.getLsbD i).length
  let good : Prop := v = 0 ∨ (v.toNat < 2 ^ 32 ∧ 2 ≤ slots ∧ slots ≤ 6 ∧ s.me.slot < 32 ∧ v.getLsbD s.me.slot = true ∧
    s.me.lanes = s.me.gw ∧ s.me.span = none)
  (s.me.isTeam = true → Free s (scalars s [x]) = true → Unpoisoned s [x] = true →
    (good → Does false (.gang x) s (withRegs s fun r => { r with gang := v.setWidth 32 })) ∧
    (¬ good → Traps (.gang x) s .illegal s.me.active)) ∧
  (s.me.isTeam = true → s.me.regs.gang ≠ 0 → s.me.exec ≠ 0 →
    (s.me.led = false → matShape s.me.ty = some h ∧ (h.bits = 64 → a.toNat % 2 = 0 ∧ b.toNat % 2 = 0) ∧ (h.t = 0x0F → t = true) ∧
      Free s (s.me.fragRegs a.toNat (h.m * h.rowWords h.k) ++ s.me.fragRegs b.toNat ((h.shapeB t).1 * (h.shapeB t).2) ++
        s.me.guardReg ++ [.a d.toNat]) = true) →
    (s.me.led = true → s.me.inBudget (.a d.toNat) = true ∧ s.settled = true ∧ Free s s.me.guardReg = true) →
    s.slotsUsed s.me.core < 4 → (s.updMe fun g => { g with wait := .gang (.mma d t true m a b) }).gangMembers = none →
    exec (.mma d t true m a b) s = .next (s.updMe fun g => { g with wait := .gang (.mma d t true m a b) }))

/-- R43, R184, R189: XCRC goes to the pipe of each core that has exec lanes, its destination pending, and the team goes on: the result of each exec lane is its
group's CRC, the state of the group's lowest exec lane fed with the first bytes of each exec lane's word in lane order, reflected, by
the polynomial that the lowest lane names. The reply of a pipe that runs it writes the results of its core's lanes, and no memory; the last one ends it. -/
def Claims.ChecksumInstruction : Prop :=
  (∀ (s : State) (d a b c : BitVec 8),
    let g := s.me
    let lows := g.execGroups.map (·.headD 0)
    VecFree s false [a, b, c, c + 1, d] = true → c.toNat % 2 = 0 →
    (g.exec = 0 → Does true (.xcrc d a b c) s s) ∧
    (g.exec ≠ 0 → poisonedLanes s false [a, b] = [] →
      lows.all (fun l => !(g.getV c.toNat l).poison && !(g.getV (c.toNat + 1) l).poison && decide ((g.getV (c.toNat + 1) l).val.toNat % 4 ≤ 1)) = true →
      g.execLanes.all (fun l => decide ((g.getV b.toNat l).val.toNat % 8 ≤ 4)) = true →
      ∃ (ws : List RegWrite) (t : State), exec (.xcrc d a b c) s = .next (t.feedPipes g) ∧
        Retired (s.updMe fun m => { m with transforms := m.transforms ++
          [{ writes := ws, regs := [.v d.toNat], exec := g.exec, mode := g.regs.mode, pc := g.pc, since := s.time.toNat,
             cores := (g.execLanes.map g.coreOf).eraseDups }] }) t
          (atPc g.regs (g.next true)) ∧
        (∀ w ∈ ws, w.reg = .v d.toNat ∧ w.lane ∈ g.execLanes) ∧
        ∀ ls ∈ g.execGroups, ∀ l ∈ ls,
          let poly := if (g.getV (c.toNat + 1) (ls.headD 0)).val.toNat % 4 = 0 then 0xEDB88320 else 0x82F63B78
          ⟨.v d.toNat, l, clean (BitVec.ofNat 64 (ls.foldl (fun st l =>
            crcBits poly (8 * ((g.getV b.toNat l).val.toNat % 8)) (g.getV a.toNat l).val.toNat st) (g.getV c.toNat (ls.headD 0)).val.toNat))⟩ ∈ ws)) ∧
  (∀ (s u : State) (n k core : Nat) (o : TransformOp) (rest : List TransformOp), s.switchTo n = some u → u.me.transforms = o :: rest →
    o.runningOn.head? = some core → o.lanes = [] → u.me.sketch = none →
    let left := o.cores.erase core
    exec (.transformReply n k) s = .next ((u.updMe fun m =>
      { (o.writes.filter fun w => m.coreOf w.lane = core).foldl Agent.writeResult m with
        migrating := false,
        transforms := if left = [] then rest else { o with cores := left, runningOn := o.runningOn.erase core } :: rest }).feedPipe core))

/-- R185, R187: a lane of XDEC writes only bytes of its output, from its output position up to its end, whatever its stream
holds. -/
def Obligations.DecompressionWritesOnlyItsOutput : Prop := ∀ (s : State) (x : XLane) (n fuel k : Nat),
  (∀ o, x.op ≤ o → o < x.oe → k ≠ s.me.scratchAt o 0) →
  Memory.read (xdecLane x n fuel s).s.mem k = Memory.read s.mem k ∧ (xdecLane x n fuel s).s.me = s.me ∧
  x.op ≤ (xdecLane x n fuel s).x.op ∧ (x.op ≤ x.oe → (xdecLane x n fuel s).x.op ≤ x.oe)

/-- R43, R184 to R188: XDEC goes to the pipe of each core that has exec lanes once every older access is performed, with the streams of its exec lanes, its
destinations pending. The reply of one with one lane writes that lane's input and output positions, status and byte count, and sets
its bit of mk where the status is an error; poison traps at the XDEC. -/
def Claims.DecompressionInstruction : Prop :=
  (∀ (s : State) (d a c : BitVec 8) (k : BitVec 4),
    let g := s.me
    let x (l : Nat) : XLane := g.xlane d.toNat a.toNat c.toNat l
    VecFree s false [d, d + 1, d + 2, d + 3, a, a + 1, c, c + 1] [.m k.toNat] = true → d.toNat % 4 = 0 → a.toNat % 2 = 0 →
    c.toNat % 2 = 0 → (g.exec = 0 → Does true (.xdec d a k c) s s) ∧
    (g.exec ≠ 0 → g.allPerformed = true → poisonedLanes s false [d, d + 1, a, a + 1, c, c + 1] = [] →
      (∀ l ∈ g.execLanes, (x l).ct % 4 = 0 ∧ s.xbound (x l) = none) →
      ∃ t : State, exec (.xdec d a k c) s = .next (t.feedPipes g) ∧
        Retired (s.updMe fun m => { m with transforms := m.transforms ++
          [{ lanes := g.execLanes.map fun l => (l, x l), vd := d.toNat, maskReg := k.toNat,
             regs := [.m k.toNat, .v d.toNat, .v (d.toNat + 1), .v (d.toNat + 2), .v (d.toNat + 3)], exec := g.exec,
             mode := g.regs.mode, pc := g.pc, since := s.time.toNat, cores := (g.execLanes.map g.coreOf).eraseDups }] }) t (atPc g.regs (g.next true)))) ∧
  (∀ (s u : State) (n l : Nat) (x : XLane) (o : TransformOp) (rest : List TransformOp), s.switchTo n = some u →
    u.me.transforms = o :: rest → o.runningOn = [u.me.coreOf l] → o.cores = [u.me.coreOf l] → o.stats = [] → o.lanes = [(l, x)] →
    l < u.me.lanes → l < 1024 → u.me.sketch = none → u.cutPending u.me = false →
    let r := xdecLane x 0 4096 u
    ∃ t, exec (.transformReply n 4096) s = .next t ∧ t.mem = r.s.mem ∧
      t.me.getV o.vd l = { val := BitVec.ofNat 32 r.x.ip } ∧ t.me.getV (o.vd + 1) l = { val := BitVec.ofNat 32 r.x.op } ∧
      t.me.getV (o.vd + 2) l = { val := BitVec.ofNat 32 r.status } ∧ t.me.getV (o.vd + 3) l = { val := BitVec.ofNat 32 r.bytes } ∧
      (t.me.getM o.maskReg).getLsbD l = decide (5 ≤ r.status) ∧
      (r.status < 5 → t.me.pc = u.me.pc ∧ t.me.regs.flags = u.me.regs.flags) ∧
      (r.status = 7 → u.me.regs.priv = false → badTarget r.s.vectorTarget = false →
        t.me.tcause = Cause.poison.tcause ∧ t.me.tpc = o.pc ∧ t.me.tmask = maskOf [l]))

/-! ### Loads, stores, atomics and sketches (R226 to R301) -/

/-- R228, R248 to R255: a load outside a sketch, with every older access performed, is checked for all its lanes in the order of
R228: a cause traps its lanes; with no lane the load only moves on; otherwise its lanes and sectors are in flight, and the
registers it names are written when they return. Clean, aligned addresses in the SCRATCH window, within the grant, fail no check and
complete (R226, R230); so do those in the partition's Hearth ranges. -/
def Claims.LoadsIssue : Prop := ∀ (s : State) (d a : BitVec 8) (sb rd : BitVec 7) (b : BitVec 5) (k w x : Bool) (z : BitVec 2) (p : BitVec 24),
  let sends (ext : Bool) (i : Instr) (u : State) (dst : LoadDst) (signed : Bool) (ks : List (LaneAddr × List Nat)) : Prop :=
    let sectors := ((ks.flatMap (·.2)).map sectorOf).eraseDups
    s.me.ldcnt + sectors.length ≤ 2048 →
    let load : PendingLoad :=
      { dst := dst, signed := signed, sectors := sectors, seq := s.me.seq,
        lanes := ks.map fun c => { lane := c.1.lane, addr := c.1.addr, keys := c.2 } }
    Does ext i s (u.updMe fun g => { g with loads := g.loads ++ [load] })
  let issues (ext : Bool) (i : Instr) (xs : List LaneAddr) (size : Nat) (dst : LoadDst) (signed : Bool) : Prop :=
    (∀ c ls, s.checkAddrs xs size 0 accLoad = some (c, ls) → Traps i s c (s.me.tmaskOf ls)) ∧
    (s.checkAddrs xs size 0 accLoad = none → (xs = [] → Does ext i s s) ∧ (xs ≠ [] → ∀ u,
      (∀ c ls, s.locateAll xs size accLoad = (.fault c ls, u) → exec i s = .next (u.issued.raise c (s.me.tmaskOf ls) u.me.pc)) ∧
      (∀ ks, s.locateAll xs size accLoad = (.keys ks, u) → Keeps s u → sends ext i u dst signed ks))) ∧
    (xs ≠ [] → (InGrant s xs size → sends ext i s dst signed (xs.map fun l => (l, grantKeys s size l))) ∧
      (InHearth s xs size → sends ext i s dst signed (xs.map fun l => (l, hearthKeys size l))))
  let offsets (ext : Bool) (i : Instr) (off : Dword) : Prop :=
    let size := if w then 8 else 4
    let xs := s.me.vecAddrs a.toNat b.toNat false off
    (∀ c ls, s.checkOffsets xs size accLoad = some (c, ls) → Traps i s c (s.me.tmaskOf ls)) ∧
    (s.checkOffsets xs size accLoad = none → (xs = [] → Does ext i s s) ∧
      (xs ≠ [] → sends ext i s (.vec d.toNat w) false (xs.map fun l => (l, (List.range size).map fun j => s.me.scratchAt (l.addr.toNat + j) z))))
  let free (wide : Bool) : Prop := s.me.isTeam = true ∧ (k = true → a.toNat % 2 = 0 ∧ sb = 0) ∧ (wide = true → d.toNat % 2 = 0) ∧
    Free s (s.me.addrRegs a.toNat sb.toNat k ++ s.me.guardReg ++ vRegs wide d.toNat) = true
  let at_ (off : Dword) : List LaneAddr := s.me.vecAddrs a.toNat sb.toNat k off
  let signed := isSignedType s.me.ty
  let off : Dword := p.signExtend 64
  let dst : LoadDst := .scalar (if rd = 0 then .s 0 else s.me.sName rd.toNat)
  s.me.allPerformed = true →
  (free false →
    issues false (.vldb d a sb k) (at_ 0) 1 (.vec d.toNat false) signed ∧ issues true (.vldbExt d a sb k p) (at_ off) 1 (.vec d.toNat false) signed ∧
    issues false (.vldh d a sb k) (at_ 0) 2 (.vec d.toNat false) signed ∧ issues true (.vldhExt d a sb k p) (at_ off) 2 (.vec d.toNat false) signed ∧
    issues false (.vldw d a sb k) (at_ 0) 4 (.vec d.toNat false) signed ∧ issues true (.vldwExt d a sb k p) (at_ off) 4 (.vec d.toNat false) signed) ∧
  (free true →
    issues false (.vldd d a sb k) (at_ 0) 8 (.vec d.toNat true) signed ∧ issues true (.vlddExt d a sb k p) (at_ off) 8 (.vec d.toNat true) signed) ∧
  (Free s (scalars s [sb, rd]) = true →
    issues false (.sld rd z x sb) [{ lane := none, addr := (s.me.getS sb.toNat).val, poison := (s.me.getS sb.toNat).poison }] (2 ^ z.toNat) dst x ∧
    issues true (.sldExt rd z x sb p) [{ lane := none, addr := (s.me.getS sb.toNat).val + off, poison := (s.me.getS sb.toNat).poison }]
      (2 ^ z.toNat) dst x) ∧
  (s.me.isTeam = true → (w = true → d.toNat % 2 = 0) →
    Free s (s.me.addrRegs a.toNat b.toNat false ++ s.me.guardReg ++ vRegs w d.toNat) = true →
    offsets false (.vlds d a b z w) 0 ∧ offsets true (.vldsExt d a b z w p) off)

/-- R227, R246, R252, R253: when the last sector of a load returns, each lane of it that needed the sector holds its bytes, extended to
its register, with the OR of their words' poison; a lane that spans two lines may have read the first line's bytes before. Nothing is
written outside the load's registers, and the load is done. Where an EXCLUSIVE check-out of another holder has come over its bytes, it
waits. That the bytes are those of memory when the sector returns is the model's choice of the load's place in the order (log 32). -/
def Claims.LoadsReturn : Prop := ∀ (s u : State) (n j x : Nat) (p : PendingLoad), s.switchTo n = some u →
  u.me.loads[j]? = some p → p.sectors = [x] → p.inSketch = false → u.me.sketch = none → u.me.storeQ = [] →
  (∀ r, p.lanes = [r] → r.got = none → r.keys.any (fun k => sectorOf k = x) = true → r.keys.any (u.keyBarred u.who) = true →
    ∃ ks, exec (.sectorReturn n j x) s = .next (u.markKeys u.who ks)) ∧
  ((∀ r ∈ p.lanes, ∀ k ∈ r.keys, u.keyBarred u.who k = false) → ∃ t, exec (.sectorReturn n j x) s = .next t ∧ t.mem = u.mem ∧ t.others = u.others ∧ t.me.loads = u.me.loads.eraseIdx j ∧
    t.me.regs.top = u.me.regs.top ∧ t.me.regs.rest = u.me.regs.rest ∧ t.me.regs.m = u.me.regs.m ∧ t.me.regs.mode = u.me.regs.mode ∧
    let bytes (keys : List Nat) : Nat := leValue (keys.map (Memory.read u.mem))
    let bad (keys : List Nat) : Bool := keys.any fun k => u.poison.get false (k / 4)
    let later (r : LaneReq) : List Nat := r.keys.drop r.firstLine.length
    let value (r : LaneReq) : Nat := match r.got with
      | none => bytes r.keys
      | some g => g.1 + bytes (later r) * 2 ^ (8 * r.firstLine.length)
    let poisoned (r : LaneReq) : Bool := match r.got with | none => bad r.keys | some g => g.2 || bad (later r)
    let ext (r : LaneReq) : Dword :=
      if p.signed then BitVec.ofInt 64 (toInt (8 * r.keys.length) (value r)) else BitVec.ofNat 64 (value r)
    (∀ reg pair, p.dst = .vec reg pair → t.me.regs.s = u.me.regs.s ∧
      ∀ r ∈ p.lanes, ∀ l, r.lane = some l → l < 1024 → r.keys.any (fun k => sectorOf k = x) = true →
        (∀ q ∈ p.lanes, q.lane = some l → q = r) → (∀ q ∈ p.lanes, ∃ m, q.lane = some m ∧ m < 1024) →
        t.me.getV reg l = ⟨(ext r).setWidth 32, poisoned r⟩ ∧
        (pair = true → t.me.getV (reg + 1) l = ⟨((ext r) >>> 32).setWidth 32, poisoned r⟩)) ∧
    (∀ m r, p.dst = .scalar (.s m) → m ≠ 0 → p.lanes = [r] → r.keys.any (fun k => sectorOf k = x) = true →
      t.me.regs.v = u.me.regs.v ∧ t.me.regs.s.get {} m = ⟨ext r, poisoned r⟩))

/-- R227, R251, R254, R255, R281: a store is checked, and its accesses, one for each line a lane's bytes lie in, wait in the
agent's queue, held while a sketch is open; nothing else changes until they are performed. Clean, aligned addresses within the grant
fail no check (R226, R230). -/
def Claims.StoresIssue : Prop := ∀ (s : State) (d a : BitVec 8) (sb rd : BitVec 7) (b : BitVec 5) (k w : Bool) (z : BitVec 2) (p : BitVec 24),
  let queues (ext : Bool) (i : Instr) (rs : List StoreReq) : Prop :=
    s.me.decoding = false → s.me.storeQ.length + rs.length ≤ 4096 →
    Does ext i s (s.updMe fun g => { g with storeQ := g.storeQ ++ rs.map fun r =>
      { r with seq := g.seq, held := false, sup := g.regs.priv, mode := g.regs.mode, asid := g.asid } })
  let issues (ext : Bool) (i : Instr) (xs : List LaneAddr) (size : Nat) (data : LaneAddr → PDword) : Prop :=
    (∀ c ls, s.checkAddrs xs size 0 accStore = some (c, ls) → Traps i s c (s.me.tmaskOf ls)) ∧
    (s.checkAddrs xs size 0 accStore = none → queues ext i (xs.flatMap fun l => s.me.storePieces l size (data l))) ∧
    (InGrant s xs size → queues ext i (xs.map fun l =>
      { kind := .store, addr := l.addr, size := size, data := data l, lane := l.lane, keys := grantKeys s size l }))
  let offsets (ext : Bool) (i : Instr) (off : Dword) : Prop :=
    let size := if w then 8 else 4
    let xs := s.me.vecAddrs a.toNat b.toNat false off
    (∀ c ls, s.checkOffsets xs size accStore = some (c, ls) → Traps i s c (s.me.tmaskOf ls)) ∧
    (s.checkOffsets xs size accStore = none → queues ext i (xs.map fun l =>
      { kind := .store, addr := l.addr, size := size, data := s.me.getUnit w d.toNat (l.lane.getD 0), lane := l.lane, swz := some z,
        keys := (List.range size).map fun j => s.me.scratchAt (l.addr.toNat + j) z }))
  let free (wide : Bool) : Prop := s.me.isTeam = true ∧ (k = true → a.toNat % 2 = 0 ∧ sb = 0) ∧ (wide = true → d.toNat % 2 = 0) ∧
    Free s (s.me.addrRegs a.toNat sb.toNat k ++ s.me.guardReg ++ vRegs wide d.toNat) = true
  let at_ (off : Dword) : List LaneAddr := s.me.vecAddrs a.toNat sb.toNat k off
  let unit (wide : Bool) (l : LaneAddr) : PDword := s.me.getUnit wide d.toNat (l.lane.getD 0)
  let off : Dword := p.signExtend 64
  let one (off : Dword) : List LaneAddr := [{ lane := none, addr := (s.me.getS sb.toNat).val + off, poison := (s.me.getS sb.toNat).poison }]
  (free false →
    issues false (.vstb d a sb k) (at_ 0) 1 (unit false) ∧ issues true (.vstbExt d a sb k p) (at_ off) 1 (unit false) ∧
    issues false (.vsth d a sb k) (at_ 0) 2 (unit false) ∧ issues true (.vsthExt d a sb k p) (at_ off) 2 (unit false) ∧
    issues false (.vstw d a sb k) (at_ 0) 4 (unit false) ∧ issues true (.vstwExt d a sb k p) (at_ off) 4 (unit false)) ∧
  (free true →
    issues false (.vstd d a sb k) (at_ 0) 8 (unit true) ∧ issues true (.vstdExt d a sb k p) (at_ off) 8 (unit true)) ∧
  (Free s (scalars s [sb, rd]) = true →
    issues false (.sst rd z sb) (one 0) (2 ^ z.toNat) (fun _ => s.me.getS rd.toNat) ∧
    issues true (.sstExt rd z sb p) (one off) (2 ^ z.toNat) (fun _ => s.me.getS rd.toNat)) ∧
  (s.me.isTeam = true → (w = true → d.toNat % 2 = 0) →
    Free s (s.me.addrRegs a.toNat b.toNat false ++ s.me.guardReg ++ vRegs w d.toNat) = true →
    offsets false (.vsts d a b z w) 0 ∧ offsets true (.vstsExt d a b z w p) off)

/-- R232, R244, R251, R253, R277: performing a plain store changes exactly the bytes of its access, each to its byte of the value,
least significant first, and gives their words the value's poison; STORE_PERFORM takes the access from the queue, and an open sketch
whose last older access this was inks (R286). -/
def Claims.StoresPerform : Prop :=
  (∀ (s : State) (r : StoreReq) (keys : List Nat), r.kind = .store → keys.Nodup → keys.length = r.size →
    ∃ t, s.perform r keys = .done t ∧
      (∀ j k, keys[j]? = some k → Memory.read t.mem k = BitVec.ofNat 8 (r.data.val.toNat % 2 ^ (8 * r.size) / 2 ^ (8 * j)) ∧
        t.poison.get false (k / 4) = r.data.poison) ∧
      (∀ k, k ∉ keys → Memory.read t.mem k = Memory.read s.mem k) ∧
      (∀ q, (∀ k ∈ keys, q ≠ k / 4) → t.poison.get false q = s.poison.get false q) ∧ t.me = s.me) ∧
  (∀ (s u t : State) (n k : Nat) (r : StoreReq), s.switchTo n = some u → u.me.storeQ[k]? = some r → u.storeReady k r = true →
    u.performReq r = .done t → 
    let v := t.updMe fun g => { g with storeQ := g.storeQ.eraseIdx k }
    exec (.storePerform n k) s = .next (if v.me.inks then v.ink else v))

/-- R244, R257 to R262: performing an atomic. The addressed bytes take the operation's value of the old and the operand, except
that poison there stops every operation but swap and store, a poisoned or different old value stops a compare-and-swap, and a
read leaves them; a returned value is the old one with its poison. -/
def Claims.AtomicsPerform : Prop := ∀ (s : State) (r : StoreReq) (keys : List Nat), keys.Nodup → keys.length = r.size →
  r.size = 4 ∨ r.size = 8 →
  let w := 8 * r.size
  let old := (s.readKeys keys).1
  let pz := (s.readKeys keys).2
  let x := r.data.val.toNat % 2 ^ w
  let holds (t : State) (v : Nat) : Prop := (t.readKeys keys).1 = v ∧ ∀ k, k ∉ keys → Memory.read t.mem k = Memory.read s.mem k
  let same (t : State) : Prop := t.mem = s.mem ∧ t.poison = s.poison
  (∀ op ret, r.kind = .atomic op ret → op.toNat < 0x10 → ∃ t, s.perform r keys = .done t ∧
    (op.toNat = 0x0E → same t) ∧
    (op.toNat = 0x00 ∨ op.toNat = 0x0F → holds t x ∧ (r.size ≠ 0 → (t.readKeys keys).2 = r.data.poison)) ∧
    (op.toNat ≠ 0x0E → op.toNat ≠ 0x00 → op.toNat ≠ 0x0F → (pz = true → same t) ∧
      (pz = false → holds t (atomicNew op.toNat w r.mode old x % 2 ^ w) ∧ (t.readKeys keys).2 = false)) ∧
    (ret = false → t.me = s.me) ∧
    (ret = true → ∀ n l, r.ret = some (.v n) → r.lane = some l → r.size = 4 → s.me.sketch = none → l < 1024 →
      t.me.getV n l = ⟨BitVec.ofNat 32 old, pz⟩)) ∧
  (∀ e, r.kind = .cas e → ∃ t, s.perform r keys = .done t ∧
    (pz = false → old = e.val.toNat % 2 ^ w → holds t x) ∧ (pz = true ∨ old ≠ e.val.toNat % 2 ^ w → same t)) ∧
  (∀ op y, r.kind = .hred op y → ∃ t, s.perform r keys = .done t ∧ t.me = s.me ∧ (pz = true → same t) ∧
    (pz = false → holds t (bankNew op.toNat w r.mode old x (y.toNat % 2 ^ w) % 2 ^ w)))

/-- R258: the integer atomic operations, on w-bit old values and operands: swap, add, and, or, xor, signed and unsigned minimum and
maximum, wrapping increment and decrement. -/
def Claims.IntegerAtomicOperations : Prop := ∀ (w old x : Nat) (mode : Word32), w = 32 ∨ w = 64 → old < 2 ^ w → x < 2 ^ w →
  let a := BitVec.ofNat w old
  let b := BitVec.ofNat w x
  let v (op : Nat) : BitVec w := BitVec.ofNat w (atomicNew op w mode old x)
  (v 0x00 = b ∧ v 0x01 = a + b ∧ v 0x02 = a &&& b ∧ v 0x03 = a ||| b ∧ v 0x04 = a ^^^ b) ∧
  (v 0x05 = if a.sle b then a else b) ∧ (v 0x06 = if a.sle b then b else a) ∧
  (v 0x07 = if a.ule b then a else b) ∧ (v 0x08 = if a.ule b then b else a) ∧
  (v 0x0C = if b.ule a then 0 else a + 1) ∧ (v 0x0D = if a = 0 ∨ b.ult a = true then b else a - 1)

/-- R248 to R250, R252, R257 to R261: VATOM, SATOM, VCAS and HRED are checked and found, lane by lane, and one access for each lane waits
in the queue with its operands; poison of an address or of a consumed operand traps first; HRED outside the Hearth traps. Clean,
aligned addresses within the grant, or in the partition's Hearth ranges, fail no check and complete (R226, R230). -/
def Claims.AtomicsIssue : Prop := ∀ (s : State) (d a c : BitVec 8) (sb rd : BitVec 7) (k v : Bool) (o : BitVec 5) (q : BitVec 4) (z : BitVec 2),
  let t := s.me.ty
  let wide := isWideType t
  let size := if wide then 8 else 4
  let unit (r : Nat) (l : LaneAddr) : PDword := s.me.getUnit wide r (l.lane.getD 0)
  let form : Prop := s.me.isTeam = true ∧ (k = true → a.toNat % 2 = 0 ∧ sb = 0) ∧ 0x04 ≤ t ∧ t ≤ 0x09 ∧ (wide = true → d.toNat % 2 = 0)
  let xs := s.me.vecAddrs a.toNat sb.toNat k 0
  let enters (i : Instr) (u : State) (rs : List StoreReq) : Prop :=
    let queued := rs.map fun r => { r with seq := s.me.seq, held := false, sup := s.me.regs.priv, mode := s.me.regs.mode, asid := s.me.asid }
    s.me.decoding = false → s.me.storeQ.length + rs.length ≤ 4096 →
    (rs.any (·.ret.isSome) = true → { s.me with storeQ := s.me.storeQ ++ queued }.ldcnt ≤ 2048) →
    Does true i s (u.updMe fun g => { g with storeQ := g.storeQ ++ queued })
  let queues (i : Instr) (xs : List LaneAddr) (n : Nat) (bad : LaneAddr → Bool) (own : LaneAddr → Bool) (req : LaneAddr → List Nat → StoreReq) : Prop :=
    let ps := xs.filter fun l => l.poison || bad l
    (ps ≠ [] → Traps i s .poison (s.me.tmaskOf ps)) ∧
    (ps = [] → (∀ c ls, s.checkAddrs xs n 1 accAtomic = some (c, ls) → Traps i s c (s.me.tmaskOf ls)) ∧
      (s.checkAddrs xs n 1 accAtomic = none → ∀ u,
        (∀ c ls, s.locateAll xs n accAtomic = (.fault c ls, u) → exec i s = .next (u.issued.raise c (u.me.tmaskOf ls) u.me.pc)) ∧
        (∀ ks, s.locateAll xs n accAtomic = (.keys ks, u) → Keeps s u →
          let out := xs.filterMap fun l => if own l then none else some (l, 9, ({ code := 0x21, addr := l.addr, acc := accAtomic } : Cause))
          (∀ c ls, firstCause out = some (c, ls) → exec i s = .next (u.issued.raise c (u.me.tmaskOf ls) u.me.pc)) ∧
          (firstCause out = none → enters i u (ks.map fun y => req y.1 y.2))))) ∧
    (ps = [] → (InGrant s xs n → xs.all own = true → enters i s (xs.map fun l => req l (grantKeys s n l))) ∧
      (InHearth s xs n → xs.all own = true → enters i s (xs.map fun l => req l (hearthKeys n l))))
  let carried := o = 0x00 ∨ o = 0x0E ∨ o = 0x0F
  let okOp (n : Nat) (v : Bool) : Prop := o.toNat < 0x10 ∧ (o = 0x0E → v = true) ∧
    (0x09 ≤ o.toNat → o.toNat ≤ 0x0B → (t = 0x09 ∧ n = 4) ∨ (t = 0x08 ∧ n = 8))
  (form → okOp size v → Free s (s.me.addrRegs a.toNat sb.toNat k ++ s.me.guardReg ++ vRegs wide d.toNat) = true →
    queues (.vatom d a sb k v o) xs size (fun l => decide (¬ carried) && (unit d.toNat l).poison) (fun _ => true) fun l ks =>
      { kind := .atomic o v, addr := l.addr, size := size, data := unit d.toNat l, lane := l.lane, ret := if v then some (.v d.toNat) else none, keys := ks }) ∧
  (2 ≤ z.toNat → okOp (2 ^ z.toNat) v → Free s (scalars s [rd, sb]) = true →
    queues (.satom rd z sb v o) [{ lane := none, addr := (s.me.getS sb.toNat).val, poison := (s.me.getS sb.toNat).poison }] (2 ^ z.toNat)
      (fun _ => decide (¬ carried) && (s.me.getS rd.toNat).poison) (fun _ => true) fun l ks =>
      { kind := .atomic o v, addr := l.addr, size := 2 ^ z.toNat, data := s.me.getS rd.toNat,
        ret := if v then some (if rd = 0 then .s 0 else s.me.sName rd.toNat) else none, keys := ks }) ∧
  (form → (wide = true → c.toNat % 2 = 0) →
    Free s (s.me.addrRegs a.toNat sb.toNat k ++ s.me.guardReg ++ vRegs wide c.toNat ++ vRegs wide d.toNat) = true →
    queues (.vcas d a sb k c) xs size (fun l => (unit c.toNat l).poison || (unit d.toNat l).poison) (fun _ => true) fun l ks =>
      { kind := .cas (unit c.toNat l), addr := l.addr, size := size, data := unit d.toNat l, lane := l.lane, ret := some (.v d.toNat), keys := ks }) ∧
  (let y := d.toNat + (if wide then 2 else 1)
   form → q.toNat < 7 → (0x08 ≤ t → ¬ (3 ≤ q.toNat ∧ q.toNat ≤ 5)) → (q = 6 → d.toNat % (if wide then 4 else 2) = 0) →
    Free s (s.me.addrRegs a.toNat sb.toNat k ++ s.me.guardReg ++ vRegs wide d.toNat ++ (if q = 6 then vRegs wide y else [])) = true →
    queues (.hred d a sb k q) xs size (fun l => (unit d.toNat l).poison || (decide (q = 6) && (unit y l).poison))
      (fun l => classOf l.addr.toNat == .hearth) fun l ks =>
      { kind := .hred q (if q = 6 then (unit y l).val else 0), addr := l.addr, size := size, data := unit d.toNat l, lane := l.lane, keys := ks })

/-- R263, R264: MWAIT with its older accesses performed and clean operands. A window or fault of its 8 aligned bytes traps; a write
by another agent since the reference point completes it at once, as it does for an aligned address of the partition's Hearth ranges;
otherwise it parks on the unit until its limit. -/
def Claims.MonitorWait : Prop := ∀ (s : State) (d b : BitVec 7) (p : BitVec 24),
  let waits (ext : Bool) (i : Instr) (a : Dword) : Prop :=
    let xs : List LaneAddr := [{ lane := none, addr := a, poison := false }]
    (∀ c ls, s.checkAddrs xs 8 1 accLoad = some (c, ls) → Traps i s c s.me.active) ∧
    (s.checkAddrs xs 8 1 accLoad = none →
      (classOf a.toNat = .scratch → Traps i s { code := 0x21, addr := a, acc := accLoad } s.me.active) ∧
      (classOf a.toNat ≠ .scratch → ∀ u,
        (∀ c ls, s.locateAll xs 8 accLoad = (.fault c ls, u) → exec i s = .next (u.issued.raise c u.me.active u.me.pc)) ∧
        (∀ ks, s.locateAll xs 8 accLoad = (.keys ks, u) → Keeps s u →
          let unit := unitOf ((ks.flatMap (·.2)).headD 0)
          let limit := (s.me.getS d.toNat).val.toNat % 2 ^ 32
          (s.me.refs.get false unit = true → Does ext i s (u.updMe fun g => { g with refs := [] })) ∧
          (s.me.refs.get false unit = false → exec i s = .next (u.updMe fun g => { g with
            wait := .mwait (s.me.next ext).toNat unit a (u.time.toNat + if limit = 0 then u.mwaitDefault else limit) false }))))) ∧
    (InHearth s xs 8 → s.me.refs.get false (unitOf (hearthKey (a.toNat - hearthWindow))) = true →
      Does ext i s (s.updMe fun g => { g with refs := [] }))
  Free s (scalars s [d, b]) = true → s.me.allPerformed = true →
    (Unpoisoned s [d, b] = false → Traps (.mwait d b) s .poison s.me.active ∧ Traps (.mwaitExt d b p) s .poison s.me.active) ∧
    (Unpoisoned s [d, b] = true →
      waits false (.mwait d b) (s.me.getS b.toNat).val ∧ waits true (.mwaitExt d b p) ((s.me.getS b.toNat).val + p.signExtend 64))

/-- R263, R264: a performed write marks every other agent parked on its unit; a marked one completes, and its reference points are
forgotten; an unmarked team's GLOBAL line may be evicted, which completes it too; an unmarked one whose limit has passed by the end of its cycle
traps with TIMEOUT at its own address. Neither happens once its pre-emption deadline has passed (R213, R392). -/
def Claims.MonitorEnds : Prop :=
  (∀ (s : State) (w : Option Nat) (units : List Nat) (n : Nat) (g : Agent) (next unit due : Nat) (a : Dword) (f : Bool),
    s.others.find? n = some g → n ≠ s.meId → some n ≠ w → g.sketch = none → g.wait = .mwait next unit a due f →
    ∃ g', (s.notifyWrite w units).others.find? n = some g' ∧ g'.wait = .mwait next unit a due (f || units.contains unit)) ∧
  (∀ (s u : State) (n next unit due : Nat) (a : Dword), s.switchTo n = some u → u.deadlinePassed = false →
    (∀ f, u.me.wait = .mwait next unit a due f → f = true ∨ (u.me.isTeam = true ∧ classOf a.toNat = .global) →
      ∃ t, exec (.mwaitComplete n) s = .next t ∧
      Retired (u.updMe fun g => { g with refs := [] }) t (atPc u.me.regs (BitVec.ofNat 56 next))) ∧
    (u.me.wait = .mwait next unit a due false → u.expires due = true →
      exec (.mwaitTimeout n) s = .next ((u.updMe fun g => { g with wait := .none }).issued.raise { code := 0x0A, addr := a } u.me.active u.me.pc)))

/-- R265, R266, R272: INK with every older access performed only moves on; so does PREF, but for a poisoned address component, which
traps its lanes; CINVA of a range of at most 2^30 GLOBAL bytes drops its cached lines and moves on once those dropped dirty are written
back, of none does nothing, of another traps; no cache holds a line of the root-of-trust core's memories. That PREF with clean
addresses does no more is the model's choice, which R266 permits (log 43). -/
def Claims.OrderingAndPrefetch : Prop := ∀ (s : State) (a : BitVec 8) (b sb : BitVec 7) (k : Bool) (p : BitVec 24),
  let pref (ext : Bool) (i : Instr) (off : Dword) : Prop :=
    let ps := (s.me.vecAddrs a.toNat sb.toNat k off).filter (·.poison)
    (ps = [] → Does ext i s s) ∧ (ps ≠ [] → Traps i s .poison (s.me.tmaskOf ps))
  let x := (s.me.getS sb.toNat).val
  let y := (s.me.getS b.toNat).val
  (Free s [] = true → s.me.allPerformed = true → s.me.wait = .none → Does false .ink s s) ∧
  (s.me.isTeam = true → (k = true → a.toNat % 2 = 0 ∧ sb = 0) →
    Free s (s.me.addrRegs a.toNat sb.toNat k ++ s.me.guardReg) = true → pref false (.pref a sb k) 0 ∧ pref true (.prefExt a sb k p) (p.signExtend 64)) ∧
  (Free s (scalars s [sb, b]) = true → s.me.allPerformed = true →
    (Unpoisoned s [sb, b] = false → Traps (.cinva sb b) s .poison s.me.active) ∧
    (Unpoisoned s [sb, b] = true →
      (y = 0 → Does false (.cinva sb b) s s) ∧
      (s.me.kind ≠ .root → y ≠ 0 → 2 ^ 30 < y.toNat ∨ globalRange x.toNat y.toNat = false → Traps (.cinva sb b) s .illegal s.me.active) ∧
      (s.me.kind = .root → Does false (.cinva sb b) s s) ∧
      (s.me.kind ≠ .root → y ≠ 0 → y.toNat ≤ 2 ^ 30 → globalRange x.toNat y.toNat = true →
        ∀ u, s.dropRange (some s.meId) s.me.asid.toNat x.toNat y.toNat = u → u.me = s.me ∧ u.mem = s.mem ∧
          (u.rangeWritten s.me.asid.toNat x.toNat y.toNat = true → Does false (.cinva sb b) s u) ∧
          (u.rangeWritten s.me.asid.toNat x.toNat y.toNat = false → exec (.cinva sb b) s = .next u))))

/-- R280 to R284: a team's load with an older access unperformed, at SPECLVL 0 or 1 and with the bundle's NS clear, opens a sketch, if
its tracing and its lines find room (R285): the tracing restores the registers and the trap record as they stood, and the read set holds the units read. -/
def Claims.SketchesOpen : Prop := ∀ (s u : State) (d b : BitVec 7) (z : BitVec 2) (x : Bool) (ks : List (LaneAddr × List Nat)),
  let xs := s.me.scalarAddr b.toNat 0
  let keys := ks.flatMap (·.2)
  let units := (keys.map unitOf).eraseDups
  let sectors := (keys.map sectorOf).eraseDups
  let items := TraceItem.once :: (s.me.sRegs d.toNat).flatMap (traceItems s.me.exec s.me.lanes)
  Free s (scalars s [b, d]) = true → s.me.isTeam = true → s.me.ns = false → s.me.specLvl ≠ 2 → s.me.allPerformed = false →
  s.me.decoding = false → s.checkAddrs xs (2 ^ z.toNat) 0 accLoad = none → s.locateAll xs (2 ^ z.toNat) accLoad = (.keys ks, u) →
  s.tooWide xs (2 ^ z.toNat) = false → Keeps s u → u.overlapsAtomic keys = false → u.l1Bars ks = false → s.me.ldcnt + sectors.length ≤ 2048 → units.length ≤ 256 → u.tracingFits items = true →
  Does false (.sld d z x b) s (u.updMe fun g => { g with
    sketch := some { first := g.pc, saved := g.regs, record := (g.tcause, g.tpc, g.taddr, g.tmask), reads := units, loadInstrs := 1, logged := items }
    loads := g.loads ++ [{ dst := .scalar (if d = 0 then .s 0 else g.sName d.toNat), signed := x, sectors := sectors, seq := g.seq,
                           inSketch := true, lanes := ks.map fun c => { lane := c.1.lane, addr := c.1.addr, keys := c.2 } }] })

/-- R205, R286 to R289, R301: an ink closes the sketch, keeps its registers and releases its stores; an erase restores the registers
and the trap record of its opening and drops its loads, stores and results. Neither touches memory. Four counted erases without an ink
between raise SPECLVL; 256 inks at a level above 0 return it to 0. An erase of kind 4 comes once the pre-emption deadline has passed, one
of kind 5 once the oldest store faults. -/
def Claims.SketchesEnd : Prop := ∀ (s u : State) (n : Nat), s.switchTo n = some u →
  (u.me.inks = true → ∃ t, exec (.sketchInk n) s = .next t ∧ t.mem = u.mem ∧ t.me.sketch = none ∧ t.me.regs = u.me.regs ∧
    t.me.storeQ = u.me.storeQ.map (fun r => { r with held := false }) ∧ t.me.loads = u.me.loads ∧ t.me.eraseRun = 0 ∧
    let full := decide (256 ≤ u.me.inkRun + 1) && u.me.specLvl != 0
    t.me.specLvl = (if full then 0 else u.me.specLvl) ∧ t.me.inkRun = if full then 0 else min 255 (u.me.inkRun + 1)) ∧
  (∀ k kind, u.me.sketch = some k → let t := u.erase n kind
    t.mem = u.mem ∧ t.me.sketch = none ∧ t.me.regs = k.saved ∧ (t.me.tcause, t.me.tpc, t.me.taddr, t.me.tmask) = k.record ∧
    t.me.loads = u.me.loads.filter (fun l => !l.inSketch) ∧
    t.me.storeQ = u.me.storeQ.filter (fun r => !r.held) ∧ t.me.varlat = u.me.varlat.filter (fun v => !v.inSketch) ∧
    t.me.eraseCnt = u.me.eraseCnt + 1 ∧
    (kind ≤ 3 → t.me.inkRun = 0 ∧
      (u.me.eraseRun + 1 = 4 → t.me.eraseRun = 0 ∧ t.me.specLvl = if u.me.specLvl.toNat < 2 then u.me.specLvl + 1 else u.me.specLvl) ∧
      (u.me.eraseRun + 1 ≠ 4 → t.me.eraseRun = u.me.eraseRun + 1 ∧ t.me.specLvl = u.me.specLvl)) ∧
    (3 < kind → u.me.eraseRun < 4 → t.me.inkRun = u.me.inkRun ∧ t.me.eraseRun = u.me.eraseRun ∧ t.me.specLvl = u.me.specLvl)) ∧
  (u.me.sketch ≠ none → (∀ due k, u.me.preq = some (due, k) → due ≤ u.time.toNat → exec (.erase n 4) s = .next (u.erase n 4)) ∧
    (u.midway = false → u.faultingStores ≠ [] → exec (.erase n 5) s = .next (u.erase n 5)))

/-- R119, R147: when a result of variable latency arrives outside a sketch, its registers are written and its exceptions join
FLAGS. -/
def Claims.ResultsArrive : Prop := ∀ (s u : State) (n k : Nat) (v : VarResult), s.switchTo n = some u → u.me.varlat[k]? = some v →
  u.me.sketch = none →
  let g := v.writes.foldl Agent.writeResult u.me
  exec (.variableLatencyResult n k) s =
    .next { u with me := { g with regs := { g.regs with flags := g.regs.flags ||| v.flags }, varlat := u.me.varlat.eraseIdx k } }

/-- R183, R295 to R297: a plain store of user mode that meets a fault at the head of its agent's queue moves it and every younger access
of user mode to the replay queue, and the agent traps where it stands, with the store's address and lane; a wait there has not
issued. -/
def Claims.StoreFaults : Prop := ∀ (s u : State) (n code lvl : Nat) (r : StoreReq) (rest : List StoreReq), s.switchTo n = some u →
  u.me.storeQ = r :: rest → (∀ q ∈ rest, q.seq ≠ r.seq) → r.kind = .store → r.held = false → r.sup = false →
  u.storeFaults r = some (code, lvl) → u.me.sstop = 0 → u.me.sketch = none → u.me.hasFrame = false → u.me.pendingTrap = none →
  u.me.wait ≠ .halted → u.midway = false → u.me.loads.all (fun l => l.inSketch || decide (r.seq ≤ l.seq)) = true →
  exec (.storeFault n) s = .next ((u.updMe fun g =>
      { g with replayQ := g.replayQ ++ g.storeQ.filter (!·.sup), storeQ := g.storeQ.filter (·.sup), wait := .none }).raise
    { code := code, addr := r.addr, acc := accStore, lvl := lvl }
    (match r.lane with | none => u.me.active | some l => maskOf [l]) u.me.pc)


/-! ### Barriers, counters and channels (R326 to R330, R386 to R395) -/

/-- R388 to R390: BARINIT and BARARR queue one update of their object; BARTST loads GEN and COUNT; BARWAIT answers once GEN
differs, or with the status of a poisoned or invalid object, and otherwise parks. Each first checks its 16 aligned bytes, which
must lie in the Hearth; BARINIT's own ILLEGAL comes after them. -/
def Claims.BarrierInstructions : Prop := ∀ (s : State) (d a b : BitVec 7),
  let x := (s.me.getS a.toNat).val
  let y := (s.me.getS b.toNat).val
  let h := x.toNat - hearthWindow
  let dst : Reg := if d = 0 then .s 0 else s.me.sName d.toNat
  let object (i : Instr) (acc : Nat) (good : Prop) : Prop :=
    let xs : List LaneAddr := [{ lane := none, addr := x, poison := false }]
    (∀ c ls, s.checkAddrs xs 16 0 acc = some (c, ls) → Traps i s c s.me.active) ∧
    (s.checkAddrs xs 16 0 acc = none →
      (classOf x.toNat ≠ .hearth → Traps i s { code := 0x21, addr := x, acc := acc } s.me.active) ∧ (classOf x.toNat = .hearth → good))
  let queues (i : Instr) (k : StoreKind) : Prop :=
    let r : StoreReq :=
      { kind := k, addr := x, size := 16, ret := some dst, keys := (List.range 16).map fun j => hearthKey (h + j),
        seq := s.me.seq, sup := s.me.regs.priv, mode := s.me.regs.mode, asid := s.me.asid }
    s.me.storeQ.length < 4096 → s.me.decoding = false → { s.me with storeQ := s.me.storeQ ++ [r] }.ldcnt ≤ 2048 →
    Does false i s (s.updMe fun g => { g with storeQ := g.storeQ ++ [r] })
  let row := unitOf (hearthKey h)
  let answers (v : Dword) : Prop := Does false (.barwait d a b) s ((s.noteRead [row]).setS d.toNat (clean v))
  (Free s (scalars s [d, a, b]) = true →
    (Unpoisoned s [a, b] = false → Traps (.barinit d a b) s .poison s.me.active) ∧
    (Unpoisoned s [a, b] = true →
      object (.barinit d a b) accStore ((y = 0 ∨ 2 ^ 32 ≤ y.toNat → Traps (.barinit d a b) s .illegal s.me.active) ∧
        (y ≠ 0 → y.toNat < 2 ^ 32 → queues (.barinit d a b) (.barInit (y.setWidth 32)))) ∧
      (s.me.allPerformed = true → object (.barwait d a b) accLoad
        ((s.objPoison h = true → answers (BitVec.ofNat 64 (2 ^ 63 + 0x80))) ∧
         (s.objPoison h = false → s.objValid h = false → answers (BitVec.ofNat 64 (2 ^ 63 + 0x81))) ∧
         (s.objPoison h = false → s.objValid h = true →
          (s.objGen h ≠ y.toNat % 2 ^ 32 → answers (BitVec.ofNat 64 (s.objGen h))) ∧
          (s.objGen h = y.toNat % 2 ^ 32 → exec (.barwait d a b) s =
            .next ((s.noteRead [row]).updMe fun g => { g with wait := .barwait d h (y.setWidth 32) }))))))) ∧
  (Free s (scalars s [d, a]) = true →
    (Unpoisoned s [a] = false → Traps (.bararr d a) s .poison s.me.active ∧ Traps (.bartst d a) s .poison s.me.active) ∧
    (Unpoisoned s [a] = true →
      object (.bararr d a) accStore (queues (.bararr d a) .barArr) ∧
      (s.me.allPerformed = true → object (.bartst d a) accLoad (
        let keys := (List.range 4).map (fun j => hearthKey (h + 8 + j)) ++ (List.range 4).map fun j => hearthKey (h + j)
        let sectors := (keys.map sectorOf).eraseDups
        s.me.ldcnt + sectors.length ≤ 2048 → Does false (.bartst d a) s (s.updMe fun g => { g with loads := g.loads ++
          [{ dst := .scalar dst, sectors := sectors, seq := g.seq, lanes := [{ lane := none, addr := x, keys := keys }] }] })))))

/-- R387, R389, R390: an initialization gives the object COUNT 0, its TARGET and V, keeps GEN, and clears its poison. An arrival at
a valid, unpoisoned object adds 1 to COUNT, and at TARGET starts the next generation; it answers the generation it arrived in,
with bit 32 set where it completed it; any other arrival changes nothing. BARWAIT_COMPLETE answers a parked team as BARWAIT does. -/
def Claims.BarrierObjects : Prop :=
  (∀ (s : State) (r : StoreReq) (keys : List Nat),
    let h := r.addr.toNat - hearthWindow
    let apart (t : State) : Prop := ∀ k, k < hearthKey h ∨ hearthKey h + 16 ≤ k → Memory.read t.mem k = Memory.read s.mem k
    let answer (t : State) (v : Nat) : Prop := ∀ m, r.ret = some (.s m) → m ≠ 0 → s.me.sketch = none →
      t.me.regs.s.get {} m = clean (BitVec.ofNat 64 v)
    (∀ target : Word32, r.kind = .barInit target → ∃ t, s.perform r keys = .done t ∧ apart t ∧ t.objCount h = 0 ∧
      t.objTarget h = target.toNat ∧ t.objValid h = true ∧ t.objPoison h = false ∧
      (s.poison.get false (hearthKey h / 4 + 2) = false → t.objGen h = s.objGen h ∧ answer t (s.objGen h))) ∧
    (r.kind = .barArr → ∃ t, s.perform r keys = .done t ∧ apart t ∧
      (s.objPoison h = true → t.mem = s.mem ∧ answer t (2 ^ 63 + 0x80)) ∧
      (s.objPoison h = false → s.objValid h = false → t.mem = s.mem ∧ answer t (2 ^ 63 + 0x81)) ∧
      (s.objPoison h = false → s.objValid h = true → t.objTarget h = s.objTarget h ∧ t.objValid h = true ∧
        ((s.objCount h + 1) % 2 ^ 32 = s.objTarget h → t.objCount h = 0 ∧ t.objGen h = (s.objGen h + 1) % 2 ^ 32 ∧
          answer t (s.objGen h + 2 ^ 32)) ∧
        ((s.objCount h + 1) % 2 ^ 32 ≠ s.objTarget h → t.objCount h = (s.objCount h + 1) % 2 ^ 32 ∧ t.objGen h = s.objGen h ∧
          answer t (s.objGen h))))) ∧
  (∀ (s u : State) (n h : Nat) (d : BitVec 7) (g : Word32), s.switchTo n = some u → u.me.wait = .barwait d h g →
    let answers (v : Nat) : Prop := ∃ t, exec (.barwaitComplete n) s = .next t ∧
      Retired ((u.noteRead [unitOf (hearthKey h)]).setS d.toNat (clean (BitVec.ofNat 64 v))) t
        (atPc (u.me.setS d.toNat (clean (BitVec.ofNat 64 v))).regs (u.me.next false))
    (u.objPoison h = true → answers (2 ^ 63 + 0x80)) ∧
    (u.objPoison h = false → u.objValid h = false → answers (2 ^ 63 + 0x81)) ∧
    (u.objPoison h = false → u.objValid h = true → u.objGen h ≠ g.toNat → answers (u.objGen h)))

/-- R391, R394, R395: TIMERD reads the package time counter. CNTRD reads a counter of the agent's partition, or in host code of
supervisor mode one of the package; another number is illegal. (A thread that acts for no partition reads a free value, log 7.) -/
def Claims.TimeAndCounters : Prop := ∀ (s : State) (d : BitVec 7) (n : BitVec 17), Free s (scalars s [d]) = true →
  Does false (.timerd d) s (s.setS d.toNat (clean s.time)) ∧
  (0x100 ≤ n.toNat → n.toNat ≤ 0x10B →
    (∀ p, s.partOf s.me = some p → Does false (.cntrd d n) s (s.setS d.toNat (clean (s.counters.get 0 (4096 * p + n.toNat))))) ∧
    (s.partOf s.me = none → Does false (.cntrd d n) s ({ s with freeCount := s.freeCount + 1 }.setS d.toNat
      (clean (BitVec.ofNat 64 (Config.freeNat s.freeCount)))))) ∧
  (0x200 ≤ n.toNat → n.toNat ≤ 0x206 →
    (s.me.kind = .host ∧ s.me.regs.priv = true → Does false (.cntrd d n) s (s.setS d.toNat (clean (s.counters.get 0 n.toNat)))) ∧
    (¬ (s.me.kind = .host ∧ s.me.regs.priv = true) → Traps (.cntrd d n) s .privileged s.me.active)) ∧
  (n.toNat < 0x100 ∨ (0x10B < n.toNat ∧ n.toNat < 0x200) ∨ 0x206 < n.toNat → Traps (.cntrd d n) s .illegal s.me.active)

/-- R327: CHNINIT outside a sketch binds the channel it names, or the lowest free one for 16, with PROD and CONS zero, and answers
0x100 with its number; 0x83 where it is taken and 0x82 for a bad operand; with no channel free it waits. It frees a channel of its
own team, which answers 1 and is gone once no fired command names it; another answers 0x84. -/
def Claims.ChannelBinding : Prop := ∀ (s : State) (d a b : BitVec 7),
  let v := (s.me.getS a.toNat).val.toNat
  let y := (s.me.getS b.toNat).val.toNat
  let base := bitsOf v 20 0
  let log2 := bitsOf v 25 21
  let cl := 16 * s.me.cluster
  let gives (i : Instr) (st : Nat) (u : State) : Prop := Does false i s (u.setS d.toNat (clean (BitVec.ofNat 64 st)))
  let bad := 2 ^ 26 ≤ v ∨ base % 256 ≠ 0 ∨ log2 < 8 ∨ 20 < log2 ∨ s.me.grant < base + 2 ^ log2 ∨ 16 < y
  let ch : Channel := { bound := true, launch := s.me.launch, teamid := s.me.teamid, base := base, log2size := log2, prod := 0, cons := 0 }
  let binds (c : Nat) : Prop := gives (.chninit d a b) (0x100 + c) { s with channels := s.channels.insert (cl + c) ch }
  let free (c : Nat) : Prop := s.channels.find? (cl + c) = none
  (s.me.isTeam = true → Free s (scalars s [d, a, b]) = true →
    (Unpoisoned s [a, b] = false → Traps (.chninit d a b) s .poison s.me.active) ∧
    (Unpoisoned s [a, b] = true → (bad → gives (.chninit d a b) 0x82 s) ∧
      (¬ bad → y < 16 → (free y → binds y) ∧ (¬ free y → gives (.chninit d a b) 0x83 s)) ∧
      (¬ bad → y = 16 → (∀ c, c < 16 → free c → (∀ e, e < c → ¬ free e) → binds c) ∧
        ((∀ c, c < 16 → ¬ free c) → s.me.wait = .none →
          exec (.chninit d a b) s = .next (s.updMe fun g => { g with wait := .room s.time.toNat }))))) ∧
  (s.me.isTeam = true → Free s (scalars s [d, b]) = true →
    let ch := s.channels.get {} (cl + y)
    let mine := y < 16 ∧ ch.launch = s.me.launch ∧ ch.teamid = s.me.teamid ∧ ch.closing = false ∧ ch.bound = true ∧ ch.pendingFree = none
    (Unpoisoned s [b] = false → Traps (.chninitFree d b) s .poison s.me.active) ∧
    (Unpoisoned s [b] = true → ch.pendingBind = none →
      (¬ mine → gives (.chninitFree d b) 0x84 s) ∧
      (mine → ∀ u, s.unbind (cl + y) = u → gives (.chninitFree d b) 1 u ∧ u.mem = s.mem ∧
        (s.engines.all (fun o => !(o.names (cl + y) && o.fired)) = true → u.channels.find? (cl + y) = none))))

/-- R329, R330: CHNWAIT answers the position and fill once the fill, or the room, reaches its count, and parks before; an unbound
channel ends it with bit 63. CHNREL answers 1 and queues an advance of CONS or PROD, which is performed by at most the fill or the
room; 0x84 and 0x82 for a channel that does not serve the team and for a bad count. -/
def Claims.ChannelWaitsAndReleases : Prop := ∀ (s : State) (d a b : BitVec 7) (c : Bool),
  let x := (s.me.getS a.toNat).val.toNat
  let y := (s.me.getS b.toNat).val.toNat
  let key := 16 * s.me.cluster + x
  let ch := s.channels.get {} key
  let serves := x ≤ 15 ∧ ch.bound = true ∧ ch.closing = false ∧ ch.launch = s.me.launch
  let fill := (ch.prod - ch.cons).toNat
  let level := if c then fill else 2 ^ ch.log2size - fill
  let gives (i : Instr) (v : Dword) : Prop := Does false i s (s.setS d.toNat (clean v))
  s.me.isTeam = true → Free s (scalars s [d, a, b]) = true →
  (Unpoisoned s [a, b] = false → s.me.allPerformed = true → Traps (.chnwait d a b c) s .poison s.me.active ∧
    Traps (.chnrel d a b c) s .poison s.me.active) ∧
  (Unpoisoned s [a, b] = true →
    (s.me.allPerformed = true → (¬ serves ∨ y = 0 ∨ 2 ^ ch.log2size < y → Traps (.chnwait d a b c) s .illegal s.me.active) ∧
      (serves → 0 < y → y ≤ 2 ^ ch.log2size →
        (y ≤ level → gives (.chnwait d a b c) (BitVec.ofNat 64 ((if c then ch.cons else ch.prod).toNat + 2 ^ 32 * fill))) ∧
        (level < y → exec (.chnwait d a b c) s = .next (s.updMe fun g => { g with wait := .chnwait d key y c false })))) ∧
    (¬ serves → gives (.chnrel d a b c) 0x84) ∧ (serves → y = 0 ∨ 2 ^ ch.log2size < y → gives (.chnrel d a b c) 0x82) ∧
    (serves → 0 < y → y ≤ 2 ^ ch.log2size → s.me.storeQ.length < 4096 → s.me.decoding = false → Does false (.chnrel d a b c) s
      ((s.setS d.toNat (clean 1)).updMe fun g => { g with storeQ := g.storeQ ++
        [{ kind := .chnRel key c y, addr := 0, size := 0, seq := g.seq, sup := g.regs.priv, mode := g.regs.mode, asid := g.asid }] })))

/-- R328 to R330: what completes a CHNWAIT, performs a CHNREL, and fires a command at its channels. -/
def Claims.ChannelEvents : Prop :=
  (∀ (s u : State) (n key count : Nat) (d : BitVec 7) (data unbound : Bool), s.switchTo n = some u →
    u.me.wait = .chnwait d key count data unbound →
    let ch := u.channels.get {} key
    let fill := (ch.prod - ch.cons).toNat
    let answers (v : Dword) : Prop := ∃ t, exec (.chnwaitComplete n) s = .next t ∧
      Retired (u.setS d.toNat (clean v)) t (atPc (u.me.setS d.toNat (clean v)).regs (u.me.next false))
    (unbound = true → answers (BitVec.ofNat 64 (2 ^ 63))) ∧
    (unbound = false → count ≤ (if data then fill else 2 ^ ch.log2size - fill) →
      answers (BitVec.ofNat 64 ((if data then ch.cons else ch.prod).toNat + 2 ^ 32 * fill)))) ∧
  (∀ (s : State) (r : StoreReq) (c n : Nat) (prod : Bool) (keys : List Nat), r.kind = .chnRel c prod n →
    let ch := s.channels.get {} c
    let fill := (ch.prod - ch.cons).toNat
    ∃ t, s.perform r keys = .done t ∧ t.mem = s.mem ∧ t.me = s.me ∧ (∀ e, e ≠ c → Cells.get {} t.channels e = Cells.get {} s.channels e) ∧
      (ch.bound = false → t.channels.get {} c = ch) ∧
      (ch.bound = true → t.channels.get {} c = if prod then { ch with prod := ch.prod + BitVec.ofNat 32 (min n (2 ^ ch.log2size - fill)) }
        else { ch with cons := ch.cons + BitVec.ofNat 32 (min n fill) })) ∧
  (∀ (s : State) (n : Nat) (o : EngineOp), s.engines.find? (fun p => p.id = n) = some o → s.mayFire o = true →
    exec (.channelFire n) s = .next { s with engines := s.engines.map fun p => if p.id = n then { p with fired := true } else p })

/-! ### Engines (R245 to R247, R268 to R270, R318 to R325) -/

/-- R268, R318, R320 to R322: an engine command whose agent has performed its older accesses reads its command at an aligned
address. A malformed command, a poisoned one or a bad completion object answers 0x82, and a channel that does not serve it its
own status; with room in its queue the operation enters it and the command answers 1; without, it waits. A command in the SCRATCH
window, within the grant, and one in the partition's Hearth ranges is read at once (R226, R230). -/
def Claims.EngineCommands : Prop := ∀ (s : State) (d a b : BitVec 7) (m : BitVec 2),
  let x := (s.me.getS a.toNat).val
  let y := (s.me.getS b.toNat).val.toNat
  let gives (i : Instr) (st : Nat) (u : State) : Prop := Does false i s (u.setS d.toNat (clean (BitVec.ofNat 64 st)))
  let enters (i : Instr) (kind : EngineKind) (size : Nat) (form : List Byte → State → Option Asked) : Prop :=
    let at_ : LaneAddr := { lane := none, addr := x, poison := false }
    let reads (u : State) (keys : List Nat) : Prop :=
      let bytes := leBytes size (u.readKeys keys).1
      let t := u.noteRead (keys.map unitOf).eraseDups
      (t.completionOf y = none ∨ (u.readKeys keys).2 = true ∨ form bytes t = none → gives i 0x82 t) ∧
      (∀ obj r, t.completionOf y = some obj → (u.readKeys keys).2 = false → form bytes t = some r →
        let o := { t.newOp kind r.queue x bytes obj with chanCluster := r.cluster, grp := (0, r.count) }
        (∀ st, t.channelStatus o r = some st → gives i st t) ∧
        (t.channelStatus o r = none → (t.queueRoom r.queue o.part = true → gives i 1 (t.addOp o)) ∧
          (t.queueRoom r.queue o.part = false → s.me.wait = .none →
            exec i s = .next (s.updMe fun g => { g with wait := .room s.time.toNat }))))
    (Unpoisoned s [a, b] = false → Traps i s .poison s.me.active) ∧
    (Unpoisoned s [a, b] = true → (x.toNat % size ≠ 0 → gives i 0x82 s) ∧
      (x.toNat % size = 0 →
        (∀ c ls, s.checkAddrs [at_] size 0 accLoad = some (c, ls) → Traps i s c s.me.active) ∧
        (s.checkAddrs [at_] size 0 accLoad = none → ∀ u,
          (∀ c ls, s.locateAll [at_] size accLoad = (.fault c ls, u) → exec i s = .next (u.issued.raise c u.me.active u.me.pc)) ∧
          (∀ ks, s.locateAll [at_] size accLoad = (.keys ks, u) → Keeps s u → reads u (ks.flatMap (·.2)))) ∧
        (InGrant s [at_] size → reads s (grantKeys s size at_)) ∧ (InHearth s [at_] size → reads s (hearthKeys size at_))))
  Free s (scalars s [d, a, b]) = true → s.me.allPerformed = true →
    enters (.cpy d a b) .cpy 32 cpyForm ∧ enters (.gath d a b) .gath 32 listForm ∧ enters (.scat d a b) .scat 32 listForm ∧
    enters (.coll d a b) .coll 64 collForm ∧
    (s.me.isTeam = true → enters (.chkin d a b) .chkin 32 checkForm ∧
      (m ≠ 3 → enters (.chkout d a b false m) (.chkout m false) 32 checkForm))

/-- R319: an operation's writes: each byte takes its byte, and no other byte and no other word's poison changes. Whatever order its
bytes come in (log 47), a word of which they are every byte takes the OR of their poison, and a word written in part keeps its own
beside it. (The poison is stated where no memory error is there to find, R243.) -/
def Claims.EngineWrites : Prop := ∀ (s : State) (data : List (Byte × Bool)),
  ∀ keys : List Nat, keys.Nodup → keys.length = data.length → keys.all (fun k => !isPeer k) = true →
    let t := s.writeEngine keys data
    (∀ (j k : Nat) (x : Byte × Bool), keys[j]? = some k → data[j]? = some x → Memory.read t.mem k = x.1) ∧
    (∀ k, k ∉ keys → Memory.read t.mem k = Memory.read s.mem k) ∧
    (s.failedChannels = [] → s.badBlocks = [] →
      ∀ q, t.poison.get false q =
        ((keys.zip data).any (fun c => c.1 / 4 = q && c.2.2) ||
          (!((List.range 4).all fun j => keys.contains (4 * q + j)) && s.poison.get false q)))

/-- R294, R319 to R321: a ready copy, gather or scatter starts: it reads its source and knows where each byte goes; a range that
cannot be reached gives it its error status. That all its reads fall here, and all its writes at its completion, is the model's
choice (log 47), as is when it is ready (log 33). -/
def Claims.CopiesStart : Prop := ∀ (s u v : State) (o : EngineOp) (n : Nat) (ks ds : List Nat) (remote : List (Nat × List (Byte × Bool))),
  let s0 := s.updOp n fun p => { p with spans := [] }
  let len := field o.bytes 0x10 4
  let c := field o.bytes 0x14 4
  let begun (w : State) (src dst : List Nat) : State := { w with engines := w.engines.map fun p =>
    if p.id = o.id then { p with started := true, data := w.snapshot src, peers := peersOf src, dst := dst } else p }
  let fails (w : State) (st : Nat) : State := { w with engines := w.engines.map fun p =>
    if p.id = o.id then { p with started := true, status := st } else p }
  s.engines.find? (fun p => p.id = n) = some o → s.opReady o = true →
  (o.status = 3 → exec (.engineStart { id := n, remote := remote }) s = .next (fails s 3)) ∧
  (o.status ≠ 3 → o.chans = (none, none) →
    (o.kind = .cpy → ∀ st,
      (s0.engineKeys o (field o.bytes 0 8) len (BitVec.ofNat 2 (c / 2 ^ 4)) accLoad = (.bad st, u) → exec (.engineStart { id := n, remote := remote }) s = .next (fails u st)) ∧
      (s0.engineKeys o (field o.bytes 0 8) len (BitVec.ofNat 2 (c / 2 ^ 4)) accLoad = (.keys ks, u) →
        (u.engineKeys o (field o.bytes 8 8) len (BitVec.ofNat 2 (c / 2 ^ 6)) accStore = (.bad st, v) → exec (.engineStart { id := n, remote := remote }) s = .next (fails v st)) ∧
        (u.engineKeys o (field o.bytes 8 8) len (BitVec.ofNat 2 (c / 2 ^ 6)) accStore = (.keys ds, v) →
          exec (.engineStart { id := n, remote := remote }) s = .next (begun v ks ds)))) ∧
    (o.kind = .gath ∨ o.kind = .scat → ∀ (w : State) (ls : List Nat), s0.engineKeys o (field o.bytes 0 8) (8 * len) 0 accLoad = (.keys ls, u) →
      ls.any isPeer = false →
      let g := decide (o.kind = .gath)
      let esz := 2 ^ bitsOf c 2 0
      let entries := (List.range len).map fun j => u.readKeys ((ls.drop (8 * j)).take 8)
      (State.listKeys o esz (if g then accLoad else accStore) entries u = (.bad 7, v) → exec (.engineStart { id := n, remote := remote }) s = .next (fails v 7)) ∧
      (State.listKeys o esz (if g then accLoad else accStore) entries u = (.keys ks, v) →
        v.engineKeys o (field o.bytes 8 8) (len * esz) (BitVec.ofNat 2 (c / 2 ^ 4)) (if g then accStore else accLoad) = (.keys ds, w) →
        exec (.engineStart { id := n, remote := remote }) s = .next (if g then begun w ks ds else begun w ds ks))))

/-- R246, R319, R324, R325, R351, R354, R355: a started operation ends: one with an error status writes nothing but its STATUS, as
does one that needs a link which is not up, or that reaches other packages where a route fails or a peer refuses. One that would
write in an EXCLUSIVE check-out waits. A copy within the package writes what it read, all of it here (the model's choice, log 47); a
collective with every rank's contribution the combined bytes, or ends with 8 where a contribution has another length or the commands
of the ranks disagree; then come the STATUS word and one arrival. One whose STATUS word lies in an EXCLUSIVE check-out waits. -/
def Claims.OperationsEnd : Prop := ∀ (s : State) (o : EngineOp) (n : Nat) (remote : List (Nat × List (Byte × Bool))) (far : Config.Far),
  let ends (t : State) (st : Nat) : Prop := exec (.engineCompletion n remote far) s = .next (t.endOp o st)
  let place := s.engineKeys o (o.cmd.toNat + o.statusOff) 4 0 accStore
  s.engines.find? (fun p => p.id = n) = some o → o.started = true →
  (place.1 = .wait → exec (.engineCompletion n remote far) s = .next place.2) ∧ (place.1 ≠ .wait →
  (o.status = 8 → ends (s.endBadRank o) 8) ∧ (o.status ≠ 1 → o.status ≠ 8 → ends s o.status) ∧
  (o.status = 1 → (s.linkLost o = true → ends s 9) ∧
    (s.linkLost o = false → s.reachesOut o = true → (far = .routeFailed → ends s 9) ∧ (far = .refused → ends s 5))) ∧
  (o.status = 1 → s.linkLost o = false → (far ≠ .routeFailed ∧ far ≠ .refused) ∨ s.reachesOut o = false → o.peers = [] →
    o.dst.any isPeer = false → (o.dst.any (s.keyBarred o.who) = true →
      exec (.engineCompletion n remote far) s = .next (s.markKeys o.who o.dst)) ∧ (o.dst.any (s.keyBarred o.who) = false →
    (o.kind = .cpy ∨ o.kind = .gath ∨ o.kind = .scat → o.chans = (none, none) → ends (s.writeEngine o.dst o.data) 1) ∧
    ((∃ m f, o.kind = .chkout m f) ∨ o.kind = .chkin → ends s 1) ∧
    (o.kind = .coll → o.chans = (none, none) →
      let c := collOf o.bytes
      let all := (c.rank, o.data) :: o.got ++ remote.filter fun r => s.rankAway o r.1
      let apart : Prop := ∃ ts, far = .ranks ts ∧ o.disagreesFar ts = true
      let of_ (r : Nat) : List (Byte × Bool) := ((all.find? fun x => x.1 = r).map (·.2)).getD []
      let needed (r : Nat) : Prop := r < o.grp.2 ∧ (c.kind = 3 → r = c.root) ∧ (c.kind = 1 → c.rank = c.root)
      (apart → ends ((s.failColl o).endBadRank o) 8) ∧
      (¬ apart → o.posts = [] → (∀ r, r < o.grp.2 → (all.find? fun x => x.1 = r).isSome = true) → o.dst ≠ [] →
      ((∃ r, needed r ∧ (of_ r).length ≠ c.len) → ends s 8) ∧
      ((∀ r, needed r → (of_ r).length = c.len) →
        ends (s.writeEngine o.dst (collResult c o.grp.2 of_).1) (1 + 256 * (collResult c o.grp.2 of_).2)))))))

/-- R319: the end of an operation: its STATUS word holds the status, its completion object has one arrival, and it leaves its
queue; where the STATUS word cannot be reached only the arrival comes. -/
def Claims.OperationStatus : Prop := ∀ (s : State) (o : EngineOp) (st : Nat) (ks : List Nat) (u : State),
  s.engineKeys o (o.cmd.toNat + o.statusOff) 4 0 accStore = (.keys ks, u) → ks.Nodup → ks.length = 4 → ks.all (fun k => !isPeer k) = true →
  o.completion = none → o.chans = (none, none) →
  let t := s.endOp o st
  leValue (ks.map (Memory.read t.mem)) = st % 2 ^ 32 ∧ (∀ k, k ∉ ks → Memory.read t.mem k = Memory.read u.mem k) ∧
  ∀ p ∈ t.engines, p.id ≠ o.id

/-- R245, R270: a check-out that starts enters the range table and fills its copy: each offset of the range in the scratchpad, under
its swizzle, holds its byte of the range, and is clean; a conflict leaves a plain command where it is, and traps a fail-fast one. -/
def Claims.CheckOuts : Prop :=
  (∀ (s u : State) (o : EngineOp) (n : Nat) (m : BitVec 2) (f : Bool) (ks : List Nat) (remote : List (Nat × List (Byte × Bool))),
    s.engines.find? (fun p => p.id = n) = some o → s.opReady o = true → o.status ≠ 3 → o.kind = .chkout m f →
    let s0 := s.updOp n fun p => { p with spans := [] }
    { s0 with ranges := [] }.engineKeys o (field o.bytes 0 8) (field o.bytes 8 4) 0 (if m.toNat = 0 then accLoad else accAtomic) = (.keys ks, u) →
    ks.any isPeer = false →
    let v := { u with ranges := s.ranges }
    (v.rangeConflict m.toNat (piecesOf ks) = true → exec (.engineStart { id := n, remote := remote }) s = .next s0) ∧
    (v.rangeConflict m.toNat (piecesOf ks) = false → exec (.engineStart { id := n, remote := remote }) s = .next ((v.checkOut o m ks).failOp o 1))) ∧
  (∀ (s : State) (o : EngineOp) (m : BitVec 2) (ks : List Nat),
    let c := field o.bytes 0x0C 4
    let key (j : Nat) : Nat := scratchKey o.cluster (o.scratchBase + swizzle (bitsOf c 20 0 + j) (BitVec.ofNat 2 (bitsOf c 22 21)))
    let dst := (List.range ks.length).map key
    dst.Nodup → ks.any isPeer = false → let t := s.checkOut o m ks
    (∀ j k, ks[j]? = some k → Memory.read t.mem (key j) = Memory.read s.mem k ∧ t.dirty.get false (key j / 4) = false) ∧
    (∀ k, k ∉ dst → Memory.read t.mem k = Memory.read s.mem k) ∧
    t.ranges.length = s.ranges.length + 1 ∧ t.nextCid = s.nextCid + 1) ∧
  (∀ (s u : State) (d a b : BitVec 7) (m : BitVec 2) (ks : List (LaneAddr × List Nat)) (obj : Option Nat) (r : Asked),
    let x := (s.me.getS a.toNat).val
    let keys := ks.flatMap (·.2)
    let t := u.noteRead (keys.map unitOf).eraseDups
    let bytes := leBytes 32 (u.readKeys keys).1
    let o := { t.newOp (.chkout m true) r.queue x bytes obj with chanCluster := r.cluster, grp := (0, r.count) }
    let xs : List LaneAddr := [{ lane := none, addr := x, poison := false }]
    Free s (scalars s [d, a, b]) = true → s.me.allPerformed = true → s.me.isTeam = true → m ≠ 3 → Unpoisoned s [a, b] = true →
    x.toNat % 32 = 0 → s.checkAddrs xs 32 0 accLoad = none → s.locateAll xs 32 accLoad = (.keys ks, u) → Keeps s u → (u.readKeys keys).2 = false →
    t.completionOf (s.me.getS b.toNat).val.toNat = some obj → checkForm bytes t = some r → t.channelStatus o r = none →
    t.queueRoom r.queue o.part = true → (t.addOp o).opReady o = true →
    (∀ v, (t.addOp o).tryCheckOut o m = .started v → v.me = t.me → Does false (.chkout d a b true m) s (v.setS d.toNat (clean 1))) ∧
    ((t.addOp o).tryCheckOut o m = .conflict → exec (.chkout d a b true m) s =
      .next (t.issued.raise { code := 0x0D, addr := BitVec.ofNat 64 (field bytes 0 8) } t.me.active t.me.pc)))

/-- R246, R247, R270: a check-in, and a recall of an EXCLUSIVE check-out at which an access has waited 25,000 cycles, write the dirty
words of the copy to the range, and only those; a check-in releases its entry, a recall marks it and keeps its copy. A check-in after
a recall waits while one of those words lies in another's EXCLUSIVE check-out. -/
def Claims.CheckIns : Prop :=
  (∀ (s : State) (r : RangeRec) (soff : Nat) (z : BitVec 2),
    let key (j : Nat) : Nat := scratchKey r.cluster (r.scratchBase + swizzle (soff + j) z)
    let hot (j : Nat) : Bool := s.dirty.get false (key j / 4)
    r.keys.Nodup → r.keys.any isPeer = false → (∀ k ∈ r.keys, k < 2 ^ 48) → let t := s.writeDirty r soff z
    (∀ j k, r.keys[j]? = some k → Memory.read t.mem k = (if hot j then Memory.read s.mem (key j) else Memory.read s.mem k) ∧
      t.dirty.get false (key j / 4) = false) ∧
    (∀ k, k ∉ r.keys → Memory.read t.mem k = Memory.read s.mem k)) ∧
  (∀ (s : State) (o : EngineOp) (n : Nat) (remote : List (Nat × List (Byte × Bool))), s.engines.find? (fun p => p.id = n) = some o →
    s.opReady o = true → o.status ≠ 3 → o.kind = .chkin →
    let s0 := s.updOp n fun p => { p with spans := [] }
    let c := field o.bytes 0x0C 4
    let mine (r : RangeRec) : Bool := r.part = o.part && r.cluster = o.cluster && r.launch = o.launch && r.teamid = o.teamid &&
      r.vbase.toNat = field o.bytes 0 8 && r.vlen = field o.bytes 8 4
    (s.ranges.find? mine = none → exec (.engineStart { id := n, remote := remote }) s = .next (s0.failOp o 6)) ∧
    (∀ r, s.ranges.find? mine = some r →
     let hot := if r.recalled && r.mode != 0#2 then (s.hotBytes r (bitsOf c 20 0) (BitVec.ofNat 2 (bitsOf c 22 21))).map (·.1) else []
     (hot.any (s.keyBarred o.who) = true → exec (.engineStart { id := n, remote := remote }) s = .next (s0.markKeys o.who hot)) ∧
     (hot.any (s.keyBarred o.who) = false → exec (.engineStart { id := n, remote := remote }) s =
      .next ((s0.checkIn r (bitsOf c 20 0) (BitVec.ofNat 2 (bitsOf c 22 21))).failOp o (if r.recalled then 2 else 1))))) ∧
  (∀ (s : State) (r : RangeRec) (cid t : Nat), s.ranges.find? (fun q => q.cid = cid) = some r → r.mode = 1 → r.recalled = false →
    r.waitSince = some t → t + 25000 ≤ s.time.toNat →
    s.agents.any (fun c => c.2.isTeam && c.2.launch = r.launch && c.2.teamid = r.teamid) = true →
    let u := s.writeDirty r r.soff r.swz
    exec (.recall cid) s = .next { u with ranges := u.ranges.map fun q => if q.cid = cid then { q with recalled := true, waitSince := none } else q })

/-! ### Submission queues and kindling (R313 to R315, R339 to R345) -/

/-- R341: QRSV answers at once where the handle, the count or the partition is wrong, and otherwise queues its access to the counter
object; performed, it gives the first of its slots where CAP has room, changing RESV alone, and otherwise changes nothing. -/
def Claims.QueueReservation : Prop :=
  (∀ (s : State) (d a b : BitVec 7),
    let h := (s.me.getS a.toNat).val.toNat
    let y := (s.me.getS b.toNat).val
    let gives (st : Nat) : Prop := Does false (.qrsv d a b) s (s.setS d.toNat (clean (BitVec.ofNat 64 (2 ^ 63 + st))))
    Free s (scalars s [d, a, b]) = true →
    (Unpoisoned s [a, b] = false → Traps (.qrsv d a b) s .poison s.me.active) ∧
    (Unpoisoned s [a, b] = true →
      (regValid s h = false ∨ y = 0 → gives 0x82) ∧
      (regValid s h = true → y ≠ 0 → s.partOf s.me ≠ some (regPart s h) → gives 0x84) ∧
      (regValid s h = true → y ≠ 0 → s.partOf s.me = some (regPart s h) →
        let r : StoreReq :=
          { kind := .qrsv h y, addr := BitVec.ofNat 64 (hearthWindow + regCounter s h), size := 16,
            ret := some (if d = 0 then .s 0 else s.me.sName d.toNat), keys := (List.range 16).map fun j => hearthKey (regCounter s h + j),
            seq := s.me.seq, sup := s.me.regs.priv, mode := s.me.regs.mode, asid := s.me.asid }
        s.me.storeQ.length < 4096 → s.me.decoding = false → { s.me with storeQ := s.me.storeQ ++ [r] }.ldcnt ≤ 2048 →
        Does false (.qrsv d a b) s (s.updMe fun g => { g with storeQ := g.storeQ ++ [r] })))) ∧
  (∀ (s : State) (r : StoreReq) (keys : List Nat) (h : Nat) (n : Dword), r.kind = .qrsv h n →
    let c := regCounter s h
    let resv := s.rd (hearthKey c) 4
    let cap := s.rd (hearthKey c + 8) 4
    let room := (resv + 2 ^ 32 - s.rd (hearthKey c + 4) 4) % 2 ^ 32
    let answer (t : State) (v : Nat) : Prop := ∀ m, r.ret = some (.s m) → m ≠ 0 → s.me.sketch = none →
      t.me.regs.s.get {} m = clean (BitVec.ofNat 64 v)
    let fails (v : Nat) : Prop := ∃ t, s.perform r keys = .done t ∧ t.mem = s.mem ∧ answer t v
    (s.objPoison c = true → fails (2 ^ 63 + 0x80)) ∧ (s.objPoison c = false → cap < n.toNat → fails (2 ^ 63 + 0x82)) ∧
    (s.objPoison c = false → n.toNat ≤ cap → room + n.toNat ≤ cap → ∃ t, s.perform r keys = .done t ∧ answer t resv ∧
      t.rd (hearthKey c) 4 = (resv + n.toNat) % 2 ^ 32 ∧
      ∀ k, k < hearthKey c ∨ hearthKey c + 4 ≤ k → Memory.read t.mem k = Memory.read s.mem k) ∧
    (s.objPoison c = false → n.toNat ≤ cap → cap < room + n.toNat → s.perform r keys = .wait s))

/-- R342, R343: QPOST of a slot that the proxy does not accept is illegal; an accepted one is recorded. A slot that is not PUB only
fills its bit; the slot PUB, with the next one unfilled, moves PUB by 1 and asks for a tail write unless PAUSED is set; a team's
post holds back its launch's join. -/
def Claims.QueuePost : Prop :=
  (∀ (s : State) (a b : BitVec 7),
    let h := (s.me.getS a.toNat).val.toNat
    let k := (s.me.getS b.toNat).val.toNat % 2 ^ 32
    let held (l : LaunchEntry) : LaunchEntry :=
      if s.me.isTeam ∧ l.handle = s.me.launch then { l with posts := l.posts ++ [(h, BitVec.ofNat 32 k)] } else l
    let posted : State := { s with launches := s.launches.map held }
    Free s (scalars s [a, b]) = true → s.me.allPerformed = true →
    (Unpoisoned s [a, b] = false → Traps (.qpost a b) s .poison s.me.active) ∧
    (Unpoisoned s [a, b] = true →
      let good := regValid s h = true ∧ s.partOf s.me = some (regPart s h) ∧ (k + 2 ^ 32 - regPub s h) % 2 ^ 32 < regDepth s h ∧
        s.isFilled h k = false
      (¬ good → Traps (.qpost a b) s .illegal s.me.active) ∧ (good → Does false (.qpost a b) s (posted.acceptSlot h k)))) ∧
  (∀ (s : State) (h k : Nat), h < 1024 → regFlags s h % 16 ≤ 12 → k < 2 ^ 32 → s.isFilled h k = false →
    let t := s.acceptSlot h k
    let p := regPub s h
    (k % regDepth s h ≠ p % regDepth s h → s.isFilled h p = false →
      t.mem = s.mem ∧ t.tails = s.tails ∧ t.isFilled h k = true ∧ ∀ i, i % regDepth s h ≠ k % regDepth s h → t.isFilled h i = s.isFilled h i) ∧
    (k = p → s.isFilled h ((p + 1) % 2 ^ 32) = false →
      regPub t h = (p + 1) % 2 ^ 32 ∧ t.isFilled h k = false ∧ (regPaused s h = false → h ∈ t.tails) ∧
      (regPaused s h = true → t.tails = s.tails) ∧
      ∀ q, q < proxyBase h + 0x10 ∨ proxyBase h + 0x14 ≤ q → Memory.read t.mem q = Memory.read s.mem q))

/-- R343 to R345: a tail write hands the port PUB modulo DEPTH, or leaves a record where the port is down or under DPC containment, and the
joins and collectives it held back go on; a hole whose timer has reached the partition's limit is reported once, with the registration and PUB. -/
def Claims.QueueTailsAndHoles : Prop := ∀ (s : State) (h : Nat) (up : Bool),
  let covered (k : Word32) : Bool := decide ((regPub s h + 2 ^ 32 - k.toNat - 1) % 2 ^ 32 < 2 ^ 31)
  let u : State := { s with tails := s.tails.filter (· != h) }
  let left (ps : List (Nat × Word32)) : List (Nat × Word32) := ps.filter fun c => !(c.1 = h && covered c.2)
  let w : DevWrite := { addr := s.rd (proxyBase h) 8, size := 4, value := BitVec.ofNat 64 (regPub s h % regDepth s h) }
  (h ∈ s.tails → regValid s h = true → regPaused s h = false →
    let held := (portOf (s.rd (proxyBase h) 8)).any s.contained.contains
    (up = true ∧ held = false → exec (.doorbellTailWrite h up) s =
      .next { u with devWrites := s.devWrites ++ [w], launches := s.launches.map fun l => { l with posts := left l.posts },
                     engines := s.engines.map fun o => { o with posts := left o.posts } }) ∧
    (up = false ∨ held = true → exec (.doorbellTailWrite h up) s =
      .next ((u.record (some (regPart s h)) { addr := s.rd (proxyBase h) 8, port := portOf (s.rd (proxyBase h) 8) }).postsDone h))) ∧
  (∀ t, s.holes.find? h = some t → s.anyFilled h = true →
    let v := s.partField (regPart s h) 0x18 4
    s.expires (t + if v = 0 then 62500 else v) = true →
    exec (.proxyHole h) s = .next { s with holes := s.holes.insert h holeReported, events := s.events ++
      [{ time := s.time, code := 9, part := BitVec.ofNat 8 (regPart s h), extra := h, operand := BitVec.ofNat 32 (regPub s h) }] })

/-- R313, R315: SPAWN, its entry a good target and its operands clean, sets md's bits for its exec lanes and hands one thread for each
to the kindling unit, where they arrive one by one; with no exec lane it is complete at once. One that arrives is placed, or waits there
for room beside the others; once all have arrived, the first that finds room is placed. One that has waited 4,096 cycles from its own
arrival without room is dropped and its bit cleared. SPAWN completes with the last of them. -/
def Claims.Spawning : Prop :=
  (∀ (s : State) (m : BitVec 4) (a : BitVec 8) (e : BitVec 7), s.me.isTeam = true → a.toNat % 2 = 0 →
    Free s (vRegs true a.toNat ++ s.me.guardReg ++ s.me.sRegs e.toNat ++ [.m m.toNat]) = true →
    let x := s.me.getS e.toNat
    let bad := s.me.execLanes.filter fun l => x.poison || (s.me.getPair a.toNat l).poison
    let marked := writeMask m.toNat (fun _ => true) s
    (bad ≠ [] → Traps (.spawn m a e) s .poison (maskOf bad)) ∧
    (bad = [] → badTarget x.val = true → Traps (.spawn m a e) s .illegal s.me.exec) ∧
    (bad = [] → badTarget x.val = false →
      let forked : Fork := { agent := s.meId, launch := s.me.launch, teamid := s.me.teamid, seq := s.me.seq }
      let ts := s.me.execLanes.map fun (l : Nat) =>
        ({ entry := x.val, arg := (s.me.getPair a.toNat l).val, launch := s.me.launch, lane := l, fork := forked } : SpawnThread)
      (s.me.execLanes = [] → Does false (.spawn m a e) s marked) ∧
      (s.me.execLanes ≠ [] → exec (.spawn m a e) s = .next (marked.updMe fun g => { g with wait := .spawn m, spawnQ := ts })))) ∧
  (∀ (s u : State) (n : Nat) (m : BitVec 4), s.switchTo n = some u → u.me.wait = .spawn m →
    let finish (i : Instr) (x : SpawnThread) (v : State) : Prop :=
      let w : State := v.updMe fun g => { g with spawnQ := g.spawnQ.erase x }
      (w.me.spawnQ ≠ [] → exec i s = .next w) ∧
      (w.me.spawnQ = [] → ∃ t, exec i s = .next t ∧ Retired w t (atPc v.me.regs (v.me.next false)))
    (∀ x, u.me.spawnQ.find? (·.arrived.isNone) = some x →
      (∀ v, u.placeThread x = some v → v.me = u.me → finish (.kindlingThreadArrival n) x v) ∧
      (u.placeThread x = none → exec (.kindlingThreadArrival n) s = .next (u.updMe fun g =>
        { g with spawnQ := g.spawnQ.map fun y => if y = x then { x with arrived := some u.time.toNat } else y }))) ∧
    (∀ (before after : List SpawnThread) (x : SpawnThread) (v : State), u.me.spawnQ = before ++ x :: after →
      u.me.spawnQ.all (·.arrived.isSome) = true → (∀ y ∈ before, u.placeThread y = none) → u.placeThread x = some v → v.me = u.me →
      finish (.kindlingThreadArrival n) x v) ∧
    (∀ (before after : List SpawnThread) (x : SpawnThread) (since : Nat), u.me.spawnQ = before ++ x :: after → x.arrived = some since →
      u.expires (since + 4096) = true → u.placeThread x = none →
      (∀ y ∈ before, y.arrived = none ∨ (∃ t, y.arrived = some t ∧ u.expires (t + 4096) = false) ∨ u.placeThread y ≠ none) →
      finish (.kindlingDrop n) x (u.updMe fun g => g.setM m.toNat (g.getM m.toNat &&& ~~~(1#1024 <<< x.lane)))))

/-- R313, R314: a bin whose timer has expired is lit: its oldest released threads, up to 32, become one team of their launch, and the
others stay; the head of a partition's ring moves into a bin once there is room. -/
def Claims.Kindling : Prop :=
  (∀ (s : State) (die : Nat) (b : Bin) (n due : Nat), (s.bins.filter fun c => c.die = die)[n]? = some b → s.binDue b = some due →
    s.expires due = true → exec (.kindlingTimer die n) s = .next (s.lightWhere fun c => if c = b then 1 else 0)) ∧
  (∀ (s : State) (b : Bin), b.threads ≠ [] → (∀ t ∈ b.threads, t.pendingOf = none) →
    let r := s.lightOne b
    r.2.threads = b.threads.drop 32 ∧ ∃ t, r.1.lits = s.lits ++ [t] ∧ t.args = (b.threads.take 32).map (·.arg) ∧ t.launch = b.launch ∧
      t.entry = b.entry ∧ t.die = b.die ∧ t.litAt = s.time.toNat ∧
      r.1.launches = s.launches.map fun l => if l.handle = b.launch then { l with lit := l.lit + 1, liveTeams := l.liveTeams + 1 } else l) ∧
  (∀ (s u : State) (p die : Nat) (t : SpawnThread), (s.part p).ringHead < (s.part p).ringTail →
    s.ringVoid p (s.part p).ringHead = false → s.ringThread p (s.part p).ringHead = some (t, die) → s.intoBin die p t = some u →
    exec (.kindlingRingRefill p) s = .next (u.updPart p fun q =>
      { q with ringHead := q.ringHead + 1, ringNotes := q.ringNotes.remove q.ringHead }))

/-! ### Launches, placement, the end of a team, and context images (R25 to R31, R198, R201, R212 to R225, R305 to R317, R331, R332) -/

/-- R306 to R308: LAUNCH reads its descriptor at an aligned GLOBAL address and answers a status, and its handle in the second
register: 0x82 for a bad address or descriptor, 0x80 for one that cannot be read or is poisoned, 0x84 without the right to the partition or class, and 1
with an entry in the launch queue; a full queue makes it wait. -/
def Claims.Launches : Prop := ∀ (s u : State) (d a b : BitVec 7) (ks : List (LaneAddr × List Nat)),
  let x := (s.me.getS a.toNat).val
  let va := x.toNat
  let gives (st : Nat) (h : Dword) (u : State) : Prop :=
    Does false (.launch d a b) s ((if b = 0 then u else u.setS b.toNat (clean h)).setS d.toNat (clean (BitVec.ofNat 64 st)))
  let aligned := va % 64 = 0 ∧ classOf va = .global
  let xs : List LaneAddr := [{ lane := none, addr := x, poison := false }]
  Free s (scalars s [d, b, a]) = true → s.me.allPerformed = true →
  (Unpoisoned s [a] = false → Traps (.launch d a b) s .poison s.me.active) ∧
  (Unpoisoned s [a] = true → (¬ aligned → gives 0x82 0 s) ∧
    (∀ c ls, aligned → s.checkAddrs xs 64 0 accLoad = some (c, ls) → gives 0x80 0 s) ∧
    (∀ c ls, aligned → s.checkAddrs xs 64 0 accLoad = none → s.locateAll xs 64 accLoad = (.fault c ls, u) → Keeps s u → gives 0x80 0 u) ∧
    (aligned → s.checkAddrs xs 64 0 accLoad = none → s.locateAll xs 64 accLoad = (.keys ks, u) → Keeps s u →
      let keys := ks.flatMap (·.2)
      let bytes := leBytes 64 (u.readKeys keys).1
      let t := u.noteRead (keys.map unitOf).eraseDups
      let c := readDesc bytes
      let p := c.part % 16
      let open_ := t.partValid p = true ∧ (t.part p).resetting = false
      let right := (t.partOf t.me = some p ∨ (s.me.kind = .host ∧ s.me.regs.priv = true)) ∧
        (s.me.regs.priv = true ∨ t.partField p 4 1 % 8 ≤ c.cls)
      ((u.readKeys keys).2 = true → gives 0x80 0 t) ∧
      ((u.readKeys keys).2 = false → (¬ open_ → gives 0x84 0 t) ∧ (open_ → t.descOk bytes c = false → gives 0x82 0 t) ∧
        (open_ → t.descOk bytes c = true → (¬ right → gives 0x84 0 t) ∧
          (right → (t.freeEntry p c.cls = none → s.me.wait = .none →
              exec (.launch d a b) s = .next (t.updMe fun g => { g with wait := .room t.time.toNat })) ∧
            (∀ i, t.freeEntry p c.cls = some i →
              let h := t.nextHandle p c.cls i
              let fork : Fork := { agent := t.meId, launch := s.me.launch, teamid := s.me.teamid, seq := s.me.seq }
              gives 1 h (t.addLaunch
                { handle := h, index := i, desc := c, asid := s.me.asid, admission := t.time.toNat, liveTeams := c.teams, fork := fork })))))))

/-- R72, R74, R192: a new team of a launch: every v, a and m register zero with poison clear, s1 the descriptor's ARG and the other s
registers zero, k0 to k15 from the partition's entry, MODE and PC from the descriptor, one base entry with every lane active, user
mode. -/
def Claims.NewTeams : Prop := ∀ (s : State) (l : LaunchEntry) (i : Nat),
  let a := s.newTeam l (BitVec.ofNat 32 i) (l.desc.entry + 4) l.desc.lanes (lanesBelow l.desc.lanes) []
  (∀ n j, a.getV n j = {}) ∧ (∀ n j, a.getA n j = {}) ∧ (∀ n, a.getM n = 0) ∧
  (∀ n, n ≠ 0 → a.getS n = if n = 1 ∧ 1 < l.desc.bs then clean l.desc.arg else {}) ∧
  (∀ n, n < 16 → a.regs.k.get {} n = clean (BitVec.ofNat 64 (s.partField l.desc.part (0x40 + 8 * n) 8))) ∧
  a.regs.mode = l.desc.mode ∧ a.regs.flags = 0 ∧ a.regs.priv = false ∧ a.pc = (l.desc.entry + 4).setWidth 56 ∧
  a.active = lanesBelow l.desc.lanes ∧ a.regs.rest = [] ∧ a.regs.top.kind = .base ∧ a.teamid = BitVec.ofNat 32 i ∧ a.launch = l.handle ∧
  a.lanes = l.desc.lanes ∧ a.part = l.desc.part ∧ a.sketch = none ∧ a.storeQ = [] ∧ a.loads = []

/-- R309 to R312: the first candidate in order that fits is placed; a first candidate that fits nowhere asks a team to go; the order
is class, then kind, age and index; a placed team stands at its core and slot, and its wait for promotion (R34) counts from then, which
is the model's choice (log 6). -/
def Claims.Placement : Prop := ∀ (s : State) (p : Nat), s.partValid p = true → (s.part p).resetting = false →
  let cs := (s.candidates p).foldl (fun l c => insertCand c l) []
  (∀ c rest x, cs = c :: rest → s.candSpot p c = some x → exec (.teamPlacement p) s = .next (s.place c x)) ∧
  (∀ c rest t, cs = c :: rest → s.candSpot p c = none → s.askFor p c = some t → exec (.teamPlacement p) s = .next t) ∧
  (∀ c x d rest, cs = d :: rest → s.candSpot p d = none → s.askFor p d = none →
    cs.find? (fun e => (s.candSpot p e).isSome) = some c → s.candSpot p c = some x → exec (.teamPlacement p) s = .next (s.place c x)) ∧
  (∀ c e, c ∈ cs → e ∈ s.candidates p → cs.head? = some c → lexLt e.order c.order = false) ∧
  (∀ (a : Agent) (x : Spot), let t := s.seat a x
    let spill := BitVec.ofNat 64 (s.partField a.part 0xF0 8 + (32 * x.core + x.slot) * 65536)
    t.agent? (128 + 32 * x.core + x.slot) =
      some { a with core := x.core, quad := x.quad, slot := x.slot, span := x.span, scratchBase := x.base, spill := spill, lastIssue := s.time.toNat })

/-- R192, R198, R212, R411: EXIT takes the active lanes off every entry and goes on at the first entry left with lanes, with its MODE,
where the spill area that its pops may need can be reached, and its pre-emption request is withdrawn; with none left, in supervisor
mode, or on a stack of one entry, the team ends once its accesses have been performed (log 13), its request withdrawn at once: it
leaves its place, its launch has one live team less, and a kill command that waited for it alone is done. The end is stated for a team
that owns no channel, holds no check-out and has none under way, and is asked to leave by no one. A thread's EXIT is illegal. -/
def Claims.Exits : Prop := ∀ (s : State), Free s [] = true →
  let r := s.me.regs
  let left := dropEmpty ((r.top :: r.rest).map fun e => { e with mask := e.mask &&& ~~~r.top.mask })
  let ends := r.priv = true ∨ r.rest = [] ∨ left = []
  (s.me.isTeam = false → Traps .exit s .illegal s.me.active) ∧
  (s.me.isTeam = true →
    (∀ e rest, ¬ ends → left = e :: rest → Spills s.me.depth s (exec .exit s) fun v => ∃ t,
      let u := v.updMe fun g => { g with regs := { r with top := e, rest := rest, mode := e.mode } }
      let w := t.dropRequest
      Retired u t (atPc u.me.regs e.pc) ∧ exec .exit s = .next (w.resetWdog s.me.part s.me.cls)) ∧
    (ends → s.me.allPerformed = false → exec .exit s = .next s.dropRequest) ∧
    (∀ n x others, ends → s.me.allPerformed = true → s.ownChannels = [] → s.heldRanges = [] → s.checksPending = false → s.me.preq = none →
      s.others = (n, x) :: others → n ≠ s.meId → s.others.all (fun c => c.2.transforms.isEmpty) = true →
      ∃ t : State, exec .exit s = .next t.killsDone ∧ t.meId = n ∧ t.me = x ∧ t.others = others ∧ t.mem = s.mem ∧
        t.launches = s.launches.map fun l => if l.handle = s.me.launch then { l with liveTeams := l.liveTeams - 1 } else l))

/-- R201, R214, R292: YIELD of a good target and object, its team at rest, no engine operation of it running or still to start on its
grant (that one waits for those is the model's choice, log 33): with a free image slot the team is saved as YIELDED, PC at
the target, and leaves; without one it goes on there, or waits for its object's generation. The k-th yielded record of a partition
may be placed again once its object's generation has moved. -/
def Claims.Yields : Prop :=
  (∀ (s : State) (a b : BitVec 7),
    let x := s.me.getS a.toNat
    let y := (s.me.getS b.toNat).val.toNat
    let rest := s.me.ldcnt = 0 ∧ s.me.storeQ.any (·.sup) = false ∧ s.inFlight s.meId s.me = false ∧ s.ownChannels = [] ∧ s.opsRunning = false ∧
      s.opsOnGrant = false
    s.me.isTeam = true → Free s (scalars s [a, b]) = true →
    (Unpoisoned s [a, b] = false → Traps (.yield a b) s .poison s.me.active) ∧
    (Unpoisoned s [a, b] = true → badTarget x.val = true → Traps (.yield a b) s (.illegalTarget x.val) s.me.active) ∧
    (Unpoisoned s [a, b] = true → badTarget x.val = false → s.yieldObject y = none → Traps (.yield a b) s .illegal s.me.active) ∧
    (∀ obj, Unpoisoned s [a, b] = true → badTarget x.val = false → s.yieldObject y = some obj → rest → s.me.preq = none →
      (obj = none ∨ s.me.allPerformed = true) →
      let g : Word32 := match obj with | some h => BitVec.ofNat 32 (s.objGen h) | none => 0
      ∃ t, Retired s t (atPc s.me.regs (x.val.setWidth 56)) ∧
        (s.freeImage s.me.part = none → exec (.yield a b) s = .next
          ((t.dropRequest.updMe fun e => { e with wait := match obj with | some _ => .yield obj g | none => .none }).resetWdog s.me.part s.me.cls)) ∧
        (∀ k v, s.freeImage s.me.part = some k →
          (t.updMe fun e => { e with replayQ := e.replayQ ++ e.storeQ.map fun r => { r with since := none }, storeQ := [] }).saveTeam
            false true k (obj.map (·, g)) = some v →
          exec (.yield a b) s = .next (v.resetWdog s.me.part s.me.cls)))) ∧
  (∀ (s : State) (p k h : Nat) (r : ResumeRec) (g : Word32), (s.resume.filter fun q => q.part = p)[k]? = some r → r.object = some (h, g) →
    s.objGen h ≠ g.toNat →
    exec (.yieldReactivation p k) s = .next { s with resume := s.resume.map fun q => if q = r then { q with object := none } else q })

/-- R212 to R214, R392: past its deadline, or in the cycle of it once nothing else happens there, a pre-empted team first erases its
sketch and takes its trap, where the spill area that its push may need can be reached (R192), and once at rest is saved: its
unperformed stores join the replay queue, its record the resume list, and it leaves. The record keeps the launch's admission time and
its own (R309), the monitor's references and the replay queue (log 12), and its lighting bin's die (log 56). -/
def Claims.ForcedSaves : Prop :=
  (∀ (s u : State) (n due k : Nat), s.switchTo n = some u → u.me.preq = some (due, k) → u.me.isTeam = true → u.me.wait = .none →
    u.me.killed = false → (due < u.time.toNat ∨ u.expires due = true) →
    (u.me.sketch ≠ none → exec (.forcedSave n) s = .next (u.erase u.meId 4)) ∧
    (∀ c stop, u.me.sketch = none → u.me.pendingTrap = some (c, stop) → u.vectorReady = true →
      Spills (if stop = 0 then u.me.depth + 1 else 0) u (exec (.forcedSave n) s) fun v => exec (.forcedSave n) s = .next v.deliverTrap) ∧
    (∀ v, u.me.sketch = none → u.me.pendingTrap = none → u.matrixBusy u.meId = false → u.inFlight u.meId u.me = false → u.me.ldcnt = 0 →
      u.me.storeQ.any (·.sup) = false → u.opsRunning = false → u.ownChannels = [] →
      (u.updMe fun g => { g with replayQ := g.replayQ ++ g.storeQ.map fun r => { r with since := none }, storeQ := [] }).saveTeam
        true false k none = some v →
      exec (.forcedSave n) s = .next ((v.stopWdog u.me.part u.me.cls).count (some u.me.part) 0x10B))) ∧
  (∀ (s v w : State) (f y : Bool) (k : Nat) (obj : Option (Nat × Word32)) (img : List Byte) (ks : List Nat), s.imageOf f y obj = (img, v) →
    State.engineLines (v.svWho s.me.part) accStore (img.length / 128 + 2) (v.partField s.me.part 0xF8 8 + 2 ^ 22 * k) img.length v =
      (.keys ks, w) →
    let r : ResumeRec :=
      { source := .slot k, part := s.me.part, cls := s.me.cls, launch := s.me.launch, teamid := s.me.teamid, object := obj,
        admission := (match w.launchEntry s.me.launch with | some l => l.admission | none => s.me.admission),
        taken := imageQueue s.me.replayQ, cluster := if w.heldRanges = [] then none else some s.me.cluster, refs := s.me.refs,
        binDie := s.me.binDie, admitted := s.me.admission }
    ∃ t, s.saveTeam f y k obj = some t ∧ t.resume.getLast? = some r)

/-- R223, R224: CTXSAVE answers 0x81 for a bad address, and otherwise stores the image of its own team, with the status register 2 and
PC at the successor, and answers 1, or 0x80 where a line cannot be stored. CTXLOAD answers 0x81, 0x80 and 0x82 for an address, a
line and an image that is none, 0x83 and 0x84 for another package and partition, and otherwise hands the image to the scheduler. -/
def Claims.ContextImages : Prop := ∀ (s : State) (d a : BitVec 7),
  let x := (s.me.getS a.toNat).val.toNat
  let bad := x % 64 ≠ 0 ∨ classOf x ≠ .global
  let gives (i : Instr) (st : Nat) (u : State) : Prop := Does false i s (u.setS d.toNat (clean (BitVec.ofNat 64 st)))
  Free s (scalars s [d, a]) = true → s.me.allPerformed = true → Unpoisoned s [a] = true →
  (s.me.regs.priv = false → Traps (.ctxload d a) s .privileged s.me.active ∧
    (s.me.isTeam = true → Traps (.ctxsave d a) s .privileged s.me.active)) ∧
  (s.me.isTeam = false → Traps (.ctxsave d a) s .illegal s.me.active) ∧
  (s.me.regs.priv = true → s.me.isTeam = true → s.me.ldcnt = 0 → s.inFlight s.meId s.me = false →
    (bad → gives (.ctxsave d a) 0x81 s) ∧
    (¬ bad → ∀ img w v, ((s.setS d.toNat (clean 2)).updMe fun g => g.setPc (g.next false)).imageOf false false none = (img, w) →
      (State.storeLines (img.length / 128 + 2) x img { s with freeCount := w.freeCount } = (some true, v) → Keeps s v →
        gives (.ctxsave d a) 1 v) ∧
      (State.storeLines (img.length / 128 + 2) x img { s with freeCount := w.freeCount } = (some false, v) → Keeps s v →
        gives (.ctxsave d a) 0x80 v))) ∧
  (s.me.regs.priv = true → (bad → gives (.ctxload d a) 0x81 s) ∧
    (¬ bad → ∀ st u v ks ls,
      (State.engineLines s.who accLoad 2 x 8 s = (.bad st, u) → Keeps s u → gives (.ctxload d a) 0x80 u) ∧
      (State.engineLines s.who accLoad 2 x 8 s = (.keys ks, u) →
        let size := leValue ((ks.drop 4).map (Memory.read u.mem)) % 2 ^ 22
        State.engineLines u.who accLoad (size / 128 + 2) x size u = (.keys ls, v) → Keeps s v →
        let img := ls.map (Memory.read v.mem)
        let t := v.noteRead (ls.map unitOf).eraseDups
        (readImage img = none → gives (.ctxload d a) 0x82 t) ∧
        (∀ p, readImage img = some p →
          let far := bitOf p.flags 3 = true ∧ p.package ≠ packageId
          (far → gives (.ctxload d a) 0x83 t) ∧
          (¬ far → t.mayLoad p.agent.part = false → gives (.ctxload d a) 0x84 t) ∧
          (¬ far → t.mayLoad p.agent.part = true → ∀ l, t.launchEntry p.agent.launch = some l → p.flags % 4 ≠ 0 →
            let r : ResumeRec := { p.record img p.agent.launch l.admission with cluster := t.clusterOf p }
            gives (.ctxload d a) 1 { t with resume := t.resume ++ [r] })))))

/-- R31, R316, R317: TMIG of an illegal operand traps; of its own place answers 1, of a core that it may not move to 0; with no room it
waits; otherwise its team sets out, and receives 1 where it arrives. Firmware moves a team at rest in the same way. -/
def Claims.Migration : Prop :=
  (∀ (s : State) (d a : BitVec 7),
    let v := (s.me.getS a.toNat).val.toNat
    let core := (tmigTarget v).1
    let quad := (tmigTarget v).2
    let gives (st : Nat) : Prop := Does false (.tmig d a) s (s.setS d.toNat (clean (BitVec.ofNat 64 st)))
    let odd := 2 ^ 11 ≤ v ∨ (bitOf v 10 = true ∧ v % 4 ≠ 0)
    let here := s.me.span = none ∧ core = s.me.core ∧ (quad = none ∨ quad = some s.me.quad)
    s.me.isTeam = true → Free s (scalars s [d, a]) = true → s.me.allPerformed = true → s.me.ldcnt = 0 → s.inFlight s.meId s.me = false →
    (Unpoisoned s [a] = false → Traps (.tmig d a) s .poison s.me.active) ∧
    (Unpoisoned s [a] = true → (odd → Traps (.tmig d a) s .illegal s.me.active) ∧ (¬ odd → here → gives 1) ∧
      (¬ odd → ¬ here → s.mayMove core = false → gives 0) ∧
      (¬ odd → ¬ here → s.mayMove core = true →
        (s.moveSpot core quad = none → s.me.wait = .none →
          exec (.tmig d a) s = .next (s.updMe fun g => { g with wait := .room s.time.toNat })) ∧
        (∀ x, s.moveSpot core quad = some x → ∃ t, Retired s t (atPc s.me.regs (s.me.next false)) ∧
          exec (.tmig d a) s = .next (t.depart d x))))) ∧
  (∀ (s : State) (k t : Nat) (g : Agent) (d : BitVec 7), s.transit[k]? = some (g, t, d) →
    exec (.migrationArrival k) s = .next ({ s with transit := s.transit.eraseIdx k }.setAgent (128 + 32 * g.core + g.slot)
      (g.setS d.toNat (clean 1)))) ∧
  (∀ (s u : State) (n : Nat) (v : Dword) (x : Spot), s.switchTo n = some u → u.me.isTeam = true → u.me.sketch = none →
    u.me.allPerformed = true → u.me.ldcnt = 0 → u.inFlight u.meId u.me = false → u.me.pendingTrap = none → u.me.wait = .none →
    let core := (tmigTarget v.toNat).1
    let quad := (tmigTarget v.toNat).2
    u.mayMove core = true → ¬ (core = u.me.core ∧ quad.getD u.me.quad = u.me.quad) → u.moveSpot core quad = some x →
    exec (.firmwareMigration n v) s = .next (u.depart 0 x))

/-- R308, R318, R331, R332, R341, R393: a launch with nothing live makes its join's arrival, unless its partition is being reset (the
model's choice, log 45), and leaves its queue; a queue that has
placed teams and 2^28 cycles without progress raises its watchdog event; an instruction that has waited 4,096 cycles for room
answers 0, and a QRSV the room that its last attempt met. -/
def Claims.JoinsAndLimits : Prop :=
  (∀ (s : State) (l : LaunchEntry), s.launchEntry l.handle = some l → l.pendingOf = none → s.launchLive l = false →
    (l.detached = true ∨ (s.part l.desc.part).resetting = true → exec (.joinArrival l.handle) s = .next { s with launches := s.launches.filter fun q => q.handle != l.handle }) ∧
    (l.detached = false → (s.part l.desc.part).resetting = false → ∀ u, s.arriveDevice l.desc.part (l.desc.join.toNat - hearthWindow) = u →
      exec (.joinArrival l.handle) s = .next { u with launches := u.launches.filter fun q => q.handle != l.handle })) ∧
  (∀ (s : State) (p c t : Nat), (s.part p).wdog.find? c = some t → s.expires (t + 2 ^ 28) = true →
    let e : EventRec := { time := s.time, code := 1, part := BitVec.ofNat 8 p, extra := c, operand := 0 }
    let u : State := { s with events := s.events ++ [e] }
    exec (.wdog p c) s = .next ((u.count (some p) 0x10A).resetWdog p c)) ∧
  (∀ (s u v : State) (n since stall : Nat) (i : Instr) (d b : BitVec 7) (ns : Bool), s.switchTo n = some u → u.me.wait = .room since → u.me.sstop = 0 →
    since + 4096 ≤ u.time.toNat → u.fetch = (.run i stall ns, v) → Instr.roomRegs i = some (d, b) →
    ∃ t, exec (.queueFullTimeout n) s = .next t ∧ let w := (if b = 0 then v else v.setS b.toNat (clean 0)).setS d.toNat (clean 0)
      Retired w t (atPc w.me.regs (v.me.next false))) ∧
  (∀ (s u : State) (n h since : Nat) (c : Dword) (r : StoreReq) (rest : List StoreReq), s.switchTo n = some u → u.me.wait = .none →
    u.me.storeQ = r :: rest → r.kind = .qrsv h c → r.since = some since → since + 4096 ≤ u.time.toNat →
    exec (.queueFullTimeout n) s =
      .next ((u.updMe fun g => { g with storeQ := rest }).returnValue r (clean (BitVec.ofNat 64 r.lastTry)))) ∧
  (∀ (s u v : State) (n k h : Nat) (c : Dword) (r : StoreReq), s.switchTo n = some u → u.me.storeQ[k]? = some r → r.kind = .qrsv h c →
    u.storeReady k r = true → u.performReq r = .wait v →
    exec (.storePerform n k) s = .next (v.updMe fun g => { g with
      storeQ := g.storeQ.set k { r with since := some (r.since.getD v.time.toNat), lastTry := v.noRoom h } }))

/-! ### Storage (R239 to R244, R360 to R379, R443) -/

/-- R370, R371: POPPG of a size below 3 gives the first page of its partition's stacks in order, zeroed and marked, or 0 without a
partition, a quota or a page; PUSHPG of an aligned, owned, allocated page with a stack present gives it back, waits while it is
checked out, and is otherwise illegal. A page taken reads zero. -/
def Claims.PageInstructions : Prop :=
  (∀ (s : State) (d : BitVec 7) (z : BitVec 3),
    let gives (v : Nat) (u : State) : Prop := Does false (.poppg d z) s (u.setS d.toNat (clean (BitVec.ofNat 64 v)))
    (3 ≤ z.toNat → Traps (.poppg d z) s .illegal s.me.active) ∧
    (z.toNat < 3 → Free s (scalars s [d]) = true → s.me.allPerformed = true →
      (s.partOf s.me = none → gives 0 s) ∧
      (∀ p, s.partOf s.me = some p →
        let k := pageBytes z.toNat / 65536
        let user := s.me.regs.priv = false
        let quota := s.framesValid = true ∧ (s.allocated p).1 + k ≤ s.partField p 0x120 8 ∧
          (user → (s.allocated p).2 + k ≤ s.partField p 0x128 8)
        let pop := s.popPage p (stackOrder (if s.me.isTeam then s.me.die else 0) z.toNat)
        (¬ quota → gives 0 s) ∧ (quota → pop = none → gives 0 s) ∧
        (∀ m u, quota → pop = some (m, u) → ∀ t, u.takePage p m z.toNat (if s.me.regs.priv then 1 else 2) = t → Keeps s t → gives m t)))) ∧
  (∀ (s : State) (a : BitVec 7) (z : BitVec 3),
    let m := (s.me.getS a.toNat).val.toNat
    let n := pageBytes z.toNat
    (3 ≤ z.toNat → Traps (.pushpg a z) s .illegal s.me.active) ∧
    (z.toNat < 3 → Free s (scalars s [a]) = true → s.me.allPerformed = true →
      (Unpoisoned s [a] = false → Traps (.pushpg a z) s .poison s.me.active) ∧
      (Unpoisoned s [a] = true → (s.partOf s.me = none → Traps (.pushpg a z) s .illegal s.me.active) ∧
        (∀ p, s.partOf s.me = some p →
          let good := s.framesValid = true ∧ targetOf m = .hbm ∧ m % n = 0 ∧
            s.framesIn (subPages m z.toNat) p (if s.me.regs.priv then [1, 2] else [2]) = true ∧
            s.stackPresent p (stackKey (homeDie m) z.toNat) = true
          let out := s.ranges.any fun r => !r.recalled && r.pieces.any fun q => decide (q.1 < m + n ∧ m < q.1 + q.2)
          (¬ good → Traps (.pushpg a z) s .illegal s.me.active) ∧ (good → out = true → exec (.pushpg a z) s = .next s) ∧
          (good → out = false → ∀ t, s.pushPage p m z.toNat = t → Keeps s t → Does false (.pushpg a z) s t))))) ∧
  (∀ (s : State) (lo n : Nat), let t := s.zeroRange lo n
    (∀ k, lo ≤ k → k < lo + n → Memory.read t.mem k = 0) ∧
    (∀ k, k < lo ∨ lo + n ≤ k → Memory.read t.mem k = Memory.read s.mem k))

/-- R240, R373, R375, R376, R379: a write-back leaves the line's bytes as they are. A line of a page that no partition owns is only
cleaned; another is stored in the form that applies, and cleaned, or held where its partition is out of space. A held line is tried
again once no older one finds a place. Storing a granule moves chunks between its entry and its partition's pool, and makes or loses
none. -/
def Claims.WriteBacks : Prop :=
  (∀ (s : State) (line : Nat) (e : DirEntry) (run : BitVec 29) (fast : Bool), s.dir.find? line = some e →
    let page := line * 128 / 65536 * 65536
    let owner := if targetOf (line * 128) = .hbm then s.pageOwner page else none
    (e.dirty = true → e.st ≠ .held →
      (owner = none → exec (.writeBack line run fast) s = .next (s.cleanLine line e)) ∧
      (∀ p, owner = some p → let u := s.teach p (granuleHome (line / 4) / 6) (line / 4)
        let need := s.chunkNeed p (line / 4) fast
        (∀ t, s.storeFits p (line / 4) fast = true → (s.part p).exhausted = none ∨ need.1 ≤ need.2 →
          u.storeGranule p (line / 4) line run fast = some t →
          exec (.writeBack line run fast) s = .next (t.cleanLine line e) ∧ t.mem = s.mem) ∧
        (s.storeFits p (line / 4) fast = false → (s.part p).exhausted = none →
          (e.passing = false → exec (.writeBack line run fast) s = .next (u.holdLine p line e)) ∧
          (∀ v, e.passing = true → u.dirRoom none line = (true, v) → exec (.writeBack line run fast) s = .next (v.holdLine p line e))))) ∧
    (∀ p t, s.pageOwner page = some p → e.st = .held →
      (∀ c ∈ s.heldLines p, c.2.since < e.since → s.storeFits p (c.1 / 4) false = false) →
      s.storeGranule p (line / 4) line run false = some t →
      exec (.heldWritebackRetry line run) s = .next ((t.cleanLine line e).endEpisode p))) ∧
  (∀ (s t : State) (p g line : Nat) (run : BitVec 29) (fast : Bool), p < 16 → s.storeGranule p g line run fast = some t →
    (s.granules.get 0 g = 0 ∨ bitsOf (s.granules.get 0 g).toNat 55 52 = p) →
    let c := granuleHome g
    t.freeAt p c + chunksOf (t.granules.get 0 g).toNat = s.freeAt p c + chunksOf (s.granules.get 0 g).toNat ∧ t.mem = s.mem ∧
    (∀ h, h ≠ g → t.granules.get 0 h = s.granules.get 0 h))

/-- R374, R377 to R379: a learnt palette is installed as the other generation; the balloon engine, at a step that its partition's
RORDER names and for whose earlier steps nothing is left to do, recodes old and FAST granules, frees zero ones, and moves cold pages to
CXL and out: it marks a page's entry and runs the invalidate command, then, unless the entry was written meanwhile, moves the page,
one that goes out by a Write command with the slot as its identifier (its other fields are the model's, log 15); after all steps it
asks for chunks; deadlines of an episode raise SPACE_EXHAUSTED and SPACE_STUCK; every 2^24 cycles each frame's HEAT is halved, and the
reserved bits of its entry are written zero (R6). That the entries of CXL frames stand right after those of HBM frames is the model's
choice (log 9). -/
def Claims.Balloon : Prop :=
  (∀ (s : State) (p d : Nat), let t := s.palette p d
    t.learning = true → 2 ^ 20 ≤ t.sampled → (if t.current then t.gen0 else t.gen1).count = 0 →
    ∃ u, exec (.paletteInstall p d) s = .next u ∧ u.mem = s.mem ∧ let v := u.palette p d
      v.current = !t.current ∧ v.learning = false ∧ v.sampled = 0 ∧ v.now = buildPalette t.hist ∧
      (if v.current then v.gen0 = t.gen0 else v.gen1 = t.gen1)) ∧
  (∀ (s : State) (p code : Nat), s.balloonStep p code = true → s.ballooning p = true ∧
    (code ≠ 7 → code ∈ s.balloonOrder p) ∧
    ∀ c ∈ (if code = 7 then s.balloonOrder p else (s.balloonOrder p).takeWhile (· != code)), s.stepWork p c = false) ∧
  (∀ (s : State) (g : Nat) (run : BitVec 29),
    let e := (s.granules.get 0 g).toNat
    let p := bitsOf e 55 52
    let t := s.palette p (granuleHome g / 6)
    let old := bitsOf e 63 62 = 1 ∧ bitOf e 58 ≠ t.current
    (bitOf e 56 = false → s.storeFits p g false = true →
      (s.balloonStep p 1 = true ∧ (old ∨ (bitOf e 51 = true ∧ t.now.valid = true))) ∨ (t.learning = true ∧ 2 ^ 20 ≤ t.sampled ∧ old) →
      ∀ u, s.storeGranule p g (4 * g) run false = some u → exec (.balloonRecode g run) s = .next u) ∧
    (bitOf e 56 = false → s.balloonStep p 2 = true → bitOf e 51 = true → (s.granuleWords g).all (· == 0) = true →
      exec (.balloonZero g) s = .next (s.releaseGranule g))) ∧
  (∀ (s : State) (page p pte f : Nat) (out : Bool), s.readyMove page out = none → s.eligible page = some (p, pte) →
    s.frameAddr page = some f → s.balloonStep p (if out then 4 else 3) = true → s.moveRoom p out = true →
    let t := s.beginMove p page pte f out
    exec (if out then .pageOut page else .demote page) s = .next t ∧
    (pte + 8 ≤ 2 ^ 45 → t.rd pte 8 = movingEntry (s.rd pte 8)) ∧
    ∃ m ∈ t.moves, m.page = page ∧ m.pageOut = out ∧ m.part = p ∧ m.pteAddr = pte ∧ m.oldPte = BitVec.ofNat 64 (s.rd pte 8)) ∧
  (∀ (s u : State) (page new : Nat) (m : Move), s.readyMove page false = some m →
    { s with moves := s.moves.filter fun x => x != m }.popPage m.part [12] = some (new, u) →
    let a := u.takePage m.part new 0 1
    let b := (((List.range 512).map (m.page / 128 + ·)).filter fun l => (a.dir.find? l).isNone).foldl State.readBlocks a
    let w := b.writeEngine ((List.range 65536).map (new + ·)) (b.snapshot ((List.range 65536).map (m.page + ·)))
    (w.stillMoving m = true → exec (.demote page) s =
      .next ((w.devWrite m.pteAddr 8 (m.oldPte.toNat % 2 ^ 9 + new)).pushPage m.part m.page 0)) ∧
    (w.stillMoving m = false → exec (.demote page) s = .next ((w.pushPage m.part new 0).failMove m))) ∧
  (∀ (s u v : State) (page slot k : Nat) (m : Move), s.readyMove page true = some m →
    let h := s.partField m.part 0x210 2
    let t : State := { s with moves := s.moves.filter fun x => x != m }
    (t.stillMoving m = false → exec (.pageOut page) s = .next (t.failMove m)) ∧
    (t.stillMoving m = true → t.reserveSlots none h 1 = (some k, u) → k < 2 ^ 63 → u.acceptsSlot (some m.part) h k = true →
      u.popSlot m.part = some (slot, v) → exec (.pageOut page) s = .next (v.finishPageOut m slot h k) ∧
        (v.stillMoving m = true → ∃ w, (v.finishPageOut m slot h k).swapWrites = v.swapWrites ++ [w] ∧ w.handle = h ∧ w.slot = k ∧
          w.cid = slot % 2 ^ 16 ∧ w.page = m.page))) ∧
  (∀ (s : State) (p c : Nat), let goal := s.partDefault p 0x130 4 16384 + s.partDefault p 0x134 4 65536
    s.balloonStep p 7 = true → c < 24 → s.partField p (0x140 + 4 * c) 4 ≠ 0 → s.freeAt p c < goal →
    let e : EventRec :=
      { time := s.time, code := 8, part := BitVec.ofNat 8 p, extra := c, operand := BitVec.ofNat 32 (goal - s.freeAt p c) }
    exec (.balloonRequest p c) s = .next { s with events := s.events ++ [e] }) ∧
  (∀ (s : State) (p t : Nat), ((s.part p).episode = some t → (s.part p).exhausted = none →
      s.expires (t + s.partDefault p 0x1C 4 2500000) = true →
      ∃ u, exec (.balloonDeadline p) s = .next u ∧ (u.part p).exhausted = some s.time.toNat ∧ u.mem = s.mem ∧ u.events.length = s.events.length + 1) ∧
    ((s.part p).exhausted = some t → (s.part p).stuckSent = false → s.expires (t + s.partDefault p 0x138 4 125000000) = true →
      ∃ u, exec (.spaceStuck p) s = .next u ∧ (u.part p).stuckSent = true ∧ u.mem = s.mem ∧ u.events.length = s.events.length + 1)) ∧
  (∀ s : State, s.framesValid = true → s.expires ((s.halvings + 1) * 2 ^ 24) = true → Memory.wf s.mem = true →
    ∃ t, exec .heatHalving s = .next t ∧ t.me = s.me ∧ t.others = s.others ∧ t.halvings = s.halvings + 1 ∧
    let base := s.rd frameTblAddr 8 / 65536 % 2 ^ 32 * 65536
    ∀ k, Memory.read t.mem k =
      let b := Memory.read s.mem k
      let off := (k - base) % 32
      if base ≤ k ∧ k < base + 32 * (0x1800000 + 0x10000000) then
        if off = 1 then BitVec.ofNat 8 (b.toNat / 16 % 8 * 16 + b.toNat % 16 / 2)
        else if off = 2 ∨ off = 3 ∨ off = 6 ∨ off = 7 ∨ 0x18 ≤ off then 0 else b
      else b)

/-- R232, R236, R243, R244, R360, R363, R367: a translation home answers from its TLB, or walks and installs the leaf; a directory
request brings a line in, with the poison that a CXL device indicates, and with ownership leaves no other copy; a channel's failure, and
one block's, are noted, and words that a read of memory finds lost come back poisoned, as they stay when the channel is rebuilt; a
corrected error is counted and another poisons its word. That a channel's and a block's failures are forms of one happening, and that
poison stays after the rebuild, is the model's choice (log 55). -/
def Claims.WalksAndArrays : Prop :=
  (∀ (s : State) (asid : BitVec 16) (va : Dword),
    (s.tlbFind asid.toNat va.toNat ≠ none → exec (.translationWalk asid va) s = .next s) ∧
    (s.tlbFind asid.toNat va.toNat = none →
      let w : Who := { asid := asid.toNat }
      let t := s.walkRead w va.toNat
      (∀ page level perms entry, t.walk w va.toNat = .leaf page level perms entry →
        exec (.translationWalk asid va) s = .next (t.tlbInstall asid.toNat va.toNat page level perms entry)) ∧
      ((∀ page level perms entry, t.walk w va.toNat ≠ .leaf page level perms entry) →
        exec (.translationWalk asid va) s = .next t))) ∧
  (∀ (s u v : State) (n m level : Nat) (perms : Perms) (va : Dword) (w poison : Bool), s.switchTo n = some u →
    u.locate u.who va.toNat 1 (if w then accStore else accLoad) false = (.at m perms level, v) →
    let t := if poison = true ∧ targetOf m = .cxl ∧ u.dir.find? (m / 128) = none then
      v.poisonWords ((List.range 32).map (m / 128 * 32 + ·)) else v
    exec (.directoryRequest n va { write := w, poison := poison }) s = .next (if w then t.dropCopies (some t.meId) [m / 128] else t)) ∧
  (∀ (s : State) (k c r : Nat), k < 12 → c < 36 →
    ((k, c) ∉ s.failedChannels → exec (.channelFailure k { channel := c }) s = .next { s with failedChannels := s.failedChannels ++ [(k, c)] }) ∧
    ((k, c, r) ∉ s.badBlocks → exec (.channelFailure k { channel := c, row := some r }) s = .next { s with badBlocks := s.badBlocks ++ [(k, c, r)] })) ∧
  (∀ (s : State) (line : Nat), (s.readBlocks line).mem = s.mem ∧
    (s.failedChannels = [] → s.badBlocks = [] → s.readBlocks line = s) ∧
    (s.failedChannels ≠ [] ∨ s.badBlocks ≠ [] → ∀ w ∈ s.lostWords line, (s.readBlocks line).poison.get false w = true) ∧
    (∀ w, w ∉ s.lostWords line → (s.readBlocks line).poison.get false w = s.poison.get false w)) ∧
  (∀ (s : State) (k c : Nat), (k, c) ∈ s.failedChannels → ∃ t, exec (.channelRebuild k c) s = .next t ∧
    t.failedChannels = s.failedChannels.filter (fun x => x != (k, c)) ∧ (∀ r, (k, c, r) ∉ t.badBlocks) ∧ t.mem = s.mem ∧
    t.granules = s.granules ∧ t.me = s.me ∧ ∀ q, s.poison.get false q = true → t.poison.get false q = true) ∧
  (∀ (s : State) (k : Nat),
    exec (.sramError k true) s = .next { s with counters := s.counters.put 0 0x202 (s.counters.get 0 0x202 + 1) } ∧
    (2 ^ 48 ≤ k ∨ s.dir.find? (k / 128) ≠ none → exec (.sramError k false) s = .next { s with poison := s.poison.put false (k / 4) true }))

/-- R360, R363: what a walk installs, the home's TLB then finds: the same page and permissions. -/
def Claims.InstalledIsFound : Prop := ∀ (s : State) (asid va page level entry : Nat) (perms : Perms), asid < 2 ^ 16 → level ≤ 2 →
  page % 2 ^ levelShift level = 0 → s.tlbFind asid va = none → ∃ e, (s.tlbInstall asid va page level perms entry).tlbFind asid va = some e ∧
    e.perms = perms ∧ e.mpage * 2 ^ tlbShift e.level + va % 2 ^ tlbShift e.level = page + va % 2 ^ levelShift level

/-! ### On-chip tables, commands, starts and resets (R339, R357, R381, R384, R400 to R410, R444) -/

/-- R339, R346, R350, R357, R364, R378, R380, R381, R383, R384, R444: each row of on-chip writes makes the write that an IOWR makes at
an aligned address of its region; one that the agent may not make changes nothing but the record it leaves. -/
def Claims.TableWrites : Prop := ∀ (s u : State) (n a size : Nat) (v : Dword), s.switchTo n = some u →
  size = 1 ∨ size = 2 ∨ size = 4 ∨ size = 8 → a % size = 0 →
  let writes (i : Instr) : Prop := exec i s = .next (u.chipWrite a size (v.toNat % 2 ^ (8 * size)))
  ((∃ h, regionOf a = .proxy h) → writes (.proxyRegistrationWrite n a size v)) ∧
  ((∃ i, regionOf a = .intMap i) → writes (.interruptMapWrite n a size v)) ∧
  ((∃ k, regionOf a = .control k 0x40) → writes (.prgresp n a size v)) ∧
  ((∃ p, regionOf a = .invTail p) → writes (.invalidateTailWrite n a size v)) ∧
  ((∃ p, regionOf a = .balAck p) → writes (.balack n a size v)) ∧
  ((∃ p, regionOf a = .partition p) → writes (.partitionTableWrite n a size v)) ∧
  ((∃ f, regionOf a = .binding f) → writes (.functionBindingWrite n a size v)) ∧
  (regionOf a = .asidTbl → writes (.asidtblWrite n a size v)) ∧ (regionOf a = .frameTbl → writes (.frametblWrite n a size v)) ∧
  (regionOf a = .doorbell ∨ regionOf a = .keySlot ∨ regionOf a = .exportTable ∨
      (∃ k o, regionOf a = .control k o ∧ o ≠ 0x40 ∧ ¬ (k = 0 ∧ 0x800 ≤ o ∧ o < 0x808)) → writes (.registerWrite n a size v)) ∧
  (u.mayWrite (regionOf a) (a % 0x1000) size = false → u.chipWrite a size (v.toNat % 2 ^ (8 * size)) = u.dropAccess a)

/-- R339, R381, R444: a valid registration takes no change but PAUSED; one that has become valid has legal fields, PUB equal to its
counter's RESV, and no filled slot. A write that names another partition's ASID in a binding, and a second
binding of a function, is refused; so is a change of a table base that is valid. -/
def Claims.TableRules : Prop :=
  (∀ (s : State) (h m size v : Nat), h < 1024 → size = 1 ∨ size = 2 ∨ size = 4 ∨ size = 8 → proxyBase h ≤ m →
    m + size ≤ proxyBase h + 32 → let t := s.writeRegistration h m size v
    let b := proxyBase h
    (regValid s h = true →
      regFlags t h = (if m ≤ b + 0x0D ∧ b + 0x0D < m + size then
        setBits (regFlags s h) 9 9 (if bitOf v (8 * (b + 0x0D - m) + 1) then 1 else 0) else regFlags s h) ∧
      ∀ k, k < b + 0x0C ∨ b + 0x0E ≤ k → Memory.read t.mem k = Memory.read s.mem k) ∧
    (regValid s h = false → regValid t h = true →
      t.regOk h = true ∧ regPub t h = t.rd (hearthKey (regCounter t h)) 4 ∧ t.anyFilled h = false)) ∧
  (∀ (s : State) (f m size v : Nat), let t := s.writeBinding f m size v
    (m < bindBase f + 6 → bindBase f + 4 < m + size → t = s ∨ ∀ p, s.asidPart (bindAsid t f) = some p → p = bindPart t f) ∧
    (t = s ∨ bindValid t f = false ∨ ((∀ p, s.asidPart (bindAsid t f) = some p → p = bindPart t f) ∧
      ∀ g, g < 4096 → g ≠ f → bindValid s g = true → ¬ (bindRid s g = bindRid t f ∧ bindPort s g = bindPort t f)))) ∧
  (∀ (s : State) (m v : Nat), let old := s.rd m 8
    (bitOf old 0 = true ∧ v / 2 ≠ old / 2 → s.writeTableBase m v = s.dropAccess m) ∧
    (v < 2 ^ 48 → bitsOf v 15 1 = 0 → (bitOf old 0 = false ∨ v / 2 = old / 2) →
      s.writeTableBase m v = { s with mem := Memory.writeNat s.mem m 8 v }))

/-- R400 to R402: host firmware's write of PCMD while PSTAT is not busy runs the command: a reserved OP is refused with reason 4, an
absent partition with 1, an absent team or launch with 2; a pre-emption sets the team's request, a withdrawal drops it, a kill marks
its teams, a reset begins; while PSTAT is busy the write is dropped. A pre-emption that
finds no image slot stays busy until one is free, which is the model's choice (log 30), and then goes on. -/
def Claims.PackageCommands : Prop := ∀ (s u : State) (n : Nat) (p : BitVec 4), s.switchTo n = some u → u.me.isFirmware = true →
  let w (op : Nat) : State := u.wr pcmdAddr 8 (p.toNat * 16 + op)
  let refused (i : Instr) (op reason : Nat) : Prop := exec i s = .next ((w op).wr pstatAddr 8 (reason * 2 ^ 8 + 3))
  let team (op : Nat) : Option Agent := (w op).cmdTeam p.toNat
  let rows : List (Nat × Instr) :=
    [(1, .preEmptTeam n p), (2, .withdrawPreEmption n p), (3, .killTeam n p), (4, .killLaunch n p), (5, .resetPartition n p)]
  (u.pstat = 1 → (∀ c ∈ rows, c.1 ≠ 1 → exec c.2 s = .next (u.dropAccess pcmdAddr)) ∧
    (u.pcmdOp = 1 → u.pcmdPart = p.toNat → u.runCommand.pstat ≠ 1 → exec (.preEmptTeam n p) s = .next u.runCommand)) ∧
  (u.pstat ≠ 1 →
    (∀ op : BitVec 4, op = 0 ∨ 5 < op.toNat → refused (.pcmdReservedOp n p op) op.toNat 4) ∧
    (u.partValid p.toNat = false → ∀ c ∈ rows, refused c.2 c.1 1) ∧
    (u.partValid p.toNat = true →
      (∀ c ∈ rows, c.1 ≤ 3 → team c.1 = none → refused c.2 c.1 2) ∧
      (∀ g, team 1 = some g →
        (g.preq ≠ none → exec (.preEmptTeam n p) s = .next (w 1).cmdDone) ∧
        (g.preq = none → (∀ v, (w 1).request g = some v → exec (.preEmptTeam n p) s = .next v.cmdDone) ∧
          ((w 1).request g = none → exec (.preEmptTeam n p) s = .next (w 1).cmdBusy))) ∧
      (∀ g, team 2 = some g →
        let kept := (w 2).requests.filter fun r => !(r.gone.isNone && r.part = p.toNat && r.launch = g.launch && r.teamid = g.teamid)
        let v : State := { w 2 with requests := kept }
        exec (.withdrawPreEmption n p) s = .next (v.withdrawRequest g).cmdDone) ∧
      (∀ g, team 3 = some g → exec (.killTeam n p) s =
        .next ((w 3).updTeam p.toNat g.launch g.teamid fun a => { a with killed := true }).cmdBusy) ∧
      (let l := (w 4).launches.find? fun l => l.handle.toNat = (w 4).rd popndAddr 8 && l.desc.part = p.toNat
       (l = none → refused (.killLaunch n p) 4 2) ∧
       (∀ x, l = some x → exec (.killLaunch n p) s = .next ((w 4).killLaunchNow x).cmdBusy.killsDone)) ∧
      exec (.resetPartition n p) s = .next ((w 5).startReset p.toNat).cmdBusy))

/-- R401, R402, R411: a team ordered killed goes at its boundary, unless an EXIT of it acts there, and a kill command is done once none
is left; a partition reset is done once none of its teams is left: it is not valid, no launch, record, bin, check-out or engine operation
of it remains, and its invalidate ring is empty. That its functions translate nothing more (`closed`) is the model's choice (log 45). -/
def Claims.KillsAndPartitionResets : Prop :=
  (∀ (s u : State) (n : Nat), s.switchTo n = some u → u.me.killed = true → u.me.isTeam = true → u.me.wait = .none →
    u.me.pendingTrap = none → u.exitNext = false →
    exec (.kill n) s = .next u.killMe.killsDone) ∧
  (∀ (s : State) (p : Nat), (s.part p).resetting = true → (∀ c ∈ s.agents, c.2.isTeam = true → c.2.part ≠ p) →
    (∀ c ∈ s.transit, c.1.part ≠ p) → ∃ t, exec (.partitionResetDone p) s = .next t ∧
      t.partValid p = false ∧ (t.part p).resetting = false ∧ (t.part p).closed = true ∧ (∀ l ∈ t.launches, l.desc.part ≠ p) ∧ (∀ r ∈ t.resume, r.part ≠ p) ∧
      (∀ b ∈ t.bins, b.part ≠ p) ∧ (∀ r ∈ t.ranges, r.part ≠ p) ∧ (∀ o ∈ t.engines, o.part ≠ p) ∧ let u := s.finishReset p
      (u.part p).invDone = u.rd (invTailAddr p) 4 ∧
      (u.pstat = 1 ∧ u.pcmdOp = 5 ∧ u.pcmdPart = p → t = u.cmdDone) ∧ (¬ (u.pstat = 1 ∧ u.pcmdOp = 5 ∧ u.pcmdPart = p) → t = u))

/-- R18, R336, R403, R406 to R408: a start step takes the first row that its record meets: primary, alternate, skip or recovery, and is
recorded as begun before it runs, or skipped; then it ends well, where the images that it verifies are accepted, and they are measured
and the next step follows, or it fails, and a required step ends the start. Step 16 sets the ports' modes. In the recovery state an accepted
firmware image is measured. Clearing the record keeps OUT, but for a skip, and WAY; a record so cleared takes the primary way, which is
the model's choice (log 45). -/
def Claims.StartSteps : Prop :=
  (∀ (i : Nat) (w : Word32),
    let out := recOut w
    let fails := if out = 1 then recFails w + 1 else recFails w
    let failed := out = 1 ∨ out = 3
    (out = 0 ∨ out = 2 → (stepAction i w).1 = .primary) ∧
    (failed → stepRequired i = true → 3 ≤ fails → (stepAction i w).1 = .recovery) ∧
    (out = 4 → (stepAction i w).1 = if recAlt w = 1 then .alternate else .primary) ∧ (out = 5 → (stepAction i w).1 = .skip) ∧
    (failed → fails = 0 → (stepAction i w).1 = .primary) ∧
    (failed → stepRequired i = true → 1 ≤ fails → fails < 3 →
      stepAction i w = if recWay w = 0 ∧ stepAlternate i then (.alternate, 1) else if recWay w = 0 then (.primary, recAlt w) else (.primary, 0)) ∧
    (failed → stepRequired i = false → 1 ≤ fails →
      stepAction i w = if recWay w = 0 ∧ stepAlternate i then (.alternate, 1) else (.skip, recAlt w))) ∧
  (∀ (s : State) (i : Nat) (ok : Option Config.Boot), s.bootStep = i → 1 ≤ i → i ≤ 26 → s.recovery = false ∨ i ≠ 2 →
    let w := s.stepRecord.get 0 i
    ∃ t, exec (.startStep i ok) s = .next t ∧ (∀ j, j ≠ i → t.stepRecord.get 0 j = s.stepRecord.get 0 j) ∧
      (i ≠ 16 → t.mem = s.mem ∧ t.me = s.me) ∧
      (s.stepBegun = false →
        let act := stepAction i w
        let fails := if recOut w = 1 then recFails w + 1 else recFails w
        (t.mem = s.mem ∧ t.me = s.me) ∧
        (act.1 = .primary ∨ act.1 = .alternate → t.stepBegun = true ∧ t.bootStep = i ∧
          t.stepRecord.get 0 i = recWord 1 (if act.1 = .alternate then 1 else 0) fails act.2) ∧
        (act.1 = .skip → t.stepBegun = false ∧ t.bootStep = i + 1 ∧ recOut (t.stepRecord.get 0 i) = 5) ∧
        (act.1 = .recovery → t.bootStep = 28 ∧ t.recovery = true)) ∧
      (s.stepBegun = true →
        let way := recWay w
        let verifies := i = 2 ∨ (i = 16 ∧ way = 0)
        let good (boot : Config.Boot) : Prop :=
          (i = 1 ∨ verifies → boot.images.all accepted = true) ∧ (verifies → boot.images ≠ [])
        t.stepBegun = false ∧
        (∀ boot, ok = some boot → good boot → t.bootStep = i + 1 ∧
          t.stepRecord.get 0 i = recWord (if way = 0 then 2 else 4) way (recFails w) (recAlt w) ∧
          (i = 1 → t.measures = (s.measure 0 boot.images).measures) ∧ (i = 2 → t.measures = (s.measure 1 boot.images).measures) ∧
          (i = 16 → way = 0 → t.portModes = settleModes 4 ((List.range 8).map fun k => boot.modes.getD k (.endpoint 4)))) ∧
        (ok = none ∨ (∃ boot, ok = some boot ∧ ¬ good boot) → t.bootStep = (if stepRequired i then 28 else i + 1) ∧
          t.stepRecord.get 0 i = recWord 3 way (recFails w + 1) (recAlt w)))) ∧
  (∀ (s : State) (boot : Config.Boot), s.recovery = true → boot.images ≠ [] → boot.images.all accepted = true →
    exec (.startStep 2 (some boot)) s = .next (s.measure 1 boot.images)) ∧
  (∀ ms : List Config.PortMode, ((settleModes 4 ms).filter (· == .ntb)).length ≤ 4 ∧ (settleModes 4 ms).length = ms.length) ∧
  (∀ s : State, s.stepRecord.rising = true → ∃ t, exec .stepRecordClear s = .next t ∧ t = { s with stepRecord := t.stepRecord } ∧
    ∀ i, t.stepRecord.get 0 i = let w := s.stepRecord.get 0 i
      recWord (if recOut w = 5 then 0 else recOut w) (recWay w) 0 0)

/-- R404, R405, R409, R410: package reset and the thermal trip give every piece of state its reset value but the step record, the
root-of-trust core's ROM and its count of nonces (log 53), and the model's own schedule and free-value counter (logs 6 and 7); throttling
changes no result; a report is sent; a debug token that verifies spends its nonce, wipes the key slots, with which the IDE streams go
down, and takes the links down before anything is opened, and one that fails changes nothing. What the wipe leaves in memory is stated
where no link is up: a link that goes down writes a record. -/
def Claims.ResetsAndReports : Prop := ∀ (s : State) (on : Bool) (part : Word32) (nonce token : List Byte),
  let fresh : State := { State.reset with
    stepRecord := s.stepRecord, nonces := s.nonces, turns := s.turns, freeCount := s.freeCount, mem := s.mem.filter fun c => isRom c.1 }
  exec .packageReset s = .next fresh ∧ exec .thermalTrip s = .next fresh ∧
  exec (.throttle on) s = .next { s with throttled := on } ∧
  (∃ r, exec (.reportRequest part nonce) s = .next { s with replies := s.replies ++ [r] } ∧
    r.take (s.reportBytes part nonce).length = s.reportBytes part nonce ∧ r.length = (s.reportBytes part nonce).length + 132) ∧
  ∃ t, exec (.debugUnlock token) s = .next t ∧
    (Config.tokenVerifies (s.tokenBinds ++ token) = false → t = s) ∧
    (Config.tokenVerifies (s.tokenBinds ++ token) = true → t.debugOpen = true ∧ t.lifecycle = 3 ∧ t.nonces = s.nonces + 1 ∧
      (∀ n, s.hasLink n = true → (t.link? n).st = .down) ∧
      ((∀ n, s.hasLink n = true → (s.link? n).st = .down) →
        (∀ n, n < 8 → t.ideUp n = false) ∧
        (∀ k, keySlotBase 0 ≤ k → k < keySlotBase 0 + 0xC00 → Memory.read t.mem k = 0) ∧
        ∀ k, k < keySlotBase 0 ∨ keySlotBase 0 + 0xC00 ≤ k → Memory.read t.mem k = Memory.read s.mem k))

/-! ### Input and output, endpoints, and peer links (R229, R267, R335, R337, R343 to R354, R364, R365, R383, R384, R433) -/

/-- R267, R337: IORD and IOWR of a clean, GLOBAL, aligned address whose older accesses are performed. An on-chip place answers or takes
effect at once; a device read parks the agent, and a device write is handed to its port, which an IOWR of the containment bit releases
(the model's choice, log 52); 8 bytes in ECAM, and an access behind a port under containment, are dropped. A read that is refused gives
all ones, poisoned. A completion ends the wait, and so does its timeout: 25,000 cycles, or for host threads their port's limit. -/
def Claims.UncachedAccess : Prop :=
  (∀ (s : State) (d b : BitVec 7) (z : BitVec 2) (x : Bool) (p : BitVec 24),
    let size := 2 ^ z.toNat
    let ext (v : Nat) : Dword := if x then BitVec.ofInt 64 (toInt (8 * size) v) else BitVec.ofNat 64 (v % 2 ^ (8 * size))
    let low := (s.me.getS d.toNat).val.toNat % 2 ^ (8 * size)
    let finds (i : Instr) (va : Dword) (acc : Nat) (good : Nat → State → Prop) : Prop :=
      let xs : List LaneAddr := [{ lane := none, addr := va, poison := false }]
      (∀ c ls, s.checkAddrs xs size 1 acc = some (c, ls) → Traps i s c s.me.active) ∧
      (s.checkAddrs xs size 1 acc = none → (classOf va.toNat ≠ .global → Traps i s { code := 0x21, addr := va, acc := acc } s.me.active) ∧
        (classOf va.toNat = .global → ∀ u m perms level,
          (∀ c l t, s.locate s.who va.toNat size acc true = (.fault c l t, u) →
            exec i s = .next (u.issued.raise { code := c, addr := va, acc := acc, lvl := l } u.me.active u.me.pc)) ∧
          (s.locate s.who va.toNat size acc true = (.at m perms level, u) → Keeps s u → good m u)))
    let refused (m : Nat) (u : State) : Prop := (isEcam m = true ∧ size = 8) ∨ u.shutOff m = true
    let reads (e : Bool) (i : Instr) (va : Dword) (m : Nat) (u : State) : Prop :=
      let fails := Does e i s ((u.dropAccess m).setS d.toNat { val := BitVec.allOnes 64, poison := true })
      (targetOf m = .chip → (u.mayRead (regionOf m) (m % 0x1000) size = true →
          Does e i s (u.setS d.toNat (clean (ext (u.chipRead m size).val.toNat)))) ∧
        (u.mayRead (regionOf m) (m % 0x1000) size = false → (u.dropAccess m).me = s.me → fails)) ∧
      (targetOf m ≠ .chip → (refused m u → (u.dropAccess m).me = s.me → fails) ∧
        (¬ refused m u → exec i s =
          .next (u.updMe fun g => { g with wait := .iord d size x m va.toNat (s.me.next e).toNat u.time.toNat })))
    let writes (e : Bool) (i : Instr) (m : Nat) (u : State) : Prop :=
      (targetOf m = .chip → (u.chipWrite m size low).me = s.me → Does e i s (u.chipWrite m size low)) ∧
      (targetOf m ≠ .chip → (refused m u → Does e i s u) ∧
        (¬ refused m u →
          let w : DevWrite := { addr := m, size := size, value := BitVec.ofNat 64 low }
          Does e i s (State.releasePort { u with devWrites := u.devWrites ++ [w] } m)))
    let va := (s.me.getS b.toNat).val
    Free s (scalars s [d, b]) = true → s.me.allPerformed = true →
    (Unpoisoned s [b] = true →
      finds (.iord d z x b) va accLoad (reads false (.iord d z x b) va) ∧
      finds (.iordExt d z x b p) (va + p.signExtend 64) accLoad (reads true (.iordExt d z x b p) (va + p.signExtend 64))) ∧
    (Unpoisoned s [b, d] = true →
      finds (.iowr d z b) va accStore (writes false (.iowr d z b)) ∧
      finds (.iowrExt d z b p) (va + p.signExtend 64) accStore (writes true (.iowrExt d z b p)))) ∧
  (∀ (s u : State) (n size m va next since : Nat) (d : BitVec 7) (x : Bool) (data : Dword), s.switchTo n = some u →
    u.me.wait = .iord d size x m va next since →
    let good := u.setS d.toNat (clean (extended size x data.toNat))
    let bad := (u.dropAccess m).setS d.toNat { val := BitVec.allOnes 64, poison := true }
    let ends (i : Instr) (v : State) : Prop := ∃ t, exec i s = .next t ∧ Retired v t (atPc v.me.regs (BitVec.ofNat 56 next))
    (u.shutOff m = false → ends (.mmioCompletion n true data) good) ∧ (u.shutOff m = true → ends (.mmioCompletion n true data) bad) ∧ ends (.mmioCompletion n false data) bad ∧
    (u.expires (since + match u.me.kind, portOf m with
        | .host, some k => max 25000 (min 62500000 (u.ioTimeouts.get 1250000 k))
        | .host, none => 1250000
        | _, _ => 25000) = true → ends (.iordCompletionTimeout n) bad))

/-- R277, R335, R348: an endpoint's write is performed at its bytes, and its read answered; one that its binding, its translation or
its permission refuses is recorded, and a read answered so. An AtomicOp is one event that answers the old value: FetchAdd, Swap
and compare-and-swap; a poisoned word is left as it is, but for Swap. The port is one that its x16 port's mode gives, open to traffic
(R336); the form of the answers is the model's (log 7). -/
def Claims.EndpointMemory : Prop := ∀ (s u : State) (port rid : Nat) (pasid : Option (BitVec 20)) (tr : Bool) (a : Dword) (ks : List Nat),
  let refused (u : State) : State := (u.rejectDma port rid pasid a.toNat).reply [1]
  s.hasPort port = true →
  (∀ bytes : List Byte,
    (s.dmaKeys port rid pasid tr a.toNat bytes.length accStore = (.keys ks, u) →
      exec (.dmaWrite port rid pasid tr a bytes) s = .next (u.writeEngine ks (bytes.map (·, false)))) ∧
    (∀ st, s.dmaKeys port rid pasid tr a.toNat bytes.length accStore = (.bad st, u) →
      exec (.dmaWrite port rid pasid tr a bytes) s = .next (u.rejectDma port rid pasid a.toNat))) ∧
  (∀ len, (s.dmaKeys port rid pasid tr a.toNat len accLoad = (.keys ks, u) → exec (.dmaRead port rid pasid tr a len) s = .next (u.replyData ks)) ∧
    (∀ st, s.dmaKeys port rid pasid tr a.toNat len accLoad = (.bad st, u) → exec (.dmaRead port rid pasid tr a len) s = .next (refused u))) ∧
  (∀ (op size : Nat) (x y : Dword),
    let i : Instr := .atomicopRequest port rid pasid tr a op size x y
    (2 < op ∨ ¬ (size = 4 ∨ size = 8) ∨ a.toNat % size ≠ 0 → exec i s = .next (refused s)) ∧
    (op ≤ 2 → size = 4 ∨ size = 8 → a.toNat % size = 0 → s.dmaKeys port rid pasid tr a.toNat size accAtomic = (.keys ks, u) →
      let old := (u.readKeys ks).1
      let m := 2 ^ (8 * size)
      let t := u.replyData ks
      let put (v : Nat) : Prop := exec i s = .next (t.writeEngine ks ((leBytes size v).map (·, false)))
      (op = 1 → put (x.toNat % m)) ∧
      ((u.readKeys ks).2 = true → op ≠ 1 → exec i s = .next t) ∧
      ((u.readKeys ks).2 = false → (op = 0 → put ((old + x.toNat) % m)) ∧
        (op = 2 → (old = x.toNat % m → put (y.toNat % m)) ∧ (old ≠ x.toNat % m → exec i s = .next t)))))

/-- R337, R346, R349, R350: a translation request of a bound ATS function is answered with its page, size and permissions, or none; a
page request is resolved on first touch, or queued for its function's thread; a message is delivered, or pending while it is
masked; each is recorded where it is refused; a message of a function that is not bound is counted by no partition (the model's choice,
log 46); an AER error is recorded, and contains its port where DPC is enabled for it, which takes a peer port's link down (log 52). -/
def Claims.EndpointServices : Prop :=
 (∀ (s : State) (k link rid : Nat) (header : Word32), s.ntbPorts.idxOf? k = some link → (s.link? link).st ≠ .down →
  s.contained.contains (4 * k) = false →
  let t := State.record { s with contained := s.contained ++ [4 * k] } ((s.boundFn (4 * k) rid).map fun g => bindPart s g)
    { port := some (4 * k), rid := rid, header := header.toNat }
  exec (.aerError (4 * k) rid { header := header, contain := true }) s =
    .next (if (t.link? link).st = .down then t else t.linkDown link)) ∧
 ∀ (s u : State) (port rid f : Nat) (pasid : Option (BitVec 20)) (a : Dword), s.hasPort port = true →
  let bound := s.boundFn port rid
  let p := bindPart s f
  (bound = none →
    exec (.translationRequest port rid pasid a) s = .next ((s.rejectDma port rid pasid a.toNat).reply [1]) ∧
    (∀ prg rd wr last, exec (.pageRequest port rid pasid a prg rd wr last) s = .next (s.rejectDma port rid pasid a.toNat)) ∧
    (∀ data size, exec (.msixWrite port rid data size) s = .next (s.rejectDma port rid none 0x30C000010000))) ∧
  (bound = some f →
    (∀ asid, bitOf (bindFlags s f) 5 = true → (s.part p).closed = false → s.rd asidTblAddr 8 % 2 = 1 → a.toNat < 2 ^ 56 →
      classOf a.toNat = .global → s.dmaAsid f pasid = some asid →
      (∀ page level perms, s.atsLook p asid a.toNat = (.leaf page level perms, u) →
        let bits := if perms.u then (if perms.r then 1 else 0) + (if perms.w then 2 else 0) else 0
        exec (.translationRequest port rid pasid a) s = .next (u.reply ([0] ++ leBytes 8 page ++ leBytes 1 level ++ leBytes 1 bits))) ∧
      (s.atsLook p asid a.toNat = (.none, u) →
        exec (.translationRequest port rid pasid a) s = .next (u.reply ([0] ++ List.replicate 10 0)))) ∧
    (∀ (prg : BitVec 9) (rd wr last : Bool) (asid : Nat), bitOf (bindFlags s f) 6 = true → (s.part p).closed = false →
      s.dmaAsid f pasid = some asid →
      (∀ v, s.firstTouch f asid a.toNat = .mapped v → exec (.pageRequest port rid pasid a prg rd wr last) s =
        .next (if last then v.prgResponse rid prg.toNat 0 else v)) ∧
      (∀ v, s.firstTouch f asid a.toNat = .wait v → exec (.pageRequest port rid pasid a prg rd wr last) s = .next v) ∧
      (s.firstTouch f asid a.toNat = .passed → exec (.pageRequest port rid pasid a prg rd wr last) s =
        .next (s.queueRequest f asid port rid pasid.isSome rd wr last a.toNat prg.toNat))) ∧
    (∀ (data : Word32) (size : Nat), let e := s.rd (intMapBase data.toNat) 4
      (s.msixOk f data.toNat size = true → (bitOf e 2 = false → exec (.msixWrite port rid data size) s = .next (s.deliverIntr data.toNat)) ∧
        (bitOf e 2 = true → exec (.msixWrite port rid data size) s =
          .next { s with mem := Memory.writeNat s.mem (intMapBase data.toNat) 4 (setBits e 3 3 1) })) ∧
      (s.msixOk f data.toNat size = false → exec (.msixWrite port rid data size) s =
        .next ((s.rejectDma port rid none 0x30C000010000).countPkg 0x201)))) ∧
  (∀ (header : Word32) (contain : Bool), exec (.aerError port rid { header := header, contain := contain }) s =
    .next (State.record (if contain then { s with contained := s.contained ++ [port] } else s) (bound.map fun g => bindPart s g)
      { port := port, rid := rid, header := header.toNat }))

/-- R349, R364, R365, R433: the next invalidate command of a partition is refused for a foreign ASID or a bad field, drops the lines and
entries that it names, and is acknowledged once the accesses and operations that had translated the range are finished, its dirty lines are
written back, and each ATS function of the ASID, which is asked, has answered, or has had its ATS disabled after 62,500 cycles. The oldest event is written to the ring, or counted as lost. -/
def Claims.Invalidation : Prop :=
  (∀ (s : State) (p : Nat),
    let q := s.part p
    let base := s.partField p 0x208 8
    let c := base + 32 * (q.invDone % 64)
    let va := s.rd c 8
    let len := s.rd (c + 8) 8
    let asid := s.rd (c + 0x10) 2
    let hint := s.rd (c + 0x12) 1
    let obj := s.rd (c + 0x18) 8
    let good := va % 2 ^ 16 = 0 ∧ va < 2 ^ 56 ∧ len % 65536 = 0 ∧ hint ≤ 3 ∧
      (obj = 0 ∨ (classOf obj = .hearth ∧ obj % 16 = 0 ∧ s.inHearthRanges p (obj - hearthWindow) = true))
    let lo := if len = 0 then 0 else va
    let n := if len = 0 then 2 ^ 56 else len
    q.invDone % 2 ^ 32 ≠ s.rd (invTailAddr p) 4 →
    (q.invActive = true → s.finished q.invWaits = true → s.rangeWritten asid lo n = true → (∀ w ∈ s.atsWait, w.2.1 ≠ p) →
      exec (.invalidateCommand p) s = .next (s.ackInvalidate p 1)) ∧
    (q.invActive = false →
      (s.asidPart asid ≠ some p → exec (.invalidateCommand p) s = .next (s.ackInvalidate p 0x84)) ∧
      (s.asidPart asid = some p → ¬ good → exec (.invalidateCommand p) s = .next (s.ackInvalidate p 0x82)) ∧
      (s.asidPart asid = some p → good → ∃ t, exec (.invalidateCommand p) s = .next t ∧ (t.part p).invActive = true ∧
        (t.part p).invDone = q.invDone ∧ t.mem = s.mem ∧
        (∀ f, f < 4096 → bindValid s f = true → bindPart s f = p → bitOf (bindFlags s f) 5 = true → bindAsid s f = asid →
          (f, p, s.time.toNat) ∈ t.atsWait) ∧
        ∀ e ∈ t.tlb, e.asid.toNat = asid → e.level ≤ hint → ¬ (e.vpage * 2 ^ tlbShift e.level < lo + n ∧ lo < (e.vpage + 1) * 2 ^ tlbShift e.level)))) ∧
  (∀ (s : State) (f p t : Nat), s.atsWait.find? (fun w => w.1 = f) = some (f, p, t) →
    let rest := s.atsWait.filter fun w => w.1 != f
    exec (.invalidateCompletion f) s = .next { s with atsWait := rest } ∧
    (s.expires (t + 62500) = true →
      let u := s.wr (bindBase f + 2) 1 (setBits (bindFlags s f) 5 5 0)
      exec (.atsInvalidateTimeout f) s = .next ({ u with atsWait := rest }.record (some p)
        { port := bindPort u f, rid := bindRid u f, asid := bindAsid u f }))) ∧
  (∀ (s : State) (e : EventRec) (rest : List EventRec), s.events = e :: rest →
    let u : State := { s with events := rest }
    let ctl := s.rd evctlAddr 8
    let base := bitsOf ctl 47 12 * 2 ^ 12
    let prod := s.rd base 8
    let lost := ctl % 2 = 0 ∨ 252 ≤ (prod + 2 ^ 64 - s.rd (base + 8) 8) % 2 ^ 64
    let v := e.time.toNat + 2 ^ 64 * (e.code % 2 ^ 8) + 2 ^ 72 * e.part.toNat + 2 ^ 80 * (e.extra % 2 ^ 16) + 2 ^ 96 * e.operand.toNat
    (lost → exec .eventWrite s = .next (u.countPkg 0x205)) ∧
    (¬ lost → exec .eventWrite s = .next ((u.devWrite (base + 0x40 + 16 * (prod % 252)) 16 v).devWrite base 8 ((prod + 1) % 2 ^ 64))))

/-- R336, R351 to R354, R383: a link of an NTB port that is up sends a flit under its slot's counter. A received flit of its row that
the key opens, in sequence where it is numbered, takes effect; any other is discarded as a failure, the fourth of which, of one flit,
takes the link down. A link trains when it is down, and comes up once both directions have a fresh key; that its sequence numbers start
anew then is the model's choice (log 51). An access of another member is performed where an export entry allows it, and otherwise
recorded; the form of the answers is the model's (log 7). A read's bytes that memory has lost come back with poison (R243). -/
def Obligations.PeerLinks : Prop :=
  (∀ (s : State) (l k : Nat) (payload : List Byte), s.maySend l k = true →
    exec (.flitSend l k payload) s = .next (s.sendFlit l k (s.seqFor l k) payload)) ∧
  (∀ (s : State) (n : Nat) (flit : List Byte), s.hasLink n = true → (s.link? n).st = .up → flit.length = 256 →
    let l := s.link? n
    let key := keyOf n true l.rxSlot
    let plain := Config.openFlit (Memory.readBytes s.mem (keySlotBase key) 32) (BitVec.ofNat 32 (s.rd (keySlotBase key + 0x20) 4))
      (s.keyCount key) (flit.take 8 ++ flit.drop 8)
    let receives (i : Instr) (kind : Nat) (good : List Byte → State → Prop) : Prop :=
      if flitKind flit = kind ∧ flitSlot flit = (if l.rxSlot then 1 else 0) ∧ s.keyServes key kind = true ∧
          (2 ≤ kind ∨ flitSeq flit = l.rxSeq) then
        match plain with
        | none => exec i s = .next (s.flitFails n kind (flitSeq flit))
        | some body => good (fitBytes 232 body)
            (if kind < 2 then (s.useKey key).updLink n fun l => { l with rxSeq := (l.rxSeq + 1) % 2 ^ 48, fails := 0, ahead := none }
             else s.useKey key)
      else exec i s = .next (s.flitFails n kind (flitSeq flit))
    receives (.dataFlit n flit) 0 (fun body u =>
      match Config.forwardOn body with
      | some m => u.maySend m 0 = true → exec (.dataFlit n flit) s = .next (u.sendFlit m 0 (u.seqFor m 0) body)
      | none => match Config.peerRequest body with
        | some r => ∀ v, u.peerAccess n r = some v → exec (.dataFlit n flit) s = .next v
        | none => exec (.dataFlit n flit) s = .next u) ∧
    receives (.markerFlit n flit) 1 (fun body u =>
      let slot := bitOf (leValue (body.take 1)) 0
      let v := (u.setKeyFlag (keyOf n true (u.link? n).rxSlot) 1 0).setKeyFlag (keyOf n true slot) 1 1
      exec (.markerFlit n flit) s = .next (v.updLink n fun l => { l with rxSlot := slot })) ∧
    receives (.acknowledgeFlit n flit) 2 (fun _ u => exec (.acknowledgeFlit n flit) s = .next (u.updLink n fun l =>
      { l with replay := l.replay.filter fun c => !decide (seqAfter l.txSeq (flitSeq flit) ≤ seqAfter l.txSeq c.1) })) ∧
    receives (.negativeAcknowledge n flit) 3 (fun _ u => exec (.negativeAcknowledge n flit) s = .next { u with replies := u.replies ++
      ((u.link? n).replay.filter fun c => decide (seqAfter (u.link? n).txSeq c.1 ≤ seqAfter (u.link? n).txSeq (flitSeq flit))).map (·.2) }) ∧
    receives (.idleFlit n flit) 4 (fun _ u => exec (.idleFlit n flit) s = .next u)) ∧
  (∀ (s : State) (n k q : Nat), (s.link? n).counts k q = true → 4 ≤ (s.link? n).fails + 1 → ((s.flitFails n k q).link? n).st = .down) ∧
  (∀ (s : State) (n : Nat) (r : Config.PeerRequest),
    (s.exported r = none → s.peerAccess n r = some ((s.record none { port := n, addr := r.offset }).reply [1])) ∧
    (∀ m u ks, s.exported r = some m → r.data = none →
      s.reachPages m r.len ((List.range r.len).map (m + ·)) accLoad = (.keys ks, u) → s.peerAccess n r = some (u.replyData ks)) ∧
    (∀ m u ks d, s.exported r = some m → r.data = some d →
      s.reachPages m d.length ((List.range d.length).map (m + ·)) accStore = (.keys ks, u) →
      s.peerAccess n r = some ((u.writeEngine ks d).reply [0]))) ∧
  (∀ (s : State) (n : Nat) (up : Bool), s.hasLink n = true →
    ((s.link? n).st = .down → exec (.linkTraining n up) s = .next (s.updLink n fun l => { l with st := .training })) ∧
    ((s.link? n).st = .training → up = false ∨ ((s.link? n).txFresh = true ∧ (s.link? n).rxFresh = true) →
      exec (.linkTraining n up) s = .next (s.updLink n fun l =>
        { l with st := if up then .up else .down, replay := [], txSeq := 0, rxSeq := 0, fails := 0, ahead := none }))) ∧
  (∀ (s : State) (k : Nat) (key : List Byte) (salt : Word32), k < 48 → key.length = 32 → ∃ t, exec (.keyLoad k key salt) s = .next t ∧
    Memory.readBytes t.mem (keySlotBase k) 32 = key ∧ t.rd (keySlotBase k + 0x20) 4 = salt.toNat ∧ t.keyCount k = 0 ∧
    bitOf (t.keyFlags k) 0 = true ∧ bitOf (t.keyFlags k) 1 = s.slotInUse k ∧ t.me = s.me ∧
    (s.slotInUse k = false ∨ (s.link? (k / 4)).st = .up → t.links = s.links) ∧
    (s.slotInUse k = true → (s.link? (k / 4)).st ≠ .up → let l := t.link? (k / 4)
      if k / 2 % 2 = 1 then l = { s.link? (k / 4) with rxFresh := true } else l = { s.link? (k / 4) with txFresh := true }) ∧
    ∀ q, q < keySlotBase k ∨ keySlotBase k + 0x30 ≤ q → Memory.read t.mem q = Memory.read s.mem q)
/-! ### Claims that stand together -/

/-- The register files: `Claims.ScalarRegisterFile`, `Claims.VectorRegisterFile`, each with the rules it states in its own words above. -/
def Obligations.RegisterFiles : Prop := Claims.ScalarRegisterFile ∧ Claims.VectorRegisterFile

/-- What an instruction is checked for before it issues: `Claims.CoreAndPrivilegeChecks`, `Claims.ScoreboardAndBudget`, `Claims.IssuesArePaced`, each with the rules it states in its own words above. -/
def Obligations.IssueChecks : Prop := Claims.CoreAndPrivilegeChecks ∧ Claims.ScoreboardAndBudget ∧ Claims.IssuesArePaced

/-- Scalar moves, compares, immediates and bit fields: `Claims.ScalarMovesAndImmediates`, `Claims.ScalarBitInstructions`, each with the rules it states in its own words above. -/
def Obligations.ScalarMovesAndBits : Prop := Claims.ScalarMovesAndImmediates ∧ Claims.ScalarBitInstructions

/-- MODE, the sticky flags and the small system instructions: `Claims.StickyFlags`, `Claims.SmallSystemInstructions`, `Claims.ModeChanges`, each with the rules it states in its own words above. -/
def Obligations.ModeAndSystem : Prop := Claims.StickyFlags ∧ Claims.SmallSystemInstructions ∧ Claims.ModeChanges

/-- Control transfers and their targets: `Claims.BranchesAndCalls`, `Claims.BadTargetsTrap`, each with the rules it states in its own words above. -/
def Obligations.ControlTransfers : Prop := Claims.BranchesAndCalls ∧ Claims.BadTargetsTrap

/-- Raising a trap, its delivery, and the supervisor stop: `Claims.SoftwareTraps`, `Claims.TrapEntry`, `Claims.SupervisorStop`, each with the rules it states in its own words above. -/
def Obligations.TakingTraps : Prop := Claims.SoftwareTraps ∧ Claims.TrapEntry ∧ Claims.SupervisorStop

/-- CSRRD and CSRWR: `Claims.ControlRegisterReads`, `Claims.ControlRegisterWrites`, each with the rules it states in its own words above. -/
def Obligations.ControlRegisters : Prop := Claims.ControlRegisterReads ∧ Claims.ControlRegisterWrites

/-- Movement between lanes, and between lanes and scalars: `Claims.LaneMoves`, `Claims.LanesAndScalars`, each with the rules it states in its own words above. -/
def Obligations.LaneMovement : Prop := Claims.LaneMoves ∧ Claims.LanesAndScalars

/-- Vector bit fields, compares and conversions of integers: `Claims.VectorBitFields`, `Claims.IntegerCompareAndConvert`, each with the rules it states in its own words above. -/
def Obligations.VectorBitFieldsAndCompares : Prop := Claims.VectorBitFields ∧ Claims.IntegerCompareAndConvert

/-- Reductions and scans: `Claims.ReductionsAndScans`, `Claims.IntegerReductionIsTheSum`, each with the rules it states in its own words above. -/
def Obligations.Reductions : Prop := Claims.ReductionsAndScans ∧ Claims.IntegerReductionIsTheSum

/-- Vector float and decimal arithmetic: `Claims.VectorFloatArithmetic`, `Claims.VectorDecimalArithmetic`, each with the rules it states in its own words above. -/
def Obligations.VectorArithmetic : Prop := Claims.VectorFloatArithmetic ∧ Claims.VectorDecimalArithmetic

/-- Number codes read back as the value they were rounded from: `Claims.RoundingKeepsRepresentableValues`, `Claims.BlockCodesReadBack`, each with the rules it states in its own words above. -/
def Obligations.CodesReadBack : Prop := Claims.RoundingKeepsRepresentableValues ∧ Claims.BlockCodesReadBack

/-- Float compares and format conversions: `Claims.FloatCompares`, `Claims.FormatConversions`, each with the rules it states in its own words above. -/
def Obligations.FloatComparesAndConversions : Prop := Claims.FloatCompares ∧ Claims.FormatConversions

/-- The completion of matrix operations, and gangs: `Claims.MatrixCompletion`, `Claims.Gangs`, each with the rules it states in its own words above. -/
def Obligations.MatrixOperationsComplete : Prop := Claims.MatrixCompletion ∧ Claims.Gangs

/-- XCRC and XDEC: `Claims.ChecksumInstruction`, `Claims.DecompressionInstruction`, each with the rules it states in its own words above. -/
def Obligations.Transforms : Prop := Claims.ChecksumInstruction ∧ Claims.DecompressionInstruction

/-- Loads: `Claims.LoadsIssue`, `Claims.LoadsReturn`, each with the rules it states in its own words above. -/
def Obligations.Loads : Prop := Claims.LoadsIssue ∧ Claims.LoadsReturn

/-- Stores: `Claims.StoresIssue`, `Claims.StoresPerform`, `Claims.StoreFaults`, each with the rules it states in its own words above. -/
def Obligations.Stores : Prop := Claims.StoresIssue ∧ Claims.StoresPerform ∧ Claims.StoreFaults

/-- Atomics: `Claims.AtomicsIssue`, `Claims.AtomicsPerform`, `Claims.IntegerAtomicOperations`, each with the rules it states in its own words above. -/
def Obligations.Atomics : Prop := Claims.AtomicsIssue ∧ Claims.AtomicsPerform ∧ Claims.IntegerAtomicOperations

/-- MWAIT, ordering, prefetch and results in flight: `Claims.MonitorWait`, `Claims.MonitorEnds`, `Claims.OrderingAndPrefetch`, `Claims.ResultsArrive`, each with the rules it states in its own words above. -/
def Obligations.MonitorAndOrdering : Prop := Claims.MonitorWait ∧ Claims.MonitorEnds ∧ Claims.OrderingAndPrefetch ∧ Claims.ResultsArrive

/-- Sketches: `Claims.SketchesOpen`, `Claims.SketchesEnd`, each with the rules it states in its own words above. -/
def Obligations.Sketches : Prop := Claims.SketchesOpen ∧ Claims.SketchesEnd

/-- Barriers, the timer and the counters: `Claims.BarrierInstructions`, `Claims.BarrierObjects`, `Claims.TimeAndCounters`, each with the rules it states in its own words above. -/
def Obligations.BarriersAndCounters : Prop := Claims.BarrierInstructions ∧ Claims.BarrierObjects ∧ Claims.TimeAndCounters

/-- Channels: `Claims.ChannelBinding`, `Claims.ChannelWaitsAndReleases`, `Claims.ChannelEvents`, each with the rules it states in its own words above. -/
def Obligations.Channels : Prop := Claims.ChannelBinding ∧ Claims.ChannelWaitsAndReleases ∧ Claims.ChannelEvents

/-- Engine commands, check-out and check-in: `Claims.EngineCommands`, `Claims.CheckOuts`, `Claims.CheckIns`, each with the rules it states in its own words above. -/
def Obligations.EngineCommandsIssue : Prop := Claims.EngineCommands ∧ Claims.CheckOuts ∧ Claims.CheckIns

/-- Engine operations: `Claims.EngineWrites`, `Claims.CopiesStart`, `Claims.OperationsEnd`, `Claims.OperationStatus`, each with the rules it states in its own words above. -/
def Obligations.EngineOperations : Prop := Claims.EngineWrites ∧ Claims.CopiesStart ∧ Claims.OperationsEnd ∧ Claims.OperationStatus

/-- Submission queues: `Claims.QueueReservation`, `Claims.QueuePost`, `Claims.QueueTailsAndHoles`, each with the rules it states in its own words above. -/
def Obligations.SubmissionQueues : Prop := Claims.QueueReservation ∧ Claims.QueuePost ∧ Claims.QueueTailsAndHoles

/-- Spawned threads and kindling: `Claims.Spawning`, `Claims.Kindling`, each with the rules it states in its own words above. -/
def Obligations.KindlingThreads : Prop := Claims.Spawning ∧ Claims.Kindling

/-- Launches, placement, joins and limits: `Claims.Launches`, `Claims.NewTeams`, `Claims.Placement`, `Claims.JoinsAndLimits`, each with the rules it states in its own words above. -/
def Obligations.LaunchesAndPlacement : Prop := Claims.Launches ∧ Claims.NewTeams ∧ Claims.Placement ∧ Claims.JoinsAndLimits

/-- Leaving a slot: exit, yield, the forced save, the image and migration: `Claims.Exits`, `Claims.Yields`, `Claims.ForcedSaves`, `Claims.ContextImages`, `Claims.Migration`, each with the rules it states in its own words above. -/
def Obligations.LeavingAndSaving : Prop := Claims.Exits ∧ Claims.Yields ∧ Claims.ForcedSaves ∧ Claims.ContextImages ∧ Claims.Migration

/-- Pages, write-backs and the balloon: `Claims.PageInstructions`, `Claims.WriteBacks`, `Claims.Balloon`, each with the rules it states in its own words above. -/
def Obligations.Storage : Prop := Claims.PageInstructions ∧ Claims.WriteBacks ∧ Claims.Balloon

/-- Translation walks and invalidations: `Claims.WalksAndArrays`, `Claims.InstalledIsFound`, `Claims.Invalidation`, each with the rules it states in its own words above. -/
def Obligations.Translation : Prop := Claims.WalksAndArrays ∧ Claims.InstalledIsFound ∧ Claims.Invalidation

/-- Table writes: `Claims.TableWrites`, `Claims.TableRules`, each with the rules it states in its own words above. -/
def Obligations.Tables : Prop := Claims.TableWrites ∧ Claims.TableRules

/-- The commands of the package's manager: `Claims.PackageCommands`, `Claims.KillsAndPartitionResets`, each with the rules it states in its own words above. -/
def Obligations.PackageManagement : Prop := Claims.PackageCommands ∧ Claims.KillsAndPartitionResets

/-- Start steps and resets: `Claims.StartSteps`, `Claims.ResetsAndReports`, each with the rules it states in its own words above. -/
def Obligations.StartsAndResets : Prop := Claims.StartSteps ∧ Claims.ResetsAndReports

/-- Uncached accesses and endpoints: `Claims.UncachedAccess`, `Claims.EndpointMemory`, `Claims.EndpointServices`, each with the rules it states in its own words above. -/
def Obligations.InputOutput : Prop := Claims.UncachedAccess ∧ Claims.EndpointMemory ∧ Claims.EndpointServices
end

