-- ==== Sys2Proof/Laws/Cells.lean ====
section
/-! SUPPORT. Laws/Cells.lean: what reading a sparse table after a write gives, and that writes keep its canonical form. -/
namespace Sys2Proof.Cells

theorem find_insert {α : Type} (k k' : Nat) (v : α) (m : Cells α) :
    find? k' (insert k v m) = if k' = k then some v else find? k' m := by
  induction m with
  | nil => simp [insert, find?]
  | cons c m ih =>
    obtain ⟨j, w⟩ := c
    simp only [insert]
    split
    · simp [find?]
    · split
      · rename_i h; subst h; simp only [find?]; split <;> simp_all
      · simp only [find?, ih]; split
        · rename_i h1 h2; subst h2; have h3 : ¬ k' = k := fun h => h1 h.symm; simp [h3]
        · rfl

theorem find_remove {α : Type} (k k' : Nat) (m : Cells α) :
    find? k' (remove k m) = if k' = k then none else find? k' m := by
  induction m with
  | nil => simp [remove, find?]
  | cons c m ih =>
    obtain ⟨j, w⟩ := c
    simp only [remove] at ih
    simp only [remove, List.filter, find?]
    by_cases h : j = k
    · subst h; simp only [ne_eq, not_true_eq_false, decide_false, ih]; split <;> rfl
    · simp only [ne_eq, h, not_false_eq_true, decide_true, find?, ih]
      by_cases h' : k' = j
      · subst h'; simp [h]
      · simp [h']

/-- A table reads what was last written at a key, and elsewhere what it read before. -/
theorem get_put {α : Type} [DecidableEq α] (d : α) (k k' : Nat) (v : α) (m : Cells α) :
    get d (put d k v m) k' = if k' = k then v else get d m k' := by
  unfold get put
  by_cases h : v = d
  · simp only [h, if_true, find_remove]; split <;> rfl
  · simp only [h, if_false, find_insert]; split <;> rfl

theorem get_put_same {α : Type} [DecidableEq α] (d : α) (k : Nat) (v : α) (m : Cells α) : get d (put d k v m) k = v := by
  simp [get_put]

theorem get_put_other {α : Type} [DecidableEq α] (d : α) {k k' : Nat} (h : k' ≠ k) (v : α) (m : Cells α) :
    get d (put d k v m) k' = get d m k' := by simp [get_put, h]

theorem rising_of_le {α : Type} {m : Cells α} : ∀ {a b : Nat}, a ≤ b → risingFrom b m = true → risingFrom a m = true := by
  cases m with
  | nil => intros; rfl
  | cons c m => intro a b hab h; simp only [risingFrom, Bool.and_eq_true, decide_eq_true_eq] at h ⊢; exact ⟨Nat.le_trans hab h.1, h.2⟩

theorem rising_insert {α : Type} (k : Nat) (v : α) : ∀ (m : Cells α) (lo : Nat), lo ≤ k → risingFrom lo m = true →
    risingFrom lo (insert k v m) = true
  | [], lo, h, _ => by simp [insert, risingFrom, h]
  | (j, w) :: m, lo, h, hm => by
    simp only [risingFrom, Bool.and_eq_true, decide_eq_true_eq] at hm
    simp only [insert]
    split
    · simp only [risingFrom, Bool.and_eq_true, decide_eq_true_eq]; exact ⟨h, by omega, hm.2⟩
    · split
      · rename_i h1 h2; subst h2; simp only [risingFrom, Bool.and_eq_true, decide_eq_true_eq]; exact ⟨h, hm.2⟩
      · simp only [risingFrom, Bool.and_eq_true, decide_eq_true_eq]
        exact ⟨hm.1, rising_insert k v m (j + 1) (by omega) hm.2⟩

theorem rising_filter {α : Type} (p : Nat × α → Bool) : ∀ (m : Cells α) (lo : Nat), risingFrom lo m = true →
    risingFrom lo (m.filter p) = true
  | [], _, _ => rfl
  | (j, w) :: m, lo, hm => by
    simp only [risingFrom, Bool.and_eq_true, decide_eq_true_eq] at hm
    have ih := rising_filter p m (j + 1) hm.2
    simp only [List.filter]
    split
    · simp only [risingFrom, Bool.and_eq_true, decide_eq_true_eq]; exact ⟨hm.1, ih⟩
    · exact rising_of_le (by omega) ih

theorem wf_filter {α : Type} [DecidableEq α] (d : α) (p : Nat × α → Bool) {m : Cells α} (h : wf d m = true) :
    wf d (m.filter p) = true := by
  simp only [wf, rising, Bool.and_eq_true, List.all_eq_true] at h ⊢
  exact ⟨rising_filter p m 0 h.1, fun c hc => h.2 c ((List.mem_filter.mp hc).1)⟩

theorem mem_insert {α : Type} (k : Nat) (v : α) (c : Nat × α) : ∀ m : Cells α, c ∈ insert k v m → c = (k, v) ∨ c ∈ m
  | [], h => by simpa [insert] using h
  | (j, w) :: m, h => by
    simp only [insert] at h
    split at h
    · simpa using h
    · split at h
      · simp only [List.mem_cons] at h ⊢; rcases h with h | h <;> simp [h]
      · simp only [List.mem_cons] at h ⊢
        rcases h with h | h
        · simp [h]
        · rcases mem_insert k v c m h with h | h <;> simp [h]

/-- A write keeps the canonical form. -/
theorem wf_put {α : Type} [DecidableEq α] (d : α) (k : Nat) (v : α) {m : Cells α} (h : wf d m = true) :
    wf d (put d k v m) = true := by
  unfold put
  by_cases hv : v = d
  · rw [if_pos hv]; exact wf_filter d _ h
  · rw [if_neg hv]
    simp only [wf, rising, Bool.and_eq_true, List.all_eq_true] at h ⊢
    refine ⟨rising_insert k v m 0 (Nat.zero_le _) h.1, fun c hc => ?_⟩
    rcases mem_insert k v c m hc with rfl | hc
    · simpa using hv
    · exact h.2 c hc

end Sys2Proof.Cells
end

