-- ==== Sys2Proof/Laws/Issue.lean ====
section
/-! SUPPORT. Laws/Issue.lean: what the shared issue operations do: `issue`, `retire`, `consume`, the waits (R43, R62 to R64,
R70). -/
namespace Sys2Proof.Laws
open Sys2Proof.Machine Sys2Proof.Safety

theorem me_sketch_none {s : State} (h : s.me.sketch = none) : { s with me := { s.me with sketch := none } } = s := by
  rcases s with ⟨_, _, _, me⟩; rcases me; simp_all

theorem foldl_max_le {α : Type} (f : α → Nat) (p : α → Bool) (l : List α) (b n : Nat)
    (hb : b ≤ n) (h : ∀ c ∈ l, p c = true → f c ≤ n) : l.foldl (fun t c => if p c then max t (f c) else t) b ≤ n := by
  induction l generalizing b with
  | nil => exact hb
  | cons c l ih =>
    refine ih _ ?_ fun d hd => h d (List.mem_cons_of_mem _ hd)
    dsimp only
    split
    · exact Nat.max_le.mpr ⟨hb, h c List.mem_cons_self ‹_›⟩
    · exact hb

theorem le_foldl_max {α : Type} (f : α → Nat) (p : α → Bool) (l : List α) (b : Nat) :
    b ≤ l.foldl (fun t c => if p c then max t (f c) else t) b ∧
    ∀ c ∈ l, p c = true → f c ≤ l.foldl (fun t c => if p c then max t (f c) else t) b := by
  induction l generalizing b with
  | nil => exact ⟨Nat.le_refl _, by simp⟩
  | cons d l ih =>
    have h := ih (if p d then max b (f d) else b)
    refine ⟨Nat.le_trans ?_ h.1, fun c hc hp => ?_⟩
    · split
      · exact Nat.le_max_left _ _
      · exact Nat.le_refl _
    · rcases List.mem_cons.mp hc with rfl | hc
      · refine Nat.le_trans ?_ h.1; rw [if_pos hp]; exact Nat.le_max_right _ _
      · exact h.2 c hc hp

/-- Registers of which none is pending are ready for the first pass (R43, R44). -/
theorem firstReadyAt_le {a : Agent} {now : Nat} {n : Need} (h : a.readyAt now (n.reads ++ n.writes) ≤ now) :
    a.firstReadyAt now n ≤ now := by
  unfold Agent.firstReadyAt
  split
  · exact Nat.le_refl _
  · refine foldl_max_le (fun c : (Reg × Nat) × Nat => c.2) (fun c => (n.reads ++ n.writes).contains c.1.1 && c.1.2 == 32) a.score now now
      (Nat.le_refl _) fun c hc hp => ?_
    rw [Bool.and_eq_true] at hp
    exact Nat.le_trans ((le_foldl_max (fun c : (Reg × Nat) × Nat => c.2) (fun c => (n.reads ++ n.writes).contains c.1.1) a.score now).2
      c hc hp.1) h

/-- What pends on fewer registers, in fewer lane words, pends on the others as well (R43, R44, R252). -/
theorem pendingVar_mono {s : State} {rs ts : List Reg} {vs ws : Option (List Nat)} (hr : ∀ r, r ∈ ts → r ∈ rs)
    (hp : ∀ r l, pendingIn ts ws r l = true → pendingIn rs vs r l = true) (h : s.pendingVar rs vs = false) :
    s.pendingVar ts ws = false := by
  rw [Bool.eq_false_iff] at h ⊢
  refine fun hw => h ?_
  simp only [State.pendingVar, Bool.or_eq_true, List.any_eq_true, Bool.and_eq_true, List.contains_iff_mem] at hw ⊢
  rcases hw with (((hw | hw) | hw) | hw) | hw
  · obtain ⟨l, hl, r, hr, x, hx, h3⟩ := hw
    exact .inl (.inl (.inl (.inl ⟨l, hl, r, hr, x, hx, hp _ _ h3⟩)))
  · obtain ⟨q, hq, h3⟩ := hw
    refine .inl (.inl (.inl (.inr ⟨q, hq, ?_⟩)))
    split at h3
    · rw [List.any_eq_true] at h3 ⊢
      obtain ⟨g, hg, h4⟩ := h3
      exact ⟨g, hg, hp _ _ h4⟩
    · exact h3
  · obtain ⟨v, hv, w, hw, h3⟩ := hw
    exact .inl (.inl (.inr ⟨v, hv, w, hw, hp _ _ h3⟩))
  · obtain ⟨o, ho, r, hm, h3⟩ := hw
    exact .inl (.inr ⟨o, ho, r, hm, hr _ h3⟩)
  · obtain ⟨c, hc, o, ho, h3, h4⟩ := hw
    exact .inr ⟨c, hc, o, ho, h3, hr _ h4⟩

/-- Registers that wait for no result at all wait for none in the lane words of an instruction's passes. -/
theorem pendingVar_words {s : State} {rs : List Reg} (h : s.pendingVar rs = false) (ws : Option (List Nat)) :
    s.pendingVar rs ws = false :=
  pendingVar_mono (fun _ h => h) (fun r l hr => by
    simp only [pendingIn, Bool.and_eq_true] at hr
    cases r <;> simpa [pendingIn] using hr.1) h

/-- Free datapaths hold nothing back. -/
theorem pipeHeld_free {s : State} {n : Need} (h : PipesFree s = true) : s.pipeHeld n = false := by
  simp only [PipesFree, decide_eq_true_eq] at h
  simp [State.pipeHeld, Nat.not_lt.mpr h]

/-- An instruction that makes no pass needs no datapath. -/
theorem pipeHeld_none {s : State} {n : Need} (h : n.pass = 0) : s.pipeHeld n = false := by simp [State.pipeHeld, h]

/-- An instruction that nothing holds back, legal and with the privilege it needs, comes to its own meaning. -/
theorem issue_free {n : Need} {s : State} (body : State → Res) (hf : Free s (n.reads ++ n.writes) = true)
    (hl : n.legal = true) (hp : n.sup = true → s.me.regs.priv = true) (hq : s.pipeHeld n = false := by exact pipeHeld_none rfl) :
    issue n body s = body s := by
  simp only [Free, Bool.and_eq_true, Bool.not_eq_true', decide_eq_true_eq, Option.isNone_iff_eq_none] at hf
  obtain ⟨⟨⟨⟨h1, h2⟩, h3⟩, h4⟩, h5⟩ := hf
  have h2' : ¬ s.coreNow < s.me.readyAt s.coreNow (n.reads ++ n.writes) := Nat.not_lt.mpr h2
  have h7 : ¬ s.coreNow < s.me.firstReadyAt s.coreNow n := Nat.not_lt.mpr (firstReadyAt_le h2)
  replace h3 := pendingVar_words h3 n.words
  have h6 : (n.sup && !s.me.regs.priv) = false := by cases hn : n.sup <;> simp_all
  simp only [issue, hl, h1, h6, h2', h7, h3, h4, hq, State.logged?, h5]
  simp [me_sketch_none h5]

/-- Everything that issue can do: one of three traps, a wait that changes nothing or sets the cycle of the next judgement, or the
instruction's own meaning, in the state where an open sketch has taken note of what it will write. -/
theorem issue_cases {n : Need} {body : State → Res} {s : State} {r : Res} (h : issue n body s = r) :
    (r = trap .illegal s ∧ (n.legal = false ∨ (n.reads ++ n.writes).all s.me.inBudget = false)) ∨
    (r = trap .privileged s ∧ n.sup = true ∧ s.me.regs.priv = false) ∨
    (r = trap .stallShort s ∧ s.checking = true) ∨
    (∃ t, r = holdUntil t s) ∨ r = hold s ∨
    ∃ k, n.legal = true ∧ (n.sup = true → s.me.regs.priv = true) ∧ r = body { s with me := { s.me with sketch := k } } ∧
      s.logged? (n.items ++ n.writes.flatMap (traceItems (n.mask.getD s.me.exec) s.me.lanes)) = some k := by
  unfold issue at h
  dsimp only at h
  split at h
  · exact .inr (.inr (.inr (.inl ⟨_, h.symm⟩)))
  split at h
  · rename_i h1
    refine .inl ⟨h.symm, ?_⟩
    cases hl : n.legal
    · exact .inl rfl
    · rw [hl, Bool.true_and, Bool.not_eq_true'] at h1; exact .inr h1
  · rename_i h1
    rw [Bool.not_eq_true, Bool.not_eq_false', Bool.and_eq_true] at h1
    split at h
    · rename_i h2
      rw [Bool.and_eq_true, Bool.not_eq_true'] at h2
      exact .inr (.inl ⟨h.symm, h2.1, h2.2⟩)
    · rename_i h2
      have h2' : n.sup = true → s.me.regs.priv = true := fun hs => by rw [hs, Bool.true_and] at h2; simpa using h2
      split at h
      · exact .inr (.inr (.inr (.inl ⟨_, h.symm⟩)))
      split at h
      · split at h
        · rename_i h4; exact .inr (.inr (.inl ⟨h.symm, h4⟩))
        · exact .inr (.inr (.inr (.inl ⟨_, h.symm⟩)))
      split at h
      · exact .inr (.inr (.inr (.inl ⟨_, h.symm⟩)))
      · split at h
        · exact .inr (.inr (.inr (.inr (.inl h.symm))))
        · split at h
          · exact .inr (.inr (.inr (.inr (.inl h.symm))))
          · rename_i k hk; exact .inr (.inr (.inr (.inr (.inr ⟨k, h1.1, h2', h.symm, hk⟩))))

/-- Clean operands are consumed without a trap. -/
theorem consume_clean {vs : List PDword} {body : State → Res} {s : State} (h : vs.all (fun v => !v.poison) = true) :
    consume vs body s = body s := by
  have : vs.any (·.poison) = false := by
    simp only [List.all_eq_true, Bool.not_eq_true', List.any_eq_false, Bool.not_eq_true] at h ⊢; exact h
  simp [consume, this]

theorem waitInk_free {body : State → Res} {s : State} (h : s.me.sketch = none) : waitInk body s = body s := by
  simp [waitInk, h]

theorem waitPerformed_free {body : State → Res} {s : State} (h : s.me.sketch = none) (hp : s.me.allPerformed = true) :
    waitPerformed body s = body s := by
  simp [waitPerformed, h, hp]

theorem free_sketch {s : State} {rs : List Reg} (h : Free s rs = true) : s.me.sketch = none := by
  simp only [Free, Bool.and_eq_true, Option.isNone_iff_eq_none] at h; exact h.2

theorem takes_issue {n : Need} {s : State} (body : State → Res) (h : Takes s n = true) : issue n body s = body s := by
  simp only [Takes, Bool.and_eq_true, Bool.or_eq_true, Bool.not_eq_true'] at h
  refine issue_free body h.1.2 h.1.1.1 (fun hs => ?_) h.2
  rcases h.1.1.2 with h' | h'
  · rw [h'] at hs; cases hs
  · exact h'

theorem takes_sketch {s : State} {n : Need} (h : Takes s n = true) : s.me.sketch = none := by
  simp only [Takes, Bool.and_eq_true] at h; exact free_sketch h.1.2

/-- What counting an event leaves alone. -/
theorem count_eq (s : State) (p : Option Nat) (n : Nat) : s.count p n = { s with counters := (s.count p n).counters } := by
  cases p <;> rfl

/-- What retiring changes (R43, R64): the PC, the agent's order, its scoreboard and wait, and a counter. -/
theorem retireTo_retired (pc : BitVec 56) (n : Need) (u : State) : Retired u (retireTo pc n u) (atPc u.me.regs pc) := by
  unfold Retired retireTo State.count
  constructor <;> (dsimp only; split <;> rfl)

theorem jumps_of {i : Instr} {s u : State} {pc : BitVec 56} (n : Need) (h : exec i s = .next (retireTo pc n u)) :
    Jumps i s u pc := ⟨_, h, retireTo_retired pc n u⟩

theorem does_of {ext : Bool} {i : Instr} {s u : State} (n : Need) (h : exec i s = .next (retire n u))
    (hn : u.me.next n.ext = s.me.next ext) : Does ext i s u := by
  unfold Does; rw [← hn]; exact jumps_of n h

/-- As `does_of`, through the meaning that exec calls. -/
theorem does_via {ext : Bool} {i : Instr} {s u : State} {r : Res} {n : Need} (he : exec i s = r) (h : r = .next (retire n u))
    (hn : u.me.next n.ext = s.me.next ext) : Does ext i s u := does_of n (he.trans h) hn

theorem traps_of {i : Instr} {s : State} {c : Cause} {lanes : LaneMask} (h : exec i s = trapIn c lanes s) :
    Traps i s c lanes := h

end Sys2Proof.Laws
end

