-- ==== Sys2Proof/Laws/Registers.lean ====
section
/-! SUPPORT. Laws/Registers.lean: what reading a register after a write gives, and what writing registers leaves alone. -/
namespace Sys2Proof.Laws
open Sys2Proof.Machine

theorem setS_eq (s : State) (n : Nat) (v : PDword) :
    s.setS n v = { s with me := { s.me with regs := (s.me.setS n v).regs } } := by
  unfold State.setS Agent.setS; split; · rfl
  · split <;> rfl

@[simp] theorem setS_next (a : Agent) (n : Nat) (v : PDword) (e : Bool) : (a.setS n v).next e = a.next e := by
  unfold Agent.setS; split; · rfl
  · split <;> rfl

@[simp] theorem setS_state_next (s : State) (n : Nat) (v : PDword) (e : Bool) : (s.setS n v).me.next e = s.me.next e :=
  setS_next s.me n v e

@[simp] theorem orFlags_next (s : State) (n : Nat) (e : Bool) : (s.orFlags n).me.next e = s.me.next e := rfl

@[simp] theorem setV_next (a : Agent) (n l : Nat) (w : PWord) (e : Bool) : (a.setV n l w).next e = a.next e := rfl

@[simp] theorem setM_next (a : Agent) (n : Nat) (m : LaneMask) (e : Bool) : (a.setM n m).next e = a.next e := rfl

@[simp] theorem setUnit_next (a : Agent) (w : Bool) (n l : Nat) (d : PDword) (e : Bool) :
    (a.setUnit w n l d).next e = a.next e := by unfold Agent.setUnit; split <;> rfl

theorem foldl_next {α : Type} (f : Agent → α → Agent) (e : Bool) (h : ∀ a x, (f a x).next e = a.next e) (xs : List α) (a : Agent) :
    (xs.foldl f a).next e = a.next e := by
  induction xs generalizing a with
  | nil => rfl
  | cons x xs ih => rw [List.foldl_cons, ih, h]

@[simp] theorem writeLanes_next (w : Bool) (d : Nat) (f : Nat → PDword) (s : State) (e : Bool) :
    (writeLanes w d f s).me.next e = s.me.next e := foldl_next _ e (fun a l => setUnit_next a w d l (f l) e) _ _

@[simp] theorem writeMask_next (m : Nat) (f : Nat → Bool) (s : State) (e : Bool) :
    (writeMask m f s).me.next e = s.me.next e := rfl

/-- Reading an s field after a write of one (R73). -/
theorem getS_setS (a : Agent) (m n : Nat) (v : PDword) :
    (a.setS m v).getS n = if n = 0 then {} else if n = m then v else
      if a.regs.priv && decide (112 ≤ n) then a.regs.k.get {} (n - 112) else a.regs.s.get {} n := by
  unfold Agent.getS Agent.setS
  by_cases hn : n = 0
  · simp [hn]
  · by_cases hm : m = 0
    · subst hm; simp [hn]
    · by_cases h1 : (a.regs.priv && decide (112 ≤ m)) = true
      · simp only [hn, hm, h1, if_true, if_false]
        by_cases h2 : (a.regs.priv && decide (112 ≤ n)) = true
        · simp only [h2, if_true, Cells.get_put]
          simp only [Bool.and_eq_true, decide_eq_true_eq] at h1 h2
          by_cases h3 : n = m
          · simp [h3]
          · rw [if_neg (by omega), if_neg h3]
        · simp only [Bool.not_eq_true] at h2
          simp only [h2]
          have h3 : n ≠ m := by rintro rfl; rw [h1] at h2; cases h2
          simp [h3]
      · simp only [Bool.not_eq_true] at h1
        simp only [hn, hm, h1, if_false]
        by_cases h2 : (a.regs.priv && decide (112 ≤ n)) = true
        · have h3 : n ≠ m := by rintro rfl; rw [h1] at h2; cases h2
          simp [h2, h3]
        · simp only [Bool.not_eq_true] at h2
          simp [h2, Cells.get_put]

end Sys2Proof.Laws
end

