-- ==== Sys2Proof/Laws/Scalar.lean ====
section
/-! SUPPORT. Laws/Scalar.lean: what the shared operations of the scalar instructions do, said once each (R116, R117, R119,
R121 to R129). -/
namespace Sys2Proof.Laws
open Sys2Proof.Machine Sys2Proof.Safety

theorem free_perm {s : State} {rs ts : List Reg} (h : Free s rs = true) (hp : ∀ r, r ∈ ts → r ∈ rs) : Free s ts = true := by
  simp only [Free, Bool.and_eq_true, Bool.not_eq_true', decide_eq_true_eq, List.all_eq_true] at h ⊢
  obtain ⟨⟨⟨⟨h1, h2⟩, h3⟩, h4⟩, h5⟩ := h
  refine ⟨⟨⟨⟨fun r hr => h1 r (hp r hr), ?_⟩, ?_⟩, h4⟩, h5⟩
  · refine foldl_max_le (fun c : (Reg × Nat) × Nat => c.2) (fun c => ts.contains c.1.1) s.me.score _ _ (Nat.le_refl _) fun c hc ht => ?_
    refine Nat.le_trans ((le_foldl_max (fun c : (Reg × Nat) × Nat => c.2) (fun c => rs.contains c.1.1) s.me.score _).2 c hc ?_) h2
    simp only [List.contains_iff_mem] at ht ⊢; exact hp _ ht
  · refine pendingVar_mono hp (fun r l hr => ?_) h3
    simp only [pendingIn, Bool.and_eq_true, List.contains_iff_mem] at hr ⊢
    exact ⟨hp _ hr.1, hr.2⟩

/-- A scalar instruction of two clean sources that nothing holds back writes its result. -/
theorem scalar2_next {lat : Nat} {f : Dword → Dword → Dword} {d a b : BitVec 7} {s : State}
    (h : Free s (scalars s [a, b, d]) = true) (hp : Unpoisoned s [a, b] = true) :
    scalar2 lat true f d a b s =
      .next (retire { s.me.scalarNeed [d.toNat] [a.toNat, b.toNat] lat with legal := true }
        (s.setS d.toNat (clean (f (s.me.getS a.toNat).val (s.me.getS b.toNat).val)))) := by
  unfold scalar2
  refine (issue_free _ ?_ rfl (by intro h; cases h)).trans ?_
  · simpa [Agent.scalarNeed, scalars, List.append_assoc] using h
  · rw [consume_clean (by simpa [Unpoisoned] using hp)]

theorem scalar1_next {lat : Nat} {l : Bool} {f : Dword → Dword} {d a : BitVec 7} {s : State} (hl : l = true)
    (h : Free s (scalars s [a, d]) = true) (hp : Unpoisoned s [a] = true) :
    scalar1 lat l f d a s = .next (retire { s.me.scalarNeed [d.toNat] [a.toNat] lat with legal := l }
      (s.setS d.toNat (clean (f (s.me.getS a.toNat).val)))) := by
  subst hl
  unfold scalar1
  refine (issue_free _ ?_ rfl (by intro h; cases h)).trans ?_
  · simpa [Agent.scalarNeed, scalars] using h
  · rw [consume_clean (by simpa [Unpoisoned] using hp)]

/-- An illegal instruction traps before everything else of its issue but the wait for exception sets (R62, R148). -/
theorem issue_illegal {n : Need} {body : State → Res} {s : State} (h : n.legal = false) (hw : s.awaitsExceptions = false) :
    issue n body s = trap .illegal s := by simp [issue, h, hw]

/-- A privileged instruction in user mode, its operands within budget, traps (R62). -/
theorem issue_privileged {n : Need} {body : State → Res} {s : State} (hl : n.legal = true) (hs : n.sup = true)
    (hb : (n.reads ++ n.writes).all s.me.inBudget = true) (hp : s.me.regs.priv = false)
    (hw : s.awaitsExceptions = false) : issue n body s = trap .privileged s := by
  simp only [issue, hl, hb, hs, hp, hw]; simp

theorem scalarImm_next {e : Bool} {f : Dword → Dword} {d : BitVec 7} {s : State}
    (h : Free s (scalars s [d]) = true) (hp : Unpoisoned s [d] = true) :
    scalarImm e f d s = .next (retire { s.me.scalarNeed [d.toNat] [d.toNat] with ext := e }
      (s.setS d.toNat (clean (f (s.me.getS d.toNat).val)))) := by
  unfold scalarImm
  refine (issue_free _ ?_ rfl (by intro h; cases h)).trans ?_
  · refine free_perm h ?_; simp [Agent.scalarNeed, scalars]
  · rw [consume_clean (by simpa [Unpoisoned] using hp)]

theorem scalarLoad_next {e : Bool} {v : Dword} {d : BitVec 7} {s : State} (h : Free s (scalars s [d]) = true) :
    scalarLoad e v d s = .next (retire { s.me.scalarNeed [d.toNat] [] with ext := e } (s.setS d.toNat (clean v))) := by
  unfold scalarLoad
  exact issue_free _ (by simpa [Agent.scalarNeed, scalars] using h) rfl (by intro h; cases h)

/-- The close of a scalar instruction that raises exceptions (R117): an enabled one traps; otherwise FLAGS takes them and the
result is written. -/
theorem scalarExc_next {srcs : List (BitVec 7)} {l : Bool} {f : State → List Nat → Nat × Nat} {d : BitVec 7} {s : State}
    (hl : l = true) (h : Free s (scalars s (srcs ++ [d])) = true) (hp : Unpoisoned s srcs = true) :
    let r := f s (srcs.map fun a => (s.me.getS a.toNat).val.toNat)
    (s.me.enabled r.2 = 0 → scalarExc (srcs.map (·.toNat)) l f d s =
      .next (retire { s.me.scalarNeed [d.toNat] (srcs.map (·.toNat)) 4 with legal := l, arith := true }
        ((s.orFlags r.2).setS d.toNat (clean (BitVec.ofNat 64 r.1))))) ∧
    (s.me.enabled r.2 ≠ 0 → scalarExc (srcs.map (·.toNat)) l f d s = trap (.arith (s.me.enabled r.2)) s) := by
  subst hl
  intro r
  have e1 : ∀ body, issue { s.me.scalarNeed [d.toNat] (srcs.map (·.toNat)) 4 with legal := true, arith := true } body s = body s := fun body =>
    issue_free body (by simpa [Agent.scalarNeed, scalars, List.flatMap_map] using h) rfl (by intro h; cases h)
  have e2 : ∀ body, consume ((srcs.map (·.toNat)).map s.me.getS) body s = body s := fun body =>
    consume_clean (by simpa [Unpoisoned] using hp)
  have e3 : ((srcs.map (·.toNat)).map s.me.getS).map (·.val.toNat) = srcs.map fun a => (s.me.getS a.toNat).val.toNat := by simp
  constructor <;> intro he <;> simp only [scalarExc, e1, e2, e3, commitScalar] <;> simp only [r] at he <;> simp [he, r]

theorem scalarVar_next {srcs : List (BitVec 7)} {f : State → List Nat → Nat × Nat} {d : BitVec 7} {s : State}
    (h : Free s (scalars s (srcs ++ [d])) = true) (hp : Unpoisoned s srcs = true) :
    let r := f s (srcs.map fun a => (s.me.getS a.toNat).val.toNat)
    (s.me.enabled r.2 = 0 → scalarVar (srcs.map (·.toNat)) f d s =
      .next (retire (s.me.scalarNeed [d.toNat] (srcs.map (·.toNat)) 0) (flying s d (BitVec.ofNat 64 r.1) r.2))) ∧
    (s.me.enabled r.2 ≠ 0 → scalarVar (srcs.map (·.toNat)) f d s = trap (.arith (s.me.enabled r.2)) s) := by
  intro r
  have e1 : ∀ body, issue (s.me.scalarNeed [d.toNat] (srcs.map (·.toNat)) 0) body s = body s := fun body =>
    issue_free body (by simpa [Agent.scalarNeed, scalars, List.flatMap_map] using h) rfl (by intro h; cases h)
  have e2 : ∀ body, consume ((srcs.map (·.toNat)).map s.me.getS) body s = body s := fun body =>
    consume_clean (by simpa [Unpoisoned] using hp)
  have e3 : ((srcs.map (·.toNat)).map s.me.getS).map (·.val.toNat) = srcs.map fun a => (s.me.getS a.toNat).val.toNat := by simp
  have hk : s.me.sketch = none := free_sketch h
  constructor <;> intro he <;> simp only [scalarVar, e1, e2, e3] <;> simp only [r] at he <;> simp [he, r, hk, flying]

theorem readInto_next {lat : Nat} {f : State → Dword} {d : BitVec 7} {s : State} (h : Free s (scalars s [d]) = true) :
    readInto d lat f s = .next (retire (s.me.scalarNeed [d.toNat] [] lat) (s.setS d.toNat (clean (f s)))) := by
  unfold readInto
  exact issue_free _ (by simpa [Agent.scalarNeed, scalars] using h) rfl (by intro h; cases h)

end Sys2Proof.Laws
end

