-- ==== Sys2Proof/Laws/Control.lean ====
section
/-! SUPPORT. Laws/Control.lean: what the shared operations of branches, calls and traps do (R42, R63, R191, R195, R205,
R207). -/
namespace Sys2Proof.Laws
open Sys2Proof.Machine Sys2Proof.Safety

/-- A branch with a bad immediate target traps, whatever else holds, once no exception set is awaited. -/
theorem branchTo_bad {w : Nat} {base : BitVec 56} {o : BitVec w} {n : Need} {body : BitVec 56 → State → Res} {s : State}
    (h : badTarget ((branchTarget base o).setWidth 64) = true) (hw : s.awaitsExceptions = false) :
    branchTo base o n body s = trap (.illegalTarget ((branchTarget base o).setWidth 64)) s := by
  simp [branchTo, h, hw]

/-- A branch with a good target, which nothing holds back, comes to its own meaning. -/
theorem branchTo_good {w : Nat} {base : BitVec 56} {o : BitVec w} {n : Need} {body : BitVec 56 → State → Res} {s : State}
    (h : badTarget ((branchTarget base o).setWidth 64) = false) (ht : Takes s n = true) :
    branchTo base o n body s = body (branchTarget base o) s := by
  simp only [branchTo, h, Bool.not_false, if_true]; exact takes_issue _ ht

theorem takes_of {s : State} {n : Need} (hl : n.legal = true) (hs : n.sup = false) (h : Free s (n.reads ++ n.writes) = true)
    (hq : s.pipeHeld n = false := by exact pipeHeld_none rfl) : Takes s n = true := by simp [Takes, hl, hs, h, hq]

theorem takes_sup {s : State} {n : Need} (hl : n.legal = true) (hs : s.me.regs.priv = true)
    (h : Free s (n.reads ++ n.writes) = true) (hq : s.pipeHeld n = false := by exact pipeHeld_none rfl) : Takes s n = true := by
  simp [Takes, hl, hs, h, hq]

/-- A transfer to a register's clean, good value. -/
theorem jumpTo_good {n : Need} {a : BitVec 7} {f : State → State} {s : State} (ht : Takes s n = true)
    (hp : (s.me.getS a.toNat).poison = false) (hb : badTarget (s.me.getS a.toNat).val = false) :
    jumpTo n a f s = .next (retireTo ((s.me.getS a.toNat).val.setWidth 56) n (f s)) := by
  unfold jumpTo
  rw [takes_issue _ ht, consume_clean (by simp [hp])]; simp [hb]

/-- A transfer to a register's bad value: its poison is judged before its target. -/
theorem jumpTo_bad {n : Need} {a : BitVec 7} {f : State → State} {s : State} (ht : Takes s n = true)
    (hb : badTarget (s.me.getS a.toNat).val = true) :
    jumpTo n a f s = trap (if (s.me.getS a.toNat).poison then .poison else .illegalTarget (s.me.getS a.toNat).val) s := by
  unfold jumpTo
  rw [takes_issue _ ht]
  cases hp : (s.me.getS a.toNat).poison <;> simp [consume, hp, hb]

/-- An agent to which the vector may be delivered stands at no latch. -/
theorem withdraw_ready {s : State} (hv : s.vectorReady = true) : s.withdrawArrival = s := by
  simp only [State.vectorReady, State.inFlight, Bool.and_eq_true, Bool.not_eq_true', Bool.or_eq_false_iff] at hv
  unfold State.withdrawArrival
  split
  · simp_all
  · rfl

/-- What raising a cause in user mode does when nothing holds the vector back (R203 to R206). -/
theorem raise_enters {s : State} (c : Cause) (lanes : LaneMask) (resume : BitVec 56) (hp : s.me.regs.priv = false)
    (hv : s.vectorReady = true) (hd : s.me.depth < 32) (ht : badTarget s.vectorTarget = false) :
    Enters s (s.raise c lanes resume) c lanes resume := by
  have hv' : ∀ x y z w v, State.vectorReady { s with me := { s.me with tcause := x, tpc := y, taddr := z, tmask := w, pendingTrap := v } } = true :=
    fun _ _ _ _ _ => hv
  have ht' : ∀ x y z w v, badTarget (State.vectorTarget { s with me := { s.me with tcause := x, tpc := y, taddr := z, tmask := w, pendingTrap := v } }) = false :=
    fun _ _ _ _ _ => ht
  have hw : ∀ x y z w v, State.vectorTarget { s with me := { s.me with tcause := x, tpc := y, taddr := z, tmask := w, pendingTrap := v } } = s.vectorTarget :=
    fun _ _ _ _ _ => rfl
  simp only [State.raise, withdraw_ready hv, hp, hv', hd, decide_true, Bool.and_true, if_false, if_true, Bool.false_eq_true, State.deliverTrap,
    ht', State.enterHandler, hw]
  simp only [Enters, handlerOf, State.vectorTarget]
  by_cases hk : s.me.kind = AgentKind.team <;> simp only [Agent.isTeam, hk, decide_true, decide_false, if_true, if_false, Bool.false_eq_true]
  · refine ⟨rfl, ?_⟩
    simp [State.partField]
  · simp

/-- What raising a cause in supervisor mode does when nothing holds the vector back (R207). -/
theorem raise_stops {s : State} (c : Cause) (lanes : LaneMask) (resume : BitVec 56) (hp : s.me.regs.priv = true)
    (hv : s.vectorReady = true) (hd : s.me.depth < 32) (hc : c.sstop ≠ 0#32) : s.raise c lanes resume = s.supervisorStop c.sstop := by
  have hv' : ∀ v, State.vectorReady { s with me := { s.me with pendingTrap := v } } = true := fun _ => hv
  simp [State.raise, withdraw_ready hv, hp, hv', hd, State.deliverTrap, hc, State.supervisorStop, State.sendEvent, agentOperand, State.partOf,
    State.asidPart, State.asidEntry]

end Sys2Proof.Laws
end

