-- ==== Sys2Proof/Laws/Access.lean ====
section
/-! SUPPORT. Laws/Access.lean: what the shared operations of loads, stores, atomics, commands and events do (R228, R250 to R254, R279,
R281, R361). -/
namespace Sys2Proof.Laws
open Sys2Proof.Machine Sys2Proof.Safety

/-- An event of an agent that is there acts as that agent. -/
theorem onAgent_found {row : String} {id : Nat} {f : State → Res} {s u : State} (h : s.switchTo id = some u) : onAgent row id f s = f u := by
  simp only [onAgent, h]

theorem onAgent_absent {row : String} {id : Nat} {f : State → Res} {s : State} (h : s.switchTo id = none) : onAgent row id f s = noEvent row := by
  simp only [onAgent, h]

theorem switchTo_me (s : State) : s.switchTo s.meId = some s := by simp [State.switchTo]

/-- A status is the whole effect of the command that it ends. -/
theorem giveStatus_does {i : Instr} {s : State} {n : Need} {d : BitVec 7} {st : Nat} (h : exec i s = giveStatus n d st s) :
    Does n.ext i s (s.setS d.toNat (clean (BitVec.ofNat 64 st))) :=
  does_of n h (by unfold State.setS Agent.setS; split; · rfl
                  · split <;> rfl)

/-! ### Windows -/

theorem firstCause_nil : firstCause [] = none := rfl

/-- Bytes that lie in the grant lie in the SCRATCH window. -/
theorem classOf_scratch {a : Nat} (h : scratchWindow ≤ a) (h' : a < scratchWindow + 2 ^ 21) : classOf a = .scratch := by
  unfold classOf
  exact if_pos ⟨h, h'⟩

theorem classOf_hearth {a : Nat} (h : hearthWindow ≤ a) (h' : a < hearthWindow + 2 ^ 27) : classOf a = .hearth := by
  have : ¬ (scratchWindow ≤ a ∧ a < scratchWindow + 2 ^ 21) := by
    simp only [scratchWindow, hearthWindow] at *; omega
  unfold classOf
  rw [if_neg this]
  exact if_pos ⟨h, h'⟩

/-- A lane with no poison, whose bytes lie in one class below 2^56, aligned where that is asked, meets only its window's own check
(R228, steps 5 and 6). -/
theorem checkLane_inClass {s : State} {x : LaneAddr} {n align acc : Nat} {c : AddrClass} (hp : x.poison = false)
    (hlt : x.addr.toNat + n - 1 < 2 ^ 56) (hc : classOf x.addr.toNat = c) (hl : classOf (x.addr.toNat + n - 1) = c)
    (ha : (align = 1 ∨ c = .hearth) → x.addr.toNat % n = 0) :
    s.checkLane x n align acc = match c with
      | .scratch => if s.me.grant < x.addr.toNat + n - 1 - scratchWindow + 1 then
          some (5, { code := 0x09, addr := x.addr, acc := acc }) else none
      | .hearth =>
        let ok := match s.partOf s.me with
          | some p => s.inHearthRanges p (x.addr.toNat - hearthWindow) && s.inHearthRanges p (x.addr.toNat + n - 1 - hearthWindow)
          | none => false
        if ok then none else some (6, { code := 0x21, addr := x.addr, acc := acc })
      | .global => none := by
  unfold State.checkLane
  extract_lets a cls last
  have e1 : ¬ x.poison = true := by rw [hp]; exact Bool.false_ne_true
  have e2 : ¬ (decide (2 ^ 56 ≤ last) || decide (2 ^ 64 ≤ last)) = true := by
    rw [Bool.or_eq_true, decide_eq_true_iff, decide_eq_true_iff]; omega
  have e3 : ¬ (classOf last != cls) = true := by rw [show classOf last = c from hl, show cls = c from hc]; simp
  have e4 : ¬ ((align = 1 || cls = .hearth) && a % n != 0) = true := by
    intro h
    rw [Bool.and_eq_true, Bool.or_eq_true, decide_eq_true_iff, decide_eq_true_iff, show cls = c from hc] at h
    exact absurd h.2 (by rw [show a % n = 0 from ha h.1]; simp)
  rw [if_neg e1, if_neg e2, if_neg e3, if_neg e4, show cls = c from hc]
  cases c <;> rfl

/-- Addresses in the grant pass every check (R228). -/
theorem checkAddrs_inGrant {s : State} {xs : List LaneAddr} {n align acc : Nat} (hn : 0 < n) (h : InGrant s xs n) :
    s.checkAddrs xs n align acc = none := by
  have : xs.filterMap (fun x => (s.checkLane x n align acc).map fun c => (x, c.1, c.2)) = [] := by
    rw [List.filterMap_eq_nil_iff]
    intro x hx
    obtain ⟨hp, ha, hlo, hhi⟩ := h x hx
    have hc := classOf_scratch (a := x.addr.toNat) hlo (by omega)
    have hl := classOf_scratch (a := x.addr.toNat + n - 1) (by omega) (by omega)
    have e := (checkLane_inClass (s := s) (align := align) (acc := acc) hp (by simp only [scratchWindow] at *; omega) hc hl fun _ => ha).trans
      (if_neg (by omega))
    rw [e]; rfl
  simp [State.checkAddrs, this, firstCause_nil]

theorem checkAddrs_inHearth {s : State} {xs : List LaneAddr} {n align acc : Nat} (hn : 0 < n) (h : InHearth s xs n) :
    s.checkAddrs xs n align acc = none := by
  obtain ⟨p, hpart, h⟩ := h
  have : xs.filterMap (fun x => (s.checkLane x n align acc).map fun c => (x, c.1, c.2)) = [] := by
    rw [List.filterMap_eq_nil_iff]
    intro x hx
    obtain ⟨hp, ha, hlo, hhi, h1, h2⟩ := h x hx
    have hc := classOf_hearth (a := x.addr.toNat) hlo (by omega)
    have hl := classOf_hearth (a := x.addr.toNat + n - 1) (by omega) (by omega)
    have e := checkLane_inClass (s := s) (align := align) (acc := acc) hp (by simp only [hearthWindow] at *; omega) hc hl fun _ => ha
    simp only [hpart, h1, h2, Bool.and_self, if_true] at e
    rw [e]; rfl
  simp [State.checkAddrs, this, firstCause_nil]

/-- Lanes whose bytes need no translation are all found, and nothing changes. -/
theorem locateAll_found {s : State} {xs : List LaneAddr} {n kind : Nat} (f : LaneAddr → List Nat)
    (h : ∀ x ∈ xs, s.laneKeys s.who x.addr.toNat n kind = (.inl (some (f x)), s)) :
    s.locateAll xs n kind = (.keys (xs.map fun x => (x, f x)), s) := by
  have hf : ∀ (ys : List LaneAddr) (ks : List (LaneAddr × List Nat)), (∀ x ∈ ys, x ∈ xs) →
      ys.foldl (locateLane n kind) (ks, [], false, s) = (ks ++ ys.map fun x => (x, f x), [], false, s) := by
    intro ys
    induction ys with
    | nil => intro ks _; simp
    | cons y ys ih =>
      intro ks hy
      have e : locateLane n kind (ks, [], false, s) y = (ks ++ [(y, f y)], [], false, s) := by
        simp [locateLane, h y (hy y List.mem_cons_self)]
      rw [List.foldl_cons, e, ih _ fun x hx => hy x (List.mem_cons_of_mem _ hx)]
      simp
  simp [State.locateAll, hf xs [] fun _ h => h, firstCause_nil]

theorem locateAll_inGrant {s : State} {xs : List LaneAddr} {n kind : Nat} (hn : 0 < n) (h : InGrant s xs n) :
    s.locateAll xs n kind = (.keys (xs.map fun x => (x, grantKeys s n x)), s) := by
  refine locateAll_found _ fun x hx => ?_
  obtain ⟨-, -, hlo, hhi⟩ := h x hx
  simp [State.laneKeys, classOf_scratch hlo (by omega), grantKeys]

theorem locateAll_inHearth {s : State} {xs : List LaneAddr} {n kind : Nat} (hn : 0 < n) (h : InHearth s xs n) :
    s.locateAll xs n kind = (.keys (xs.map fun x => (x, hearthKeys n x)), s) := by
  obtain ⟨p, -, h⟩ := h
  refine locateAll_found _ fun x hx => ?_
  obtain ⟨-, -, hlo, hhi, -⟩ := h x hx
  simp [State.laneKeys, classOf_hearth hlo (by omega), hearthKeys]

/-! ### Stores -/

/-- A store-kind access of the agent whose turn it is, as its queue holds it outside a sketch. -/
def queuedBy (s : State) (r : StoreReq) : StoreReq := { r with seq := s.me.seq, held := false, sup := s.me.regs.priv, mode := s.me.regs.mode, asid := s.me.asid }

/-- Outside a sketch, with room in the queue and in LDCNT for the results, and no XDEC in flight, store-kind accesses join the queue
with the agent's place in its order, privilege, MODE and ASID. -/
theorem queueStores_next {n : Need} {rs : List StoreReq} {s : State} (hk : s.me.sketch = none) (hd : s.me.decoding = false)
    (hr : s.me.storeQ.length + rs.length ≤ 4096)
    (hc : rs.any (·.ret.isSome) = true → { s.me with storeQ := s.me.storeQ ++ rs.map (queuedBy s) }.ldcnt ≤ 2048) :
    queueStores n rs s = .next (retire n (s.updMe fun a => { a with storeQ := a.storeQ ++ rs.map (queuedBy s) })) := by
  have hq : (rs.map fun (r : StoreReq) =>
      { r with seq := s.me.seq, held := s.me.sketch.isSome, sup := s.me.regs.priv, mode := s.me.regs.mode, asid := s.me.asid }) =
      rs.map (queuedBy s) := by
    apply List.map_congr_left; intro r _; simp [queuedBy, hk]
  have ha : (rs.map (queuedBy s)).any (·.ret.isSome) = rs.any (·.ret.isSome) := by rw [List.any_map]; rfl
  have hl : decide (4096 < (s.me.storeQ ++ rs.map (queuedBy s)).length) = false := by simpa using hr
  have hc' : (rs.any (·.ret.isSome) && decide (2048 < { s.me with storeQ := s.me.storeQ ++ rs.map (queuedBy s) }.ldcnt)) = false := by
    cases h : rs.any (·.ret.isSome)
    · rfl
    · simpa using hc h
  simp only [queueStores, hq, ha, hl, hc', hd, Bool.or_false, Bool.false_eq_true, if_false]
  rcases s with ⟨_, _, _, me⟩
  rcases me
  simp only at hk
  subst hk
  rfl

/-- A full queue holds the instruction. -/
theorem queueStores_full {n : Need} {rs : List StoreReq} {s : State} (hr : 4096 < s.me.storeQ.length + rs.length) :
    queueStores n rs s = hold s := by
  unfold queueStores; dsimp only; rw [if_pos]; simp [hr]

/-- A store whose addresses fail a check traps in the lanes that fail, and queues nothing. -/
theorem storeAt_trap {n : Need} {xs : List LaneAddr} {size : Nat} {data : LaneAddr → PDword} {s : State} {c : Cause} {ls : List LaneAddr}
    (h : s.checkAddrs xs size 0 accStore = some (c, ls)) : storeAt n xs size data s = trapIn c (s.me.tmaskOf ls) s := by
  simp only [storeAt, h]

theorem storeAt_good {n : Need} {xs : List LaneAddr} {size : Nat} {data : LaneAddr → PDword} {s : State}
    (h : s.checkAddrs xs size 0 accStore = none) :
    storeAt n xs size data s = queueStores n (xs.flatMap fun x => s.me.storePieces x size (data x)) s := by
  simp only [storeAt, h]

/-! ### Loads -/

/-- Outside a sketch, every older access performed, the gate lets a load go as it stands. -/
theorem loadGate_free {n : Need} {ns : Bool} {us : List Nat} {s : State} (hk : s.me.sketch = none) (hp : s.me.allPerformed = true) :
    s.loadGate n ns us = .go false s := by simp [State.loadGate, hk, hp]

theorem loadMayLook_free {ns : Bool} {s : State} (hk : s.me.sketch = none) (hp : s.me.allPerformed = true) :
    s.loadMayLook ns = true := by
  have hd : s.me.decoding = false := by
    simp only [Agent.allPerformed, Bool.and_eq_true, Bool.not_eq_true'] at hp; exact hp.2
  simp [State.loadMayLook, hk, hp, hd]

theorem tooWide_free {xs : List LaneAddr} {n : Nat} {s : State} (hk : s.me.sketch = none) (hp : s.me.allPerformed = true) :
    s.tooWide xs n = false := by simp [State.tooWide, hk, hp]

/-- Outside a sketch, every older access performed, a load waits for no room in an L1. -/
theorem l1Bars_free {ks : List (LaneAddr × List Nat)} {s : State} (hk : s.me.sketch = none) (hp : s.me.allPerformed = true) :
    s.l1Bars ks = false := by simp [State.l1Bars, State.inSketch, State.agent?, hk, hp]

/-- The request of a load whose bytes are found. -/
def loadRequest (s : State) (dst : LoadDst) (signed : Bool) (ks : List (LaneAddr × List Nat)) : PendingLoad :=
  { dst := dst, signed := signed, lanes := ks.map fun (k : LaneAddr × List Nat) => { lane := k.1.lane, addr := k.1.addr, keys := k.2 },
    sectors := ((ks.flatMap (·.2)).map sectorOf).eraseDups, seq := s.me.seq, inSketch := false }

/-- A load that nothing holds back is in flight, and the instruction completes. -/
theorem sendLoad_next {n : Need} {dst : LoadDst} {signed : Bool} {ks : List (LaneAddr × List Nat)} {s : State}
    (hk : s.me.sketch = none) (hp : s.me.allPerformed = true) (ho : s.overlapsAtomic (ks.flatMap (·.2)) = false)
    (hc : s.me.ldcnt + ((ks.flatMap (·.2)).map sectorOf).eraseDups.length ≤ 2048) :
    sendLoad n dst signed ks s = .next (retire n (s.updMe fun a => { a with loads := a.loads ++ [loadRequest s dst signed ks] })) := by
  unfold sendLoad
  simp only [ho, l1Bars_free hk hp, Bool.or_false, Bool.false_eq_true, if_false]
  rw [if_neg (by omega), loadGate_free hk hp]
  rfl

theorem loadAt_trap {n : Need} {dst : LoadDst} {signed : Bool} {xs : List LaneAddr} {size : Nat} {s : State} {c : Cause}
    {ls : List LaneAddr} (h : s.checkAddrs xs size 0 accLoad = some (c, ls)) :
    loadAt n dst signed xs size s = trapIn c (s.me.tmaskOf ls) s := by simp only [loadAt, h]

/-- A load of no lane completes. -/
theorem loadAt_empty {n : Need} {dst : LoadDst} {signed : Bool} {size : Nat} {s : State} (h : s.checkAddrs [] size 0 accLoad = none) :
    loadAt n dst signed [] size s = .next (retire n s) := by simp [loadAt, h]

/-- A load whose bytes are found is sent; one whose translation faults traps in the faulting lanes. -/
theorem loadAt_found {n : Need} {dst : LoadDst} {signed : Bool} {xs : List LaneAddr} {size : Nat} {s u : State}
    {ks : List (LaneAddr × List Nat)} (hx : xs ≠ []) (hc : s.checkAddrs xs size 0 accLoad = none) (hk : s.me.sketch = none)
    (hp : s.me.allPerformed = true) (hl : s.locateAll xs size accLoad = (.keys ks, u)) :
    loadAt n dst signed xs size s = sendLoad n dst signed ks u := by
  have hx' : xs.isEmpty = false := by cases xs <;> simp_all
  simp [loadAt, hc, hx', loadMayLook_free hk hp, tooWide_free hk hp, hl]

theorem loadAt_fault {n : Need} {dst : LoadDst} {signed : Bool} {xs : List LaneAddr} {size : Nat} {s u : State} {c : Cause}
    {ls : List LaneAddr} (hx : xs ≠ []) (hc : s.checkAddrs xs size 0 accLoad = none) (hk : s.me.sketch = none)
    (hp : s.me.allPerformed = true) (hl : s.locateAll xs size accLoad = (.fault c ls, u)) :
    loadAt n dst signed xs size s = trapIn c (s.me.tmaskOf ls) u := by
  have hx' : xs.isEmpty = false := by cases xs <;> simp_all
  simp [loadAt, hc, hx', loadMayLook_free hk hp, tooWide_free hk hp, hl, hk, hp]

/-! ### Atomics -/

theorem atomicAt_poison {n : Need} {xs : List LaneAddr} {size : Nat} {bad : LaneAddr → Bool} {own : LaneAddr → Option Cause}
    {req : LaneAddr → List Nat → StoreReq} {s : State} (h : (xs.filter fun x => x.poison || bad x) ≠ []) :
    atomicAt n xs size bad own req s = trapIn .poison (s.me.tmaskOf (xs.filter fun x => x.poison || bad x)) s := by
  simp [atomicAt, h]

theorem atomicAt_trap {n : Need} {xs : List LaneAddr} {size : Nat} {bad : LaneAddr → Bool} {own : LaneAddr → Option Cause}
    {req : LaneAddr → List Nat → StoreReq} {s : State} {c : Cause} {ls : List LaneAddr}
    (h : (xs.filter fun x => x.poison || bad x) = []) (hc : s.checkAddrs xs size 1 accAtomic = some (c, ls)) :
    atomicAt n xs size bad own req s = trapIn c (s.me.tmaskOf ls) s := by simp [atomicAt, h, hc]

/-- An atomic whose lanes pass every check and are found joins the queue, a request a lane. -/
theorem atomicAt_found {n : Need} {xs : List LaneAddr} {size : Nat} {bad : LaneAddr → Bool} {own : LaneAddr → Option Cause}
    {req : LaneAddr → List Nat → StoreReq} {s u : State} {ks : List (LaneAddr × List Nat)}
    (h : (xs.filter fun x => x.poison || bad x) = []) (hc : s.checkAddrs xs size 1 accAtomic = none)
    (hl : s.locateAll xs size accAtomic = (.keys ks, u))
    (ho : firstCause (xs.filterMap fun x => (own x).map fun c => (x, 9, c)) = none) :
    atomicAt n xs size bad own req s = queueStores n (ks.map fun (k : LaneAddr × List Nat) => req k.1 k.2) u := by
  simp [atomicAt, h, hc, hl, ho]

/-! ### Commands -/

/-- A command's bytes, where nothing holds the reading back and they are found; they are read as one load of the agent. -/
theorem readCommand_found {n : Need} {a : Dword} {size : Nat} {ns : Bool} {bad : Cause → State → Res} {s u : State} {ks : List (LaneAddr × List Nat)}
    (hc : s.checkAddrs [{ lane := none, addr := a, poison := false }] size 0 accLoad = none) (hk : s.me.sketch = none)
    (hp : s.me.allPerformed = true)
    (hl : s.locateAll [{ lane := none, addr := a, poison := false }] size accLoad = (.keys ks, u)) (hm : u.me = s.me)
    (ho : u.overlapsAtomic (ks.flatMap (·.2)) = false) :
    readCommand n a size ns bad s = .got (leBytes size (u.readForward u.me.seq (ks.flatMap (·.2))).1)
      (u.readForward u.me.seq (ks.flatMap (·.2))).2 (u.noteRead (((ks.flatMap (·.2)).map unitOf).eraseDups)) := by
  have hk' : u.me.sketch = none := hm ▸ hk
  have hp' : u.me.allPerformed = true := hm ▸ hp
  simp [readCommand, hc, loadMayLook_free hk hp, tooWide_free hk hp, hl, ho, l1Bars_free hk' hp', loadGate_free hk' hp']

theorem readCommand_trap {n : Need} {a : Dword} {size : Nat} {ns : Bool} {bad : Cause → State → Res} {s : State} {c : Cause} {ls : List LaneAddr}
    (hc : s.checkAddrs [{ lane := none, addr := a, poison := false }] size 0 accLoad = some (c, ls)) :
    readCommand n a size ns bad s = .stop (bad c s) := by simp [readCommand, hc]

/-! ### Matrix tiles -/

/-- A tile instruction with no lane to act in completes; one that meets poison traps. -/
theorem tileInstr_idle {n : Need} {tile : Nat} {f : Agent → Option (Cells PWord × List (Nat × Nat))} {s : State} (ht : Takes s n = true)
    (h : s.me.exec = 0) : tileInstr n tile f s = .next (retire n s) := by
  unfold tileInstr; rw [takes_issue _ ht, if_pos h]

theorem tileInstr_poison {n : Need} {tile : Nat} {f : Agent → Option (Cells PWord × List (Nat × Nat))} {s : State} (ht : Takes s n = true)
    (h : s.me.exec ≠ 0) (hf : f s.me = none) : tileInstr n tile f s = trapIn .poison s.me.exec s := by
  unfold tileInstr; rw [takes_issue _ ht, if_neg h]; simp only [hf]

end Sys2Proof.Laws
end

