-- ==== Sys2Proof/Laws/Memory.lean ====
section
/-! SUPPORT. Laws/Memory.lean: memory is canonical after each of its operations, what a byte reads after one, and which operations
leave memory alone (R3, R225, R239, R371). -/
namespace Sys2Proof.Machine

/-! ### The list -/

theorem Memory.wf_nil : Memory.wf [] = true := rfl

theorem Memory.wf_write {m : List Host.Cell} (k : Nat) (b : Byte) (h : Memory.wf m = true) : Memory.wf (Memory.write m k b) = true :=
  Cells.wf_put 0 k b h

theorem Memory.wf_writeBytes {m : List Host.Cell} (k : Nat) (bs : List Byte) (h : Memory.wf m = true) :
    Memory.wf (Memory.writeBytes m k bs) = true := by
  induction bs generalizing m k with
  | nil => exact h
  | cons b bs ih => exact ih (k + 1) (Memory.wf_write k b h)

theorem Memory.wf_writeNat {m : List Host.Cell} (k n v : Nat) (h : Memory.wf m = true) : Memory.wf (Memory.writeNat m k n v) = true :=
  Memory.wf_writeBytes k _ h

theorem Memory.wf_clear {m : List Host.Cell} (lo n : Nat) (h : Memory.wf m = true) : Memory.wf (Memory.clear m lo n) = true :=
  Cells.wf_filter 0 _ h

/-- Any run of single writes. -/
theorem Memory.wf_foldl {α : Type} (key : α → Nat) (byte : α → Byte) (xs : List α) {m : List Host.Cell} (h : Memory.wf m = true) :
    Memory.wf (xs.foldl (fun m c => Memory.write m (key c) (byte c)) m) = true := by
  induction xs generalizing m with
  | nil => exact h
  | cons x xs ih => exact ih (Memory.wf_write _ _ h)

/-- A byte reads what was last written there, and every other byte what it read before. -/
theorem Memory.read_write (m : List Host.Cell) (k k' : Nat) (b : Byte) :
    Memory.read (Memory.write m k b) k' = if k' = k then b else Memory.read m k' := Cells.get_put 0 k k' b m

theorem Memory.read_writeBytes (m : List Host.Cell) (k k' : Nat) (bs : List Byte) :
    Memory.read (Memory.writeBytes m k bs) k' =
      if k ≤ k' ∧ k' < k + bs.length then bs.getD (k' - k) 0 else Memory.read m k' := by
  induction bs generalizing m k with
  | nil => simp only [writeBytes, List.length_nil, Nat.add_zero]; rw [if_neg (by omega)]
  | cons b bs ih =>
    simp only [writeBytes, ih, Memory.read_write, List.length_cons]
    by_cases h : k' = k
    · subst h; rw [if_neg (by omega), if_pos rfl, if_pos (by omega)]; simp
    · by_cases h2 : k + 1 ≤ k' ∧ k' < k + 1 + bs.length
      · rw [if_pos h2, if_pos (by omega)]
        obtain ⟨j, hj⟩ : ∃ j, k' - k = j + 1 := ⟨k' - k - 1, by omega⟩
        rw [hj, List.getD_cons_succ]; congr 1; omega
      · rw [if_neg h2, if_neg h, if_neg (by omega)]

theorem leBytes_length (n v : Nat) : (leBytes n v).length = n := by
  induction n generalizing v with
  | zero => rfl
  | succ n ih => simp [leBytes, ih]

/-- Bytes outside a field written are unchanged. -/
theorem Memory.read_writeNat_other (m : List Host.Cell) {k n k' : Nat} (v : Nat) (h : k' < k ∨ k + n ≤ k') :
    Memory.read (Memory.writeNat m k n v) k' = Memory.read m k' := by
  rw [Memory.writeNat, Memory.read_writeBytes, leBytes_length, if_neg (by omega)]

theorem find_filter_out (lo n k : Nat) (m : List Host.Cell) :
    Cells.find? k (Memory.clear m lo n) = if lo ≤ k ∧ k < lo + n then none else Cells.find? k m := by
  induction m with
  | nil => simp [Memory.clear, Cells.find?]
  | cons c m ih =>
    obtain ⟨j, b⟩ := c
    unfold Memory.clear at ih ⊢
    simp only [List.filter_cons, Cells.find?]
    by_cases hj : j < lo ∨ lo + n ≤ j
    · have hd : (decide (j < lo) || decide (lo + n ≤ j)) = true := by simpa using hj
      rw [if_pos hd, Cells.find?, ih]
      by_cases h : k = j
      · subst h; rw [if_pos rfl, if_pos rfl, if_neg (by omega)]
      · rw [if_neg h, if_neg h]
    · have hd : ¬ (decide (j < lo) || decide (lo + n ≤ j)) = true := by simpa using hj
      rw [if_neg hd, ih]
      by_cases h : k = j
      · subst h; rw [if_pos (by omega), if_pos (by omega)]
      · rw [if_neg h]

theorem Memory.read_clear (m : List Host.Cell) (lo n k : Nat) :
    Memory.read (Memory.clear m lo n) k = if lo ≤ k ∧ k < lo + n then 0 else Memory.read m k := by
  unfold Memory.read Cells.get
  rw [find_filter_out]; split <;> rfl

/-! ### The operations of the machine -/

@[simp] theorem State.mem_setAgent (s : State) (n : Nat) (a : Agent) : (s.setAgent n a).mem = s.mem := by unfold State.setAgent; split <;> rfl

@[simp] theorem State.mem_updAgent (s : State) (n : Nat) (f : Agent → Agent) : (s.updAgent n f).mem = s.mem := by
  unfold State.updAgent; split
  · exact State.mem_setAgent _ _ _
  · rfl

@[simp] theorem State.mem_count (s : State) (p : Option Nat) (n : Nat) : (s.count p n).mem = s.mem := by cases p <;> rfl

theorem State.mem_switchTo {s u : State} {n : Nat} (h : s.switchTo n = some u) : u.mem = s.mem := by
  unfold State.switchTo at h
  split at h
  · cases h; rfl
  · split at h
    · cases h; rfl
    · cases h

@[simp] theorem State.mem_removeAgent (s : State) (n : Nat) : (s.removeAgent n).mem = s.mem := by
  unfold State.removeAgent; split
  · split <;> rfl
  · rfl

@[simp] theorem State.mem_feedPipe (s : State) (c : Nat) : (s.feedPipe c).mem = s.mem := by
  unfold State.feedPipe; dsimp only; split
  · rfl
  · split
    · simp
    · rfl

/-- A run of operations that each leave memory alone leaves it alone. -/
theorem State.mem_foldl {α : Type} (f : State → α → State) (h : ∀ s x, (f s x).mem = s.mem) (xs : List α) (s : State) :
    (xs.foldl f s).mem = s.mem := by
  induction xs generalizing s with
  | nil => rfl
  | cons x xs ih => rw [List.foldl_cons, ih, h]

@[simp] theorem State.mem_feedPipes (s : State) (a : Agent) : (s.feedPipes a).mem = s.mem := State.mem_foldl _ State.mem_feedPipe _ _

@[simp] theorem State.mem_erase (s : State) (n k : Nat) : (s.erase n k).mem = s.mem := by
  unfold State.erase
  split
  · rfl
  · split
    · rfl
    · rw [State.mem_count, State.mem_feedPipes]; exact State.mem_setAgent _ _ _

@[simp] theorem State.mem_eraseReaders (s : State) (w : Option Nat) (us : List Nat) (k : Nat) : (s.eraseReaders w us k).mem = s.mem :=
  State.mem_foldl (α := Nat × Agent) _ (fun s c => State.mem_erase s c.1 k) _ _

@[simp] theorem State.mem_notifyWrite (s : State) (w : Option Nat) (us : List Nat) : (s.notifyWrite w us).mem = s.mem := by
  simp [State.notifyWrite]

@[simp] theorem State.mem_dropCopies (s : State) (w : Option Nat) (us : List Nat) : (s.dropCopies w us).mem = s.mem := by
  simp [State.dropCopies]

@[simp] theorem State.mem_readBlocks (s : State) (l : Nat) : (s.readBlocks l).mem = s.mem := by
  unfold State.readBlocks; split
  · rfl
  · have count (n : Nat) (s : State) (is_ : List Nat) : (is_.foldl (fun (s : State) _ => s.countPkg n) s).mem = s.mem :=
      State.mem_foldl (fun (s : State) _ => s.countPkg n) (fun _ _ => rfl) _ _
    exact (count _ _ _).trans (count _ _ _)

@[simp] theorem State.mem_claimLine (s : State) (l : Nat) : (s.claimLine l).mem = s.mem := by
  unfold State.claimLine; split
  · rfl
  · split
    · exact State.mem_dropCopies _ _ _
    · exact State.mem_readBlocks _ _

@[simp] theorem State.mem_releaseGranule (s : State) (g : Nat) : (s.releaseGranule g).mem = s.mem := by
  unfold State.releaseGranule State.setFree; dsimp only; split
  · rfl
  · split <;> split <;> rfl

theorem State.wf_wr {s : State} (a n v : Nat) (h : Memory.wf s.mem = true) : Memory.wf (s.wr a n v).mem = true :=
  Memory.wf_writeNat a n v h

theorem State.wf_putFrame {s : State} (e w : Nat) (h : Memory.wf s.mem = true) : Memory.wf (s.putFrame e w).mem = true :=
  State.wf_wr _ _ _ (State.wf_wr _ _ _ (State.wf_wr _ _ _ h))

theorem State.wf_updFrame {s : State} (m : Nat) (f : Nat → Nat) (h : Memory.wf s.mem = true) : Memory.wf (s.updFrame m f).mem = true := by
  unfold State.updFrame; split
  · exact State.wf_putFrame _ _ h
  · exact h

/-- A run of operations that each keep memory canonical keeps it. -/
theorem State.wf_foldl {α : Type} (f : State → α → State) (hf : ∀ s x, Memory.wf s.mem = true → Memory.wf (f s x).mem = true)
    (xs : List α) {s : State} (h : Memory.wf s.mem = true) : Memory.wf (xs.foldl f s).mem = true := by
  induction xs generalizing s with
  | nil => exact h
  | cons x xs ih => exact ih (hf _ _ h)

theorem State.wf_touch {s : State} (m : Nat) (w : Bool) (h : Memory.wf s.mem = true) : Memory.wf (s.touch m w).mem = true := by
  unfold State.touch
  split
  · exact h
  · dsimp only; split
    · split
      · exact h
      · split
        · exact State.wf_foldl _ (fun s x hs => State.wf_updFrame _ _ hs) _ h
        · exact State.wf_putFrame _ _ h
    · exact h

theorem State.wf_writeKeys {s : State} (ks : List Nat) (bs : List Byte) (p : Bool) (h : Memory.wf s.mem = true) :
    Memory.wf (s.writeKeys ks bs p).mem = true := Memory.wf_foldl (α := Nat × Byte) (·.1) (·.2) _ h

theorem State.wf_writeEngine {s : State} (ks : List Nat) (d : List (Byte × Bool)) (h : Memory.wf s.mem = true) :
    Memory.wf (s.writeEngine ks d).mem = true := by
  unfold State.writeEngine
  rw [State.mem_notifyWrite]
  refine Memory.wf_foldl (α := Nat × Byte × Bool) (·.1) (·.2.1) _ ?_
  rw [State.mem_foldl _ (fun s u => State.mem_claimLine s u)]; exact h

theorem State.wf_devWrite {s : State} (m n v : Nat) (h : Memory.wf s.mem = true) : Memory.wf (s.devWrite m n v).mem = true :=
  State.wf_writeEngine _ _ h

theorem State.wf_clearRows {s : State} (c b n : Nat) (h : Memory.wf s.mem = true) : Memory.wf (s.clearRows c b n).mem = true :=
  Memory.wf_clear _ n h

/-- What zeroing a range of main memory does to the bytes of memory. -/
theorem State.mem_zeroRange (s : State) (lo n : Nat) : (s.zeroRange lo n).mem = Memory.clear s.mem lo n := by
  unfold State.zeroRange
  dsimp only
  rw [State.mem_foldl _ (fun s g => State.mem_releaseGranule s g), State.mem_dropCopies]

theorem State.wf_zeroRange {s : State} (lo n : Nat) (h : Memory.wf s.mem = true) : Memory.wf (s.zeroRange lo n).mem = true := by
  rw [State.mem_zeroRange]; exact Memory.wf_clear lo n h

/-- Halving the heat of frames maps entries to entries of the same keys, and drops those that become 0. -/
theorem Memory.wf_filterMap (f : Host.Cell → Option Host.Cell) (hk : ∀ c d, f c = some d → d.1 = c.1)
    (hd : ∀ c d, c.2 ≠ 0 → f c = some d → d.2 ≠ 0) {m : List Host.Cell} (h : Memory.wf m = true) : Memory.wf (m.filterMap f) = true := by
  have rise : ∀ (m : List Host.Cell) (lo : Nat), Cells.risingFrom lo m = true → Cells.risingFrom lo (m.filterMap f) = true := by
    intro m
    induction m with
    | nil => intros; rfl
    | cons c m ih =>
      intro lo hm
      obtain ⟨j, b⟩ := c
      simp only [Cells.risingFrom, Bool.and_eq_true, decide_eq_true_eq] at hm
      simp only [List.filterMap_cons]
      cases hc : f (j, b) with
      | none => exact Cells.rising_of_le (by omega) (ih (j + 1) hm.2)
      | some d =>
        obtain ⟨k, v⟩ := d
        obtain rfl : k = j := hk _ _ hc
        simp only [Cells.risingFrom, Bool.and_eq_true, decide_eq_true_eq]; exact ⟨hm.1, ih (k + 1) hm.2⟩
  simp only [Memory.wf, Cells.wf, Cells.rising, Bool.and_eq_true, List.all_eq_true, decide_eq_true_eq] at h ⊢
  refine ⟨rise m 0 h.1, fun d hd' => ?_⟩
  obtain ⟨c, hc, hf⟩ := List.mem_filterMap.mp hd'
  exact hd c d (h.2 c hc) hf

theorem wf_heatHalving {s t : State} (h : Memory.wf s.mem = true) (ht : execHeatHalving s = .next t) : Memory.wf t.mem = true := by
  unfold execHeatHalving at ht
  dsimp only at ht
  split at ht
  · cases ht
    dsimp only
    split
    · refine Memory.wf_filterMap _ ?_ ?_ h
      · intro c d hcd
        split at hcd
        · cases hcd; rfl
        · split at hcd
          · cases hcd
          · cases hcd; rfl
      · intro c d hc hcd
        split at hcd
        · cases hcd; exact hc
        · split at hcd
          · cases hcd
          · cases hcd; assumption
    · exact h
  · simp only [noEvent] at ht; cases ht

theorem State.wf_reset : Memory.wf State.reset.mem = true := rfl

end Sys2Proof.Machine
end

