-- ==== Sys2Proof/Laws/Quiet.lean ====
section
/-! SUPPORT. Laws/Quiet.lean: finding bytes, and dropping cached lines, leave a quiet agent as it is (R228, R236, R366). -/
namespace Sys2Proof.Laws
open Sys2Proof.Machine Sys2Proof.Safety

/-- A quiet agent is unchanged, and quiet still. -/
def Kept (s t : State) : Prop := Quiet s → t.me = s.me ∧ Quiet t

theorem Kept.rfl {s : State} : Kept s s := fun h => ⟨Eq.refl _, h⟩

theorem Kept.trans {s t u : State} (h : Kept s t) (h' : Kept t u) : Kept s u := fun q =>
  ⟨(h' (h q).2).1.trans (h q).1, (h' (h q).2).2⟩

theorem kept_of {s t : State} (hm : t.me = s.me) (hi : t.meId = s.meId) (ho : t.others = s.others) : Kept s t := fun q =>
  ⟨hm, by simpa only [Quiet, State.agents, hm, hi, ho] using q⟩

theorem kept_foldl {α : Type} (f : State → α → State) (h : ∀ s x, Kept s (f s x)) (xs : List α) (s : State) : Kept s (xs.foldl f s) := by
  induction xs generalizing s with
  | nil => exact Kept.rfl
  | cons x xs ih => exact (h s x).trans (ih _)

theorem eraseReaders_quiet {s : State} {w : Option Nat} {us : List Nat} {k : Nat} (q : Quiet s) : s.eraseReaders w us k = s := by
  unfold State.eraseReaders
  rw [List.filter_eq_nil_iff.mpr fun c hc => ?_]
  · rfl
  · have := List.all_eq_true.mp q.2 c hc
    simp only [Option.isNone_iff_eq_none] at this
    simp [this]

/-- An agent that waits for nothing is woken by nothing (R263). -/
theorem wakes_free {a : Agent} {us : List Nat} (h : a.wait = .none) : a.wakes us = a := by
  cases a; simp only at h; subst h; rfl

/-- Waking some agents keeps a quiet one. -/
theorem kept_wake {s t : State} {us : List Nat} (p : Nat → Agent → Bool)
    (hm : t.me = if p s.meId s.me then s.me.wakes us else s.me)
    (ho : t.others = s.others.map fun c => (c.1, if p c.1 c.2 then c.2.wakes us else c.2)) : Kept s t := fun q => by
  have hm' : t.me = s.me := by rw [hm, wakes_free q.1]; exact ite_self _
  refine ⟨hm', by rw [hm']; exact q.1, ?_⟩
  have hk := q.2
  simp only [State.agents, List.all_cons, Bool.and_eq_true] at hk ⊢
  refine ⟨hm' ▸ hk.1, ?_⟩
  rw [ho, List.all_map, List.all_eq_true]
  intro c hc
  have := List.all_eq_true.mp hk.2 c hc
  simp only [Function.comp]
  split <;> exact this

theorem kept_dropCopies (s : State) (b : Option Nat) (us : List Nat) : Kept s (s.dropCopies b us) := fun q => by
  have h : Kept s (s.dropCopies b us) := kept_wake (us := us) (fun i _ => !decide (some i = b))
    (by simp only [State.dropCopies, eraseReaders_quiet q]; by_cases h : some s.meId = b <;> simp [h])
    (by simp only [State.dropCopies, eraseReaders_quiet q]
        exact List.map_congr_left fun c _ => by by_cases h : some c.1 = b <;> simp [h])
  exact h q

/-- A write of the agent's own (R263, R287). -/
theorem kept_notifyWrite (s : State) (us : List Nat) : Kept s (s.notifyWrite (some s.meId) us) := fun q => by
  have hk := q.2
  simp only [State.agents, List.all_cons, Bool.and_eq_true, Option.isNone_iff_eq_none] at hk
  have hm : (s.notifyWrite (some s.meId) us).me = s.me := by simp [State.notifyWrite, eraseReaders_quiet q]
  refine ⟨hm, by rw [hm]; exact q.1, ?_⟩
  simp only [State.agents, List.all_cons, hm, hk.1, Option.isNone_none, Bool.true_and]
  simp only [State.notifyWrite, eraseReaders_quiet q, List.all_map, List.all_eq_true, Function.comp]
  intro c hc
  have := List.all_eq_true.mp hk.2 c hc
  split <;> exact this

/-! ### Tables, counters and lines -/

theorem kept_count (s : State) (p : Option Nat) (n : Nat) : Kept s (s.count p n) := by
  rw [count_eq]; exact kept_of rfl rfl rfl

theorem kept_countPkg (s : State) (n : Nat) : Kept s (s.countPkg n) := kept_of rfl rfl rfl

theorem kept_wr (s : State) (a n v : Nat) : Kept s (s.wr a n v) := kept_of (t := s.wr a n v) rfl rfl rfl

theorem kept_putFrame (s : State) (e w : Nat) : Kept s (s.putFrame e w) :=
  ((kept_wr s _ _ _).trans (kept_wr _ _ _ _)).trans (kept_wr _ _ _ _)

theorem kept_updFrame (s : State) (m : Nat) (f : Nat → Nat) : Kept s (s.updFrame m f) := by
  unfold State.updFrame; split
  · exact kept_putFrame _ _ _
  · exact Kept.rfl

theorem kept_touch (s : State) (m : Nat) (w : Bool) : Kept s (s.touch m w) := by
  unfold State.touch
  split
  · exact Kept.rfl
  · extract_lets x
    clear_value x
    split
    · split
      · exact kept_countPkg _ _
      · split
        · exact kept_foldl _ (fun s _ => kept_updFrame s _ _) _ _
        · exact kept_putFrame _ _ _
    · exact Kept.rfl

theorem kept_readBlocks (s : State) (line : Nat) : Kept s (s.readBlocks line) := by
  unfold State.readBlocks; split
  · exact Kept.rfl
  · exact ((kept_foldl _ (fun s _ => kept_countPkg s _) _ _).trans (kept_foldl _ (fun s _ => kept_countPkg s _) _ _)).trans (kept_of rfl rfl rfl)

theorem countPkg_foldl_meId (n : Nat) (xs : List Nat) (s : State) :
    (xs.foldl (fun (s : State) _ => s.countPkg n) s).meId = s.meId := by
  induction xs generalizing s with
  | nil => rfl
  | cons x xs ih => exact ih _

theorem readBlocks_meId (s : State) (line : Nat) : (s.readBlocks line).meId = s.meId := by
  unfold State.readBlocks; split
  · rfl
  · exact (countPkg_foldl_meId _ _ _).trans (countPkg_foldl_meId _ _ _)

theorem kept_readThrough (s : State) (ms : List Nat) : Kept s (s.readThrough ms) := by
  unfold State.readThrough; split
  · exact Kept.rfl
  · exact kept_foldl _ kept_readBlocks _ _

theorem kept_dropLine (s : State) (b : Option Nat) (line : Nat) : Kept s (s.dropLine b line) := by
  unfold State.dropLine; split
  · exact Kept.rfl
  · dsimp only
    split
    · exact (kept_dropCopies _ _ _).trans (kept_of rfl rfl rfl)
    · exact (kept_dropCopies _ _ _).trans (kept_of rfl rfl rfl)

theorem kept_dirRoom (s : State) (b : Option Nat) (line : Nat) : Kept s (s.dirRoom b line).2 := by
  unfold State.dirRoom; dsimp only
  split
  · exact Kept.rfl
  · split
    · exact Kept.rfl
    · split
      · exact kept_dropLine _ _ _
      · exact Kept.rfl

theorem kept_evictLine (s : State) (b : Option Nat) (d line : Nat) : Kept s (s.evictLine b d line) := by
  unfold State.evictLine
  split
  · exact Kept.rfl
  · extract_lets dies wake
    split
    · exact kept_dropLine _ _ _
    · exact kept_wake (us := [line]) (fun _ a => a.isTeam && decide (a.die = d)) rfl rfl

theorem kept_fill (s : State) (w : Who) (line vline : Nat) (perms : Perms) (level : Nat) (write : Bool) :
    Kept s (s.fill w line vline perms level write).2 := by
  unfold State.fill
  extract_lets fit w' name evict put r1 u src r2
  have hev (t : State) : Kept t (evict t) := by
    simp only [evict]; split
    · exact kept_evictLine _ _ _ _
    · exact Kept.rfl
  have hput (t : State) (e : DirEntry) : Kept t (put t e).2 := by
    simp only [put]
    refine Kept.trans ?_ (hev _)
    exact kept_of rfl rfl rfl
  have hu : Kept s u := kept_readBlocks _ _
  have h1 : Kept s r1.2 := kept_dirRoom _ _ _
  have h2 : Kept s r2.2 := hu.trans (kept_dirRoom _ _ _)
  clear_value r1 r2 u put evict name w' fit
  split
  · exact Kept.rfl
  split
  · split
    · split
      · exact Kept.rfl
      · split
        · exact h1.trans (hput _ _)
        · exact h1
    · split
      · exact hput _ _
      · split
        · exact Kept.rfl
        · split
          · exact kept_dropLine _ _ _
          · exact (kept_dropCopies _ _ _).trans (hput _ _)
  · split
    · split
      · exact hu.trans (kept_of rfl rfl rfl)
      · exact hu
    · split
      · exact h2.trans (hput _ _)
      · exact h2

theorem kept_tlbInstall (s : State) (asid va page level : Nat) (perms : Perms) (entry : Nat) :
    Kept s (s.tlbInstall asid va page level perms entry) := by
  unfold State.tlbInstall
  extract_lets h sh m e full old u
  have hu : Kept s u := kept_of rfl rfl rfl
  clear_value u
  split
  · exact hu
  · split
    · exact hu
    · extract_lets w heat w'
      clear_value w' w heat
      split
      · exact (((hu.trans (kept_putFrame _ _ _)).trans (kept_wr _ _ _ _)).trans (kept_wr _ _ _ _)).trans (kept_wr _ _ _ _)
      · exact hu.trans (kept_putFrame _ _ _)

theorem kept_markWait (s : State) (w : Who) (m n : Nat) : Kept s (s.markWait w m n) := kept_of (t := s.markWait w m n) rfl rfl rfl

theorem kept_walkRead (s : State) (w : Who) (va : Nat) : Kept s (s.walkRead w va) := by
  unfold State.walkRead; split
  · exact Kept.rfl
  · exact kept_readThrough _ _

theorem kept_translate (s : State) (w : Who) (va kind : Nat) : Kept s (s.translate w va kind).2 := by
  unfold State.translate
  split
  · exact Kept.rfl
  split
  · exact Kept.rfl
  · split
    · split <;> exact Kept.rfl
    · extract_lets u
      have hu : Kept s u := kept_walkRead _ _ _
      clear_value u
      split
      · exact hu
      · exact hu.trans (kept_markWait _ _ _ _)
      · exact hu
      · split
        · dsimp only
          exact hu.trans (kept_tlbInstall u w.asid va _ _ _ _)
        · exact hu

theorem kept_missed (s : State) (w : Who) (b : Bool) : Kept s (s.missed w b) := by
  unfold State.missed; split
  · exact kept_count _ _ _
  · exact Kept.rfl

theorem kept_locate (s : State) (w : Who) (va n kind : Nat) (io : Bool) : Kept s (s.locate w va n kind io).2 := by
  unfold State.locate
  split
  · exact Kept.rfl
  extract_lets here
  clear_value here
  split
  · extract_lets m r
    split
    · exact kept_markWait _ _ _ _
    · split <;> exact kept_fill _ _ _ _ _ _ _
  · have ht := kept_translate s w va kind
    split
    · rename_i m perms level t h
      rw [h] at ht
      split
      · exact ht.trans (kept_missed _ _ _)
      · split
        · exact ht
        · split
          · exact ht.trans (kept_markWait _ _ _ _)
          · extract_lets r
            have hr : Kept s r.2 := ht.trans (kept_fill _ _ _ _ _ _ _)
            split
            · exact (hr.trans (kept_missed _ _ _)).trans (kept_touch _ _ _)
            · exact hr
    · rename_i h; rw [h] at ht; exact ht.trans (kept_missed _ _ _)
    · rename_i h; rw [h] at ht; exact ht

/-! ### Lanes and lines -/

theorem kept_laneKeys (s : State) (w : Who) (a n kind : Nat) : Kept s (s.laneKeys w a n kind).2 := by
  unfold State.laneKeys
  split
  · exact Kept.rfl
  · exact Kept.rfl
  · extract_lets first
    have hl := kept_locate s w a first kind false
    split
    · rename_i c l t u h
      rw [h] at hl
      split
      · have ht := kept_translate u w (a + first) kind
        split
        · rename_i h'; rw [h'] at ht; exact hl.trans ht
        · rename_i h'; rw [h'] at ht; exact hl.trans ht
      · exact hl
    · rename_i h; rw [h] at hl; exact hl
    · rename_i m _ _ u h
      rw [h] at hl
      split
      · exact hl
      · have h2 := kept_locate u w (a + first) (n - first) kind false
        split <;> (rename_i h'; rw [h'] at h2; exact hl.trans h2)

theorem kept_locateAll (s : State) (xs : List LaneAddr) (n kind : Nat) : Kept s (s.locateAll xs n kind).2 := by
  have step (st : LanesFound) (x : LaneAddr) : Kept st.2.2.2 (locateLane n kind st x).2.2.2 := by
    have h := kept_laneKeys st.2.2.2 st.2.2.2.who x.addr.toNat n kind
    unfold locateLane
    split <;> (rename_i h'; rw [h'] at h; exact h)
  have fold (ys : List LaneAddr) (st : LanesFound) : Kept st.2.2.2 (ys.foldl (locateLane n kind) st).2.2.2 := by
    induction ys generalizing st with
    | nil => exact Kept.rfl
    | cons y ys ih => exact (step st y).trans (ih _)
  have h := fold xs ([], [], false, s)
  unfold State.locateAll
  extract_lets r
  split
  · exact h
  · split <;> exact h

/-- A quiet agent is as it was once its lanes' bytes are found. -/
theorem locateAll_me {s u : State} {xs : List LaneAddr} {n kind : Nat} {r : Located} (q : Quiet s) (h : s.locateAll xs n kind = (r, u)) :
    u.me = s.me := by
  have := (kept_locateAll s xs n kind q).1
  rw [h] at this; exact this

theorem kept_engineByte (s : State) (w : Who) (a n kind : Nat) : Kept s (s.engineByte w a n kind).2 := by
  unfold State.engineByte
  split
  · exact Kept.rfl
  · have hl := kept_locate s w a n kind false
    split
    · rename_i h; rw [h] at hl; exact hl
    · rename_i h; rw [h] at hl; exact hl
    · rename_i c l t u h
      rw [h] at hl
      split
      · exact hl
      · split
        · exact hl
        · have ht := kept_translate u w a kind
          split <;> (rename_i h'; rw [h'] at ht; exact hl.trans ht)

theorem kept_engineLines (w : Who) (kind f a n : Nat) (s : State) : Kept s (State.engineLines w kind f a n s).2 := by
  induction f generalizing a n s with
  | zero => exact Kept.rfl
  | succ f ih =>
    unfold State.engineLines
    split
    · exact Kept.rfl
    · extract_lets first
      have hb := kept_engineByte s w a first kind
      split
      · rename_i ms u h
        rw [h] at hb
        have hr := ih (a + first) (n - first) u
        split
        · rename_i h'; rw [h'] at hr; exact hb.trans hr
        · exact hb.trans hr
      · exact hb

theorem kept_storeLines (f a : Nat) (bytes : List Byte) (s : State) : Kept s (State.storeLines f a bytes s).2 := by
  induction f generalizing a bytes s with
  | zero => exact Kept.rfl
  | succ f ih =>
    unfold State.storeLines
    split
    · exact Kept.rfl
    · extract_lets n
      have hb := kept_engineByte s s.who a n accStore
      split
      · rename_i ms u h
        rw [h] at hb
        extract_lets keys
        have hn : Kept u ((u.writeKeys keys (bytes.take n) false).notifyWrite (some u.meId) (keys.map unitOf).eraseDups) := by
          exact (kept_of (t := u.writeKeys keys (bytes.take n) false) rfl rfl rfl).trans (kept_notifyWrite _ _)
        exact (hb.trans hn).trans (ih _ _ _)
      · rename_i h; rw [h] at hb; exact hb
      · rename_i h; rw [h] at hb; exact hb

/-! ### Pages (R356, R371) -/

/-- A quiet agent keeps its registers, and is quiet still; it may have noted that what it monitors was written (R263). -/
def KeptRegs (s t : State) : Prop := Quiet s → t.me.regs = s.me.regs ∧ t.meId = s.meId ∧ Quiet t

theorem KeptRegs.trans {s t u : State} (h : KeptRegs s t) (h' : KeptRegs t u) : KeptRegs s u := fun q =>
  have h1 := h q
  have h2 := h' h1.2.2
  ⟨h2.1.trans h1.1, h2.2.1.trans h1.2.1, h2.2.2⟩

theorem Kept.regs {s t : State} (h : Kept s t) (hi : t.meId = s.meId) : KeptRegs s t := fun q => ⟨by rw [(h q).1], hi, (h q).2⟩

theorem keptRegs_foldl {α : Type} (f : State → α → State) (h : ∀ s x, KeptRegs s (f s x)) (xs : List α) (s : State) :
    KeptRegs s (xs.foldl f s) := by
  induction xs generalizing s with
  | nil => exact Kept.rfl.regs rfl
  | cons x xs ih => exact (h s x).trans (ih _)

theorem dropCopies_meId {s : State} {b : Option Nat} {us : List Nat} (q : Quiet s) : (s.dropCopies b us).meId = s.meId := by
  simp only [State.dropCopies, eraseReaders_quiet q]

theorem keptRegs_updPart (s : State) (p : Nat) (f : PartState → PartState) : KeptRegs s (s.updPart p f) := Kept.regs (kept_of rfl rfl rfl) rfl

theorem keptRegs_setFree (s : State) (p c v : Nat) : KeptRegs s (s.setFree p c v) := by
  unfold State.setFree
  extract_lets u
  have hu : KeptRegs s u := keptRegs_updPart _ _ _
  split
  · exact hu.trans (keptRegs_updPart _ _ _)
  · exact hu

theorem keptRegs_releaseGranule (s : State) (g : Nat) : KeptRegs s (s.releaseGranule g) := by
  unfold State.releaseGranule
  extract_lets e p c u v lo
  split
  · exact Kept.rfl.regs rfl
  · have hu : KeptRegs s u := keptRegs_setFree _ _ _ _
    have hv : KeptRegs s v := by
      simp only [v]; split
      · exact hu.trans (Kept.regs (kept_of rfl rfl rfl) rfl)
      · exact hu
    exact hv.trans (Kept.regs (kept_of rfl rfl rfl) rfl)

theorem keptRegs_zeroRange (s : State) (lo n : Nat) : KeptRegs s (s.zeroRange lo n) := fun q => by
  unfold State.zeroRange
  extract_lets inside lines u v
  have hu : KeptRegs s u := (kept_dropCopies s _ _).regs (dropCopies_meId q)
  exact ((hu.trans (keptRegs_foldl _ keptRegs_releaseGranule _ _)).trans (Kept.regs (kept_of rfl rfl rfl) rfl)) q

theorem keptRegs_updFrame (s : State) (m : Nat) (f : Nat → Nat) : KeptRegs s (s.updFrame m f) :=
  (kept_updFrame s m f).regs (by unfold State.updFrame; split <;> rfl)

theorem keptRegs_endEpisode (s : State) (p : Nat) : KeptRegs s (s.endEpisode p) := by
  unfold State.endEpisode
  extract_lets was u
  split
  · exact Kept.rfl.regs rfl
  · split
    · exact Kept.regs (kept_of rfl rfl rfl) rfl
    · exact Kept.regs (kept_of rfl rfl rfl) rfl

theorem keptRegs_takePage (s : State) (p m z st : Nat) : KeptRegs s (s.takePage p m z st) :=
  ((keptRegs_zeroRange s _ _).trans (keptRegs_endEpisode _ _)).trans (keptRegs_foldl _ (fun s _ => keptRegs_updFrame s _ _) _ _)

/-- A write by no agent (R263, R287, R288). -/
theorem keptRegs_notifyWrite (s : State) (us : List Nat) : KeptRegs s (s.notifyWrite none us) := fun q => by
  have hk := q.2
  simp only [State.agents, List.all_cons, Bool.and_eq_true] at hk
  have hm : (s.notifyWrite none us).me = s.me.sawWrite us := by simp [State.notifyWrite, eraseReaders_quiet q]
  refine ⟨by rw [hm]; rfl, by simp [State.notifyWrite, eraseReaders_quiet q], by rw [hm]; simp [Agent.sawWrite, q.1], ?_⟩
  simp only [State.agents, List.all_cons, hm, Bool.and_eq_true]
  refine ⟨hk.1, ?_⟩
  simp only [State.notifyWrite, eraseReaders_quiet q, List.all_map, List.all_eq_true, Function.comp]
  intro c hc
  have := List.all_eq_true.mp hk.2 c hc
  split <;> exact this

theorem keptRegs_claimLine (s : State) (line : Nat) : KeptRegs s (s.claimLine line) := fun q => by
  unfold State.claimLine
  split
  · exact Kept.rfl.regs rfl q
  · split
    · exact ((kept_dropCopies s _ _).regs (dropCopies_meId q)).trans (Kept.regs (kept_of rfl rfl rfl) rfl) q
    · exact (Kept.regs ((kept_readBlocks s line).trans (kept_of rfl rfl rfl)) (readBlocks_meId s line)) q

theorem keptRegs_devWrite (s : State) (m n v : Nat) : KeptRegs s (s.devWrite m n v) := by
  unfold State.devWrite State.writeEngine
  extract_lets keys all here out sent units u
  have hu : KeptRegs s u := keptRegs_foldl _ keptRegs_claimLine _ s
  refine KeptRegs.trans ?_ (keptRegs_notifyWrite _ _)
  exact hu.trans (Kept.regs (kept_of rfl rfl rfl) rfl)

theorem keptRegs_setStack (s : State) (p k : Nat) (top : List Nat) (deep : Nat) : KeptRegs s (s.setStack p k top deep) :=
  keptRegs_updPart _ _ _

theorem keptRegs_pushStack (s : State) (p k m : Nat) : KeptRegs s (s.pushStack p k m) := by
  unfold State.pushStack
  extract_lets l n
  split
  · exact keptRegs_setStack _ _ _ _ _
  · exact (keptRegs_devWrite _ _ _ _).trans (keptRegs_setStack _ _ _ _ _)

theorem keptRegs_pushPage (s : State) (p m z : Nat) : KeptRegs s (s.pushPage p m z) :=
  (((keptRegs_zeroRange s _ _).trans (keptRegs_endEpisode _ _)).trans (keptRegs_foldl _ (fun s _ => keptRegs_updFrame s _ _) _ _)).trans
    (keptRegs_pushStack _ _ _ _)

theorem keptRegs_popPage (s : State) (p : Nat) (ks : List Nat) {m : Nat} {u : State} (h : s.popPage p ks = some (m, u)) : KeptRegs s u := by
  induction ks with
  | nil => simp [State.popPage] at h
  | cons k ks ih =>
    unfold State.popPage at h
    split at h
    · simp only [Option.some.injEq, Prod.mk.injEq] at h
      rw [← h.2]
      unfold State.refillStack
      split <;> exact keptRegs_setStack _ _ _ _ _
    · exact ih h

end Sys2Proof.Laws
end

