-- ==== Sys2Proof/Laws/State.lean ====
section
/-! SUPPORT. Laws/State.lean: which fields each small update of the state changes, one lemma a field, so that no later proof unfolds
a record update. -/
namespace Sys2Proof.Laws
open Sys2Proof.Machine

/-! ### Writing an s field -/

@[simp] theorem state_setS_time (s : State) (n : Nat) (v : PDword) : (State.setS s n v).time = s.time := rfl
@[simp] theorem state_setS_turns (s : State) (n : Nat) (v : PDword) : (State.setS s n v).turns = s.turns := rfl
@[simp] theorem state_setS_meId (s : State) (n : Nat) (v : PDword) : (State.setS s n v).meId = s.meId := rfl
@[simp] theorem state_setS_me (s : State) (n : Nat) (v : PDword) : (State.setS s n v).me = s.me.setS n v := rfl
@[simp] theorem state_setS_others (s : State) (n : Nat) (v : PDword) : (State.setS s n v).others = s.others := rfl
@[simp] theorem state_setS_swapWrites (s : State) (n : Nat) (v : PDword) : (State.setS s n v).swapWrites = s.swapWrites := rfl
@[simp] theorem state_setS_stepBegun (s : State) (n : Nat) (v : PDword) : (State.setS s n v).stepBegun = s.stepBegun := rfl
@[simp] theorem state_setS_nonces (s : State) (n : Nat) (v : PDword) : (State.setS s n v).nonces = s.nonces := rfl
@[simp] theorem state_setS_ports (s : State) (n : Nat) (v : PDword) : (State.setS s n v).ports = s.ports := rfl
@[simp] theorem state_setS_pipes (s : State) (n : Nat) (v : PDword) : (State.setS s n v).pipes = s.pipes := rfl
@[simp] theorem state_setS_mem (s : State) (n : Nat) (v : PDword) : (State.setS s n v).mem = s.mem := rfl
@[simp] theorem state_setS_poison (s : State) (n : Nat) (v : PDword) : (State.setS s n v).poison = s.poison := rfl
@[simp] theorem state_setS_dirty (s : State) (n : Nat) (v : PDword) : (State.setS s n v).dirty = s.dirty := rfl
@[simp] theorem state_setS_dir (s : State) (n : Nat) (v : PDword) : (State.setS s n v).dir = s.dir := rfl
@[simp] theorem state_setS_tlb (s : State) (n : Nat) (v : PDword) : (State.setS s n v).tlb = s.tlb := rfl
@[simp] theorem state_setS_ranges (s : State) (n : Nat) (v : PDword) : (State.setS s n v).ranges = s.ranges := rfl
@[simp] theorem state_setS_nextCid (s : State) (n : Nat) (v : PDword) : (State.setS s n v).nextCid = s.nextCid := rfl
@[simp] theorem state_setS_granules (s : State) (n : Nat) (v : PDword) : (State.setS s n v).granules = s.granules := rfl
@[simp] theorem state_setS_palettes (s : State) (n : Nat) (v : PDword) : (State.setS s n v).palettes = s.palettes := rfl
@[simp] theorem state_setS_parts (s : State) (n : Nat) (v : PDword) : (State.setS s n v).parts = s.parts := rfl
@[simp] theorem state_setS_moves (s : State) (n : Nat) (v : PDword) : (State.setS s n v).moves = s.moves := rfl
@[simp] theorem state_setS_failedChannels (s : State) (n : Nat) (v : PDword) : (State.setS s n v).failedChannels = s.failedChannels := rfl
@[simp] theorem state_setS_halvings (s : State) (n : Nat) (v : PDword) : (State.setS s n v).halvings = s.halvings := rfl
@[simp] theorem state_setS_badBlocks (s : State) (n : Nat) (v : PDword) : (State.setS s n v).badBlocks = s.badBlocks := rfl
@[simp] theorem state_setS_chunks (s : State) (n : Nat) (v : PDword) : (State.setS s n v).chunks = s.chunks := rfl
@[simp] theorem state_setS_sbCheck (s : State) (n : Nat) (v : PDword) : (State.setS s n v).sbCheck = s.sbCheck := rfl
@[simp] theorem state_setS_matrix (s : State) (n : Nat) (v : PDword) : (State.setS s n v).matrix = s.matrix := rfl
@[simp] theorem state_setS_channels (s : State) (n : Nat) (v : PDword) : (State.setS s n v).channels = s.channels := rfl
@[simp] theorem state_setS_launches (s : State) (n : Nat) (v : PDword) : (State.setS s n v).launches = s.launches := rfl
@[simp] theorem state_setS_resume (s : State) (n : Nat) (v : PDword) : (State.setS s n v).resume = s.resume := rfl
@[simp] theorem state_setS_requests (s : State) (n : Nat) (v : PDword) : (State.setS s n v).requests = s.requests := rfl
@[simp] theorem state_setS_transit (s : State) (n : Nat) (v : PDword) : (State.setS s n v).transit = s.transit := rfl
@[simp] theorem state_setS_bins (s : State) (n : Nat) (v : PDword) : (State.setS s n v).bins = s.bins := rfl
@[simp] theorem state_setS_lits (s : State) (n : Nat) (v : PDword) : (State.setS s n v).lits = s.lits := rfl
@[simp] theorem state_setS_engines (s : State) (n : Nat) (v : PDword) : (State.setS s n v).engines = s.engines := rfl
@[simp] theorem state_setS_nextEngine (s : State) (n : Nat) (v : PDword) : (State.setS s n v).nextEngine = s.nextEngine := rfl
@[simp] theorem state_setS_filled (s : State) (n : Nat) (v : PDword) : (State.setS s n v).filled = s.filled := rfl
@[simp] theorem state_setS_holes (s : State) (n : Nat) (v : PDword) : (State.setS s n v).holes = s.holes := rfl
@[simp] theorem state_setS_tails (s : State) (n : Nat) (v : PDword) : (State.setS s n v).tails = s.tails := rfl
@[simp] theorem state_setS_pageReqs (s : State) (n : Nat) (v : PDword) : (State.setS s n v).pageReqs = s.pageReqs := rfl
@[simp] theorem state_setS_atsWait (s : State) (n : Nat) (v : PDword) : (State.setS s n v).atsWait = s.atsWait := rfl
@[simp] theorem state_setS_links (s : State) (n : Nat) (v : PDword) : (State.setS s n v).links = s.links := rfl
@[simp] theorem state_setS_portModes (s : State) (n : Nat) (v : PDword) : (State.setS s n v).portModes = s.portModes := rfl
@[simp] theorem state_setS_contained (s : State) (n : Nat) (v : PDword) : (State.setS s n v).contained = s.contained := rfl
@[simp] theorem state_setS_ioTimeouts (s : State) (n : Nat) (v : PDword) : (State.setS s n v).ioTimeouts = s.ioTimeouts := rfl
@[simp] theorem state_setS_package (s : State) (n : Nat) (v : PDword) : (State.setS s n v).package = s.package := rfl
@[simp] theorem state_setS_peerNumber (s : State) (n : Nat) (v : PDword) : (State.setS s n v).peerNumber = s.peerNumber := rfl
@[simp] theorem state_setS_members (s : State) (n : Nat) (v : PDword) : (State.setS s n v).members = s.members := rfl
@[simp] theorem state_setS_routes (s : State) (n : Nat) (v : PDword) : (State.setS s n v).routes = s.routes := rfl
@[simp] theorem state_setS_badColls (s : State) (n : Nat) (v : PDword) : (State.setS s n v).badColls = s.badColls := rfl
@[simp] theorem state_setS_counters (s : State) (n : Nat) (v : PDword) : (State.setS s n v).counters = s.counters := rfl
@[simp] theorem state_setS_events (s : State) (n : Nat) (v : PDword) : (State.setS s n v).events = s.events := rfl
@[simp] theorem state_setS_devWrites (s : State) (n : Nat) (v : PDword) : (State.setS s n v).devWrites = s.devWrites := rfl
@[simp] theorem state_setS_replies (s : State) (n : Nat) (v : PDword) : (State.setS s n v).replies = s.replies := rfl
@[simp] theorem state_setS_measures (s : State) (n : Nat) (v : PDword) : (State.setS s n v).measures = s.measures := rfl
@[simp] theorem state_setS_lifecycle (s : State) (n : Nat) (v : PDword) : (State.setS s n v).lifecycle = s.lifecycle := rfl
@[simp] theorem state_setS_debugOpen (s : State) (n : Nat) (v : PDword) : (State.setS s n v).debugOpen = s.debugOpen := rfl
@[simp] theorem state_setS_throttled (s : State) (n : Nat) (v : PDword) : (State.setS s n v).throttled = s.throttled := rfl
@[simp] theorem state_setS_stepRecord (s : State) (n : Nat) (v : PDword) : (State.setS s n v).stepRecord = s.stepRecord := rfl
@[simp] theorem state_setS_recovery (s : State) (n : Nat) (v : PDword) : (State.setS s n v).recovery = s.recovery := rfl
@[simp] theorem state_setS_bootStep (s : State) (n : Nat) (v : PDword) : (State.setS s n v).bootStep = s.bootStep := rfl
@[simp] theorem state_setS_freeCount (s : State) (n : Nat) (v : PDword) : (State.setS s n v).freeCount = s.freeCount := rfl

/-! ### Changing the agent whose turn it is -/

@[simp] theorem updMe_time (s : State) (f : Agent → Agent) : (State.updMe s f).time = s.time := rfl
@[simp] theorem updMe_turns (s : State) (f : Agent → Agent) : (State.updMe s f).turns = s.turns := rfl
@[simp] theorem updMe_meId (s : State) (f : Agent → Agent) : (State.updMe s f).meId = s.meId := rfl
@[simp] theorem updMe_me (s : State) (f : Agent → Agent) : (State.updMe s f).me = f s.me := rfl
@[simp] theorem updMe_others (s : State) (f : Agent → Agent) : (State.updMe s f).others = s.others := rfl
@[simp] theorem updMe_swapWrites (s : State) (f : Agent → Agent) : (State.updMe s f).swapWrites = s.swapWrites := rfl
@[simp] theorem updMe_stepBegun (s : State) (f : Agent → Agent) : (State.updMe s f).stepBegun = s.stepBegun := rfl
@[simp] theorem updMe_nonces (s : State) (f : Agent → Agent) : (State.updMe s f).nonces = s.nonces := rfl
@[simp] theorem updMe_ports (s : State) (f : Agent → Agent) : (State.updMe s f).ports = s.ports := rfl
@[simp] theorem updMe_pipes (s : State) (f : Agent → Agent) : (State.updMe s f).pipes = s.pipes := rfl
@[simp] theorem updMe_mem (s : State) (f : Agent → Agent) : (State.updMe s f).mem = s.mem := rfl
@[simp] theorem updMe_poison (s : State) (f : Agent → Agent) : (State.updMe s f).poison = s.poison := rfl
@[simp] theorem updMe_dirty (s : State) (f : Agent → Agent) : (State.updMe s f).dirty = s.dirty := rfl
@[simp] theorem updMe_dir (s : State) (f : Agent → Agent) : (State.updMe s f).dir = s.dir := rfl
@[simp] theorem updMe_tlb (s : State) (f : Agent → Agent) : (State.updMe s f).tlb = s.tlb := rfl
@[simp] theorem updMe_ranges (s : State) (f : Agent → Agent) : (State.updMe s f).ranges = s.ranges := rfl
@[simp] theorem updMe_nextCid (s : State) (f : Agent → Agent) : (State.updMe s f).nextCid = s.nextCid := rfl
@[simp] theorem updMe_granules (s : State) (f : Agent → Agent) : (State.updMe s f).granules = s.granules := rfl
@[simp] theorem updMe_palettes (s : State) (f : Agent → Agent) : (State.updMe s f).palettes = s.palettes := rfl
@[simp] theorem updMe_parts (s : State) (f : Agent → Agent) : (State.updMe s f).parts = s.parts := rfl
@[simp] theorem updMe_moves (s : State) (f : Agent → Agent) : (State.updMe s f).moves = s.moves := rfl
@[simp] theorem updMe_failedChannels (s : State) (f : Agent → Agent) : (State.updMe s f).failedChannels = s.failedChannels := rfl
@[simp] theorem updMe_halvings (s : State) (f : Agent → Agent) : (State.updMe s f).halvings = s.halvings := rfl
@[simp] theorem updMe_badBlocks (s : State) (f : Agent → Agent) : (State.updMe s f).badBlocks = s.badBlocks := rfl
@[simp] theorem updMe_chunks (s : State) (f : Agent → Agent) : (State.updMe s f).chunks = s.chunks := rfl
@[simp] theorem updMe_sbCheck (s : State) (f : Agent → Agent) : (State.updMe s f).sbCheck = s.sbCheck := rfl
@[simp] theorem updMe_matrix (s : State) (f : Agent → Agent) : (State.updMe s f).matrix = s.matrix := rfl
@[simp] theorem updMe_channels (s : State) (f : Agent → Agent) : (State.updMe s f).channels = s.channels := rfl
@[simp] theorem updMe_launches (s : State) (f : Agent → Agent) : (State.updMe s f).launches = s.launches := rfl
@[simp] theorem updMe_resume (s : State) (f : Agent → Agent) : (State.updMe s f).resume = s.resume := rfl
@[simp] theorem updMe_requests (s : State) (f : Agent → Agent) : (State.updMe s f).requests = s.requests := rfl
@[simp] theorem updMe_transit (s : State) (f : Agent → Agent) : (State.updMe s f).transit = s.transit := rfl
@[simp] theorem updMe_bins (s : State) (f : Agent → Agent) : (State.updMe s f).bins = s.bins := rfl
@[simp] theorem updMe_lits (s : State) (f : Agent → Agent) : (State.updMe s f).lits = s.lits := rfl
@[simp] theorem updMe_engines (s : State) (f : Agent → Agent) : (State.updMe s f).engines = s.engines := rfl
@[simp] theorem updMe_nextEngine (s : State) (f : Agent → Agent) : (State.updMe s f).nextEngine = s.nextEngine := rfl
@[simp] theorem updMe_filled (s : State) (f : Agent → Agent) : (State.updMe s f).filled = s.filled := rfl
@[simp] theorem updMe_holes (s : State) (f : Agent → Agent) : (State.updMe s f).holes = s.holes := rfl
@[simp] theorem updMe_tails (s : State) (f : Agent → Agent) : (State.updMe s f).tails = s.tails := rfl
@[simp] theorem updMe_pageReqs (s : State) (f : Agent → Agent) : (State.updMe s f).pageReqs = s.pageReqs := rfl
@[simp] theorem updMe_atsWait (s : State) (f : Agent → Agent) : (State.updMe s f).atsWait = s.atsWait := rfl
@[simp] theorem updMe_links (s : State) (f : Agent → Agent) : (State.updMe s f).links = s.links := rfl
@[simp] theorem updMe_portModes (s : State) (f : Agent → Agent) : (State.updMe s f).portModes = s.portModes := rfl
@[simp] theorem updMe_contained (s : State) (f : Agent → Agent) : (State.updMe s f).contained = s.contained := rfl
@[simp] theorem updMe_ioTimeouts (s : State) (f : Agent → Agent) : (State.updMe s f).ioTimeouts = s.ioTimeouts := rfl
@[simp] theorem updMe_package (s : State) (f : Agent → Agent) : (State.updMe s f).package = s.package := rfl
@[simp] theorem updMe_peerNumber (s : State) (f : Agent → Agent) : (State.updMe s f).peerNumber = s.peerNumber := rfl
@[simp] theorem updMe_members (s : State) (f : Agent → Agent) : (State.updMe s f).members = s.members := rfl
@[simp] theorem updMe_routes (s : State) (f : Agent → Agent) : (State.updMe s f).routes = s.routes := rfl
@[simp] theorem updMe_badColls (s : State) (f : Agent → Agent) : (State.updMe s f).badColls = s.badColls := rfl
@[simp] theorem updMe_counters (s : State) (f : Agent → Agent) : (State.updMe s f).counters = s.counters := rfl
@[simp] theorem updMe_events (s : State) (f : Agent → Agent) : (State.updMe s f).events = s.events := rfl
@[simp] theorem updMe_devWrites (s : State) (f : Agent → Agent) : (State.updMe s f).devWrites = s.devWrites := rfl
@[simp] theorem updMe_replies (s : State) (f : Agent → Agent) : (State.updMe s f).replies = s.replies := rfl
@[simp] theorem updMe_measures (s : State) (f : Agent → Agent) : (State.updMe s f).measures = s.measures := rfl
@[simp] theorem updMe_lifecycle (s : State) (f : Agent → Agent) : (State.updMe s f).lifecycle = s.lifecycle := rfl
@[simp] theorem updMe_debugOpen (s : State) (f : Agent → Agent) : (State.updMe s f).debugOpen = s.debugOpen := rfl
@[simp] theorem updMe_throttled (s : State) (f : Agent → Agent) : (State.updMe s f).throttled = s.throttled := rfl
@[simp] theorem updMe_stepRecord (s : State) (f : Agent → Agent) : (State.updMe s f).stepRecord = s.stepRecord := rfl
@[simp] theorem updMe_recovery (s : State) (f : Agent → Agent) : (State.updMe s f).recovery = s.recovery := rfl
@[simp] theorem updMe_bootStep (s : State) (f : Agent → Agent) : (State.updMe s f).bootStep = s.bootStep := rfl
@[simp] theorem updMe_freeCount (s : State) (f : Agent → Agent) : (State.updMe s f).freeCount = s.freeCount := rfl

/-! ### Writing bytes of memory -/

@[simp] theorem wr_time (s : State) (a n v : Nat) : (State.wr s a n v).time = s.time := rfl
@[simp] theorem wr_turns (s : State) (a n v : Nat) : (State.wr s a n v).turns = s.turns := rfl
@[simp] theorem wr_meId (s : State) (a n v : Nat) : (State.wr s a n v).meId = s.meId := rfl
@[simp] theorem wr_me (s : State) (a n v : Nat) : (State.wr s a n v).me = s.me := rfl
@[simp] theorem wr_others (s : State) (a n v : Nat) : (State.wr s a n v).others = s.others := rfl
@[simp] theorem wr_swapWrites (s : State) (a n v : Nat) : (State.wr s a n v).swapWrites = s.swapWrites := rfl
@[simp] theorem wr_stepBegun (s : State) (a n v : Nat) : (State.wr s a n v).stepBegun = s.stepBegun := rfl
@[simp] theorem wr_nonces (s : State) (a n v : Nat) : (State.wr s a n v).nonces = s.nonces := rfl
@[simp] theorem wr_ports (s : State) (a n v : Nat) : (State.wr s a n v).ports = s.ports := rfl
@[simp] theorem wr_pipes (s : State) (a n v : Nat) : (State.wr s a n v).pipes = s.pipes := rfl
@[simp] theorem wr_mem (s : State) (a n v : Nat) : (State.wr s a n v).mem = Memory.writeNat s.mem a n v := rfl
@[simp] theorem wr_poison (s : State) (a n v : Nat) : (State.wr s a n v).poison = s.poison := rfl
@[simp] theorem wr_dirty (s : State) (a n v : Nat) : (State.wr s a n v).dirty = s.dirty := rfl
@[simp] theorem wr_dir (s : State) (a n v : Nat) : (State.wr s a n v).dir = s.dir := rfl
@[simp] theorem wr_tlb (s : State) (a n v : Nat) : (State.wr s a n v).tlb = s.tlb := rfl
@[simp] theorem wr_ranges (s : State) (a n v : Nat) : (State.wr s a n v).ranges = s.ranges := rfl
@[simp] theorem wr_nextCid (s : State) (a n v : Nat) : (State.wr s a n v).nextCid = s.nextCid := rfl
@[simp] theorem wr_granules (s : State) (a n v : Nat) : (State.wr s a n v).granules = s.granules := rfl
@[simp] theorem wr_palettes (s : State) (a n v : Nat) : (State.wr s a n v).palettes = s.palettes := rfl
@[simp] theorem wr_parts (s : State) (a n v : Nat) : (State.wr s a n v).parts = s.parts := rfl
@[simp] theorem wr_moves (s : State) (a n v : Nat) : (State.wr s a n v).moves = s.moves := rfl
@[simp] theorem wr_failedChannels (s : State) (a n v : Nat) : (State.wr s a n v).failedChannels = s.failedChannels := rfl
@[simp] theorem wr_halvings (s : State) (a n v : Nat) : (State.wr s a n v).halvings = s.halvings := rfl
@[simp] theorem wr_badBlocks (s : State) (a n v : Nat) : (State.wr s a n v).badBlocks = s.badBlocks := rfl
@[simp] theorem wr_chunks (s : State) (a n v : Nat) : (State.wr s a n v).chunks = s.chunks := rfl
@[simp] theorem wr_sbCheck (s : State) (a n v : Nat) : (State.wr s a n v).sbCheck = s.sbCheck := rfl
@[simp] theorem wr_matrix (s : State) (a n v : Nat) : (State.wr s a n v).matrix = s.matrix := rfl
@[simp] theorem wr_channels (s : State) (a n v : Nat) : (State.wr s a n v).channels = s.channels := rfl
@[simp] theorem wr_launches (s : State) (a n v : Nat) : (State.wr s a n v).launches = s.launches := rfl
@[simp] theorem wr_resume (s : State) (a n v : Nat) : (State.wr s a n v).resume = s.resume := rfl
@[simp] theorem wr_requests (s : State) (a n v : Nat) : (State.wr s a n v).requests = s.requests := rfl
@[simp] theorem wr_transit (s : State) (a n v : Nat) : (State.wr s a n v).transit = s.transit := rfl
@[simp] theorem wr_bins (s : State) (a n v : Nat) : (State.wr s a n v).bins = s.bins := rfl
@[simp] theorem wr_lits (s : State) (a n v : Nat) : (State.wr s a n v).lits = s.lits := rfl
@[simp] theorem wr_engines (s : State) (a n v : Nat) : (State.wr s a n v).engines = s.engines := rfl
@[simp] theorem wr_nextEngine (s : State) (a n v : Nat) : (State.wr s a n v).nextEngine = s.nextEngine := rfl
@[simp] theorem wr_filled (s : State) (a n v : Nat) : (State.wr s a n v).filled = s.filled := rfl
@[simp] theorem wr_holes (s : State) (a n v : Nat) : (State.wr s a n v).holes = s.holes := rfl
@[simp] theorem wr_tails (s : State) (a n v : Nat) : (State.wr s a n v).tails = s.tails := rfl
@[simp] theorem wr_pageReqs (s : State) (a n v : Nat) : (State.wr s a n v).pageReqs = s.pageReqs := rfl
@[simp] theorem wr_atsWait (s : State) (a n v : Nat) : (State.wr s a n v).atsWait = s.atsWait := rfl
@[simp] theorem wr_links (s : State) (a n v : Nat) : (State.wr s a n v).links = s.links := rfl
@[simp] theorem wr_portModes (s : State) (a n v : Nat) : (State.wr s a n v).portModes = s.portModes := rfl
@[simp] theorem wr_contained (s : State) (a n v : Nat) : (State.wr s a n v).contained = s.contained := rfl
@[simp] theorem wr_ioTimeouts (s : State) (a n v : Nat) : (State.wr s a n v).ioTimeouts = s.ioTimeouts := rfl
@[simp] theorem wr_package (s : State) (a n v : Nat) : (State.wr s a n v).package = s.package := rfl
@[simp] theorem wr_peerNumber (s : State) (a n v : Nat) : (State.wr s a n v).peerNumber = s.peerNumber := rfl
@[simp] theorem wr_members (s : State) (a n v : Nat) : (State.wr s a n v).members = s.members := rfl
@[simp] theorem wr_routes (s : State) (a n v : Nat) : (State.wr s a n v).routes = s.routes := rfl
@[simp] theorem wr_badColls (s : State) (a n v : Nat) : (State.wr s a n v).badColls = s.badColls := rfl
@[simp] theorem wr_counters (s : State) (a n v : Nat) : (State.wr s a n v).counters = s.counters := rfl
@[simp] theorem wr_events (s : State) (a n v : Nat) : (State.wr s a n v).events = s.events := rfl
@[simp] theorem wr_devWrites (s : State) (a n v : Nat) : (State.wr s a n v).devWrites = s.devWrites := rfl
@[simp] theorem wr_replies (s : State) (a n v : Nat) : (State.wr s a n v).replies = s.replies := rfl
@[simp] theorem wr_measures (s : State) (a n v : Nat) : (State.wr s a n v).measures = s.measures := rfl
@[simp] theorem wr_lifecycle (s : State) (a n v : Nat) : (State.wr s a n v).lifecycle = s.lifecycle := rfl
@[simp] theorem wr_debugOpen (s : State) (a n v : Nat) : (State.wr s a n v).debugOpen = s.debugOpen := rfl
@[simp] theorem wr_throttled (s : State) (a n v : Nat) : (State.wr s a n v).throttled = s.throttled := rfl
@[simp] theorem wr_stepRecord (s : State) (a n v : Nat) : (State.wr s a n v).stepRecord = s.stepRecord := rfl
@[simp] theorem wr_recovery (s : State) (a n v : Nat) : (State.wr s a n v).recovery = s.recovery := rfl
@[simp] theorem wr_bootStep (s : State) (a n v : Nat) : (State.wr s a n v).bootStep = s.bootStep := rfl
@[simp] theorem wr_freeCount (s : State) (a n v : Nat) : (State.wr s a n v).freeCount = s.freeCount := rfl

/-! ### Counting a package event -/

@[simp] theorem countPkg_time (s : State) (n : Nat) : (State.countPkg s n).time = s.time := rfl
@[simp] theorem countPkg_turns (s : State) (n : Nat) : (State.countPkg s n).turns = s.turns := rfl
@[simp] theorem countPkg_meId (s : State) (n : Nat) : (State.countPkg s n).meId = s.meId := rfl
@[simp] theorem countPkg_me (s : State) (n : Nat) : (State.countPkg s n).me = s.me := rfl
@[simp] theorem countPkg_others (s : State) (n : Nat) : (State.countPkg s n).others = s.others := rfl
@[simp] theorem countPkg_swapWrites (s : State) (n : Nat) : (State.countPkg s n).swapWrites = s.swapWrites := rfl
@[simp] theorem countPkg_stepBegun (s : State) (n : Nat) : (State.countPkg s n).stepBegun = s.stepBegun := rfl
@[simp] theorem countPkg_nonces (s : State) (n : Nat) : (State.countPkg s n).nonces = s.nonces := rfl
@[simp] theorem countPkg_ports (s : State) (n : Nat) : (State.countPkg s n).ports = s.ports := rfl
@[simp] theorem countPkg_pipes (s : State) (n : Nat) : (State.countPkg s n).pipes = s.pipes := rfl
@[simp] theorem countPkg_mem (s : State) (n : Nat) : (State.countPkg s n).mem = s.mem := rfl
@[simp] theorem countPkg_poison (s : State) (n : Nat) : (State.countPkg s n).poison = s.poison := rfl
@[simp] theorem countPkg_dirty (s : State) (n : Nat) : (State.countPkg s n).dirty = s.dirty := rfl
@[simp] theorem countPkg_dir (s : State) (n : Nat) : (State.countPkg s n).dir = s.dir := rfl
@[simp] theorem countPkg_tlb (s : State) (n : Nat) : (State.countPkg s n).tlb = s.tlb := rfl
@[simp] theorem countPkg_ranges (s : State) (n : Nat) : (State.countPkg s n).ranges = s.ranges := rfl
@[simp] theorem countPkg_nextCid (s : State) (n : Nat) : (State.countPkg s n).nextCid = s.nextCid := rfl
@[simp] theorem countPkg_granules (s : State) (n : Nat) : (State.countPkg s n).granules = s.granules := rfl
@[simp] theorem countPkg_palettes (s : State) (n : Nat) : (State.countPkg s n).palettes = s.palettes := rfl
@[simp] theorem countPkg_parts (s : State) (n : Nat) : (State.countPkg s n).parts = s.parts := rfl
@[simp] theorem countPkg_moves (s : State) (n : Nat) : (State.countPkg s n).moves = s.moves := rfl
@[simp] theorem countPkg_failedChannels (s : State) (n : Nat) : (State.countPkg s n).failedChannels = s.failedChannels := rfl
@[simp] theorem countPkg_halvings (s : State) (n : Nat) : (State.countPkg s n).halvings = s.halvings := rfl
@[simp] theorem countPkg_badBlocks (s : State) (n : Nat) : (State.countPkg s n).badBlocks = s.badBlocks := rfl
@[simp] theorem countPkg_chunks (s : State) (n : Nat) : (State.countPkg s n).chunks = s.chunks := rfl
@[simp] theorem countPkg_sbCheck (s : State) (n : Nat) : (State.countPkg s n).sbCheck = s.sbCheck := rfl
@[simp] theorem countPkg_matrix (s : State) (n : Nat) : (State.countPkg s n).matrix = s.matrix := rfl
@[simp] theorem countPkg_channels (s : State) (n : Nat) : (State.countPkg s n).channels = s.channels := rfl
@[simp] theorem countPkg_launches (s : State) (n : Nat) : (State.countPkg s n).launches = s.launches := rfl
@[simp] theorem countPkg_resume (s : State) (n : Nat) : (State.countPkg s n).resume = s.resume := rfl
@[simp] theorem countPkg_requests (s : State) (n : Nat) : (State.countPkg s n).requests = s.requests := rfl
@[simp] theorem countPkg_transit (s : State) (n : Nat) : (State.countPkg s n).transit = s.transit := rfl
@[simp] theorem countPkg_bins (s : State) (n : Nat) : (State.countPkg s n).bins = s.bins := rfl
@[simp] theorem countPkg_lits (s : State) (n : Nat) : (State.countPkg s n).lits = s.lits := rfl
@[simp] theorem countPkg_engines (s : State) (n : Nat) : (State.countPkg s n).engines = s.engines := rfl
@[simp] theorem countPkg_nextEngine (s : State) (n : Nat) : (State.countPkg s n).nextEngine = s.nextEngine := rfl
@[simp] theorem countPkg_filled (s : State) (n : Nat) : (State.countPkg s n).filled = s.filled := rfl
@[simp] theorem countPkg_holes (s : State) (n : Nat) : (State.countPkg s n).holes = s.holes := rfl
@[simp] theorem countPkg_tails (s : State) (n : Nat) : (State.countPkg s n).tails = s.tails := rfl
@[simp] theorem countPkg_pageReqs (s : State) (n : Nat) : (State.countPkg s n).pageReqs = s.pageReqs := rfl
@[simp] theorem countPkg_atsWait (s : State) (n : Nat) : (State.countPkg s n).atsWait = s.atsWait := rfl
@[simp] theorem countPkg_links (s : State) (n : Nat) : (State.countPkg s n).links = s.links := rfl
@[simp] theorem countPkg_portModes (s : State) (n : Nat) : (State.countPkg s n).portModes = s.portModes := rfl
@[simp] theorem countPkg_contained (s : State) (n : Nat) : (State.countPkg s n).contained = s.contained := rfl
@[simp] theorem countPkg_ioTimeouts (s : State) (n : Nat) : (State.countPkg s n).ioTimeouts = s.ioTimeouts := rfl
@[simp] theorem countPkg_package (s : State) (n : Nat) : (State.countPkg s n).package = s.package := rfl
@[simp] theorem countPkg_peerNumber (s : State) (n : Nat) : (State.countPkg s n).peerNumber = s.peerNumber := rfl
@[simp] theorem countPkg_members (s : State) (n : Nat) : (State.countPkg s n).members = s.members := rfl
@[simp] theorem countPkg_routes (s : State) (n : Nat) : (State.countPkg s n).routes = s.routes := rfl
@[simp] theorem countPkg_badColls (s : State) (n : Nat) : (State.countPkg s n).badColls = s.badColls := rfl
@[simp] theorem countPkg_counters (s : State) (n : Nat) : (State.countPkg s n).counters = s.counters.put 0 n (s.counters.get 0 n + 1) := rfl
@[simp] theorem countPkg_events (s : State) (n : Nat) : (State.countPkg s n).events = s.events := rfl
@[simp] theorem countPkg_devWrites (s : State) (n : Nat) : (State.countPkg s n).devWrites = s.devWrites := rfl
@[simp] theorem countPkg_replies (s : State) (n : Nat) : (State.countPkg s n).replies = s.replies := rfl
@[simp] theorem countPkg_measures (s : State) (n : Nat) : (State.countPkg s n).measures = s.measures := rfl
@[simp] theorem countPkg_lifecycle (s : State) (n : Nat) : (State.countPkg s n).lifecycle = s.lifecycle := rfl
@[simp] theorem countPkg_debugOpen (s : State) (n : Nat) : (State.countPkg s n).debugOpen = s.debugOpen := rfl
@[simp] theorem countPkg_throttled (s : State) (n : Nat) : (State.countPkg s n).throttled = s.throttled := rfl
@[simp] theorem countPkg_stepRecord (s : State) (n : Nat) : (State.countPkg s n).stepRecord = s.stepRecord := rfl
@[simp] theorem countPkg_recovery (s : State) (n : Nat) : (State.countPkg s n).recovery = s.recovery := rfl
@[simp] theorem countPkg_bootStep (s : State) (n : Nat) : (State.countPkg s n).bootStep = s.bootStep := rfl
@[simp] theorem countPkg_freeCount (s : State) (n : Nat) : (State.countPkg s n).freeCount = s.freeCount := rfl

/-! ### Queueing an event -/

@[simp] theorem sendEvent_time (s : State) (c : Nat) (p : Option Nat) (e : Nat) (o : Word32) : (State.sendEvent s c p e o).time = s.time := rfl
@[simp] theorem sendEvent_turns (s : State) (c : Nat) (p : Option Nat) (e : Nat) (o : Word32) : (State.sendEvent s c p e o).turns = s.turns := rfl
@[simp] theorem sendEvent_meId (s : State) (c : Nat) (p : Option Nat) (e : Nat) (o : Word32) : (State.sendEvent s c p e o).meId = s.meId := rfl
@[simp] theorem sendEvent_me (s : State) (c : Nat) (p : Option Nat) (e : Nat) (o : Word32) : (State.sendEvent s c p e o).me = s.me := rfl
@[simp] theorem sendEvent_others (s : State) (c : Nat) (p : Option Nat) (e : Nat) (o : Word32) : (State.sendEvent s c p e o).others = s.others := rfl
@[simp] theorem sendEvent_swapWrites (s : State) (c : Nat) (p : Option Nat) (e : Nat) (o : Word32) : (State.sendEvent s c p e o).swapWrites = s.swapWrites := rfl
@[simp] theorem sendEvent_stepBegun (s : State) (c : Nat) (p : Option Nat) (e : Nat) (o : Word32) : (State.sendEvent s c p e o).stepBegun = s.stepBegun := rfl
@[simp] theorem sendEvent_nonces (s : State) (c : Nat) (p : Option Nat) (e : Nat) (o : Word32) : (State.sendEvent s c p e o).nonces = s.nonces := rfl
@[simp] theorem sendEvent_ports (s : State) (c : Nat) (p : Option Nat) (e : Nat) (o : Word32) : (State.sendEvent s c p e o).ports = s.ports := rfl
@[simp] theorem sendEvent_pipes (s : State) (c : Nat) (p : Option Nat) (e : Nat) (o : Word32) : (State.sendEvent s c p e o).pipes = s.pipes := rfl
@[simp] theorem sendEvent_mem (s : State) (c : Nat) (p : Option Nat) (e : Nat) (o : Word32) : (State.sendEvent s c p e o).mem = s.mem := rfl
@[simp] theorem sendEvent_poison (s : State) (c : Nat) (p : Option Nat) (e : Nat) (o : Word32) : (State.sendEvent s c p e o).poison = s.poison := rfl
@[simp] theorem sendEvent_dirty (s : State) (c : Nat) (p : Option Nat) (e : Nat) (o : Word32) : (State.sendEvent s c p e o).dirty = s.dirty := rfl
@[simp] theorem sendEvent_dir (s : State) (c : Nat) (p : Option Nat) (e : Nat) (o : Word32) : (State.sendEvent s c p e o).dir = s.dir := rfl
@[simp] theorem sendEvent_tlb (s : State) (c : Nat) (p : Option Nat) (e : Nat) (o : Word32) : (State.sendEvent s c p e o).tlb = s.tlb := rfl
@[simp] theorem sendEvent_ranges (s : State) (c : Nat) (p : Option Nat) (e : Nat) (o : Word32) : (State.sendEvent s c p e o).ranges = s.ranges := rfl
@[simp] theorem sendEvent_nextCid (s : State) (c : Nat) (p : Option Nat) (e : Nat) (o : Word32) : (State.sendEvent s c p e o).nextCid = s.nextCid := rfl
@[simp] theorem sendEvent_granules (s : State) (c : Nat) (p : Option Nat) (e : Nat) (o : Word32) : (State.sendEvent s c p e o).granules = s.granules := rfl
@[simp] theorem sendEvent_palettes (s : State) (c : Nat) (p : Option Nat) (e : Nat) (o : Word32) : (State.sendEvent s c p e o).palettes = s.palettes := rfl
@[simp] theorem sendEvent_parts (s : State) (c : Nat) (p : Option Nat) (e : Nat) (o : Word32) : (State.sendEvent s c p e o).parts = s.parts := rfl
@[simp] theorem sendEvent_moves (s : State) (c : Nat) (p : Option Nat) (e : Nat) (o : Word32) : (State.sendEvent s c p e o).moves = s.moves := rfl
@[simp] theorem sendEvent_failedChannels (s : State) (c : Nat) (p : Option Nat) (e : Nat) (o : Word32) : (State.sendEvent s c p e o).failedChannels = s.failedChannels := rfl
@[simp] theorem sendEvent_halvings (s : State) (c : Nat) (p : Option Nat) (e : Nat) (o : Word32) : (State.sendEvent s c p e o).halvings = s.halvings := rfl
@[simp] theorem sendEvent_badBlocks (s : State) (c : Nat) (p : Option Nat) (e : Nat) (o : Word32) : (State.sendEvent s c p e o).badBlocks = s.badBlocks := rfl
@[simp] theorem sendEvent_chunks (s : State) (c : Nat) (p : Option Nat) (e : Nat) (o : Word32) : (State.sendEvent s c p e o).chunks = s.chunks := rfl
@[simp] theorem sendEvent_sbCheck (s : State) (c : Nat) (p : Option Nat) (e : Nat) (o : Word32) : (State.sendEvent s c p e o).sbCheck = s.sbCheck := rfl
@[simp] theorem sendEvent_matrix (s : State) (c : Nat) (p : Option Nat) (e : Nat) (o : Word32) : (State.sendEvent s c p e o).matrix = s.matrix := rfl
@[simp] theorem sendEvent_channels (s : State) (c : Nat) (p : Option Nat) (e : Nat) (o : Word32) : (State.sendEvent s c p e o).channels = s.channels := rfl
@[simp] theorem sendEvent_launches (s : State) (c : Nat) (p : Option Nat) (e : Nat) (o : Word32) : (State.sendEvent s c p e o).launches = s.launches := rfl
@[simp] theorem sendEvent_resume (s : State) (c : Nat) (p : Option Nat) (e : Nat) (o : Word32) : (State.sendEvent s c p e o).resume = s.resume := rfl
@[simp] theorem sendEvent_requests (s : State) (c : Nat) (p : Option Nat) (e : Nat) (o : Word32) : (State.sendEvent s c p e o).requests = s.requests := rfl
@[simp] theorem sendEvent_transit (s : State) (c : Nat) (p : Option Nat) (e : Nat) (o : Word32) : (State.sendEvent s c p e o).transit = s.transit := rfl
@[simp] theorem sendEvent_bins (s : State) (c : Nat) (p : Option Nat) (e : Nat) (o : Word32) : (State.sendEvent s c p e o).bins = s.bins := rfl
@[simp] theorem sendEvent_lits (s : State) (c : Nat) (p : Option Nat) (e : Nat) (o : Word32) : (State.sendEvent s c p e o).lits = s.lits := rfl
@[simp] theorem sendEvent_engines (s : State) (c : Nat) (p : Option Nat) (e : Nat) (o : Word32) : (State.sendEvent s c p e o).engines = s.engines := rfl
@[simp] theorem sendEvent_nextEngine (s : State) (c : Nat) (p : Option Nat) (e : Nat) (o : Word32) : (State.sendEvent s c p e o).nextEngine = s.nextEngine := rfl
@[simp] theorem sendEvent_filled (s : State) (c : Nat) (p : Option Nat) (e : Nat) (o : Word32) : (State.sendEvent s c p e o).filled = s.filled := rfl
@[simp] theorem sendEvent_holes (s : State) (c : Nat) (p : Option Nat) (e : Nat) (o : Word32) : (State.sendEvent s c p e o).holes = s.holes := rfl
@[simp] theorem sendEvent_tails (s : State) (c : Nat) (p : Option Nat) (e : Nat) (o : Word32) : (State.sendEvent s c p e o).tails = s.tails := rfl
@[simp] theorem sendEvent_pageReqs (s : State) (c : Nat) (p : Option Nat) (e : Nat) (o : Word32) : (State.sendEvent s c p e o).pageReqs = s.pageReqs := rfl
@[simp] theorem sendEvent_atsWait (s : State) (c : Nat) (p : Option Nat) (e : Nat) (o : Word32) : (State.sendEvent s c p e o).atsWait = s.atsWait := rfl
@[simp] theorem sendEvent_links (s : State) (c : Nat) (p : Option Nat) (e : Nat) (o : Word32) : (State.sendEvent s c p e o).links = s.links := rfl
@[simp] theorem sendEvent_portModes (s : State) (c : Nat) (p : Option Nat) (e : Nat) (o : Word32) : (State.sendEvent s c p e o).portModes = s.portModes := rfl
@[simp] theorem sendEvent_contained (s : State) (c : Nat) (p : Option Nat) (e : Nat) (o : Word32) : (State.sendEvent s c p e o).contained = s.contained := rfl
@[simp] theorem sendEvent_ioTimeouts (s : State) (c : Nat) (p : Option Nat) (e : Nat) (o : Word32) : (State.sendEvent s c p e o).ioTimeouts = s.ioTimeouts := rfl
@[simp] theorem sendEvent_package (s : State) (c : Nat) (p : Option Nat) (e : Nat) (o : Word32) : (State.sendEvent s c p e o).package = s.package := rfl
@[simp] theorem sendEvent_peerNumber (s : State) (c : Nat) (p : Option Nat) (e : Nat) (o : Word32) : (State.sendEvent s c p e o).peerNumber = s.peerNumber := rfl
@[simp] theorem sendEvent_members (s : State) (c : Nat) (p : Option Nat) (e : Nat) (o : Word32) : (State.sendEvent s c p e o).members = s.members := rfl
@[simp] theorem sendEvent_routes (s : State) (c : Nat) (p : Option Nat) (e : Nat) (o : Word32) : (State.sendEvent s c p e o).routes = s.routes := rfl
@[simp] theorem sendEvent_badColls (s : State) (c : Nat) (p : Option Nat) (e : Nat) (o : Word32) : (State.sendEvent s c p e o).badColls = s.badColls := rfl
@[simp] theorem sendEvent_counters (s : State) (c : Nat) (p : Option Nat) (e : Nat) (o : Word32) : (State.sendEvent s c p e o).counters = s.counters := rfl
@[simp] theorem sendEvent_devWrites (s : State) (c : Nat) (p : Option Nat) (e : Nat) (o : Word32) : (State.sendEvent s c p e o).devWrites = s.devWrites := rfl
@[simp] theorem sendEvent_replies (s : State) (c : Nat) (p : Option Nat) (e : Nat) (o : Word32) : (State.sendEvent s c p e o).replies = s.replies := rfl
@[simp] theorem sendEvent_measures (s : State) (c : Nat) (p : Option Nat) (e : Nat) (o : Word32) : (State.sendEvent s c p e o).measures = s.measures := rfl
@[simp] theorem sendEvent_lifecycle (s : State) (c : Nat) (p : Option Nat) (e : Nat) (o : Word32) : (State.sendEvent s c p e o).lifecycle = s.lifecycle := rfl
@[simp] theorem sendEvent_debugOpen (s : State) (c : Nat) (p : Option Nat) (e : Nat) (o : Word32) : (State.sendEvent s c p e o).debugOpen = s.debugOpen := rfl
@[simp] theorem sendEvent_throttled (s : State) (c : Nat) (p : Option Nat) (e : Nat) (o : Word32) : (State.sendEvent s c p e o).throttled = s.throttled := rfl
@[simp] theorem sendEvent_stepRecord (s : State) (c : Nat) (p : Option Nat) (e : Nat) (o : Word32) : (State.sendEvent s c p e o).stepRecord = s.stepRecord := rfl
@[simp] theorem sendEvent_recovery (s : State) (c : Nat) (p : Option Nat) (e : Nat) (o : Word32) : (State.sendEvent s c p e o).recovery = s.recovery := rfl
@[simp] theorem sendEvent_bootStep (s : State) (c : Nat) (p : Option Nat) (e : Nat) (o : Word32) : (State.sendEvent s c p e o).bootStep = s.bootStep := rfl
@[simp] theorem sendEvent_freeCount (s : State) (c : Nat) (p : Option Nat) (e : Nat) (o : Word32) : (State.sendEvent s c p e o).freeCount = s.freeCount := rfl

/-! ### Changing what is kept of a partition -/

@[simp] theorem updPart_time (s : State) (p : Nat) (f : PartState → PartState) : (State.updPart s p f).time = s.time := rfl
@[simp] theorem updPart_turns (s : State) (p : Nat) (f : PartState → PartState) : (State.updPart s p f).turns = s.turns := rfl
@[simp] theorem updPart_meId (s : State) (p : Nat) (f : PartState → PartState) : (State.updPart s p f).meId = s.meId := rfl
@[simp] theorem updPart_me (s : State) (p : Nat) (f : PartState → PartState) : (State.updPart s p f).me = s.me := rfl
@[simp] theorem updPart_others (s : State) (p : Nat) (f : PartState → PartState) : (State.updPart s p f).others = s.others := rfl
@[simp] theorem updPart_swapWrites (s : State) (p : Nat) (f : PartState → PartState) : (State.updPart s p f).swapWrites = s.swapWrites := rfl
@[simp] theorem updPart_stepBegun (s : State) (p : Nat) (f : PartState → PartState) : (State.updPart s p f).stepBegun = s.stepBegun := rfl
@[simp] theorem updPart_nonces (s : State) (p : Nat) (f : PartState → PartState) : (State.updPart s p f).nonces = s.nonces := rfl
@[simp] theorem updPart_ports (s : State) (p : Nat) (f : PartState → PartState) : (State.updPart s p f).ports = s.ports := rfl
@[simp] theorem updPart_pipes (s : State) (p : Nat) (f : PartState → PartState) : (State.updPart s p f).pipes = s.pipes := rfl
@[simp] theorem updPart_mem (s : State) (p : Nat) (f : PartState → PartState) : (State.updPart s p f).mem = s.mem := rfl
@[simp] theorem updPart_poison (s : State) (p : Nat) (f : PartState → PartState) : (State.updPart s p f).poison = s.poison := rfl
@[simp] theorem updPart_dirty (s : State) (p : Nat) (f : PartState → PartState) : (State.updPart s p f).dirty = s.dirty := rfl
@[simp] theorem updPart_dir (s : State) (p : Nat) (f : PartState → PartState) : (State.updPart s p f).dir = s.dir := rfl
@[simp] theorem updPart_tlb (s : State) (p : Nat) (f : PartState → PartState) : (State.updPart s p f).tlb = s.tlb := rfl
@[simp] theorem updPart_ranges (s : State) (p : Nat) (f : PartState → PartState) : (State.updPart s p f).ranges = s.ranges := rfl
@[simp] theorem updPart_nextCid (s : State) (p : Nat) (f : PartState → PartState) : (State.updPart s p f).nextCid = s.nextCid := rfl
@[simp] theorem updPart_granules (s : State) (p : Nat) (f : PartState → PartState) : (State.updPart s p f).granules = s.granules := rfl
@[simp] theorem updPart_palettes (s : State) (p : Nat) (f : PartState → PartState) : (State.updPart s p f).palettes = s.palettes := rfl
@[simp] theorem updPart_parts (s : State) (p : Nat) (f : PartState → PartState) : (State.updPart s p f).parts = s.parts.put {} p (f (s.part p)) := rfl
@[simp] theorem updPart_moves (s : State) (p : Nat) (f : PartState → PartState) : (State.updPart s p f).moves = s.moves := rfl
@[simp] theorem updPart_failedChannels (s : State) (p : Nat) (f : PartState → PartState) : (State.updPart s p f).failedChannels = s.failedChannels := rfl
@[simp] theorem updPart_halvings (s : State) (p : Nat) (f : PartState → PartState) : (State.updPart s p f).halvings = s.halvings := rfl
@[simp] theorem updPart_badBlocks (s : State) (p : Nat) (f : PartState → PartState) : (State.updPart s p f).badBlocks = s.badBlocks := rfl
@[simp] theorem updPart_chunks (s : State) (p : Nat) (f : PartState → PartState) : (State.updPart s p f).chunks = s.chunks := rfl
@[simp] theorem updPart_sbCheck (s : State) (p : Nat) (f : PartState → PartState) : (State.updPart s p f).sbCheck = s.sbCheck := rfl
@[simp] theorem updPart_matrix (s : State) (p : Nat) (f : PartState → PartState) : (State.updPart s p f).matrix = s.matrix := rfl
@[simp] theorem updPart_channels (s : State) (p : Nat) (f : PartState → PartState) : (State.updPart s p f).channels = s.channels := rfl
@[simp] theorem updPart_launches (s : State) (p : Nat) (f : PartState → PartState) : (State.updPart s p f).launches = s.launches := rfl
@[simp] theorem updPart_resume (s : State) (p : Nat) (f : PartState → PartState) : (State.updPart s p f).resume = s.resume := rfl
@[simp] theorem updPart_requests (s : State) (p : Nat) (f : PartState → PartState) : (State.updPart s p f).requests = s.requests := rfl
@[simp] theorem updPart_transit (s : State) (p : Nat) (f : PartState → PartState) : (State.updPart s p f).transit = s.transit := rfl
@[simp] theorem updPart_bins (s : State) (p : Nat) (f : PartState → PartState) : (State.updPart s p f).bins = s.bins := rfl
@[simp] theorem updPart_lits (s : State) (p : Nat) (f : PartState → PartState) : (State.updPart s p f).lits = s.lits := rfl
@[simp] theorem updPart_engines (s : State) (p : Nat) (f : PartState → PartState) : (State.updPart s p f).engines = s.engines := rfl
@[simp] theorem updPart_nextEngine (s : State) (p : Nat) (f : PartState → PartState) : (State.updPart s p f).nextEngine = s.nextEngine := rfl
@[simp] theorem updPart_filled (s : State) (p : Nat) (f : PartState → PartState) : (State.updPart s p f).filled = s.filled := rfl
@[simp] theorem updPart_holes (s : State) (p : Nat) (f : PartState → PartState) : (State.updPart s p f).holes = s.holes := rfl
@[simp] theorem updPart_tails (s : State) (p : Nat) (f : PartState → PartState) : (State.updPart s p f).tails = s.tails := rfl
@[simp] theorem updPart_pageReqs (s : State) (p : Nat) (f : PartState → PartState) : (State.updPart s p f).pageReqs = s.pageReqs := rfl
@[simp] theorem updPart_atsWait (s : State) (p : Nat) (f : PartState → PartState) : (State.updPart s p f).atsWait = s.atsWait := rfl
@[simp] theorem updPart_links (s : State) (p : Nat) (f : PartState → PartState) : (State.updPart s p f).links = s.links := rfl
@[simp] theorem updPart_portModes (s : State) (p : Nat) (f : PartState → PartState) : (State.updPart s p f).portModes = s.portModes := rfl
@[simp] theorem updPart_contained (s : State) (p : Nat) (f : PartState → PartState) : (State.updPart s p f).contained = s.contained := rfl
@[simp] theorem updPart_ioTimeouts (s : State) (p : Nat) (f : PartState → PartState) : (State.updPart s p f).ioTimeouts = s.ioTimeouts := rfl
@[simp] theorem updPart_package (s : State) (p : Nat) (f : PartState → PartState) : (State.updPart s p f).package = s.package := rfl
@[simp] theorem updPart_peerNumber (s : State) (p : Nat) (f : PartState → PartState) : (State.updPart s p f).peerNumber = s.peerNumber := rfl
@[simp] theorem updPart_members (s : State) (p : Nat) (f : PartState → PartState) : (State.updPart s p f).members = s.members := rfl
@[simp] theorem updPart_routes (s : State) (p : Nat) (f : PartState → PartState) : (State.updPart s p f).routes = s.routes := rfl
@[simp] theorem updPart_badColls (s : State) (p : Nat) (f : PartState → PartState) : (State.updPart s p f).badColls = s.badColls := rfl
@[simp] theorem updPart_counters (s : State) (p : Nat) (f : PartState → PartState) : (State.updPart s p f).counters = s.counters := rfl
@[simp] theorem updPart_events (s : State) (p : Nat) (f : PartState → PartState) : (State.updPart s p f).events = s.events := rfl
@[simp] theorem updPart_devWrites (s : State) (p : Nat) (f : PartState → PartState) : (State.updPart s p f).devWrites = s.devWrites := rfl
@[simp] theorem updPart_replies (s : State) (p : Nat) (f : PartState → PartState) : (State.updPart s p f).replies = s.replies := rfl
@[simp] theorem updPart_measures (s : State) (p : Nat) (f : PartState → PartState) : (State.updPart s p f).measures = s.measures := rfl
@[simp] theorem updPart_lifecycle (s : State) (p : Nat) (f : PartState → PartState) : (State.updPart s p f).lifecycle = s.lifecycle := rfl
@[simp] theorem updPart_debugOpen (s : State) (p : Nat) (f : PartState → PartState) : (State.updPart s p f).debugOpen = s.debugOpen := rfl
@[simp] theorem updPart_throttled (s : State) (p : Nat) (f : PartState → PartState) : (State.updPart s p f).throttled = s.throttled := rfl
@[simp] theorem updPart_stepRecord (s : State) (p : Nat) (f : PartState → PartState) : (State.updPart s p f).stepRecord = s.stepRecord := rfl
@[simp] theorem updPart_recovery (s : State) (p : Nat) (f : PartState → PartState) : (State.updPart s p f).recovery = s.recovery := rfl
@[simp] theorem updPart_bootStep (s : State) (p : Nat) (f : PartState → PartState) : (State.updPart s p f).bootStep = s.bootStep := rfl
@[simp] theorem updPart_freeCount (s : State) (p : Nat) (f : PartState → PartState) : (State.updPart s p f).freeCount = s.freeCount := rfl

/-! ### Accumulating FLAGS -/

@[simp] theorem orFlags_time (s : State) (n : Nat) : (State.orFlags n s).time = s.time := rfl
@[simp] theorem orFlags_turns (s : State) (n : Nat) : (State.orFlags n s).turns = s.turns := rfl
@[simp] theorem orFlags_meId (s : State) (n : Nat) : (State.orFlags n s).meId = s.meId := rfl
@[simp] theorem orFlags_others (s : State) (n : Nat) : (State.orFlags n s).others = s.others := rfl
@[simp] theorem orFlags_swapWrites (s : State) (n : Nat) : (State.orFlags n s).swapWrites = s.swapWrites := rfl
@[simp] theorem orFlags_stepBegun (s : State) (n : Nat) : (State.orFlags n s).stepBegun = s.stepBegun := rfl
@[simp] theorem orFlags_nonces (s : State) (n : Nat) : (State.orFlags n s).nonces = s.nonces := rfl
@[simp] theorem orFlags_ports (s : State) (n : Nat) : (State.orFlags n s).ports = s.ports := rfl
@[simp] theorem orFlags_pipes (s : State) (n : Nat) : (State.orFlags n s).pipes = s.pipes := rfl
@[simp] theorem orFlags_mem (s : State) (n : Nat) : (State.orFlags n s).mem = s.mem := rfl
@[simp] theorem orFlags_poison (s : State) (n : Nat) : (State.orFlags n s).poison = s.poison := rfl
@[simp] theorem orFlags_dirty (s : State) (n : Nat) : (State.orFlags n s).dirty = s.dirty := rfl
@[simp] theorem orFlags_dir (s : State) (n : Nat) : (State.orFlags n s).dir = s.dir := rfl
@[simp] theorem orFlags_tlb (s : State) (n : Nat) : (State.orFlags n s).tlb = s.tlb := rfl
@[simp] theorem orFlags_ranges (s : State) (n : Nat) : (State.orFlags n s).ranges = s.ranges := rfl
@[simp] theorem orFlags_nextCid (s : State) (n : Nat) : (State.orFlags n s).nextCid = s.nextCid := rfl
@[simp] theorem orFlags_granules (s : State) (n : Nat) : (State.orFlags n s).granules = s.granules := rfl
@[simp] theorem orFlags_palettes (s : State) (n : Nat) : (State.orFlags n s).palettes = s.palettes := rfl
@[simp] theorem orFlags_parts (s : State) (n : Nat) : (State.orFlags n s).parts = s.parts := rfl
@[simp] theorem orFlags_moves (s : State) (n : Nat) : (State.orFlags n s).moves = s.moves := rfl
@[simp] theorem orFlags_failedChannels (s : State) (n : Nat) : (State.orFlags n s).failedChannels = s.failedChannels := rfl
@[simp] theorem orFlags_halvings (s : State) (n : Nat) : (State.orFlags n s).halvings = s.halvings := rfl
@[simp] theorem orFlags_badBlocks (s : State) (n : Nat) : (State.orFlags n s).badBlocks = s.badBlocks := rfl
@[simp] theorem orFlags_chunks (s : State) (n : Nat) : (State.orFlags n s).chunks = s.chunks := rfl
@[simp] theorem orFlags_sbCheck (s : State) (n : Nat) : (State.orFlags n s).sbCheck = s.sbCheck := rfl
@[simp] theorem orFlags_matrix (s : State) (n : Nat) : (State.orFlags n s).matrix = s.matrix := rfl
@[simp] theorem orFlags_channels (s : State) (n : Nat) : (State.orFlags n s).channels = s.channels := rfl
@[simp] theorem orFlags_launches (s : State) (n : Nat) : (State.orFlags n s).launches = s.launches := rfl
@[simp] theorem orFlags_resume (s : State) (n : Nat) : (State.orFlags n s).resume = s.resume := rfl
@[simp] theorem orFlags_requests (s : State) (n : Nat) : (State.orFlags n s).requests = s.requests := rfl
@[simp] theorem orFlags_transit (s : State) (n : Nat) : (State.orFlags n s).transit = s.transit := rfl
@[simp] theorem orFlags_bins (s : State) (n : Nat) : (State.orFlags n s).bins = s.bins := rfl
@[simp] theorem orFlags_lits (s : State) (n : Nat) : (State.orFlags n s).lits = s.lits := rfl
@[simp] theorem orFlags_engines (s : State) (n : Nat) : (State.orFlags n s).engines = s.engines := rfl
@[simp] theorem orFlags_nextEngine (s : State) (n : Nat) : (State.orFlags n s).nextEngine = s.nextEngine := rfl
@[simp] theorem orFlags_filled (s : State) (n : Nat) : (State.orFlags n s).filled = s.filled := rfl
@[simp] theorem orFlags_holes (s : State) (n : Nat) : (State.orFlags n s).holes = s.holes := rfl
@[simp] theorem orFlags_tails (s : State) (n : Nat) : (State.orFlags n s).tails = s.tails := rfl
@[simp] theorem orFlags_pageReqs (s : State) (n : Nat) : (State.orFlags n s).pageReqs = s.pageReqs := rfl
@[simp] theorem orFlags_atsWait (s : State) (n : Nat) : (State.orFlags n s).atsWait = s.atsWait := rfl
@[simp] theorem orFlags_links (s : State) (n : Nat) : (State.orFlags n s).links = s.links := rfl
@[simp] theorem orFlags_portModes (s : State) (n : Nat) : (State.orFlags n s).portModes = s.portModes := rfl
@[simp] theorem orFlags_contained (s : State) (n : Nat) : (State.orFlags n s).contained = s.contained := rfl
@[simp] theorem orFlags_ioTimeouts (s : State) (n : Nat) : (State.orFlags n s).ioTimeouts = s.ioTimeouts := rfl
@[simp] theorem orFlags_package (s : State) (n : Nat) : (State.orFlags n s).package = s.package := rfl
@[simp] theorem orFlags_peerNumber (s : State) (n : Nat) : (State.orFlags n s).peerNumber = s.peerNumber := rfl
@[simp] theorem orFlags_members (s : State) (n : Nat) : (State.orFlags n s).members = s.members := rfl
@[simp] theorem orFlags_routes (s : State) (n : Nat) : (State.orFlags n s).routes = s.routes := rfl
@[simp] theorem orFlags_badColls (s : State) (n : Nat) : (State.orFlags n s).badColls = s.badColls := rfl
@[simp] theorem orFlags_counters (s : State) (n : Nat) : (State.orFlags n s).counters = s.counters := rfl
@[simp] theorem orFlags_events (s : State) (n : Nat) : (State.orFlags n s).events = s.events := rfl
@[simp] theorem orFlags_devWrites (s : State) (n : Nat) : (State.orFlags n s).devWrites = s.devWrites := rfl
@[simp] theorem orFlags_replies (s : State) (n : Nat) : (State.orFlags n s).replies = s.replies := rfl
@[simp] theorem orFlags_measures (s : State) (n : Nat) : (State.orFlags n s).measures = s.measures := rfl
@[simp] theorem orFlags_lifecycle (s : State) (n : Nat) : (State.orFlags n s).lifecycle = s.lifecycle := rfl
@[simp] theorem orFlags_debugOpen (s : State) (n : Nat) : (State.orFlags n s).debugOpen = s.debugOpen := rfl
@[simp] theorem orFlags_throttled (s : State) (n : Nat) : (State.orFlags n s).throttled = s.throttled := rfl
@[simp] theorem orFlags_stepRecord (s : State) (n : Nat) : (State.orFlags n s).stepRecord = s.stepRecord := rfl
@[simp] theorem orFlags_recovery (s : State) (n : Nat) : (State.orFlags n s).recovery = s.recovery := rfl
@[simp] theorem orFlags_bootStep (s : State) (n : Nat) : (State.orFlags n s).bootStep = s.bootStep := rfl
@[simp] theorem orFlags_freeCount (s : State) (n : Nat) : (State.orFlags n s).freeCount = s.freeCount := rfl

/-! ### Sending bytes -/

@[simp] theorem reply_time (s : State) (b : List Byte) : (State.reply s b).time = s.time := rfl
@[simp] theorem reply_turns (s : State) (b : List Byte) : (State.reply s b).turns = s.turns := rfl
@[simp] theorem reply_meId (s : State) (b : List Byte) : (State.reply s b).meId = s.meId := rfl
@[simp] theorem reply_me (s : State) (b : List Byte) : (State.reply s b).me = s.me := rfl
@[simp] theorem reply_others (s : State) (b : List Byte) : (State.reply s b).others = s.others := rfl
@[simp] theorem reply_swapWrites (s : State) (b : List Byte) : (State.reply s b).swapWrites = s.swapWrites := rfl
@[simp] theorem reply_stepBegun (s : State) (b : List Byte) : (State.reply s b).stepBegun = s.stepBegun := rfl
@[simp] theorem reply_nonces (s : State) (b : List Byte) : (State.reply s b).nonces = s.nonces := rfl
@[simp] theorem reply_ports (s : State) (b : List Byte) : (State.reply s b).ports = s.ports := rfl
@[simp] theorem reply_pipes (s : State) (b : List Byte) : (State.reply s b).pipes = s.pipes := rfl
@[simp] theorem reply_mem (s : State) (b : List Byte) : (State.reply s b).mem = s.mem := rfl
@[simp] theorem reply_poison (s : State) (b : List Byte) : (State.reply s b).poison = s.poison := rfl
@[simp] theorem reply_dirty (s : State) (b : List Byte) : (State.reply s b).dirty = s.dirty := rfl
@[simp] theorem reply_dir (s : State) (b : List Byte) : (State.reply s b).dir = s.dir := rfl
@[simp] theorem reply_tlb (s : State) (b : List Byte) : (State.reply s b).tlb = s.tlb := rfl
@[simp] theorem reply_ranges (s : State) (b : List Byte) : (State.reply s b).ranges = s.ranges := rfl
@[simp] theorem reply_nextCid (s : State) (b : List Byte) : (State.reply s b).nextCid = s.nextCid := rfl
@[simp] theorem reply_granules (s : State) (b : List Byte) : (State.reply s b).granules = s.granules := rfl
@[simp] theorem reply_palettes (s : State) (b : List Byte) : (State.reply s b).palettes = s.palettes := rfl
@[simp] theorem reply_parts (s : State) (b : List Byte) : (State.reply s b).parts = s.parts := rfl
@[simp] theorem reply_moves (s : State) (b : List Byte) : (State.reply s b).moves = s.moves := rfl
@[simp] theorem reply_failedChannels (s : State) (b : List Byte) : (State.reply s b).failedChannels = s.failedChannels := rfl
@[simp] theorem reply_halvings (s : State) (b : List Byte) : (State.reply s b).halvings = s.halvings := rfl
@[simp] theorem reply_badBlocks (s : State) (b : List Byte) : (State.reply s b).badBlocks = s.badBlocks := rfl
@[simp] theorem reply_chunks (s : State) (b : List Byte) : (State.reply s b).chunks = s.chunks := rfl
@[simp] theorem reply_sbCheck (s : State) (b : List Byte) : (State.reply s b).sbCheck = s.sbCheck := rfl
@[simp] theorem reply_matrix (s : State) (b : List Byte) : (State.reply s b).matrix = s.matrix := rfl
@[simp] theorem reply_channels (s : State) (b : List Byte) : (State.reply s b).channels = s.channels := rfl
@[simp] theorem reply_launches (s : State) (b : List Byte) : (State.reply s b).launches = s.launches := rfl
@[simp] theorem reply_resume (s : State) (b : List Byte) : (State.reply s b).resume = s.resume := rfl
@[simp] theorem reply_requests (s : State) (b : List Byte) : (State.reply s b).requests = s.requests := rfl
@[simp] theorem reply_transit (s : State) (b : List Byte) : (State.reply s b).transit = s.transit := rfl
@[simp] theorem reply_bins (s : State) (b : List Byte) : (State.reply s b).bins = s.bins := rfl
@[simp] theorem reply_lits (s : State) (b : List Byte) : (State.reply s b).lits = s.lits := rfl
@[simp] theorem reply_engines (s : State) (b : List Byte) : (State.reply s b).engines = s.engines := rfl
@[simp] theorem reply_nextEngine (s : State) (b : List Byte) : (State.reply s b).nextEngine = s.nextEngine := rfl
@[simp] theorem reply_filled (s : State) (b : List Byte) : (State.reply s b).filled = s.filled := rfl
@[simp] theorem reply_holes (s : State) (b : List Byte) : (State.reply s b).holes = s.holes := rfl
@[simp] theorem reply_tails (s : State) (b : List Byte) : (State.reply s b).tails = s.tails := rfl
@[simp] theorem reply_pageReqs (s : State) (b : List Byte) : (State.reply s b).pageReqs = s.pageReqs := rfl
@[simp] theorem reply_atsWait (s : State) (b : List Byte) : (State.reply s b).atsWait = s.atsWait := rfl
@[simp] theorem reply_links (s : State) (b : List Byte) : (State.reply s b).links = s.links := rfl
@[simp] theorem reply_portModes (s : State) (b : List Byte) : (State.reply s b).portModes = s.portModes := rfl
@[simp] theorem reply_contained (s : State) (b : List Byte) : (State.reply s b).contained = s.contained := rfl
@[simp] theorem reply_ioTimeouts (s : State) (b : List Byte) : (State.reply s b).ioTimeouts = s.ioTimeouts := rfl
@[simp] theorem reply_package (s : State) (b : List Byte) : (State.reply s b).package = s.package := rfl
@[simp] theorem reply_peerNumber (s : State) (b : List Byte) : (State.reply s b).peerNumber = s.peerNumber := rfl
@[simp] theorem reply_members (s : State) (b : List Byte) : (State.reply s b).members = s.members := rfl
@[simp] theorem reply_routes (s : State) (b : List Byte) : (State.reply s b).routes = s.routes := rfl
@[simp] theorem reply_badColls (s : State) (b : List Byte) : (State.reply s b).badColls = s.badColls := rfl
@[simp] theorem reply_counters (s : State) (b : List Byte) : (State.reply s b).counters = s.counters := rfl
@[simp] theorem reply_events (s : State) (b : List Byte) : (State.reply s b).events = s.events := rfl
@[simp] theorem reply_devWrites (s : State) (b : List Byte) : (State.reply s b).devWrites = s.devWrites := rfl
@[simp] theorem reply_replies (s : State) (b : List Byte) : (State.reply s b).replies = s.replies ++ [b] := rfl
@[simp] theorem reply_measures (s : State) (b : List Byte) : (State.reply s b).measures = s.measures := rfl
@[simp] theorem reply_lifecycle (s : State) (b : List Byte) : (State.reply s b).lifecycle = s.lifecycle := rfl
@[simp] theorem reply_debugOpen (s : State) (b : List Byte) : (State.reply s b).debugOpen = s.debugOpen := rfl
@[simp] theorem reply_throttled (s : State) (b : List Byte) : (State.reply s b).throttled = s.throttled := rfl
@[simp] theorem reply_stepRecord (s : State) (b : List Byte) : (State.reply s b).stepRecord = s.stepRecord := rfl
@[simp] theorem reply_recovery (s : State) (b : List Byte) : (State.reply s b).recovery = s.recovery := rfl
@[simp] theorem reply_bootStep (s : State) (b : List Byte) : (State.reply s b).bootStep = s.bootStep := rfl
@[simp] theorem reply_freeCount (s : State) (b : List Byte) : (State.reply s b).freeCount = s.freeCount := rfl

/-! ### Writing a v element -/

@[simp] theorem setV_kind (a : Agent) (n l : Nat) (w : PWord) : (Agent.setV a n l w).kind = a.kind := rfl
@[simp] theorem setV_lanes (a : Agent) (n l : Nat) (w : PWord) : (Agent.setV a n l w).lanes = a.lanes := rfl
@[simp] theorem setV_gw (a : Agent) (n l : Nat) (w : PWord) : (Agent.setV a n l w).gw = a.gw := rfl
@[simp] theorem setV_bv (a : Agent) (n l : Nat) (w : PWord) : (Agent.setV a n l w).bv = a.bv := rfl
@[simp] theorem setV_bs (a : Agent) (n l : Nat) (w : PWord) : (Agent.setV a n l w).bs = a.bs := rfl
@[simp] theorem setV_ba (a : Agent) (n l : Nat) (w : PWord) : (Agent.setV a n l w).ba = a.ba := rfl
@[simp] theorem setV_grant (a : Agent) (n l : Nat) (w : PWord) : (Agent.setV a n l w).grant = a.grant := rfl
@[simp] theorem setV_scratchBase (a : Agent) (n l : Nat) (w : PWord) : (Agent.setV a n l w).scratchBase = a.scratchBase := rfl
@[simp] theorem setV_part (a : Agent) (n l : Nat) (w : PWord) : (Agent.setV a n l w).part = a.part := rfl
@[simp] theorem setV_cls (a : Agent) (n l : Nat) (w : PWord) : (Agent.setV a n l w).cls = a.cls := rfl
@[simp] theorem setV_asid (a : Agent) (n l : Nat) (w : PWord) : (Agent.setV a n l w).asid = a.asid := rfl
@[simp] theorem setV_launch (a : Agent) (n l : Nat) (w : PWord) : (Agent.setV a n l w).launch = a.launch := rfl
@[simp] theorem setV_teamid (a : Agent) (n l : Nat) (w : PWord) : (Agent.setV a n l w).teamid = a.teamid := rfl
@[simp] theorem setV_admission (a : Agent) (n l : Nat) (w : PWord) : (Agent.setV a n l w).admission = a.admission := rfl
@[simp] theorem setV_core (a : Agent) (n l : Nat) (w : PWord) : (Agent.setV a n l w).core = a.core := rfl
@[simp] theorem setV_quad (a : Agent) (n l : Nat) (w : PWord) : (Agent.setV a n l w).quad = a.quad := rfl
@[simp] theorem setV_slot (a : Agent) (n l : Nat) (w : PWord) : (Agent.setV a n l w).slot = a.slot := rfl
@[simp] theorem setV_span (a : Agent) (n l : Nat) (w : PWord) : (Agent.setV a n l w).span = a.span := rfl
@[simp] theorem setV_tcause (a : Agent) (n l : Nat) (w : PWord) : (Agent.setV a n l w).tcause = a.tcause := rfl
@[simp] theorem setV_tpc (a : Agent) (n l : Nat) (w : PWord) : (Agent.setV a n l w).tpc = a.tpc := rfl
@[simp] theorem setV_tmask (a : Agent) (n l : Nat) (w : PWord) : (Agent.setV a n l w).tmask = a.tmask := rfl
@[simp] theorem setV_taddr (a : Agent) (n l : Nat) (w : PWord) : (Agent.setV a n l w).taddr = a.taddr := rfl
@[simp] theorem setV_sstop (a : Agent) (n l : Nat) (w : PWord) : (Agent.setV a n l w).sstop = a.sstop := rfl
@[simp] theorem setV_pendingTrap (a : Agent) (n l : Nat) (w : PWord) : (Agent.setV a n l w).pendingTrap = a.pendingTrap := rfl
@[simp] theorem setV_eraseCnt (a : Agent) (n l : Nat) (w : PWord) : (Agent.setV a n l w).eraseCnt = a.eraseCnt := rfl
@[simp] theorem setV_specLvl (a : Agent) (n l : Nat) (w : PWord) : (Agent.setV a n l w).specLvl = a.specLvl := rfl
@[simp] theorem setV_eraseRun (a : Agent) (n l : Nat) (w : PWord) : (Agent.setV a n l w).eraseRun = a.eraseRun := rfl
@[simp] theorem setV_inkRun (a : Agent) (n l : Nat) (w : PWord) : (Agent.setV a n l w).inkRun = a.inkRun := rfl
@[simp] theorem setV_sketch (a : Agent) (n l : Nat) (w : PWord) : (Agent.setV a n l w).sketch = a.sketch := rfl
@[simp] theorem setV_loads (a : Agent) (n l : Nat) (w : PWord) : (Agent.setV a n l w).loads = a.loads := rfl
@[simp] theorem setV_storeQ (a : Agent) (n l : Nat) (w : PWord) : (Agent.setV a n l w).storeQ = a.storeQ := rfl
@[simp] theorem setV_replayQ (a : Agent) (n l : Nat) (w : PWord) : (Agent.setV a n l w).replayQ = a.replayQ := rfl
@[simp] theorem setV_varlat (a : Agent) (n l : Nat) (w : PWord) : (Agent.setV a n l w).varlat = a.varlat := rfl
@[simp] theorem setV_transforms (a : Agent) (n l : Nat) (w : PWord) : (Agent.setV a n l w).transforms = a.transforms := rfl
@[simp] theorem setV_migrating (a : Agent) (n l : Nat) (w : PWord) : (Agent.setV a n l w).migrating = a.migrating := rfl
@[simp] theorem setV_spawnQ (a : Agent) (n l : Nat) (w : PWord) : (Agent.setV a n l w).spawnQ = a.spawnQ := rfl
@[simp] theorem setV_score (a : Agent) (n l : Nat) (w : PWord) : (Agent.setV a n l w).score = a.score := rfl
@[simp] theorem setV_excUntil (a : Agent) (n l : Nat) (w : PWord) : (Agent.setV a n l w).excUntil = a.excUntil := rfl
@[simp] theorem setV_notBefore (a : Agent) (n l : Nat) (w : PWord) : (Agent.setV a n l w).notBefore = a.notBefore := rfl
@[simp] theorem setV_lastIssue (a : Agent) (n l : Nat) (w : PWord) : (Agent.setV a n l w).lastIssue = a.lastIssue := rfl
@[simp] theorem setV_ns (a : Agent) (n l : Nat) (w : PWord) : (Agent.setV a n l w).ns = a.ns := rfl
@[simp] theorem setV_waited (a : Agent) (n l : Nat) (w : PWord) : (Agent.setV a n l w).waited = a.waited := rfl
@[simp] theorem setV_wait (a : Agent) (n l : Nat) (w : PWord) : (Agent.setV a n l w).wait = a.wait := rfl
@[simp] theorem setV_preq (a : Agent) (n l : Nat) (w : PWord) : (Agent.setV a n l w).preq = a.preq := rfl
@[simp] theorem setV_killed (a : Agent) (n l : Nat) (w : PWord) : (Agent.setV a n l w).killed = a.killed := rfl
@[simp] theorem setV_intrs (a : Agent) (n l : Nat) (w : PWord) : (Agent.setV a n l w).intrs = a.intrs := rfl
@[simp] theorem setV_hvec (a : Agent) (n l : Nat) (w : PWord) : (Agent.setV a n l w).hvec = a.hvec := rfl
@[simp] theorem setV_upc (a : Agent) (n l : Nat) (w : PWord) : (Agent.setV a n l w).upc = a.upc := rfl
@[simp] theorem setV_spill (a : Agent) (n l : Nat) (w : PWord) : (Agent.setV a n l w).spill = a.spill := rfl
@[simp] theorem setV_refs (a : Agent) (n l : Nat) (w : PWord) : (Agent.setV a n l w).refs = a.refs := rfl
@[simp] theorem setV_binDie (a : Agent) (n l : Nat) (w : PWord) : (Agent.setV a n l w).binDie = a.binDie := rfl
@[simp] theorem setV_seq (a : Agent) (n l : Nat) (w : PWord) : (Agent.setV a n l w).seq = a.seq := rfl

/-! ### Writing a mask register -/

@[simp] theorem setM_kind (a : Agent) (n : Nat) (m : LaneMask) : (Agent.setM a n m).kind = a.kind := rfl
@[simp] theorem setM_lanes (a : Agent) (n : Nat) (m : LaneMask) : (Agent.setM a n m).lanes = a.lanes := rfl
@[simp] theorem setM_gw (a : Agent) (n : Nat) (m : LaneMask) : (Agent.setM a n m).gw = a.gw := rfl
@[simp] theorem setM_bv (a : Agent) (n : Nat) (m : LaneMask) : (Agent.setM a n m).bv = a.bv := rfl
@[simp] theorem setM_bs (a : Agent) (n : Nat) (m : LaneMask) : (Agent.setM a n m).bs = a.bs := rfl
@[simp] theorem setM_ba (a : Agent) (n : Nat) (m : LaneMask) : (Agent.setM a n m).ba = a.ba := rfl
@[simp] theorem setM_grant (a : Agent) (n : Nat) (m : LaneMask) : (Agent.setM a n m).grant = a.grant := rfl
@[simp] theorem setM_scratchBase (a : Agent) (n : Nat) (m : LaneMask) : (Agent.setM a n m).scratchBase = a.scratchBase := rfl
@[simp] theorem setM_part (a : Agent) (n : Nat) (m : LaneMask) : (Agent.setM a n m).part = a.part := rfl
@[simp] theorem setM_cls (a : Agent) (n : Nat) (m : LaneMask) : (Agent.setM a n m).cls = a.cls := rfl
@[simp] theorem setM_asid (a : Agent) (n : Nat) (m : LaneMask) : (Agent.setM a n m).asid = a.asid := rfl
@[simp] theorem setM_launch (a : Agent) (n : Nat) (m : LaneMask) : (Agent.setM a n m).launch = a.launch := rfl
@[simp] theorem setM_teamid (a : Agent) (n : Nat) (m : LaneMask) : (Agent.setM a n m).teamid = a.teamid := rfl
@[simp] theorem setM_admission (a : Agent) (n : Nat) (m : LaneMask) : (Agent.setM a n m).admission = a.admission := rfl
@[simp] theorem setM_core (a : Agent) (n : Nat) (m : LaneMask) : (Agent.setM a n m).core = a.core := rfl
@[simp] theorem setM_quad (a : Agent) (n : Nat) (m : LaneMask) : (Agent.setM a n m).quad = a.quad := rfl
@[simp] theorem setM_slot (a : Agent) (n : Nat) (m : LaneMask) : (Agent.setM a n m).slot = a.slot := rfl
@[simp] theorem setM_span (a : Agent) (n : Nat) (m : LaneMask) : (Agent.setM a n m).span = a.span := rfl
@[simp] theorem setM_tcause (a : Agent) (n : Nat) (m : LaneMask) : (Agent.setM a n m).tcause = a.tcause := rfl
@[simp] theorem setM_tpc (a : Agent) (n : Nat) (m : LaneMask) : (Agent.setM a n m).tpc = a.tpc := rfl
@[simp] theorem setM_tmask (a : Agent) (n : Nat) (m : LaneMask) : (Agent.setM a n m).tmask = a.tmask := rfl
@[simp] theorem setM_taddr (a : Agent) (n : Nat) (m : LaneMask) : (Agent.setM a n m).taddr = a.taddr := rfl
@[simp] theorem setM_sstop (a : Agent) (n : Nat) (m : LaneMask) : (Agent.setM a n m).sstop = a.sstop := rfl
@[simp] theorem setM_pendingTrap (a : Agent) (n : Nat) (m : LaneMask) : (Agent.setM a n m).pendingTrap = a.pendingTrap := rfl
@[simp] theorem setM_eraseCnt (a : Agent) (n : Nat) (m : LaneMask) : (Agent.setM a n m).eraseCnt = a.eraseCnt := rfl
@[simp] theorem setM_specLvl (a : Agent) (n : Nat) (m : LaneMask) : (Agent.setM a n m).specLvl = a.specLvl := rfl
@[simp] theorem setM_eraseRun (a : Agent) (n : Nat) (m : LaneMask) : (Agent.setM a n m).eraseRun = a.eraseRun := rfl
@[simp] theorem setM_inkRun (a : Agent) (n : Nat) (m : LaneMask) : (Agent.setM a n m).inkRun = a.inkRun := rfl
@[simp] theorem setM_sketch (a : Agent) (n : Nat) (m : LaneMask) : (Agent.setM a n m).sketch = a.sketch := rfl
@[simp] theorem setM_loads (a : Agent) (n : Nat) (m : LaneMask) : (Agent.setM a n m).loads = a.loads := rfl
@[simp] theorem setM_storeQ (a : Agent) (n : Nat) (m : LaneMask) : (Agent.setM a n m).storeQ = a.storeQ := rfl
@[simp] theorem setM_replayQ (a : Agent) (n : Nat) (m : LaneMask) : (Agent.setM a n m).replayQ = a.replayQ := rfl
@[simp] theorem setM_varlat (a : Agent) (n : Nat) (m : LaneMask) : (Agent.setM a n m).varlat = a.varlat := rfl
@[simp] theorem setM_transforms (a : Agent) (n : Nat) (m : LaneMask) : (Agent.setM a n m).transforms = a.transforms := rfl
@[simp] theorem setM_migrating (a : Agent) (n : Nat) (m : LaneMask) : (Agent.setM a n m).migrating = a.migrating := rfl
@[simp] theorem setM_spawnQ (a : Agent) (n : Nat) (m : LaneMask) : (Agent.setM a n m).spawnQ = a.spawnQ := rfl
@[simp] theorem setM_score (a : Agent) (n : Nat) (m : LaneMask) : (Agent.setM a n m).score = a.score := rfl
@[simp] theorem setM_excUntil (a : Agent) (n : Nat) (m : LaneMask) : (Agent.setM a n m).excUntil = a.excUntil := rfl
@[simp] theorem setM_notBefore (a : Agent) (n : Nat) (m : LaneMask) : (Agent.setM a n m).notBefore = a.notBefore := rfl
@[simp] theorem setM_lastIssue (a : Agent) (n : Nat) (m : LaneMask) : (Agent.setM a n m).lastIssue = a.lastIssue := rfl
@[simp] theorem setM_ns (a : Agent) (n : Nat) (m : LaneMask) : (Agent.setM a n m).ns = a.ns := rfl
@[simp] theorem setM_waited (a : Agent) (n : Nat) (m : LaneMask) : (Agent.setM a n m).waited = a.waited := rfl
@[simp] theorem setM_wait (a : Agent) (n : Nat) (m : LaneMask) : (Agent.setM a n m).wait = a.wait := rfl
@[simp] theorem setM_preq (a : Agent) (n : Nat) (m : LaneMask) : (Agent.setM a n m).preq = a.preq := rfl
@[simp] theorem setM_killed (a : Agent) (n : Nat) (m : LaneMask) : (Agent.setM a n m).killed = a.killed := rfl
@[simp] theorem setM_intrs (a : Agent) (n : Nat) (m : LaneMask) : (Agent.setM a n m).intrs = a.intrs := rfl
@[simp] theorem setM_hvec (a : Agent) (n : Nat) (m : LaneMask) : (Agent.setM a n m).hvec = a.hvec := rfl
@[simp] theorem setM_upc (a : Agent) (n : Nat) (m : LaneMask) : (Agent.setM a n m).upc = a.upc := rfl
@[simp] theorem setM_spill (a : Agent) (n : Nat) (m : LaneMask) : (Agent.setM a n m).spill = a.spill := rfl
@[simp] theorem setM_refs (a : Agent) (n : Nat) (m : LaneMask) : (Agent.setM a n m).refs = a.refs := rfl
@[simp] theorem setM_binDie (a : Agent) (n : Nat) (m : LaneMask) : (Agent.setM a n m).binDie = a.binDie := rfl
@[simp] theorem setM_seq (a : Agent) (n : Nat) (m : LaneMask) : (Agent.setM a n m).seq = a.seq := rfl

/-! ### Writing an accumulator tile -/

@[simp] theorem setTile_kind (a : Agent) (t : Nat) (ws : Cells PWord) : (Agent.setTile a t ws).kind = a.kind := rfl
@[simp] theorem setTile_lanes (a : Agent) (t : Nat) (ws : Cells PWord) : (Agent.setTile a t ws).lanes = a.lanes := rfl
@[simp] theorem setTile_gw (a : Agent) (t : Nat) (ws : Cells PWord) : (Agent.setTile a t ws).gw = a.gw := rfl
@[simp] theorem setTile_bv (a : Agent) (t : Nat) (ws : Cells PWord) : (Agent.setTile a t ws).bv = a.bv := rfl
@[simp] theorem setTile_bs (a : Agent) (t : Nat) (ws : Cells PWord) : (Agent.setTile a t ws).bs = a.bs := rfl
@[simp] theorem setTile_ba (a : Agent) (t : Nat) (ws : Cells PWord) : (Agent.setTile a t ws).ba = a.ba := rfl
@[simp] theorem setTile_grant (a : Agent) (t : Nat) (ws : Cells PWord) : (Agent.setTile a t ws).grant = a.grant := rfl
@[simp] theorem setTile_scratchBase (a : Agent) (t : Nat) (ws : Cells PWord) : (Agent.setTile a t ws).scratchBase = a.scratchBase := rfl
@[simp] theorem setTile_part (a : Agent) (t : Nat) (ws : Cells PWord) : (Agent.setTile a t ws).part = a.part := rfl
@[simp] theorem setTile_cls (a : Agent) (t : Nat) (ws : Cells PWord) : (Agent.setTile a t ws).cls = a.cls := rfl
@[simp] theorem setTile_asid (a : Agent) (t : Nat) (ws : Cells PWord) : (Agent.setTile a t ws).asid = a.asid := rfl
@[simp] theorem setTile_launch (a : Agent) (t : Nat) (ws : Cells PWord) : (Agent.setTile a t ws).launch = a.launch := rfl
@[simp] theorem setTile_teamid (a : Agent) (t : Nat) (ws : Cells PWord) : (Agent.setTile a t ws).teamid = a.teamid := rfl
@[simp] theorem setTile_admission (a : Agent) (t : Nat) (ws : Cells PWord) : (Agent.setTile a t ws).admission = a.admission := rfl
@[simp] theorem setTile_core (a : Agent) (t : Nat) (ws : Cells PWord) : (Agent.setTile a t ws).core = a.core := rfl
@[simp] theorem setTile_quad (a : Agent) (t : Nat) (ws : Cells PWord) : (Agent.setTile a t ws).quad = a.quad := rfl
@[simp] theorem setTile_slot (a : Agent) (t : Nat) (ws : Cells PWord) : (Agent.setTile a t ws).slot = a.slot := rfl
@[simp] theorem setTile_span (a : Agent) (t : Nat) (ws : Cells PWord) : (Agent.setTile a t ws).span = a.span := rfl
@[simp] theorem setTile_tcause (a : Agent) (t : Nat) (ws : Cells PWord) : (Agent.setTile a t ws).tcause = a.tcause := rfl
@[simp] theorem setTile_tpc (a : Agent) (t : Nat) (ws : Cells PWord) : (Agent.setTile a t ws).tpc = a.tpc := rfl
@[simp] theorem setTile_tmask (a : Agent) (t : Nat) (ws : Cells PWord) : (Agent.setTile a t ws).tmask = a.tmask := rfl
@[simp] theorem setTile_taddr (a : Agent) (t : Nat) (ws : Cells PWord) : (Agent.setTile a t ws).taddr = a.taddr := rfl
@[simp] theorem setTile_sstop (a : Agent) (t : Nat) (ws : Cells PWord) : (Agent.setTile a t ws).sstop = a.sstop := rfl
@[simp] theorem setTile_pendingTrap (a : Agent) (t : Nat) (ws : Cells PWord) : (Agent.setTile a t ws).pendingTrap = a.pendingTrap := rfl
@[simp] theorem setTile_eraseCnt (a : Agent) (t : Nat) (ws : Cells PWord) : (Agent.setTile a t ws).eraseCnt = a.eraseCnt := rfl
@[simp] theorem setTile_specLvl (a : Agent) (t : Nat) (ws : Cells PWord) : (Agent.setTile a t ws).specLvl = a.specLvl := rfl
@[simp] theorem setTile_eraseRun (a : Agent) (t : Nat) (ws : Cells PWord) : (Agent.setTile a t ws).eraseRun = a.eraseRun := rfl
@[simp] theorem setTile_inkRun (a : Agent) (t : Nat) (ws : Cells PWord) : (Agent.setTile a t ws).inkRun = a.inkRun := rfl
@[simp] theorem setTile_sketch (a : Agent) (t : Nat) (ws : Cells PWord) : (Agent.setTile a t ws).sketch = a.sketch := rfl
@[simp] theorem setTile_loads (a : Agent) (t : Nat) (ws : Cells PWord) : (Agent.setTile a t ws).loads = a.loads := rfl
@[simp] theorem setTile_storeQ (a : Agent) (t : Nat) (ws : Cells PWord) : (Agent.setTile a t ws).storeQ = a.storeQ := rfl
@[simp] theorem setTile_replayQ (a : Agent) (t : Nat) (ws : Cells PWord) : (Agent.setTile a t ws).replayQ = a.replayQ := rfl
@[simp] theorem setTile_varlat (a : Agent) (t : Nat) (ws : Cells PWord) : (Agent.setTile a t ws).varlat = a.varlat := rfl
@[simp] theorem setTile_transforms (a : Agent) (t : Nat) (ws : Cells PWord) : (Agent.setTile a t ws).transforms = a.transforms := rfl
@[simp] theorem setTile_migrating (a : Agent) (t : Nat) (ws : Cells PWord) : (Agent.setTile a t ws).migrating = a.migrating := rfl
@[simp] theorem setTile_spawnQ (a : Agent) (t : Nat) (ws : Cells PWord) : (Agent.setTile a t ws).spawnQ = a.spawnQ := rfl
@[simp] theorem setTile_score (a : Agent) (t : Nat) (ws : Cells PWord) : (Agent.setTile a t ws).score = a.score := rfl
@[simp] theorem setTile_excUntil (a : Agent) (t : Nat) (ws : Cells PWord) : (Agent.setTile a t ws).excUntil = a.excUntil := rfl
@[simp] theorem setTile_notBefore (a : Agent) (t : Nat) (ws : Cells PWord) : (Agent.setTile a t ws).notBefore = a.notBefore := rfl
@[simp] theorem setTile_lastIssue (a : Agent) (t : Nat) (ws : Cells PWord) : (Agent.setTile a t ws).lastIssue = a.lastIssue := rfl
@[simp] theorem setTile_ns (a : Agent) (t : Nat) (ws : Cells PWord) : (Agent.setTile a t ws).ns = a.ns := rfl
@[simp] theorem setTile_waited (a : Agent) (t : Nat) (ws : Cells PWord) : (Agent.setTile a t ws).waited = a.waited := rfl
@[simp] theorem setTile_wait (a : Agent) (t : Nat) (ws : Cells PWord) : (Agent.setTile a t ws).wait = a.wait := rfl
@[simp] theorem setTile_preq (a : Agent) (t : Nat) (ws : Cells PWord) : (Agent.setTile a t ws).preq = a.preq := rfl
@[simp] theorem setTile_killed (a : Agent) (t : Nat) (ws : Cells PWord) : (Agent.setTile a t ws).killed = a.killed := rfl
@[simp] theorem setTile_intrs (a : Agent) (t : Nat) (ws : Cells PWord) : (Agent.setTile a t ws).intrs = a.intrs := rfl
@[simp] theorem setTile_hvec (a : Agent) (t : Nat) (ws : Cells PWord) : (Agent.setTile a t ws).hvec = a.hvec := rfl
@[simp] theorem setTile_upc (a : Agent) (t : Nat) (ws : Cells PWord) : (Agent.setTile a t ws).upc = a.upc := rfl
@[simp] theorem setTile_spill (a : Agent) (t : Nat) (ws : Cells PWord) : (Agent.setTile a t ws).spill = a.spill := rfl
@[simp] theorem setTile_refs (a : Agent) (t : Nat) (ws : Cells PWord) : (Agent.setTile a t ws).refs = a.refs := rfl
@[simp] theorem setTile_binDie (a : Agent) (t : Nat) (ws : Cells PWord) : (Agent.setTile a t ws).binDie = a.binDie := rfl
@[simp] theorem setTile_seq (a : Agent) (t : Nat) (ws : Cells PWord) : (Agent.setTile a t ws).seq = a.seq := rfl

/-! ### Setting the PC -/

@[simp] theorem setPc_kind (a : Agent) (pc : BitVec 56) : (Agent.setPc a pc).kind = a.kind := rfl
@[simp] theorem setPc_lanes (a : Agent) (pc : BitVec 56) : (Agent.setPc a pc).lanes = a.lanes := rfl
@[simp] theorem setPc_gw (a : Agent) (pc : BitVec 56) : (Agent.setPc a pc).gw = a.gw := rfl
@[simp] theorem setPc_bv (a : Agent) (pc : BitVec 56) : (Agent.setPc a pc).bv = a.bv := rfl
@[simp] theorem setPc_bs (a : Agent) (pc : BitVec 56) : (Agent.setPc a pc).bs = a.bs := rfl
@[simp] theorem setPc_ba (a : Agent) (pc : BitVec 56) : (Agent.setPc a pc).ba = a.ba := rfl
@[simp] theorem setPc_grant (a : Agent) (pc : BitVec 56) : (Agent.setPc a pc).grant = a.grant := rfl
@[simp] theorem setPc_scratchBase (a : Agent) (pc : BitVec 56) : (Agent.setPc a pc).scratchBase = a.scratchBase := rfl
@[simp] theorem setPc_part (a : Agent) (pc : BitVec 56) : (Agent.setPc a pc).part = a.part := rfl
@[simp] theorem setPc_cls (a : Agent) (pc : BitVec 56) : (Agent.setPc a pc).cls = a.cls := rfl
@[simp] theorem setPc_asid (a : Agent) (pc : BitVec 56) : (Agent.setPc a pc).asid = a.asid := rfl
@[simp] theorem setPc_launch (a : Agent) (pc : BitVec 56) : (Agent.setPc a pc).launch = a.launch := rfl
@[simp] theorem setPc_teamid (a : Agent) (pc : BitVec 56) : (Agent.setPc a pc).teamid = a.teamid := rfl
@[simp] theorem setPc_admission (a : Agent) (pc : BitVec 56) : (Agent.setPc a pc).admission = a.admission := rfl
@[simp] theorem setPc_core (a : Agent) (pc : BitVec 56) : (Agent.setPc a pc).core = a.core := rfl
@[simp] theorem setPc_quad (a : Agent) (pc : BitVec 56) : (Agent.setPc a pc).quad = a.quad := rfl
@[simp] theorem setPc_slot (a : Agent) (pc : BitVec 56) : (Agent.setPc a pc).slot = a.slot := rfl
@[simp] theorem setPc_span (a : Agent) (pc : BitVec 56) : (Agent.setPc a pc).span = a.span := rfl
@[simp] theorem setPc_tcause (a : Agent) (pc : BitVec 56) : (Agent.setPc a pc).tcause = a.tcause := rfl
@[simp] theorem setPc_tpc (a : Agent) (pc : BitVec 56) : (Agent.setPc a pc).tpc = a.tpc := rfl
@[simp] theorem setPc_tmask (a : Agent) (pc : BitVec 56) : (Agent.setPc a pc).tmask = a.tmask := rfl
@[simp] theorem setPc_taddr (a : Agent) (pc : BitVec 56) : (Agent.setPc a pc).taddr = a.taddr := rfl
@[simp] theorem setPc_sstop (a : Agent) (pc : BitVec 56) : (Agent.setPc a pc).sstop = a.sstop := rfl
@[simp] theorem setPc_pendingTrap (a : Agent) (pc : BitVec 56) : (Agent.setPc a pc).pendingTrap = a.pendingTrap := rfl
@[simp] theorem setPc_eraseCnt (a : Agent) (pc : BitVec 56) : (Agent.setPc a pc).eraseCnt = a.eraseCnt := rfl
@[simp] theorem setPc_specLvl (a : Agent) (pc : BitVec 56) : (Agent.setPc a pc).specLvl = a.specLvl := rfl
@[simp] theorem setPc_eraseRun (a : Agent) (pc : BitVec 56) : (Agent.setPc a pc).eraseRun = a.eraseRun := rfl
@[simp] theorem setPc_inkRun (a : Agent) (pc : BitVec 56) : (Agent.setPc a pc).inkRun = a.inkRun := rfl
@[simp] theorem setPc_sketch (a : Agent) (pc : BitVec 56) : (Agent.setPc a pc).sketch = a.sketch := rfl
@[simp] theorem setPc_loads (a : Agent) (pc : BitVec 56) : (Agent.setPc a pc).loads = a.loads := rfl
@[simp] theorem setPc_storeQ (a : Agent) (pc : BitVec 56) : (Agent.setPc a pc).storeQ = a.storeQ := rfl
@[simp] theorem setPc_replayQ (a : Agent) (pc : BitVec 56) : (Agent.setPc a pc).replayQ = a.replayQ := rfl
@[simp] theorem setPc_varlat (a : Agent) (pc : BitVec 56) : (Agent.setPc a pc).varlat = a.varlat := rfl
@[simp] theorem setPc_transforms (a : Agent) (pc : BitVec 56) : (Agent.setPc a pc).transforms = a.transforms := rfl
@[simp] theorem setPc_migrating (a : Agent) (pc : BitVec 56) : (Agent.setPc a pc).migrating = a.migrating := rfl
@[simp] theorem setPc_spawnQ (a : Agent) (pc : BitVec 56) : (Agent.setPc a pc).spawnQ = a.spawnQ := rfl
@[simp] theorem setPc_score (a : Agent) (pc : BitVec 56) : (Agent.setPc a pc).score = a.score := rfl
@[simp] theorem setPc_excUntil (a : Agent) (pc : BitVec 56) : (Agent.setPc a pc).excUntil = a.excUntil := rfl
@[simp] theorem setPc_notBefore (a : Agent) (pc : BitVec 56) : (Agent.setPc a pc).notBefore = a.notBefore := rfl
@[simp] theorem setPc_lastIssue (a : Agent) (pc : BitVec 56) : (Agent.setPc a pc).lastIssue = a.lastIssue := rfl
@[simp] theorem setPc_ns (a : Agent) (pc : BitVec 56) : (Agent.setPc a pc).ns = a.ns := rfl
@[simp] theorem setPc_waited (a : Agent) (pc : BitVec 56) : (Agent.setPc a pc).waited = a.waited := rfl
@[simp] theorem setPc_wait (a : Agent) (pc : BitVec 56) : (Agent.setPc a pc).wait = a.wait := rfl
@[simp] theorem setPc_preq (a : Agent) (pc : BitVec 56) : (Agent.setPc a pc).preq = a.preq := rfl
@[simp] theorem setPc_killed (a : Agent) (pc : BitVec 56) : (Agent.setPc a pc).killed = a.killed := rfl
@[simp] theorem setPc_intrs (a : Agent) (pc : BitVec 56) : (Agent.setPc a pc).intrs = a.intrs := rfl
@[simp] theorem setPc_hvec (a : Agent) (pc : BitVec 56) : (Agent.setPc a pc).hvec = a.hvec := rfl
@[simp] theorem setPc_upc (a : Agent) (pc : BitVec 56) : (Agent.setPc a pc).upc = a.upc := rfl
@[simp] theorem setPc_spill (a : Agent) (pc : BitVec 56) : (Agent.setPc a pc).spill = a.spill := rfl
@[simp] theorem setPc_refs (a : Agent) (pc : BitVec 56) : (Agent.setPc a pc).refs = a.refs := rfl
@[simp] theorem setPc_binDie (a : Agent) (pc : BitVec 56) : (Agent.setPc a pc).binDie = a.binDie := rfl
@[simp] theorem setPc_seq (a : Agent) (pc : BitVec 56) : (Agent.setPc a pc).seq = a.seq := rfl

/-! ### Writing an s field of an agent -/

@[simp] theorem setS_kind (a : Agent) (n : Nat) (v : PDword) : (Agent.setS a n v).kind = a.kind := by unfold Agent.setS; repeat (first | rfl | split)
@[simp] theorem setS_lanes (a : Agent) (n : Nat) (v : PDword) : (Agent.setS a n v).lanes = a.lanes := by unfold Agent.setS; repeat (first | rfl | split)
@[simp] theorem setS_gw (a : Agent) (n : Nat) (v : PDword) : (Agent.setS a n v).gw = a.gw := by unfold Agent.setS; repeat (first | rfl | split)
@[simp] theorem setS_bv (a : Agent) (n : Nat) (v : PDword) : (Agent.setS a n v).bv = a.bv := by unfold Agent.setS; repeat (first | rfl | split)
@[simp] theorem setS_bs (a : Agent) (n : Nat) (v : PDword) : (Agent.setS a n v).bs = a.bs := by unfold Agent.setS; repeat (first | rfl | split)
@[simp] theorem setS_ba (a : Agent) (n : Nat) (v : PDword) : (Agent.setS a n v).ba = a.ba := by unfold Agent.setS; repeat (first | rfl | split)
@[simp] theorem setS_grant (a : Agent) (n : Nat) (v : PDword) : (Agent.setS a n v).grant = a.grant := by unfold Agent.setS; repeat (first | rfl | split)
@[simp] theorem setS_scratchBase (a : Agent) (n : Nat) (v : PDword) : (Agent.setS a n v).scratchBase = a.scratchBase := by unfold Agent.setS; repeat (first | rfl | split)
@[simp] theorem setS_part (a : Agent) (n : Nat) (v : PDword) : (Agent.setS a n v).part = a.part := by unfold Agent.setS; repeat (first | rfl | split)
@[simp] theorem setS_cls (a : Agent) (n : Nat) (v : PDword) : (Agent.setS a n v).cls = a.cls := by unfold Agent.setS; repeat (first | rfl | split)
@[simp] theorem setS_asid (a : Agent) (n : Nat) (v : PDword) : (Agent.setS a n v).asid = a.asid := by unfold Agent.setS; repeat (first | rfl | split)
@[simp] theorem setS_launch (a : Agent) (n : Nat) (v : PDword) : (Agent.setS a n v).launch = a.launch := by unfold Agent.setS; repeat (first | rfl | split)
@[simp] theorem setS_teamid (a : Agent) (n : Nat) (v : PDword) : (Agent.setS a n v).teamid = a.teamid := by unfold Agent.setS; repeat (first | rfl | split)
@[simp] theorem setS_admission (a : Agent) (n : Nat) (v : PDword) : (Agent.setS a n v).admission = a.admission := by unfold Agent.setS; repeat (first | rfl | split)
@[simp] theorem setS_core (a : Agent) (n : Nat) (v : PDword) : (Agent.setS a n v).core = a.core := by unfold Agent.setS; repeat (first | rfl | split)
@[simp] theorem setS_quad (a : Agent) (n : Nat) (v : PDword) : (Agent.setS a n v).quad = a.quad := by unfold Agent.setS; repeat (first | rfl | split)
@[simp] theorem setS_slot (a : Agent) (n : Nat) (v : PDword) : (Agent.setS a n v).slot = a.slot := by unfold Agent.setS; repeat (first | rfl | split)
@[simp] theorem setS_span (a : Agent) (n : Nat) (v : PDword) : (Agent.setS a n v).span = a.span := by unfold Agent.setS; repeat (first | rfl | split)
@[simp] theorem setS_tcause (a : Agent) (n : Nat) (v : PDword) : (Agent.setS a n v).tcause = a.tcause := by unfold Agent.setS; repeat (first | rfl | split)
@[simp] theorem setS_tpc (a : Agent) (n : Nat) (v : PDword) : (Agent.setS a n v).tpc = a.tpc := by unfold Agent.setS; repeat (first | rfl | split)
@[simp] theorem setS_tmask (a : Agent) (n : Nat) (v : PDword) : (Agent.setS a n v).tmask = a.tmask := by unfold Agent.setS; repeat (first | rfl | split)
@[simp] theorem setS_taddr (a : Agent) (n : Nat) (v : PDword) : (Agent.setS a n v).taddr = a.taddr := by unfold Agent.setS; repeat (first | rfl | split)
@[simp] theorem setS_sstop (a : Agent) (n : Nat) (v : PDword) : (Agent.setS a n v).sstop = a.sstop := by unfold Agent.setS; repeat (first | rfl | split)
@[simp] theorem setS_pendingTrap (a : Agent) (n : Nat) (v : PDword) : (Agent.setS a n v).pendingTrap = a.pendingTrap := by unfold Agent.setS; repeat (first | rfl | split)
@[simp] theorem setS_eraseCnt (a : Agent) (n : Nat) (v : PDword) : (Agent.setS a n v).eraseCnt = a.eraseCnt := by unfold Agent.setS; repeat (first | rfl | split)
@[simp] theorem setS_specLvl (a : Agent) (n : Nat) (v : PDword) : (Agent.setS a n v).specLvl = a.specLvl := by unfold Agent.setS; repeat (first | rfl | split)
@[simp] theorem setS_eraseRun (a : Agent) (n : Nat) (v : PDword) : (Agent.setS a n v).eraseRun = a.eraseRun := by unfold Agent.setS; repeat (first | rfl | split)
@[simp] theorem setS_inkRun (a : Agent) (n : Nat) (v : PDword) : (Agent.setS a n v).inkRun = a.inkRun := by unfold Agent.setS; repeat (first | rfl | split)
@[simp] theorem setS_sketch (a : Agent) (n : Nat) (v : PDword) : (Agent.setS a n v).sketch = a.sketch := by unfold Agent.setS; repeat (first | rfl | split)
@[simp] theorem setS_loads (a : Agent) (n : Nat) (v : PDword) : (Agent.setS a n v).loads = a.loads := by unfold Agent.setS; repeat (first | rfl | split)
@[simp] theorem setS_storeQ (a : Agent) (n : Nat) (v : PDword) : (Agent.setS a n v).storeQ = a.storeQ := by unfold Agent.setS; repeat (first | rfl | split)
@[simp] theorem setS_replayQ (a : Agent) (n : Nat) (v : PDword) : (Agent.setS a n v).replayQ = a.replayQ := by unfold Agent.setS; repeat (first | rfl | split)
@[simp] theorem setS_varlat (a : Agent) (n : Nat) (v : PDword) : (Agent.setS a n v).varlat = a.varlat := by unfold Agent.setS; repeat (first | rfl | split)
@[simp] theorem setS_spawnQ (a : Agent) (n : Nat) (v : PDword) : (Agent.setS a n v).spawnQ = a.spawnQ := by unfold Agent.setS; repeat (first | rfl | split)
@[simp] theorem setS_score (a : Agent) (n : Nat) (v : PDword) : (Agent.setS a n v).score = a.score := by unfold Agent.setS; repeat (first | rfl | split)
@[simp] theorem setS_notBefore (a : Agent) (n : Nat) (v : PDword) : (Agent.setS a n v).notBefore = a.notBefore := by unfold Agent.setS; repeat (first | rfl | split)
@[simp] theorem setS_ns (a : Agent) (n : Nat) (v : PDword) : (Agent.setS a n v).ns = a.ns := by unfold Agent.setS; repeat (first | rfl | split)
@[simp] theorem setS_waited (a : Agent) (n : Nat) (v : PDword) : (Agent.setS a n v).waited = a.waited := by unfold Agent.setS; repeat (first | rfl | split)
@[simp] theorem setS_wait (a : Agent) (n : Nat) (v : PDword) : (Agent.setS a n v).wait = a.wait := by unfold Agent.setS; repeat (first | rfl | split)
@[simp] theorem setS_preq (a : Agent) (n : Nat) (v : PDword) : (Agent.setS a n v).preq = a.preq := by unfold Agent.setS; repeat (first | rfl | split)
@[simp] theorem setS_killed (a : Agent) (n : Nat) (v : PDword) : (Agent.setS a n v).killed = a.killed := by unfold Agent.setS; repeat (first | rfl | split)
@[simp] theorem setS_intrs (a : Agent) (n : Nat) (v : PDword) : (Agent.setS a n v).intrs = a.intrs := by unfold Agent.setS; repeat (first | rfl | split)
@[simp] theorem setS_hvec (a : Agent) (n : Nat) (v : PDword) : (Agent.setS a n v).hvec = a.hvec := by unfold Agent.setS; repeat (first | rfl | split)
@[simp] theorem setS_upc (a : Agent) (n : Nat) (v : PDword) : (Agent.setS a n v).upc = a.upc := by unfold Agent.setS; repeat (first | rfl | split)
@[simp] theorem setS_spill (a : Agent) (n : Nat) (v : PDword) : (Agent.setS a n v).spill = a.spill := by unfold Agent.setS; repeat (first | rfl | split)
@[simp] theorem setS_refs (a : Agent) (n : Nat) (v : PDword) : (Agent.setS a n v).refs = a.refs := by unfold Agent.setS; repeat (first | rfl | split)
@[simp] theorem setS_seq (a : Agent) (n : Nat) (v : PDword) : (Agent.setS a n v).seq = a.seq := by unfold Agent.setS; repeat (first | rfl | split)
@[simp] theorem setS_transforms (a : Agent) (n : Nat) (v : PDword) : (Agent.setS a n v).transforms = a.transforms := by unfold Agent.setS; repeat (first | rfl | split)
@[simp] theorem setS_migrating (a : Agent) (n : Nat) (v : PDword) : (Agent.setS a n v).migrating = a.migrating := by unfold Agent.setS; repeat (first | rfl | split)
@[simp] theorem setS_excUntil (a : Agent) (n : Nat) (v : PDword) : (Agent.setS a n v).excUntil = a.excUntil := by unfold Agent.setS; repeat (first | rfl | split)
@[simp] theorem setS_lastIssue (a : Agent) (n : Nat) (v : PDword) : (Agent.setS a n v).lastIssue = a.lastIssue := by unfold Agent.setS; repeat (first | rfl | split)
@[simp] theorem setS_binDie (a : Agent) (n : Nat) (v : PDword) : (Agent.setS a n v).binDie = a.binDie := by unfold Agent.setS; repeat (first | rfl | split)

end Sys2Proof.Laws
end

