-- ==== Sys2Proof/Laws/Vector.lean ====
section
/-! SUPPORT. Laws/Vector.lean: what the shared operations of the vector instructions do (R80 to R82, R116, R118, R130). -/
namespace Sys2Proof.Laws
open Sys2Proof.Machine Sys2Proof.Safety

theorem vecFree_team {s : State} {wide : Bool} {rs : List (BitVec 8)} {more : List Reg} (h : VecFree s wide rs more = true) : s.me.isTeam = true := by
  simp only [VecFree, Bool.and_eq_true] at h; exact h.1.1.1

theorem vecFree_pipes {s : State} {wide : Bool} {rs : List (BitVec 8)} {more : List Reg} (h : VecFree s wide rs more = true) :
    PipesFree s = true := by
  simp only [VecFree, Bool.and_eq_true] at h; exact h.1.1.2

theorem vecFree_even {s : State} {wide : Bool} {rs : List (BitVec 8)} {more : List Reg} (h : VecFree s wide rs more = true) {r : BitVec 8}
    (hr : r ∈ rs) : (!wide || r.toNat % 2 == 0) = true := by
  simp only [VecFree, Bool.and_eq_true, List.all_eq_true] at h; exact h.1.2 r hr

theorem vecFree_free {s : State} {wide : Bool} {rs : List (BitVec 8)} {more : List Reg} (h : VecFree s wide rs more = true) :
    Free s (rs.flatMap (fun r => vRegs wide r.toNat) ++ s.me.guardReg ++ more) = true := by
  simp only [VecFree, Bool.and_eq_true] at h; exact h.2

/-- An instruction on v registers of one width, of an accepted type, that nothing holds back. -/
theorem takes_vec {s : State} {wide ext ok : Bool} {ds ss : List (BitVec 8)} {lat : Nat} (hok : ok = true)
    (h : VecFree s wide (ss ++ ds) = true) :
    Takes s (s.me.vecNeed ok wide (ds.map (·.toNat)) (ss.map (·.toNat)) lat ext) = true := by
  have hl : (s.me.vecNeed ok wide (ds.map (·.toNat)) (ss.map (·.toNat)) lat ext).legal = true := by
    simp only [Agent.vecNeed, Agent.vecNeedOf, vecFree_team h, hok, Bool.true_and, List.all_eq_true, List.mem_append,
      List.mem_map]
    rintro _ (⟨_, ⟨r, hr, rfl⟩, rfl⟩ | ⟨_, ⟨r, hr, rfl⟩, rfl⟩)
    · exact vecFree_even h (List.mem_append_right _ hr)
    · exact vecFree_even h (List.mem_append_left _ hr)
  refine takes_of hl rfl (free_perm (vecFree_free h) fun r hr => ?_) (pipeHeld_free (vecFree_pipes h))
  simp only [Agent.vecNeed, Agent.vecNeedOf, List.mem_append, List.mem_flatMap, List.mem_map] at hr ⊢
  rcases hr with (⟨_, ⟨_, ⟨q, hq, rfl⟩, rfl⟩, h2⟩ | h2) | ⟨_, ⟨_, ⟨q, hq, rfl⟩, rfl⟩, h2⟩
  · exact .inl (.inl ⟨q, .inl hq, h2⟩)
  · exact .inl (.inr h2)
  · exact .inl (.inl ⟨q, .inr hq, h2⟩)

/-- The same of an instruction that also reads or writes other registers, whose need is one of `vecNeed` with more reads and
writes. -/
theorem takes_vecMore {s : State} {wide ext ok : Bool} {ds ss : List (BitVec 8)} {lat : Nat} {more : List Reg} {n : Need}
    (hok : ok = true) (h : VecFree s wide (ss ++ ds) more = true)
    (hl : n.legal = (s.me.vecNeed ok wide (ds.map (·.toNat)) (ss.map (·.toNat)) lat ext).legal) (hs : n.sup = false)
    (hr : ∀ r, r ∈ n.reads ++ n.writes → r ∈ (s.me.vecNeed ok wide (ds.map (·.toNat)) (ss.map (·.toNat)) lat ext).reads ++
      (s.me.vecNeed ok wide (ds.map (·.toNat)) (ss.map (·.toNat)) lat ext).writes ++ more) : Takes s n = true := by
  have hl' : (s.me.vecNeed ok wide (ds.map (·.toNat)) (ss.map (·.toNat)) lat ext).legal = true := by
    simp only [Agent.vecNeed, Agent.vecNeedOf, vecFree_team h, hok, Bool.true_and, List.all_eq_true, List.mem_append,
      List.mem_map]
    rintro _ (⟨_, ⟨r, hr, rfl⟩, rfl⟩ | ⟨_, ⟨r, hr, rfl⟩, rfl⟩)
    · exact vecFree_even h (List.mem_append_right _ hr)
    · exact vecFree_even h (List.mem_append_left _ hr)
  refine takes_of (hl.trans hl') hs (free_perm (vecFree_free h) fun r h' => ?_) (pipeHeld_free (vecFree_pipes h))
  have := hr r h'
  simp only [Agent.vecNeed, Agent.vecNeedOf, List.mem_append, List.mem_flatMap, List.mem_map] at this ⊢
  rcases this with ((⟨_, ⟨_, ⟨q, hq, rfl⟩, rfl⟩, h2⟩ | h2) | ⟨_, ⟨_, ⟨q, hq, rfl⟩, rfl⟩, h2⟩) | h2
  · exact .inl (.inl ⟨q, .inl hq, h2⟩)
  · exact .inl (.inr h2)
  · exact .inl (.inl ⟨q, .inr hq, h2⟩)
  · exact .inr h2

/-- With no poisoned lane, poison is consumed without a trap; otherwise the lanes that meet it trap. -/
theorem consumeLanes_clean {bad : Nat → Bool} {body : State → Res} {s : State} (h : s.me.execLanes.filter bad = []) :
    consumeLanes bad body s = body s := by simp [consumeLanes, h]

theorem consumeLanes_trap {bad : Nat → Bool} {body : State → Res} {s : State} (h : s.me.execLanes.filter bad ≠ []) :
    consumeLanes bad body s = trapIn .poison (maskOf (s.me.execLanes.filter bad)) s := by
  simp [consumeLanes, h]

/-- The elementwise body of R131. -/
theorem vecUnits_next {ok ext : Bool} {lat : Nat} {srcs : List (BitVec 8)} {f : List Nat → Nat} {d : BitVec 8} {s : State}
    (hok : ok = true) (h : VecFree s (isWideType s.me.ty) (srcs ++ [d]) = true) :
    (poisonedLanes s (isWideType s.me.ty) srcs = [] → vecUnits ok lat ext srcs f d s =
      .next (retire (s.me.vecNeed ok (isWideType s.me.ty) [d.toNat] (srcs.map (·.toNat)) lat ext)
        (writeLanes (isWideType s.me.ty) d.toNat (fun l =>
          clean (BitVec.ofNat 64 (f (srcs.map fun r => (s.me.getUnit (isWideType s.me.ty) r.toNat l).val.toNat)))) s))) ∧
    (poisonedLanes s (isWideType s.me.ty) srcs ≠ [] → vecUnits ok lat ext srcs f d s =
      trapIn .poison (maskOf (poisonedLanes s (isWideType s.me.ty) srcs)) s) := by
  have e := takes_vec (lat := lat) (ext := ext) (ds := [d]) hok h
  have hb : (fun l => (srcs.map (·.toNat)).any fun r => (s.me.getUnit (isWideType s.me.ty) r l).poison) =
      fun l => srcs.any fun r => (s.me.getUnit (isWideType s.me.ty) r.toNat l).poison := by
    funext l; simp [List.any_map]; rfl
  constructor <;> intro hp <;> unfold vecUnits <;> refine (takes_issue _ e).trans ?_ <;> dsimp only <;> rw [hb]
  · rw [consumeLanes_clean hp]; simp [List.map_map]; rfl
  · exact consumeLanes_trap hp

/-- As `does_of`, for the need of a vector instruction. -/
theorem does_vec {ext : Bool} {i : Instr} {s u : State} {r : Res} {n : Need} (he : exec i s = r) (h : r = .next (retire n u))
    (hx : n.ext = ext) (hn : u.me.next ext = s.me.next ext) : Does ext i s u := by
  subst hx; exact does_of n (he.trans h) hn

end Sys2Proof.Laws
end

