-- ==== Sys2Proof/Tests/Slice0.lean ====
section
/-! SUPPORT. Tests/Slice0.lean: the author's own tests: the checks of WellFormed, a word of every instruction decoded, the
spec's worked examples, and a state that meets the hypotheses of each statement. Expected values come from the spec's examples
and tables, or are worked by hand from them. -/
namespace Sys2Proof.Tests
open Sys2Proof Sys2Proof.Machine Sys2Proof.Safety
set_option Elab.async false

/-! ### WellFormed: an ill-formed term for each check, beside a well-formed one -/

theorem test_wellFormed_subcodes :
    [Instr.sbits 1 2 6, .sfop 1 2 3 7, .sfop 1 2 3 6, .sfcvt 1 2 6, .vbits 1 2 6, .vcmp 6 1 2 3, .vfcmp 8 1 2 3, .vcvt 1 2 0x11,
      .vfcvt 1 2 0x11, .vfi2f 1 2 0x11, .vff2i 1 2 0x11, .vlane 1 6, .vred 1 2 6, .vscan 1 2 true 6, .mlogic 10 1 2 3,
      .mlogic 8 1 2 3, .chkout 1 2 3 true 3, .poppg 1 3, .pushpg 1 3].all (fun i => !i.wellFormed) = true ∧
    [Instr.sbits 1 2 5, .sfop 1 2 3 5, .sfop 1 2 0 6, .sfcvt 1 2 5, .vbits 1 2 5, .vcmp 5 1 2 3, .vfcmp 7 1 2 3, .vcvt 1 2 0x10,
      .vfcvt 1 2 0x10, .vfi2f 1 2 0x10, .vff2i 1 2 0x10, .vlane 1 5, .vred 1 2 5, .vscan 1 2 true 5, .mlogic 9 1 2 0,
      .mlogic 7 1 2 3, .chkout 1 2 3 true 2, .poppg 1 2, .pushpg 1 2].all (fun i => i.wellFormed) = true := by decide

theorem test_wellFormed_addresses :
    [Instr.vatom 1 2 3 false true 16, .vatom 1 2 3 false false 14, .vatom 1 3 0 true true 0, .vatom 1 2 3 true true 0,
      .satom 1 2 3 true 16, .satom 1 1 3 true 0, .vcas 1 3 0 true 4, .hred 1 2 3 false 7, .hred 1 3 0 true 0, .vldb 1 3 0 true,
      .vldh 1 2 3 true, .vldw 1 3 0 true, .vldd 1 2 3 false, .vldd 2 3 0 true, .vstb 1 3 0 true, .vsth 1 3 0 true, .vstw 1 3 0 true,
      .vstd 1 2 3 false, .vldbExt 1 3 0 true 4, .vldhExt 1 3 0 true 4, .vldwExt 1 3 0 true 4, .vlddExt 1 2 3 false 4,
      .vstbExt 1 3 0 true 4, .vsthExt 1 3 0 true 4, .vstwExt 1 3 0 true 4, .vstdExt 1 2 3 false 4, .pref 3 0 true,
      .prefExt 3 0 true 4].all (fun i => !i.wellFormed) = true ∧
    [Instr.vatom 1 2 0 true true 15, .satom 1 2 3 true 15, .vcas 1 2 0 true 4, .hred 1 2 3 false 6, .vldb 1 3 5 false,
      .vldd 2 3 5 false, .vstd 2 4 0 true, .pref 2 0 true].all (fun i => i.wellFormed) = true := by decide

theorem test_wellFormed_pairs :
    [Instr.vlds 1 2 3 0 true, .vsts 1 2 3 0 true, .vldsExt 1 2 3 0 true 4, .vstsExt 1 2 3 0 true 4, .spawn 1 3 2, .xdec 2 2 1 4,
      .xdec 4 3 1 4, .xdec 4 2 1 5, .xcrc 1 2 3 5, .ext 4].all (fun i => !i.wellFormed) = true ∧
    [Instr.vlds 2 2 3 0 true, .vsts 1 2 3 0 false, .spawn 1 2 2, .xdec 4 2 1 6, .xcrc 1 2 3 4].all (fun i => i.wellFormed) = true := by
  decide

/-! ### Decode: a word of every instruction, each field a different number (R47 to R61) -/

/-- The words decode to the instruction, and are the ones that encode it. -/
def reads (ws : List Word32) (i : Instr) : Bool := (match decode ws with | .ok j => j == i | .error _ => false) && encode i == ws

theorem test_decode_scalar :
  reads [0x004ADF88] (.sadd 0x25 0x37 0x71) &&
  reads [0x014ADF88] (.ssub 0x25 0x37 0x71) &&
  reads [0x024ADF88] (.smul 0x25 0x37 0x71) &&
  reads [0x034ADF89] (.smulh 0x25 0x37 0x71 true) &&
  reads [0x044ADF89] (.sdiv 0x25 0x37 0x71 true) &&
  reads [0x054ADF89] (.srem 0x25 0x37 0x71 true) &&
  reads [0x064ADF88] (.sand 0x25 0x37 0x71) &&
  reads [0x074ADF88] (.sor 0x25 0x37 0x71) &&
  reads [0x084ADF88] (.sxor 0x25 0x37 0x71) &&
  reads [0x094ADF88] (.sshl 0x25 0x37 0x71) &&
  reads [0x0A4ADF88] (.sshr 0x25 0x37 0x71) &&
  reads [0x0B4ADF88] (.ssar 0x25 0x37 0x71) &&
  reads [0x0C4ADF89] (.smin 0x25 0x37 0x71 true) &&
  reads [0x0D4ADF89] (.smax 0x25 0x37 0x71 true) &&
  reads [0x0E4ADF89] (.scmp 0x25 0x37 0x71 1) &&
  reads [0xFF00000D, 0x0F4ADF89] (.ssel 0x25 0x37 0x71 true 0xD) &&
  reads [0x104ADC01] (.sbits 0x25 0x37 1) &&
  reads [0x114ADF89] (.sbfx 0x25 0x37 0x71 true) &&
  reads [0x124ADF88] (.sbfi 0x25 0x37 0x71) &&
  reads [0x134ADC00] (.smov 0x25 0x37) &&
  reads [0x144A6B37] (.sli 0x25 0x6B37) &&
  reads [0xFF9C3D71, 0x144A6B37] (.sliExt 0x25 0x6B37 0x9C3D71) &&
  reads [0x154A6B37] (.slih 0x25 0x6B37) &&
  reads [0x164A6B37] (.saddi 0x25 0x6B37) &&
  reads [0xFF9C3D71, 0x164A6B37] (.saddiExt 0x25 0x6B37 0x9C3D71) &&
  reads [0x174A6B37] (.sandi 0x25 0x6B37) &&
  reads [0x184A6B37] (.sori 0x25 0x6B37) &&
  reads [0x194A0037] (.sshli 0x25 0x37) &&
  reads [0x1A4ADF89] (.sfop 0x25 0x37 0x71 1) &&
  reads [0x1B4ADF89] (.sfcmp 0x25 0x37 0x71 1) &&
  reads [0x1C4ADC01] (.sfcvt 0x25 0x37 1) = true := by decide

theorem test_decode_control :
  reads [0x20A5A5A5] (.bra 0xA5A5A5) &&
  reads [0x214A6B37] (.brz 0x25 0x6B37) &&
  reads [0x224A6B37] (.brnz 0x25 0x6B37) &&
  reads [0xFF9C3D71, 0x230A6B37] (.brv 5 0x6B37 0x9C3D71) &&
  reads [0x240A6B37] (.brall 5 0x6B37) &&
  reads [0x250A6B37] (.brany 5 0x6B37) &&
  reads [0x26A5A5A5] (.call 0xA5A5A5) &&
  reads [0x27009400] (.calli 0x25) &&
  reads [0x28009400] (.ret 0x25) &&
  reads [0x29009400] (.jmpi 0x25) &&
  reads [0x2A4A6B37] (.loop 0x25 0x6B37) &&
  reads [0x2B000000] (.exit) &&
  reads [0x2C0095B8] (.setmode 0x25 0x37) &&
  reads [0x2D4A0000] (.getmode 0x25) &&
  reads [0x2E0095B8] (.yield 0x25 0x37) &&
  reads [0x2F01A5A5] (.trap 0x1A5A5) &&
  reads [0x30000000] (.rett) &&
  reads [0x3101A5A5] (.bkpt 0x1A5A5) &&
  reads [0x324A0000] (.prchk 0x25) &&
  reads [0x3301A5A5] (.syscall 0x1A5A5) &&
  reads [0x344A6B37] (.csrrd 0x25 0x6B37) &&
  reads [0x354A6B37] (.csrwr 0x25 0x6B37) &&
  reads [0x364ADC00] (.ctxsave 0x25 0x37) &&
  reads [0x374ADC00] (.ctxload 0x25 0x37) &&
  reads [0x38000000] (.wfi) &&
  reads [0x39000000] (.halt) &&
  reads [0x3A000000] (.nop) = true := by decide

theorem test_decode_lane :
  reads [0x40A53771] (.vadd 0xA5 0x37 0x71) &&
  reads [0x41A53771] (.vsub 0xA5 0x37 0x71) &&
  reads [0x42A53771] (.vmul 0xA5 0x37 0x71) &&
  reads [0x43A53771] (.vmulh 0xA5 0x37 0x71) &&
  reads [0xFF0000D9, 0x44A53771] (.vmad 0xA5 0x37 0x71 0xD9) &&
  reads [0x45A53771] (.vmin 0xA5 0x37 0x71) &&
  reads [0x46A53771] (.vmax 0xA5 0x37 0x71) &&
  reads [0x47A53771] (.vabsd 0xA5 0x37 0x71) &&
  reads [0x48A53771] (.vand 0xA5 0x37 0x71) &&
  reads [0x49A53771] (.vor 0xA5 0x37 0x71) &&
  reads [0x4AA53771] (.vxor 0xA5 0x37 0x71) &&
  reads [0xFF00D98D, 0x4BA53771] (.vlogt 0xA5 0x37 0x71 0xD9 0x8D) &&
  reads [0x4CA53771] (.vshl 0xA5 0x37 0x71) &&
  reads [0x4DA53771] (.vshr 0xA5 0x37 0x71) &&
  reads [0x4EA53771] (.vsar 0xA5 0x37 0x71) &&
  reads [0xFF0000D9, 0x4FA53771] (.vfun 0xA5 0x37 0x71 0xD9) &&
  reads [0x50A53771] (.vbits 0xA5 0x37 0x71) &&
  reads [0x51A53771] (.vbfx 0xA5 0x37 0x71) &&
  reads [0x525771D9] (.vcmp 5 7 0x71 0xD9) &&
  reads [0xFF000009, 0x53A53771] (.vsel 0xA5 0x37 0x71 9) &&
  reads [0x54A53700] (.vmov 0xA5 0x37) &&
  reads [0x55A56E01] (.vbcast 0xA5 0x37 true) &&
  reads [0x56A56B37] (.vli 0xA5 0x6B37) &&
  reads [0xFF003D71, 0x56A56B37] (.vliExt 0xA5 0x6B37 0x3D71) &&
  reads [0x57A56B37] (.vlih 0xA5 0x6B37) = true := by decide

theorem test_decode_lane2 :
  reads [0x58A56B37] (.vaddi 0xA5 0x6B37) &&
  reads [0xFF003D71, 0x58A56B37] (.vaddiExt 0xA5 0x6B37 0x3D71) &&
  reads [0x59A53711] (.vcvt 0xA5 0x37 0x11) &&
  reads [0x5AA50137] (.vlane 0xA5 0x137) &&
  reads [0x5BA53771] (.vshuf 0xA5 0x37 0x71) &&
  reads [0x5CA53771] (.vrot 0xA5 0x37 0x71) &&
  reads [0x5DA56E71] (.vbcl 0xA5 0x37 0x71) &&
  reads [0x5EA53701] (.vred 0xA5 0x37 1) &&
  reads [0x5FA53719] (.vscan 0xA5 0x37 true 9) &&
  reads [0x60A56F71] (.vtos 0xA5 0x37 0x171) &&
  reads [0x61A56F71] (.stov 0xA5 0x37 0x171) &&
  reads [0x62571900] (.mlogic 5 7 1 9) &&
  reads [0x634A1C00] (.mcount 0x25 7) &&
  reads [0x644A1C00] (.mfirst 0x25 7) &&
  reads [0x654A1C08] (.mtos 0x25 7 1) &&
  reads [0x660ADC08] (.stom 5 0x37 1) &&
  reads [0x67A50700] (.mtov 0xA5 7) &&
  reads [0x68053700] (.vtom 5 0x37) = true := by decide

theorem test_decode_float :
  reads [0x70A53771] (.vfadd 0xA5 0x37 0x71) &&
  reads [0x71A53771] (.vfsub 0xA5 0x37 0x71) &&
  reads [0x72A53771] (.vfmul 0xA5 0x37 0x71) &&
  reads [0xFF0000D9, 0x73A53771] (.vfma 0xA5 0x37 0x71 0xD9) &&
  reads [0xFF0000D9, 0x74A53771] (.vfms 0xA5 0x37 0x71 0xD9) &&
  reads [0xFF0000D9, 0x75A53771] (.vfnma 0xA5 0x37 0x71 0xD9) &&
  reads [0x76A53771] (.vfdiv 0xA5 0x37 0x71) &&
  reads [0x77A53700] (.vfsqrt 0xA5 0x37) &&
  reads [0x78A53700] (.vfrcp 0xA5 0x37) &&
  reads [0x79A53700] (.vfrsq 0xA5 0x37) &&
  reads [0x7AA53771] (.vfmin 0xA5 0x37 0x71) &&
  reads [0x7BA53771] (.vfmax 0xA5 0x37 0x71) &&
  reads [0x7CA53700] (.vfabs 0xA5 0x37) &&
  reads [0x7DA53700] (.vfneg 0xA5 0x37) &&
  reads [0x7E5771D9] (.vfcmp 5 7 0x71 0xD9) &&
  reads [0x7FA53700] (.vfclass 0xA5 0x37) &&
  reads [0x80A53700] (.vfrnd 0xA5 0x37) &&
  reads [0x81A53711] (.vfcvt 0xA5 0x37 0x11) &&
  reads [0x82A53711] (.vfi2f 0xA5 0x37 0x11) &&
  reads [0x83A53711] (.vff2i 0xA5 0x37 0x11) &&
  reads [0x84A53700] (.vfexp2 0xA5 0x37) &&
  reads [0x85A53700] (.vflog2 0xA5 0x37) &&
  reads [0x86A53771] (.vfscalb 0xA5 0x37 0x71) &&
  reads [0x87A53771] (.vdqnt 0xA5 0x37 0x71) &&
  reads [0x88053771] (.vdsame 5 0x37 0x71) &&
  reads [0x89A53700] (.vdexp 0xA5 0x37) &&
  reads [0x8AA53700] (.vdsig 0xA5 0x37) &&
  reads [0x8BA53771] (.vdmake 0xA5 0x37 0x71) &&
  reads [0x8CA53700] (.vdcanon 0xA5 0x37) &&
  reads [0x8DA53771] (.vbscale 0xA5 0x37 0x71) &&
  reads [0x8EA53771] (.vbpack 0xA5 0x37 0x71) &&
  reads [0x8FA53771] (.vbunp 0xA5 0x37 0x71) &&
  reads [0x904A0000] (.flagrd 0x25) &&
  reads [0x91009400] (.flagclr 0x25) = true := by decide

theorem test_decode_matrix :
  reads [0xA0009400] (.gang 0x25) &&
  reads [0xA15D8D97] (.mma 5 true true true 0x8D 0x97) &&
  reads [0xFF000017, 0xA15ED98D] (.mmaDecay 5 true true 0xD9 0x8D 0x17) &&
  reads [0xA25D0D17] (.mmad 5 true true true 0xD 0x17) &&
  reads [0xFF000017, 0xA25E590D] (.mmadDecay 5 true true 0x59 0xD 0x17) &&
  reads [0xA3500000] (.azero 5) &&
  reads [0xA4503700] (.ald 5 0x37) &&
  reads [0xA5503700] (.ast 5 0x37) &&
  reads [0xA6500007] (.amov 5 7) &&
  reads [0xA7503700] (.ascl 5 0x37) &&
  reads [0xA8500007] (.aadd 5 7) &&
  reads [0xFF0000D9, 0xA9A53701] (.xdec 0xA5 0x37 1 0xD9) &&
  reads [0xFF0000D9, 0xAAA53771] (.xcrc 0xA5 0x37 0x71 0xD9) = true := by decide

theorem test_decode_memory :
  reads [0xB0A537E3] (.vldb 0xA5 0x37 0x71 true) &&
  reads [0xFF3B4E8D, 0xB0A537E3] (.vldbExt 0xA5 0x37 0x71 true 0x3B4E8D) &&
  reads [0xB1A537E3] (.vldh 0xA5 0x37 0x71 true) &&
  reads [0xFF3B4E8D, 0xB1A537E3] (.vldhExt 0xA5 0x37 0x71 true 0x3B4E8D) &&
  reads [0xB2A537E3] (.vldw 0xA5 0x37 0x71 true) &&
  reads [0xFF3B4E8D, 0xB2A537E3] (.vldwExt 0xA5 0x37 0x71 true 0x3B4E8D) &&
  reads [0xB3A537E3] (.vldd 0xA5 0x37 0x71 true) &&
  reads [0xFF3B4E8D, 0xB3A537E3] (.vlddExt 0xA5 0x37 0x71 true 0x3B4E8D) &&
  reads [0xB4A537E3] (.vstb 0xA5 0x37 0x71 true) &&
  reads [0xFF3B4E8D, 0xB4A537E3] (.vstbExt 0xA5 0x37 0x71 true 0x3B4E8D) &&
  reads [0xB5A537E3] (.vsth 0xA5 0x37 0x71 true) &&
  reads [0xFF3B4E8D, 0xB5A537E3] (.vsthExt 0xA5 0x37 0x71 true 0x3B4E8D) &&
  reads [0xB6A537E3] (.vstw 0xA5 0x37 0x71 true) &&
  reads [0xFF3B4E8D, 0xB6A537E3] (.vstwExt 0xA5 0x37 0x71 true 0x3B4E8D) &&
  reads [0xB7A537E3] (.vstd 0xA5 0x37 0x71 true) &&
  reads [0xFF3B4E8D, 0xB7A537E3] (.vstdExt 0xA5 0x37 0x71 true 0x3B4E8D) = true := by decide

theorem test_decode_memory2 :
  reads [0xB825E0B2] (.sld 0x25 3 true 0x59) &&
  reads [0xFF3B4E8D, 0xB825E0B2] (.sldExt 0x25 3 true 0x59 0x3B4E8D) &&
  reads [0xB925C0E2] (.sst 0x25 3 0x71) &&
  reads [0xFFE7C2D9, 0xB925C0E2] (.sstExt 0x25 3 0x71 0xE7C2D9) &&
  reads [0xFF000037, 0xBAA537E3] (.vatom 0xA5 0x37 0x71 true true 0x17) &&
  reads [0xFF00002D, 0xBB25C0E2] (.satom 0x25 3 0x71 true 0xD) &&
  reads [0xFF00008D, 0xBCA537E3] (.vcas 0xA5 0x37 0x71 true 0x8D) &&
  reads [0xFF00000D, 0xBDA537E3] (.hred 0xA5 0x37 0x71 true 0xD) &&
  reads [0xBE25C06E] (.mwait 0x25 0x37) = true := by decide

theorem test_decode_refused :
  [(0x1D000000, DecodeError.unassignedOpcode 0x1D), (0x3F000000, .unassignedOpcode 0x3F), (0x69000000, .unassignedOpcode 0x69),
   (0x92000000, .unassignedOpcode 0x92), (0xAB000000, .unassignedOpcode 0xAB), (0xC8000000, .unassignedOpcode 0xC8),
   (0xDC000000, .unassignedOpcode 0xDC), (0xFE000000, .unassignedOpcode 0xFE), (0x2B000001, .reservedField 0x2B),
   (0x54020301, .reservedField 0x54), (0xBE05C112, .reservedField 0xBE), (0x0F060410, .missingExt 0x0F), (0xBA010203, .missingExt 0xBA),
   (0xBB010203, .missingExt 0xBB)].all (fun (c : Nat × DecodeError) =>
    match decode [BitVec.ofNat 32 c.1] with | .ok _ => false | .error e => e == c.2) = true := by decide +kernel

theorem test_decode_bytes : (match decodeBytes [0x10, 0x04, 0x06, 0x00] with | .ok i => i == .sadd 3 1 2 | .error _ => false) = true := by decide +kernel

/-! ### States to run an instruction in -/

/-- Whether an answer is a next state that a test accepts. -/
def isNext (p : State → Bool) : Res → Bool
  | .next t => p t
  | _ => false

/-- The started package, its host thread 0 in supervisor mode; and that thread in user mode. -/
def thread : State := { State.reset with bootStep := 27, others := [] }
def user : State := thread.updMe fun a => { a with regs := { a.regs with priv := false } }

/-- A compute team of n lanes under a MODE, with the values of some v registers (register, lane, word) and s registers. -/
def team (n mode : Nat) (vs : List (Nat × Nat × Nat) := []) (ss : List (Nat × Nat) := []) : State :=
  let a : Agent := { kind := .team, lanes := n, gw := n, bv := 256, bs := 128, ba := 16, grant := 65536,
                     regs := { mode := BitVec.ofNat 32 mode, top := { pc := 0x1004, mask := lanesBelow n } } }
  let a := vs.foldl (fun a c => a.setV c.1 c.2.1 { val := BitVec.ofNat 32 c.2.2 }) a
  let a := ss.foldl (fun a c => a.setS c.1 { val := BitVec.ofNat 64 c.2 }) a
  { time := 100, bootStep := 27, meId := 128, me := a, others := [(0, resetThread 0)] }

/-- The word of a v register's lane, and the value of an s register. -/
def vw (t : State) (n l : Nat) : Nat := (t.me.getV n l).val.toNat
def sv (t : State) (n : Nat) : Nat := (t.me.getS n).val.toNat

/-- Run an instruction's own words through decode and exec. -/
def run (ws : List Word32) (s : State) : Res :=
  match decode ws with
  | .ok i => exec i s
  | .error _ => trap .illegal s

/-- Whether running words, one instruction after another, ends in a state that a test accepts. -/
def runs (p : State → Bool) : List (List Word32) → State → Bool
  | [], s => p s
  | ws :: rest, s => isNext (runs p rest) (run ws { s with time := s.time + 64 })

/-! ### The spec's worked examples, one or a few instructions each -/

/-- The first step after reset runs the instruction that withFetchWord placed: SLI s20, 0x24 (R126). -/
theorem test_step_runs_word : isNext (fun t => sv t 20 == 0x24 && t.me.pc == 8) (step (State.reset.withFetchWord 32 0x14280024)) = true := by decide +kernel

theorem test_step_runs_team_word :
    isNext (fun t => vw t 3 5 == 0xFFFFFFFF && t.me.pc == 8) (step (State.reset.withFetchWord 32 0x5603FFFF)) = true := by decide +kernel

/-- An instruction whose words are none traps ILLEGAL; in supervisor mode that is a supervisor stop with code 1 (R62, R207). -/
theorem test_step_illegal : isNext (fun t => t.me.sstop == 1 && t.events.length == 1) (step (State.reset.withFetchWord 32 0x1D000000)) = true := by decide +kernel

/-- R126's example: SLI and three SLIH load s20 with 0x0123456789ABCDEF. -/
theorem test_sli_slih : runs (fun t => sv t 20 == 0x0123456789ABCDEF) [[0x14280024], [0x1528D159], [0x1529C4D5], [0x1529CDEF]] user = true := by decide +kernel

/-- R78's example: SETMODE s20, s21 sets TYPE f32, RNE and GUARD m2. -/
theorem test_setmode : runs (fun t => t.me.regs.mode == 0x1209) [[0x2C0050A8]] (team 16 4 [] [(20, 0x1209), (21, 0x1FFF)]) = true := by decide +kernel

/-- R90's example: f32 300.75 to e4m3 is 288 (0x79) under RNE and 320 (0x7A) under RUP, inexact (bit 4 of FLAGS). -/
theorem test_cvt_e4m3 :
    runs (fun t => vw t 2 0 == 0x79 && t.me.regs.flags == 0x10) [[0x8102010C]] (team 16 0x09 [(1, 0, 0x43966000)]) = true ∧
    runs (fun t => vw t 2 0 == 0x7A) [[0x8102010C]] (team 16 0x49 [(1, 0, 0x43966000)]) = true := by decide +kernel

/-- R97's example: decimal sums, their exponents and inexact. -/
theorem test_decimal_add : runs (fun t =>
      vw t 6 0 == 0xCE9 && vw t 7 0 == 0x31600000 && vw t 6 1 == 0xA4C68000 && vw t 7 1 == 0x31E38D7E &&
      vw t 6 2 == 0xA4C68000 && vw t 7 2 == 0x31E38D7E && t.me.regs.flags == 0x10) [[0x70060204]]
    (team 16 0x0E [(2, 0, 0x6E), (3, 0, 0x31800000), (4, 0, 0x89D), (5, 0, 0x31600000),
      (2, 1, 0x6FC0FFFF), (3, 1, 0x6C7386F2), (4, 1, 1), (5, 1, 0x31C00000),
      (2, 2, 0x6FC0FFFF), (3, 2, 0x6C7386F2), (4, 2, 2), (5, 2, 0x31C00000)]) = true := by decide +kernel

/-- R105's and R168's example: VBUNP of codes 0x8, 0x0 and 0x7 with scale byte 0x1F, and of 0xF with 0x5E. -/
theorem test_vbunp : runs (fun t => vw t 8 0 == 0xC0F00000 && vw t 9 0 == 0x3F000000 && vw t 10 0 == 0x40F00000 &&
      vw t 8 1 == 0xC0400000) [[0x8F080203]] (team 16 0x09 [(2, 0, 0x708), (3, 0, 0x1F), (2, 1, 0xF), (3, 1, 0x5E)]) = true := by decide +kernel

/-- R115's example: VSCAN.add on f32, inclusive, with x0 = 2^24 and x1 = x2 = 1 gives lane 2 2^24. -/
theorem test_vscan : runs (fun t => vw t 2 2 == 0x4B800000 && vw t 2 0 == 0x4B800000) [[0x5F020100]]
    (team 16 0x09 [(1, 0, 0x4B800000), (1, 1, 0x3F800000), (1, 2, 0x3F800000)]) = true := by decide +kernel

/-- R133's example: VFUN rotates a 64-bit row, and VLOGT forms the majority of three rows. -/
theorem test_vfun_vlogt : runs (fun t => vw t 10 0 == 3 && vw t 11 0 == 0 && vw t 14 0 == 3 && vw t 15 0 == 0x80000000)
    [[0xFF000006, 0x4F0A0202], [0xFF000CE8, 0x4B0E0A02]]
    (team 16 0x07 [(2, 0, 1), (3, 0, 0x80000000), (6, 0, 63), (12, 0, 2), (13, 0, 0x80000000)]) = true := by decide +kernel

/-- R138's example: VSHUF within a group reads lanes outside exec and writes exec lanes only; VCMP and MCOUNT follow. -/
theorem test_vshuf_vcmp : runs (fun t => (List.range 16).all (fun l => vw t 4 l == (if l < 8 then 100 + (l ^^^ 1) else 100 + l)) && sv t 6 == 8)
    [[0x5B040405], [0x52430405], [0x630C0C00]]
    ((team 16 4 ((List.range 16).flatMap fun l => [(4, l, 100 + l), (5, l, l ^^^ 1)])).updMe fun a =>
      { a with regs := { a.regs with top := { a.regs.top with mask := lanesBelow 8 } } }) = true := by decide +kernel

/-- R159's example: d64 0.1 to f64, under RNE and under RTZ. -/
theorem test_d64_to_f64 :
    runs (fun t => vw t 8 0 == 0x9999999A && vw t 9 0 == 0x3FB99999) [[0x81080208]] (team 16 0x0E [(2, 0, 1), (3, 0, 0x31A00000)]) = true ∧
    runs (fun t => vw t 8 0 == 0x99999999 && vw t 9 0 == 0x3FB99999) [[0x81080208]] (team 16 0x2E [(2, 0, 1), (3, 0, 0x31A00000)]) = true := by decide +kernel

/-- The locked decimal example after R164: SETMODE leaves TRAPEN, and VFMUL traps ARITH in lane 1 alone, writing nothing. -/
theorem test_decimal_trap : runs (fun t => t.me.tpc == 0x1010 && t.me.tmask == 2 && t.me.tcause == 0x800006 &&
      vw t 6 0 == 0 && t.me.regs.flags == 0 && t.me.regs.priv) [[0x142A001F], [0x192A0010], [0x2C0000A8], [0x72060204]]
    (team 32 0x0110000E [(2, 0, 0x6E), (3, 0, 0x31800000), (4, 0, 0x89D), (5, 0, 0x31600000),
      (2, 1, 0x6FC0FFFF), (3, 1, 0x6C7386F2), (4, 1, 3), (5, 1, 0x31C00000)]) = true := by decide +kernel

/-- R168's example: VBSCALE writes 0x5F for a largest magnitude of 3.2, and VBPACK gives codes 5 and 9. -/
theorem test_block_scale_pack : runs (fun t => vw t 16 0 == 0x5F && vw t 16 3 == 0x5F && vw t 17 0 % 256 == 0x95 && t.me.regs.flags == 0x10)
    [[0x8D100818], [0x8E110810]] (team 16 0x00400009 [(8, 0, 0x404CCCCD), (9, 0, 0xBF333333)]) = true := by decide +kernel

/-- R189's example: CRC-32C of "123456789" over lanes 0 to 2. -/
theorem test_xcrc : runs (fun t => isNext (fun u => (List.range 16).all fun l => vw u 8 l == 0x1CF96D7C) (exec (.transformReply 128 0) t))
    [[0xFF000006, 0xAA080405]] (team 16 4 ([(4, 0, 0x34333231), (4, 1, 0x38373635), (4, 2, 0x39), (5, 0, 4), (5, 1, 4), (5, 2, 1)] ++
      (List.range 16).flatMap fun l => [(6, l, 0xFFFFFFFF), (7, l, 1)])) = true := by decide +kernel

/-- R196's example: BRV pushes the join, the fall-through and the taken entry; the taken lanes run first. -/
theorem test_brv : runs (fun t => t.me.pc == 0x1014 && t.me.regs.top.mask == lanesBelow 16 && t.me.regs.top.rpc == some 0x101C &&
      t.me.regs.rest.map (·.pc) == [0x100C, 0x101C]) [[0xFF000005, 0x23060003]]
    ((team 32 9).updMe fun a => a.setM 3 (lanesBelow 16)) = true := by decide +kernel

/-- R181: GANG s4 with a bit outside the team's own slot traps ILLEGAL; with 0 it runs. -/
theorem test_gang : runs (fun t => t.me.tcause.toNat % 256 == 1) [[0xA0001000]] (team 16 4 [] [(4, 0x224)]) = true ∧
    runs (fun t => t.me.pc == 0x1008) [[0xA0001000]] (team 16 4) = true := by decide +kernel

/-- R231's example: under swizzle xor4 lane l's word goes to bank l xor 4. -/
theorem test_scratch_swizzle : runs (fun t => t.me.storeQ.map (fun r => (r.keys.headD 0, r.data.val.toNat)) ==
      (List.range 16).map fun l => (t.me.scratchAt (0x100 + 4 * (l ^^^ 4)) 0, 100 + l))
    [[0xC704024A]] (team 16 4 ((List.range 16).flatMap fun l => [(2, l, 4 * l), (4, l, 100 + l)]) [(9, 0x100)]) = true := by decide +kernel

/-- A state whose addresses up to 2^30 are mapped to machine addresses from 0x80000000 up (the tables of log 2). -/
def mapped (s : State) : State := s.mapFetch.1

/-- Perform the oldest queued access n times (STORE_PERFORM). -/
def performs : Nat → State → Option State
  | 0, s => some s
  | n + 1, s => match exec (.storePerform s.meId 0) s with | .next t => performs n t | _ => none

/-- R257's example on 16 lanes: VATOM.add.v of 1 in each lane on a word holding 100 gives 116, and the lanes 100 to 115. -/
theorem test_vatom : runs (fun t => (performs 16 t).any fun u => u.rd 0x80002000 4 == 132 - 16 &&
      (List.range 16).all fun l => vw u 8 l == 100 + l) [[0xFF000021, 0xBA080212]]
    ((mapped (team 16 4 ((List.range 16).map fun l => (8, l, 1)) [(9, 0x2000)])).wr 0x80002000 4 100) = true := by decide +kernel

/-- SST.d then SLD.d of the same dword (R254, R253, little endian by R3). -/
theorem test_sst_sld : runs (fun t => (performs 1 t).any fun u => u.rd 0x80002000 8 == 0x1122334455667788 && u.rd 0x80002000 1 == 0x88)
    [[0xB905C012]] (mapped (team 16 4 [] [(5, 0x1122334455667788), (9, 0x2000)])) = true := by decide +kernel

/-! ### Witnesses: states that meet the hypotheses of the statements -/

def atTurn (s : State) : State := { s with turns := [(0, .issue s.meId)] }
def ready (s : State) : State := { s with turns := [] }

/-- What a fetch of the agent whose turn it is answers. -/
def fetches (s : State) : Option (Nat × Nat × Nat × Nat) :=
  match s.fetchAt with
  | (.inl (some m), v) => some (m, v.bundleWord m 0, v.bundleWord m (m / 4 % 8), v.bundleWord m (m / 4 % 8 + 1))
  | _ => none

/-- StepRunsTheDecodedInstruction, a word alone: SLI at word 1 of a bundle, good PC, no immediate target, clear schedule word. -/
theorem witness_step_word : let s := atTurn ((mapped user).wr 0x80000004 4 0x14280024)
    s.beforeIssue = .ready ∧ (ready s).stallLeft = 0 ∧ (ready s).chosen = true ∧ badTarget (s.me.pc.setWidth 64) = false ∧ fetches (ready s) = some (0x80000004, 0, 0x14280024, 0) ∧
    immediateTarget s.me.pc 0x14280024 = none ∧ reads [0x14280024] (.sli 20 0x24) = true := by decide +kernel

/-- The same with an EXT at word 6, the last place one may stand. -/
theorem witness_step_pair : let s := atTurn ((((mapped user).updMe fun a => a.setPc 0x18).wr 0x80000018 4 0xFF000001).wr 0x8000001C 4 0x14280024)
    s.beforeIssue = .ready ∧ (ready s).stallLeft = 0 ∧ (ready s).chosen = true ∧ badTarget (s.me.pc.setWidth 64) = false ∧ fetches (ready s) = some (0x80000018, 0, 0xFF000001, 0x14280024) ∧
    immediateTarget (s.me.pc + 4) 0x14280024 = none ∧ reads [0xFF000001, 0x14280024] (.sliExt 20 0x24 1) = true := by decide +kernel

theorem witness_step_happening : Instr.isWord (.storePerform 0 0) = false ∧
    ({ user with turns := [(1, .happen (.storePerform 0 0))] } : State).turns = [(1, .happen (.storePerform 0 0))] := by decide +kernel

/-- StepTrapsBadWords: a PC that is none; a fetch that faults; a branch to a schedule word; reserved schedule bits at word 1; an
EXT with a stall count; a word that is none. -/
theorem witness_step_traps :
    (atTurn (user.updMe fun a => a.setPc 0x20)).beforeIssue = .ready ∧ user.stallLeft = 0 ∧ user.chosen = true ∧ badTarget ((0x20 : BitVec 56).setWidth 64) = true ∧
    (match (ready user).fetchAt with | (.inr _, _) => true | _ => false) = true ∧
    (fetches (mapped user)).map (·.1) = some 0x80000004 ∧
    (immediateTarget 4 0x20000007).map (fun t => badTarget (t.setWidth 64)) = some true ∧
    bitsOf (2 ^ 28) 29 28 ≠ 0 ∧ (16 : Nat) / 2 ^ (4 * (2 - 1)) % 16 ≠ 0 ∧
    (match decode [0x1D000000#32] with | .error _ => true | .ok _ => false) = true := by decide +kernel

/-- CoreAndPrivilegeChecks: a thread and a team; user mode; a register within budget. -/
theorem witness_checks : thread.me.isTeam = false ∧ Instr.teamOnly ((encodeNat (.vadd 1 2 3)).getLastD 0) = true ∧
    Instr.teamOnly ((encodeNat (.vlds 1 2 3 0 false)).getLastD 0) = true ∧ (team 16 4).me.isTeam = true ∧ user.me.regs.priv = false ∧
    (scalars user [127]).all user.me.inBudget = true ∧ (scalars user [3, 4]).all user.me.inBudget = true ∧
    (team 16 4).me.regs.priv = false ∧ (scalars (team 16 4) [3, 4]).all (team 16 4).me.inBudget = true := by decide +kernel

/-- ScoreboardAndBudget: a register beyond budget; one pending from a fixed-latency producer, SB_CHECK clear and set; one pending
from a producer of variable latency; none pending. -/
theorem witness_scoreboard :
    let n : Need := { reads := [.v 3] }
    let small := (team 16 4).updMe fun a => { a with bv := 2 }
    let late := (team 16 4).updMe fun a => { a with score := [((.v 3, 32), 101)] }
    let checked : State := { late with sbCheck := [(0, true)] }
    let flight := (team 16 4).updMe fun a => { a with varlat := [{ writes := [{ reg := .v 3, val := {} }], flags := 0 }] }
    n.legal = true ∧ [Reg.v 3].all small.me.inBudget = false ∧ [Reg.v 3].all late.me.inBudget = true ∧
    late.time.toNat < late.me.firstReadyAt late.time.toNat n ∧ late.checking = false ∧ checked.checking = true ∧
    flight.me.readyAt flight.time.toNat [.v 3] ≤ flight.time.toNat ∧ flight.pendingVar [.v 3] = true ∧
    (team 16 4).pendingVar [.v 3] = false ∧ (team 16 4).awaitsExceptions = false ∧ (team 16 4).me.sketch = none := by decide +kernel

/-- IssuesArePaced: an issue that moves its agent's place; a stall count that has not passed; two teams of different classes, admissions,
TEAMIDs and launches. -/
theorem witness_paced :
    let a := (team 16 4).me
    (team 16 4).agent? 128 = some a ∧ { a with seq := a.seq + 1 }.seq ≠ a.seq ∧ a.portsOf 128 = [0] ∧
    (let s := atTurn ((team 16 4).updMe fun g => { g with notBefore := 103 })
     ({ s with turns := [] } : State).switchTo 128 = some { s with turns := [] } ∧ s.beforeIssue = .ready ∧ s.stallLeft = 3) ∧
    (let s := team 16 4
     s.issueClass { a with cls := 1 } < s.issueClass { a with cls := 2 } ∧
     s.issueClass { a with cls := 1 } = s.issueClass { a with cls := 1, admission := 9 } ∧ ({ a with cls := 1 } : Agent).admission < 9 ∧
     (a.launch, a.teamid) ≠ (a.launch, (1#32)) ∧ a.teamid.toNat < (1#32).toNat ∧ a.launch.toNat < (7#64).toNat) := by decide +kernel

/-- EveryStepKeepsMemoryCanonical: a state with memory written and the step record at reset, and a step it takes. -/
theorem witness_invariant : Memory.wf (mapped user).mem = true ∧ (mapped user).stepRecord.rising = true ∧
    isNext (fun _ => true) (step (atTurn (mapped user))) = true := by decide +kernel

theorem witness_memory : Memory.wf (Memory.writeNat (Memory.writeNat [] 5 8 0x0102030405060708) 7 2 0) = true ∧
    Memory.readNat (Memory.writeNat [] 5 8 0x0102030405060708) 5 8 = 0x0102030405060708 := by decide +kernel

theorem witness_registers : (112 : Nat) ≤ (112 : BitVec 7).toNat ∧ (111 : BitVec 7).toNat < 112 ∧ (1 : BitVec 7) ≠ 0 ∧
    (team 16 4).me.lanes ≤ 16 := by decide +kernel

/-- The scalar statements: operands within budget, none pending or poisoned; boundaries of the bit functions' codes. -/
theorem witness_scalar : Free user (scalars user [127, 1, 0]) = true ∧ Unpoisoned user [127, 1] = true ∧
    Free user (scalars user [1, 2, 3, 127]) = true ∧ Unpoisoned user [127] = true ∧ (5 : BitVec 3).toNat < 6 ∧ 6 ≤ (6 : BitVec 3).toNat ∧
    (0xFF : Nat) < 2 ^ 8 ∧ (0 : Nat) ≠ 1 := by decide +kernel

/-- SDIV and SREM: no exception enabled; and a division by zero with its trap enabled. -/
theorem witness_division : user.me.enabled 0 = 0 ∧
    let t := user.updMe fun a => { a with regs := { a.regs with mode := 0x20000 } }
    Free t (scalars t [1, 2, 3]) = true ∧ Unpoisoned t [1, 2] = true ∧ t.me.enabled excDivZero ≠ 0 := by decide +kernel

/-- SFOP: 1.0 + 2.0 raises nothing enabled; 0 / 0 raises an enabled invalid. -/
theorem witness_scalar_float :
    let u := (user.setS 1 { val := 0x3FF0000000000000 }).setS 2 { val := 0x4000000000000000 }
    let t := user.updMe fun a => { a with regs := { a.regs with mode := 0x10000 } }
    Free u (scalars u [1, 2, 3]) = true ∧ Unpoisoned u [1, 2] = true ∧
    u.me.enabled ((fmtOf 8).finish 0 false (((fmtOf 8).read false 0x3FF0000000000000).add 0 ((fmtOf 8).read false 0x4000000000000000))).2 = 0 ∧
    Free t (scalars t [1, 2, 3]) = true ∧
    t.me.enabled ((fmtOf 8).finish 0 false (((fmtOf 8).read false 0).div ((fmtOf 8).read false 0))).2 ≠ 0 := by decide +kernel

/-- Branches: good targets near and far, a register target, bad ones. -/
theorem witness_branches : let s := (team 16 4).setS 3 { val := 0x2004 }
    badTarget ((s.me.pc + ((1 : BitVec 24).signExtend 54 ++ 0#2)).setWidth 64) = false ∧
    badTarget ((s.me.pc + ((1 : BitVec 17).signExtend 54 ++ 0#2)).setWidth 64) = false ∧
    Free s [] = true ∧ Free s (scalars s [127]) = true ∧ Free s (scalars s [3, 127]) = true ∧ Unpoisoned s [3] = true ∧
    Free s [.m 15] = true ∧ badTarget (s.me.getS 3).val = false ∧
    badTarget ((branchTarget s.me.pc (7 : BitVec 24)).setWidth 64) = true ∧ badTarget ((branchTarget s.me.pc (7 : BitVec 17)).setWidth 64) = true ∧
    badTarget (s.me.getS 4).val = true := by decide +kernel

/-- BRV: no lane, every lane and some lanes branch; a stack too deep for two more; a pop that is due. -/
theorem witness_divergence :
    let s (m : LaneMask) := (team 16 4).updMe fun a => a.setM 3 m
    let deep := (s 1).updMe fun a => { a with regs := { a.regs with rest := List.replicate 253 {} } }
    let due := (s 0).updMe fun a => { a with regs := { a.regs with
      top := { a.regs.top with kind := .path, rpc := some 0x1004 }, rest := [{ pc := 0x1004, mask := 3 }] } }
    badTarget ((branchTarget ((s 0).me.pc + 4) (1 : BitVec 17)).setWidth 64) = false ∧
    badTarget ((branchTarget ((s 0).me.pc + 4) (2 : BitVec 24)).setWidth 64) = false ∧ Free (s 1) [.m 3] = true ∧
    (s 0).me.active &&& (s 0).me.getM 3 = 0 ∧ (s 0xFFFF).me.active &&& ~~~((s 0xFFFF).me.getM 3) = 0 ∧
    (s 0xFFFF).me.active &&& (s 0xFFFF).me.getM 3 ≠ 0 ∧ (s 1).me.active &&& (s 1).me.getM 3 ≠ 0 ∧
    (s 1).me.active &&& ~~~((s 1).me.getM 3) ≠ 0 ∧ (s 1).me.depth + 2 ≤ 32 ∧
    255 < deep.me.depth + 2 ∧ due.switchTo 128 = some due ∧ due.me.sketch = none ∧ due.me.regs.top.kind = .path ∧
    due.me.regs.top.rpc = some due.me.pc ∧ due.me.depth ≤ 32 := by decide +kernel

/-- SETMODE with the whole mask: MODE takes the source's fields but its reserved bits and LOCK; GETMODE, PRCHK, NOP, WFI, HALT. -/
theorem witness_mode : let s := ((team 16 4).setS 3 { val := 0x1209 }).setS 4 { val := 0x1FFF }
    Free s (scalars s [3, 4]) = true ∧ Unpoisoned s [3, 4] = true ∧
    (∀ i, i < 32 → (0x1209#32).getLsbD i =
      if (s.me.getS 4).val.getLsbD i && (decide (i < 13) || decide (21 ≤ i ∧ i < 24) || (decide (16 ≤ i ∧ i < 21) && !s.me.regs.mode.getLsbD 24))
      then (s.me.getS 3).val.getLsbD i else s.me.regs.mode.getLsbD i) ∧
    Free thread [] = true ∧ thread.me.isTeam = false ∧ thread.me.regs.priv = true ∧ thread.me.intrs = [] ∧
    (thread.updMe fun a => { a with intrs := [5] }).me.intrs ≠ [] := by decide +kernel

/-- Traps: user mode with nothing in flight, and with a result in flight; a pending trap; a pending interrupt; supervisor mode. -/
theorem witness_traps :
    let flight := user.updMe fun a => { a with varlat := [{ writes := [], flags := 0 }] }
    let pending := user.updMe fun a => { a with pendingTrap := some (0x104, 0) }
    let intr := user.updMe fun a => { a with intrs := [5, 3] }
    Free user [] = true ∧ user.me.regs.priv = false ∧ user.inFlight user.meId user.me = false ∧ user.vectorReady = true ∧
    flight.vectorReady = false ∧ pending.switchTo 0 = some pending ∧ pending.me.pendingTrap = some (0x104, 0) ∧ pending.vectorReady = true ∧
    intr.me.intrs.min? = some 3 ∧ intr.me.pendingTrap = none ∧ intr.me.sstop = 0 ∧ intr.me.atBoundary = true ∧ intr.vectorReady = true ∧
    thread.me.regs.priv = true ∧ thread.vectorReady = true ∧ 0 < (0x12 : Nat) ∧ (0x1FFFF : Nat) < 2 ^ 17 := by decide +kernel

/-- RETT: a thread without a frame; a team with one, whose entry below has a good or a bad PC; a team without one. -/
theorem witness_rett :
    let sup (s : State) := s.updMe fun a => { a with regs := { a.regs with priv := true } }
    let framed (pc : BitVec 56) := (sup (team 16 4)).updMe fun a => { a with regs := { a.regs with
      top := { pc := 0x204, kind := .frame, mask := 1 }, rest := [{ pc := pc, mask := 0xFFFF }] } }
    let t := thread.updMe fun a => { a with upc := 0x104 }
    Free t [] = true ∧ t.me.regs.priv = true ∧ t.me.replayQ = [] ∧ belowFrame (t.me.regs.top :: t.me.regs.rest) = [] ∧ badTarget t.me.upc = false ∧
    Free (framed 0x104) [] = true ∧ (framed 0x104).me.hasFrame = true ∧
    belowFrame ((framed 0x104).me.regs.top :: (framed 0x104).me.regs.rest) = [{ pc := 0x104, mask := 0xFFFF }] ∧
    badTarget (0x104#64) = false ∧ badTarget (0x100#64) = true ∧
    (sup (team 16 4)).me.isTeam = true ∧ (sup (team 16 4)).me.hasFrame = false ∧ Free (sup (team 16 4)) [] = true := by decide +kernel

/-- RETT with a replay queue that drains. -/
theorem witness_rett_drain :
    let t := (mapped thread).updMe fun a => { a with upc := 0x104, replayQ := [{ kind := .store, addr := 0x2000, size := 4, data := { val := 7 } }] }
    t.me.replayQ ≠ [] ∧ t.me.allPerformed = true ∧ (match t.drain t.me.replayQ.length with | .done _ => true | _ => false) = true := by
  decide +kernel

/-- CSRRD and CSRWR: listed numbers, one that is not; a thread, a team with and without a trap frame; pending interrupts. -/
theorem witness_csr :
    let sup := (team 16 4).updMe fun a => { a with regs := { a.regs with priv := true } }
    let framed := sup.updMe fun a => { a with regs := { a.regs with top := { pc := 0x204, kind := .frame }, rest := [{ pc := 0x104 }] } }
    Free thread (scalars thread [3]) = true ∧ Unpoisoned thread [3] = true ∧ Free sup (scalars sup [3]) = true ∧ sup.me.isTeam = true ∧
    framed.me.regs.top :: framed.me.regs.rest = [] ++ { pc := 0x204, kind := .frame } :: { pc := 0x104 } :: [] ∧
    Free framed (scalars framed [3]) = true ∧ (0x027 : BitVec 17).toNat ∉ [0x00E, 0x022, 0x023, 0x025, 0x100] ∧ 0x026 < (0x027 : BitVec 17).toNat ∧
    sup.me.hasFrame = false ∧ (thread.updMe fun a => { a with intrs := [5, 3] }).me.intrs.min? = some 3 := by decide +kernel

/-- Every exec lane of units of any width: what the vector statements ask of their operands, at the first and the last register. -/
def vecOk (mode : Nat) (wide : Bool) (rs : List (BitVec 8)) (more : List Reg := []) : Bool :=
  VecFree (team 16 mode) wide rs more && (poisonedLanes (team 16 mode) wide rs).isEmpty

/-- The team with v3 poisoned in lane 2. -/
def poisoned (mode : Nat) : State := (team 16 mode).updMe fun a => a.setV 3 2 { val := 1, poison := true }

theorem witness_lanes : (team 16 4).me.lanes ≤ 1024 ∧ (0 : Nat) < 1 ∧ (0xFFFF : Nat) < 2 ^ (8 * 4) := by decide +kernel

/-- Integer types of each width, with poison and without; VMAD's and VFUN's four registers. -/
theorem witness_vector_integer :
    [0, 3, 4, 7].all (fun m => isIntType (modeType (BitVec.ofNat 32 m)) && vecOk m (isWideType m) [2, 254, 8, 0]) = true ∧
    VecFree (poisoned 4) false [3, 2, 255] = true ∧ poisonedLanes (poisoned 4) false [3, 2] ≠ [] ∧
    isIntType (poisoned 4).me.ty = true := by decide +kernel

theorem witness_bit_fields : vecOk 4 false [255, 0] = true ∧ (team 16 4).me.ty = 4 ∧ vecOk 7 true [2, 4, 254] = true ∧ (team 16 7).me.ty = 7 ∧
    (5 : BitVec 8).toNat < 6 ∧ 6 ≤ (6 : BitVec 8).toNat ∧ isIntType (team 16 9).me.ty = false ∧ (team 16 3).me.ty < 4 ∧
    7 < (team 16 8).me.ty := by decide +kernel

theorem witness_logic_moves : vecOk 9 false [1, 2, 3, 255] = true ∧ vecOk 8 true [2, 4, 6, 254] = true ∧ vecOk 9 false [1, 2, 255] [.m 15] = true ∧
    VecFree (team 16 9) false [255] ((team 16 9).me.sRegs 127) = true := by decide +kernel

theorem witness_lane_moves : vecOk 4 false [1, 2, 255] = true ∧ (5 : BitVec 9).toNat < 6 ∧ 6 ≤ (6 : BitVec 9).toNat ∧
    (team 16 4).me.execLanes.filter (fun l => ((team 16 4).me.getUnit false 2 l).poison) = [] ∧ (15 : BitVec 8).toNat < (team 16 4).me.gw ∧
    (team 16 4).me.gw ≤ (16 : BitVec 8).toNat ∧ VecFree (team 16 4) false [1, 2] ((team 16 4).me.sRegs 9) = true ∧
    Unpoisoned (team 16 4) [9] = true ∧ (team 16 4).me.isTeam = true ∧ Free (team 16 4) (vRegs false 255 ++ (team 16 4).me.sRegs 127) = true ∧
    (15 : BitVec 9).toNat < (team 16 4).me.lanes ∧ (team 16 4).me.lanes ≤ (16 : BitVec 9).toNat ∧ (team 16 4).me.exec.getLsbD 15 = true ∧
    ((team 16 4).updMe fun a => { a with regs := { a.regs with top := { a.regs.top with mask := 1 } } }).me.exec.getLsbD 15 = false := by
  decide +kernel

theorem witness_reductions : vecOk 9 false [1, 255] = true ∧ reduceOk (team 16 9).me.ty 0 = true ∧ reduceOk (team 16 9).me.ty 3 = false ∧
    isIntType (team 16 4).me.ty = true ∧ (team 16 4).me.gw = 16 ∧ vecOk 4 false [1, 255] = true ∧
    ((team 16 9).me.execLanes.map fun l => (l, 0)).all (fun c => (team 16 9).me.enabled c.2 == 0) = true := by decide +kernel

/-- Masks, with a new mask that keeps the lanes outside exec. -/
theorem witness_masks : let s := (team 16 4).updMe fun a => { (a.setM 3 0xFF).setM 1 0xF0F with regs := { ((a.setM 3 0xFF).setM 1 0xF0F).regs with
      top := { a.regs.top with mask := lanesBelow 8 } } }
    s.me.lanes ≤ 1024 ∧ s.me.isTeam = true ∧ Free s ([.m 1, .m 2, .m 3] ++ s.me.guardReg) = true ∧ (7 : BitVec 4).toNat < 8 ∧
    (9 : BitVec 4).toNat < 10 ∧ 10 ≤ (10 : BitVec 4).toNat ∧ Free s (.m 1 :: s.me.sRegs 9) = true ∧ Unpoisoned s [9] = true ∧
    VecFree s false [255] [.m 3] = true ∧ poisonedLanes s false [255] = [] ∧
    (List.range 1024).all (fun l => (0#1024).getLsbD l == (if l < s.me.lanes && s.me.exec.getLsbD l then (s.me.getM 1).getLsbD l && (s.me.getM 2).getLsbD l
      else (s.me.getM 3).getLsbD l)) = true ∧
    (List.range 1024).all (fun l => (0xFF#1024).getLsbD l == (if l / 64 = 15 then (s.me.getS 9).val.getLsbD (l % 64) else (s.me.getM 3).getLsbD l)) = true := by
  decide +kernel

theorem witness_compare_convert : (team 16 4).me.ty = 4 ∧ (team 16 7).me.ty = 7 ∧ (5 : BitVec 4).toNat < 6 ∧ 6 ≤ (6 : BitVec 4).toNat ∧
    vecOk 4 false [1, 2] [.m 3] = true ∧ isIntType (team 16 4).me.ty = true ∧ isIntType 6 = true ∧ isIntType 8 = false ∧ isWideType 6 = true ∧
    Free (team 16 4) (vRegs false 1 ++ (team 16 4).me.guardReg ++ vRegs true 254) = true ∧ poisonedLanes (team 16 4) false [1] = [] ∧
    (List.range 1024).all (fun l => (0xFFFF#1024).getLsbD l == (if l < 16 then decide (readInt 4 0 = readInt 4 0) else false)) = true := by
  decide +kernel

/-- Float arithmetic in each format; no exception enabled, and a division by zero and a signalling compare with theirs enabled. -/
theorem witness_float : [8, 9, 10, 11, 12, 13].all (fun m => isFloatType (modeType (BitVec.ofNat 32 m)) && vecOk m (isWideType m) [2, 4, 6, 254]) = true ∧
    vecOk 0x0E true [2, 4, 6, 254] = true ∧ (team 16 0x0E).me.ty = 0x0E ∧
    ((fmtOf 9).read false 0x3F800000).isNan = false ∧ (0x7F800000 : Nat) < 2 ^ typeWidth 9 ∧
    (team 16 9).me.enabled ((fmtOf 9).finish 0 false (((fmtOf 9).read false 0).div ((fmtOf 9).read false 0))).2 = 0 ∧
    (team 16 0x10009).me.enabled ((fmtOf 9).finish 0 false (((fmtOf 9).read false 0).div ((fmtOf 9).read false 0))).2 ≠ 0 ∧
    vecOk 9 false [1, 2] [.m 3] = true ∧ vecOk 0x0E true [2, 4] [.m 3] = true ∧ (7 : BitVec 4).toNat < 8 ∧ 8 ≤ (8 : BitVec 4).toNat ∧
    Free (team 16 9) (vRegs false 1 ++ (team 16 9).me.guardReg ++ vRegs true 254) = true ∧
    Free (team 16 6) (vRegs true 2 ++ (team 16 6).me.guardReg ++ vRegs true 254) = true ∧ poisonedLanes (team 16 6) true [2] = [] ∧
    (team 16 9).inFlight 128 (team 16 9).me = false ∧
    (let f := (team 16 9).updMe fun a => { a with varlat := [{ writes := [], flags := 0 }] }
     f.inFlight 128 f.me = true ∧ Free f (scalars f [5]) = true ∧ Unpoisoned f [5] = true) := by decide +kernel

/-- Blocks: aligned sets of 8 and of 4 registers, and ones that are not. -/
theorem witness_blocks : (team 16 9).me.ty = 9 ∧ (248 : BitVec 8).toNat % 8 = 0 ∧ (252 : BitVec 8).toNat % 4 = 0 ∧ (252 : BitVec 8).toNat % 8 ≠ 0 ∧
    Free (team 16 9) (((List.range 8).map fun i => Reg.v (248 + i)) ++ [.v 1, .v 2] ++ (team 16 9).me.guardReg) = true ∧
    Free (team 16 11) (((List.range 4).map fun i => Reg.v (252 + i)) ++ [.v 1, .v 2] ++ (team 16 11).me.guardReg) = true ∧
    vecOk 9 false [1, 2] = true := by decide +kernel

/-- The matrix unit: i8 and bf16 shapes; good operands and a poisoned one; an operation that stands; a gang that lacks a member. -/
theorem witness_matrix : let s := team 16 0
    (matShape 0x00).isSome = true ∧ (matShape 11).isSome = true ∧ (matShape s.me.ty).isSome = true ∧ s.me.isTeam = true ∧
    (matShape s.me.ty).all (fun h => h.bits != 64 && h.t != 0xF && Free s ((s.me.fragRegs 0 (h.m * h.rowWords h.k) ++
      s.me.fragRegs 64 ((h.shapeB false).1 * (h.shapeB false).2)) ++ s.me.guardReg ++ [.a 15]) &&
      (match s.operands s.me h false false (mmaArgs (.mma 15 false false false 0 64)) with | .ok _ _ => true | _ => false) &&
      !(s.me.accOperands false (mmaArgs (.mma 15 false false false 0 64))).2.2) = true ∧
    s.me.exec ≠ 0 ∧ s.slotsUsed s.me.core < 4 ∧ s.me.allPerformed = true ∧
    (let p := s.updMe fun a => a.setV 0 0 { poison := true }
     (matShape p.me.ty).all (fun h => match p.operands p.me h false false (mmaArgs (.mma 15 false false false 0 64)) with | .bad .. => true | _ => false) = true) := by
  decide +kernel

theorem witness_matrix_done : let s := (team 16 0).addMatrixOp ((team 16 0).matrixOp 3 [] 0 true)
    ∃ o, s.matrix.get [] s.me.core = [o] ∧ s.agent? o.agent = some s.me ∧ s.me.sketch = none ∧ o.members = [] := by
  refine ⟨(team 16 0).matrixOp 3 [] 0 true, ?_⟩; decide +kernel

theorem witness_tiles : let s := team 16 9
    s.me.isTeam = true ∧ Free s ([.a 15, .a 0] ++ s.me.guardReg) = true ∧ Free s (.a 15 :: s.me.sRegs 3 ++ s.me.guardReg) = true ∧
    (matShape s.me.ty).all (fun h => h.acc != 4) = true ∧ (s.me.getS 3).poison = false ∧
    (s.me.tile 15 ++ s.me.tile 0).all (fun c => !c.2.poison) = true ∧ s.me.exec ≠ 0 ∧ s.me.allPerformed = true ∧
    (descOf (s.me.getS 3).val).base % 4 = 0 ∧ (descOf (s.me.getS 3).val).depth = 1 ∧
    (List.range 64).all (fun r => decide ((descOf (s.me.getS 3).val).row 0 r + 256 ≤ s.me.grant)) = true ∧
    (let e := descOf 0xFFFC
     (beyondGrant s.me.grant ((List.range 64).map (e.row 0)) 256).isSome = true ∧ e.base % 4 = 0 ∧ e.depth = 1) := by decide +kernel

theorem witness_gang : let s := (team 16 0).updMe fun a => { a with slot := 2, regs := { a.regs with gang := 0x224 } }
    let u := s.setS 3 { val := 0x24 }
    u.me.isTeam = true ∧ Free u (scalars u [3]) = true ∧ Unpoisoned u [3] = true ∧ (u.me.getS 3).val.getLsbD u.me.slot = true ∧
    ((List.range 32).filter fun i => (u.me.getS 3).val.getLsbD i).length = 2 ∧ u.me.lanes = u.me.gw ∧ u.me.span = none ∧ u.me.slot < 32 ∧
    s.me.regs.gang ≠ 0 ∧ s.me.exec ≠ 0 ∧ s.slotsUsed s.me.core < 4 ∧
    (matShape s.me.ty).all (fun h => decide (h.bits ≤ 32) && h.t != 0xF && Free s (s.me.fragRegs 0 (h.m * h.rowWords h.k) ++
      s.me.fragRegs 64 ((h.shapeB false).1 * (h.shapeB false).2) ++ s.me.guardReg ++ [.a 15])) = true ∧
    (s.updMe fun g => { g with wait := .gang (.mma 15 false true false 0 64) }).gangMembers = none := by decide +kernel

theorem witness_checksum : let s := team 16 4
    VecFree s false [4, 5, 6, 7, 8] = true ∧ s.me.exec ≠ 0 ∧ poisonedLanes s false [4, 5] = [] ∧
    (s.me.execGroups.map (·.headD 0)).all (fun l => !(s.me.getV 6 l).poison && !(s.me.getV 7 l).poison &&
      decide ((s.me.getV 7 l).val.toNat % 4 ≤ 1)) = true ∧
    s.me.execLanes.all (fun l => decide ((s.me.getV 5 l).val.toNat % 8 ≤ 4)) = true := by decide +kernel

theorem witness_decompression : let s := (team 16 4).updMe fun a => { a with regs := { a.regs with top := { a.regs.top with mask := 2 } } }
    VecFree s false [8, 9, 10, 11, 2, 3, 4, 5] [.m 1] = true ∧ s.me.execLanes = [1] ∧ s.me.allPerformed = true ∧
    poisonedLanes s false [8, 9, 2, 3, 4, 5] = [] ∧ (s.me.xlane 8 2 4 1).ct % 4 = 0 ∧ s.xbound (s.me.xlane 8 2 4 1) = none ∧
    s.cutPending s.me = false := by decide +kernel

/-- A team in a mapped space, its s9 holding an address there. -/
def memTeam (n mode : Nat) (vs : List (Nat × Nat × Nat) := []) (x : Nat := 0x2000) : State := mapped (team n mode vs [(9, x)])

/-- Whether some lane addresses are located without a fault, by the agent as it stands. -/
def found (s : State) (xs : List LaneAddr) (size acc : Nat) : Bool :=
  match s.locateAll xs size acc with
  | (.keys ks, u) => u.me == s.me && ks.length == xs.length
  | _ => false

def notMapped (s : State) (xs : List LaneAddr) (size acc : Nat) : Bool :=
  match s.locateAll xs size acc with
  | (.fault .., _) => true
  | _ => false

/-- Loads and stores: operands free, lanes that pass the checks of R228 and are found or are not, lanes that fail them; offsets of the
scratchpad up to and beyond the grant; an empty execution mask. -/
theorem witness_memory_issue :
    let s := memTeam 16 4
    let xs := s.me.vecAddrs 2 9 false 0
    let far := (memTeam 16 4 [] (2 ^ 40))
    let bad := memTeam 16 4 [] (2 ^ 56)
    let none_ := s.updMe fun a => { a with regs := { a.regs with top := { a.regs.top with mask := 0 } } }
    s.me.allPerformed = true ∧ Free s (s.me.addrRegs 2 9 false ++ s.me.guardReg ++ vRegs false 255) = true ∧
    Free s (s.me.addrRegs 2 0 true ++ s.me.guardReg ++ vRegs true 254) = true ∧ Free s (scalars s [9, 127]) = true ∧
    s.checkAddrs xs 8 0 accLoad = none ∧ s.checkAddrs xs 8 0 accStore = none ∧ xs ≠ [] ∧ found s xs 8 accLoad = true ∧
    notMapped far (far.me.vecAddrs 2 9 false 0) 8 accLoad = true ∧ (bad.checkAddrs (bad.me.vecAddrs 2 9 false 0) 8 0 accLoad).isSome = true ∧
    none_.me.vecAddrs 2 9 false 0 = [] ∧ s.me.ldcnt + 1 ≤ 2048 ∧ s.me.storeQ.length + 16 ≤ 4096 ∧
    s.checkOffsets (s.me.vecAddrs 2 9 false (65536 - 0x2000 - 8)) 8 accLoad = none ∧
    (s.checkOffsets (s.me.vecAddrs 2 9 false (65536 - 0x2000 - 4)) 8 accLoad).isSome = true := by decide +kernel

/-- A load in flight whose last sector returns: of a vector register's lane, and of an s register. -/
theorem witness_load_return :
    let p : PendingLoad := { dst := .vec 3 false, signed := true, sectors := [0x4000100], seq := 0, lanes := [{ lane := some 15, keys := [0x80002000] }] }
    let u := (memTeam 16 4).updMe fun a => { a with loads := [p] }
    u.switchTo 128 = some u ∧ u.me.loads[0]? = some p ∧ p.sectors = [0x4000100] ∧ p.inSketch = false ∧ u.me.sketch = none ∧ u.me.storeQ = [] ∧
    [0x80002000].any (fun k => sectorOf k = 0x4000100) = true ∧ isNext (fun t => vw t 3 15 == 0) (exec (.sectorReturn 128 0 0x4000100) u) = true := by
  decide +kernel

/-- A store to perform, first of its queue; atomics, compare-and-swaps and bank operations. -/
theorem witness_store_perform :
    let s := memTeam 16 4
    let u := s.updMe fun a => { a with storeQ := [{ kind := .store, addr := 0x2000, size := 4, data := { val := 7 } }] }
    let keys := [0x80002000, 0x80002001, 0x80002002, 0x80002003]
    keys.Nodup ∧ keys.length = 4 ∧ u.me.storeQ.length = 1 ∧ u.storeReady 0 { kind := .store, addr := 0x2000, size := 4, data := { val := 7 } } = true ∧
    (match u.performReq { kind := .store, addr := 0x2000, size := 4, data := { val := 7 } } with | .done _ => true | _ => false) = true ∧
    (0x0F : BitVec 5).toNat < 0x10 ∧ (s.readKeys keys).2 = false ∧ (s.readKeys keys).1 = (0 : Dword).toNat % 2 ^ 32 ∧
    ((s.wr 0x80002000 4 5).readKeys keys).1 ≠ 0 ∧ (({ s with poison := [(0x20000800, true)] } : State).readKeys keys).2 = true ∧
    (2 ^ 32 - 1 : Nat) < 2 ^ 32 := by decide +kernel

/-- Atomics: lanes that pass the checks and are found; a poisoned operand; a Hearth address for HRED and one outside it. -/
theorem witness_atomics_issue :
    let s := memTeam 16 4
    let xs := s.me.vecAddrs 2 9 false 0
    let p := s.updMe fun a => a.setV 8 3 { poison := true }
    s.me.ty = 4 ∧ (team 16 9).me.ty = 9 ∧ (team 16 7).me.ty = 7 ∧ Free s (s.me.addrRegs 2 9 false ++ s.me.guardReg ++ vRegs false 8 ++ vRegs false 12) = true ∧
    s.checkAddrs xs 4 1 accAtomic = none ∧ found s xs 4 accAtomic = true ∧ (xs.filter (·.poison)) = [] ∧
    (p.me.getUnit false 8 3).poison = true ∧ Free s (scalars s [9, 3]) = true ∧ (0x0F : BitVec 5).toNat < 0x10 ∧ (6 : BitVec 4).toNat < 7 ∧
    Free s (s.me.addrRegs 2 9 false ++ s.me.guardReg ++ vRegs false 8 ++ vRegs false 9) = true ∧
    classOf 0xFD000000000000 = .hearth ∧ classOf 0x2000 ≠ .hearth := by decide +kernel

/-- MWAIT: a mapped dword, written since the reference or not; the scratchpad; a poisoned operand; a parked agent, marked or overdue. -/
theorem witness_monitor :
    let s := memTeam 16 4
    let seen := s.updMe fun a => { a with refs := [(unitOf 0x80002000, true)] }
    let parked (f : Bool) := s.updMe fun a => { a with wait := .mwait 0x1008 (unitOf 0x80002000) 0x2000 100 f }
    let other : State := { thread with others := [(128, (parked false).me)] }
    Free s (scalars s [5, 9]) = true ∧ s.me.allPerformed = true ∧ Unpoisoned s [5, 9] = true ∧
    Unpoisoned (s.updMe fun a => a.setS 5 { poison := true }) [5, 9] = false ∧
    s.checkAddrs [{ lane := none, addr := 0x2000, poison := false }] 8 1 accLoad = none ∧
    (s.checkAddrs [{ lane := none, addr := 0x2004, poison := false }] 8 1 accLoad).isSome = true ∧
    classOf 0x2000 ≠ .scratch ∧ classOf 0xFE000000000000 = .scratch ∧ found s [{ lane := none, addr := 0x2000, poison := false }] 8 accLoad = true ∧
    seen.me.refs.get false (unitOf 0x80002000) = true ∧ s.me.refs.get false (unitOf 0x80002000) = false ∧
    (parked true).switchTo 128 = some (parked true) ∧ 100 ≤ (parked false).time.toNat ∧
    other.others.find? 128 = some (parked false).me ∧ (128 : Nat) ≠ other.meId ∧ (parked false).me.sketch = none := by decide +kernel

/-- R272: CINVA stays at a dirty line of its range until the line is written back. -/
theorem test_cinva_waits :
    let s : State := { (memTeam 16 4).updMe fun a => (a.setS 9 { val := 0x2000 }).setS 5 { val := 128 } with
      dir := [(0x80002000 / 128, { vline := 0x40, dirty := true })] }
    let at_ (pc : Nat) (left : Nat) := isNext fun t => t.me.pc.toNat == pc && t.dir.length == left
    (at_ s.me.pc.toNat 1 (exec (.cinva 9 5) s) &&
      (match exec (.cinva 9 5) s with
       | .next t => (match exec (.writeBack (0x80002000 / 128) 0 false) t with
         | .next u => at_ (s.me.pc.toNat + 4) 0 (exec (.cinva 9 5) u)
         | _ => false)
       | _ => false)) = true := by decide +kernel

/-- INK, PREF and CINVA: all performed; a poisoned address; ranges of 0, 1, 2^30 and more bytes. -/
theorem witness_ordering :
    let s := memTeam 16 4
    Free s [] = true ∧ s.me.wait = .none ∧ Free s (s.me.addrRegs 2 9 false ++ s.me.guardReg) = true ∧
    (s.me.vecAddrs 2 9 false 0).filter (·.poison) = [] ∧
    ((s.updMe fun a => a.setV 2 1 { poison := true }).me.vecAddrs 2 9 false 0).filter (·.poison) ≠ [] ∧
    (s.dropRange (some s.meId) 0 0x2000 128).rangeWritten 0 0x2000 128 = true ∧
    (let v : State := { s with dir := [(0x80002000 / 128, { vline := 0x40, dirty := true })] }
     (v.dropRange (some v.meId) 0 0x2000 128).rangeWritten 0 0x2000 128 = false) ∧
    globalRange 0x2000 (2 ^ 30) = true ∧ globalRange 0xFCFFFFFFFFFFFF 2 = false ∧ (2 ^ 30 : Nat) < (0x40000001 : Dword).toNat := by decide +kernel

/-- A load that opens a sketch: an older store waits; then an ink and an erase that are due. -/
theorem witness_sketches :
    let s := (memTeam 16 4).updMe fun a => { a with storeQ := [{ kind := .store, addr := 0x3000, size := 4, data := { val := 7 } }] }
    let xs := s.me.scalarAddr 9 0
    let inSketch := (memTeam 16 4).updMe fun a => { a with sketch := some { first := a.pc, saved := a.regs, reads := [5], loadInstrs := 1 } }
    Free s (scalars s [9, 6]) = true ∧ s.me.isTeam = true ∧ s.me.ns = false ∧ s.me.specLvl ≠ 2 ∧ s.me.allPerformed = false ∧
    s.checkAddrs xs 8 0 accLoad = none ∧ found s xs 8 accLoad = true ∧ s.overlapsAtomic [0x80002000] = false ∧
    inSketch.me.inks = true ∧ inSketch.switchTo 128 = some inSketch ∧ inSketch.me.sketch.isSome = true := by decide +kernel

/-- A result in flight; a store that meets a fault. -/
theorem witness_results_and_faults :
    let v : VarResult := { writes := [{ reg := .v 3, val := {} }], flags := 0x10 }
    let r : StoreReq := { kind := .store, addr := 0x10000000000, size := 4, data := { val := 7 } }
    let u := (memTeam 16 4).updMe fun a => { a with storeQ := [r] }
    ((team 16 4).updMe fun a => { a with varlat := [v] }).me.varlat[0]? = some v ∧ (team 16 4).me.sketch = none ∧
    u.me.storeQ = r :: [] ∧ r.kind = .store ∧ r.held = false ∧ r.sup = false ∧ (u.storeFaults r).isSome = true ∧ u.me.sstop = 0 ∧
    u.me.hasFrame = false ∧ u.me.pendingTrap = none ∧ u.me.wait = .none ∧ u.me.loads = [] := by decide +kernel

/-- Partition 0 valid, with the Hearth range 0x100000 to 0x10FFFF; and a barrier object there. -/
def part0 (s : State) : State := (s.wr (partBase 0) 4 1).wr (partBase 0 + 0xE0) 4 0x810
def object (s : State) (count target gen valid : Nat) : State :=
  (((s.wr (hearthKey 0x100000) 4 count).wr (hearthKey 0x100004) 4 target).wr (hearthKey 0x100008) 4 gen).wr (hearthKey 0x10000C) 4 valid

/-- A team beside its partition's object, whose address is in s10. -/
def barTeam (count : Nat) : State := object (part0 (mapped (team 16 4 [] [(10, 0xFD000000100000), (11, 4), (5, 7)]))) count 4 7 1

/-- R390's example: the arrivals of four teams, the last of which advances GEN; a BARWAIT on 7 then parks or completes. -/
theorem test_bararr :
    runs (fun t => (performs 1 t).any fun u => sv u 5 == 7 && u.objCount 0x100000 == 1 && u.objGen 0x100000 == 7) [[0xE10A2800]] (barTeam 0) = true ∧
    runs (fun t => (performs 1 t).any fun u => sv u 5 == 0x100000007 && u.objCount 0x100000 == 0 && u.objGen 0x100000 == 8) [[0xE10A2800]]
      (barTeam 3) = true := by decide +kernel

theorem test_barwait : runs (fun t => t.me.wait == .barwait 6 0x100000 7 && t.me.pc == 0x1004) [[0xE20C2828]] (barTeam 0) = true ∧
    runs (fun t => sv t 6 == 8 && t.me.pc == 0x1008) [[0xE20C2828]] (object (barTeam 0) 0 4 8 1) = true := by decide +kernel

/-- R389: BARINIT keeps GEN and answers it; BARTST reads GEN and COUNT. -/
theorem test_barinit_bartst :
    runs (fun t => (performs 1 t).any fun u => sv u 4 == 7 && u.objTarget 0x100000 == 4 && u.objValid 0x100000) [[0xE0082858]]
      (object (barTeam 0) 9 9 7 0) = true ∧
    runs (fun t => isNext (fun u => sv u 7 == 7 + 2 * 2 ^ 32) (exec (.sectorReturn 128 0 (sectorOf (hearthKey 0x100000))) t)) [[0xE30E2800]]
      (barTeam 2) = true := by decide +kernel

theorem test_timerd : runs (fun t => sv t 8 == 164) [[0xE4100000]] (team 16 4) = true := by decide +kernel

theorem witness_barriers : let s := barTeam 0
    Free s (scalars s [4, 10, 11]) = true ∧ Unpoisoned s [10, 11] = true ∧ s.me.allPerformed = true ∧
    s.checkAddrs [{ lane := none, addr := 0xFD000000100000, poison := false }] 16 0 accStore = none ∧
    s.checkAddrs [{ lane := none, addr := 0xFD00000010FFF0, poison := false }] 16 0 accLoad = none ∧
    (s.checkAddrs [{ lane := none, addr := 0xFD000000110000, poison := false }] 16 0 accLoad).isSome = true ∧
    classOf 0xFD000000100000 = .hearth ∧ classOf 0x2000 ≠ .hearth ∧ s.objPoison 0x100000 = false ∧ s.objValid 0x100000 = true ∧
    s.objGen 0x100000 = 7 ∧ (object s 0 4 7 0).objValid 0x100000 = false ∧
    ({ s with poison := [(hearthKey 0x100000 / 4, true)] } : State).objPoison 0x100000 = true ∧ s.me.storeQ.length < 4096 ∧
    s.partOf s.me = some 0 ∧ (mapped thread).partOf (mapped thread).me = some 0 ∧ thread.partOf thread.me = none ∧
    thread.me.kind = .host ∧ thread.me.regs.priv = true := by decide +kernel

/-- R328's example: CHNINIT of a 4 KiB buffer at 0x1000 binds channel 0; CHNREL.cons queues its advance. -/
def chTeam : State := (team 16 4 [] [(10, 0x1801000), (11, 16), (8, 0), (9, 4096)])

theorem test_chninit : runs (fun t => sv t 4 == 0x100 && (t.channels.get {} 0).bound && (t.channels.get {} 0).log2size == 12 &&
      (t.channels.get {} 0).base == 0x1000) [[0xD7082858]] chTeam = true := by decide +kernel

/-- The channel bound and full: CHNWAIT.data of 4096 answers at once, and CHNREL.cons frees the buffer when it is performed. -/
def fullTeam : State := { chTeam with channels := [(0, { bound := true, base := 0x1000, log2size := 12, prod := 4096, cons := 0 })] }

theorem test_channel_wait_release :
    isNext (fun t => sv t 7 == 4096 * 2 ^ 32) (exec (.chnwait 7 8 9 true) fullTeam) = true ∧
    isNext (fun t => (performs 1 t).any fun u => sv u 7 == 1 && (u.channels.get {} 0).cons == 4096) (exec (.chnrel 7 8 9 false) fullTeam) = true := by
  decide +kernel

theorem witness_channels : let s := chTeam
    let f := fullTeam
    s.me.isTeam = true ∧ Free s (scalars s [4, 10, 11]) = true ∧ Unpoisoned s [10, 11] = true ∧ s.channels.find? 0 = none ∧ f.channels.find? 0 ≠ none ∧
    s.me.grant = 65536 ∧ (f.channels.get {} 0).bound = true ∧ (f.channels.get {} 0).closing = false ∧ (f.channels.get {} 0).launch = f.me.launch ∧
    (f.channels.get {} 0).pendingBind = none ∧ (f.channels.get {} 0).pendingFree = none ∧
    f.engines.all (fun o => !(o.names 0 && o.fired)) = true ∧ f.me.allPerformed = true ∧ f.me.storeQ.length < 4096 ∧
    (let w := f.updMe fun a => { a with wait := .chnwait 7 0 4096 true false }
     w.switchTo 128 = some w) ∧
    (let full : State := { s with channels := (List.range 16).map fun c => (c, { bound := true }) }
     (List.range 16).all (fun c => (full.channels.find? c).isSome) = true ∧ full.me.wait = .none) := by decide +kernel

/-- A command block at 0x2000 (s9) of dwords, for a team of partition 0 whose object lies at s10. -/
def cmdTeam (ds : List Nat) : State :=
  ds.zipIdx.foldl (fun s (c : Nat × Nat) => s.wr (0x80002000 + 8 * c.2) 8 c.1)
    (object (part0 (mapped (team 16 4 [] [(9, 0x2000), (10, 0xFD000000100000)]))) 0 1 7 1)

/-- The command of CPY of 8 bytes from 0x3000 to 0x4004, its source filled. -/
def cpyTeam : State := (cmdTeam [0x3000, 0x4004, 8, 0]).wr 0x80003000 8 0x1122334455667788

/-- The state after CPY s5, s9, s10 is issued. -/
def cpyIssued : State := match exec (.cpy 5 9 10) cpyTeam with | .next t => t | _ => cpyTeam
def cpyStarted : State := match exec (.engineStart { id := 0 }) cpyIssued with | .next t => t | _ => cpyIssued

/-- R319, R320: CPY answers 1, and its operation, once started and complete, has copied its bytes, written STATUS 1 at offset 0x18 and
arrived at its object. -/
theorem test_cpy : sv cpyIssued 5 = 1 ∧ cpyIssued.engines.length = 1 ∧
    isNext (fun t => t.rd 0x80004004 8 == 0x1122334455667788 && t.rd 0x80002018 4 == 1 && t.objGen 0x100000 == 8 && t.engines.isEmpty)
      (exec (.engineCompletion 0 [] .fine) cpyStarted) = true := by decide +kernel

theorem test_cpy_misaligned : isNext (fun t => sv t 5 == 0x82) (exec (.cpy 5 9 10) (cpyTeam.updMe fun a => a.setS 9 { val := 0x2010 })) = true := by
  decide +kernel

/-- The engine statements: a good command and its queue; an operation that may start, one that has, and where its bytes lie. -/
theorem witness_engines : let s := cpyTeam
    Free s (scalars s [5, 9, 10]) = true ∧ s.me.allPerformed = true ∧ Unpoisoned s [9, 10] = true ∧
    s.checkAddrs [{ lane := none, addr := 0x2000, poison := false }] 32 0 accLoad = none ∧
    found s [{ lane := none, addr := 0x2000, poison := false }] 32 accLoad = true ∧ s.completionOf 0xFD000000100000 = some (some 0x100000) ∧
    s.completionOf 3 = none ∧
    cpyIssued.engines.all (fun o => o.id = 0 && cpyIssued.opReady o && (o.status == 1) && o.chans == (none, none) && o.kind == .cpy &&
      (match cpyIssued.engineKeys o 0x3000 8 0 accLoad with | (.keys ks, _) => ks == (List.range 8).map (0x80003000 + ·) | _ => false) &&
      (match cpyIssued.engineKeys o 0x4004 8 0 accStore with | (.keys ks, _) => ks == (List.range 8).map (0x80004004 + ·) | _ => false) &&
      (match cpyIssued.engineKeys o (2 ^ 40) 8 0 accStore with | (.bad st, _) => st == 5 | _ => false)) = true ∧
    cpyStarted.engines.all (fun o => o.started && o.peers.isEmpty && !o.dst.any isPeer && o.dst.length == 8 &&
      (match cpyStarted.engineKeys o (o.cmd.toNat + o.statusOff) 4 0 accStore with | (.keys ks, _) => decide ks.Nodup && (ks.length == 4 && ks.all fun k => !isPeer k) | _ => false)) = true := by decide +kernel

theorem witness_engine_writes : [0x80004004, 0x80004005].Nodup ∧ [0x80004004, 0x80004005].all (fun k => !isPeer k) = true ∧
    ([0x80004004, 0x80004005] : List Nat).length = [(1#8, false), (2#8, true)].length ∧
    ((List.range [(1#8, false), (2#8, true)].length).map (0x80004004 + ·)).all (fun k => !isPeer k) = true ∧
    (0x80004004 : Nat) ∈ (List.range 2).map (0x80004004 + ·) ∧ cpyTeam.failedChannels = [] ∧ cpyTeam.badBlocks = [] := by decide +kernel

/-- CHKOUT (EXCLUSIVE, mode 1) of 8 bytes at 0x3000 into offset 0x400 of the grant, plain and fail-fast; and CHKIN. -/
def outTeam : State := (cmdTeam [0x3000, 8 + 0x400 * 2 ^ 32, 0, 0]).wr 0x80003000 8 0x1122334455667788
def outIssued : State := match exec (.chkout 5 9 10 false 1) outTeam with | .next t => t | _ => outTeam
def outDone : State := match exec (.engineStart { id := 0 }) outIssued with | .next t => t | _ => outIssued

theorem test_chkout : sv outIssued 5 = 1 ∧ outDone.ranges.length = 1 ∧ outDone.rd (scratchKey 0 0x400) 8 = 0x1122334455667788 ∧
    isNext (fun t => sv t 5 == 1 && t.ranges.length == 1) (exec (.chkout 5 9 10 true 1) outTeam) = true := by decide +kernel

/-- R246: a check-in writes the dirty words of the copy, and only those. -/
theorem test_chkin :
    let hot : State := { (outDone.wr (scratchKey 0 0x404) 4 0xAABBCCDD) with dirty := [((scratchKey 0 0x404) / 4, true)], engines := [] }
    isNext (fun t => isNext (fun u => u.rd 0x80003000 8 == 0xAABBCCDD55667788 && u.ranges.isEmpty) (exec (.engineStart { id := 1 }) t))
      (exec (.chkin 5 9 10) hot) = true := by decide +kernel

theorem witness_check_outs :
    outIssued.engines.all (fun o => o.id = 0 && outIssued.opReady o && o.status != 3 && o.kind == .chkout 1 false &&
      (match ({ outIssued with ranges := [] } : State).engineKeys o 0x3000 8 0 accAtomic with
        | (.keys ks, u) => !(ks.any isPeer) && !(u.rangeConflict 1 (piecesOf ks)) && (outDone.rangeConflict 1 (piecesOf ks)) | _ => false)) = true ∧
    ((List.range 8).map fun j => scratchKey 0 (0 + swizzle (0x400 + j) 0)).Nodup ∧
    outDone.ranges.all (fun r => decide r.keys.Nodup && !r.keys.any isPeer && r.keys.all (fun k => decide (k < 2 ^ 48)) && r.mode == 1 && !r.recalled &&
      outDone.agents.any (fun c => c.2.isTeam && c.2.launch = r.launch && c.2.teamid = r.teamid)) = true := by decide +kernel

/-- R345's example: registration 5 of depth 64 with CAP 63, RESV and HEAD 10, slots 11 and 12 accepted. -/
def proxyTeam : State :=
  let s := part0 (mapped (team 16 4 [] [(10, 5), (11, 2), (12, 10)]))
  let s := ((s.wr (proxyBase 5 + 8) 4 0x100000).wr (proxyBase 5 + 0x0C) 2 0x106).wr (proxyBase 5 + 0x10) 4 10
  { object s 11 10 63 0 with filled := [(4096 * 5 + 11, true), (4096 * 5 + 12, true)] }

/-- QRSV of 2 slots performs with the first slot, 11, and RESV 13; QPOST of slot 10 moves PUB to 13 and asks for one tail write. -/
theorem test_qrsv : isNext (fun t => (performs 1 t).any fun u => sv u 4 == 11 && u.rd (hearthKey 0x100000) 4 == 13) (run [0xDA082858] proxyTeam) = true := by
  decide +kernel

theorem test_qpost : isNext (fun t => regPub t 5 == 13 && t.tails == [5] && !t.anyFilled 5) (run [0xDB002860] proxyTeam) = true ∧
    isNext (fun t => regPub t 5 == 10 && t.isFilled 5 13) (exec (.qpost 10 12) (proxyTeam.updMe fun a => a.setS 12 { val := 13 })) = true := by decide +kernel

theorem witness_queues : let s := proxyTeam
    Free s (scalars s [4, 10, 11]) = true ∧ Unpoisoned s [10, 11] = true ∧ regValid s 5 = true ∧ regValid s 6 = false ∧ regPart s 5 = 0 ∧
    s.partOf s.me = some 0 ∧ s.me.storeQ.length < 4096 ∧ s.objPoison 0x100000 = false ∧ regFlags s 5 % 16 ≤ 12 ∧ s.isFilled 5 10 = false ∧
    s.isFilled 5 11 = true ∧ 73 % regDepth s 5 = 9 ∧ (73 + 2 ^ 32 - regPub s 5) % 2 ^ 32 < regDepth s 5 ∧
    ¬ (74 + 2 ^ 32 - regPub s 5) % 2 ^ 32 < regDepth s 5 ∧ regPaused s 5 = false ∧ 5 ∈ ({ s with tails := [5] } : State).tails ∧
    (({ s with holes := [(5, 0)] } : State).holes.find? 5 = some 0 ∧ s.anyFilled 5 = true) := by decide +kernel

/-- SPAWN: a good and a bad entry; then a thread to place; a bin that is due; a ring with an entry. -/
theorem witness_spawning : let s := team 16 4 [] [(9, 0x3004)]
    s.me.isTeam = true ∧ Free s (vRegs true 2 ++ s.me.guardReg ++ s.me.sRegs 9 ++ [.m 1]) = true ∧
    (s.me.execLanes.filter fun l => (s.me.getS 9).poison || (s.me.getPair 2 l).poison) = [] ∧ badTarget (s.me.getS 9).val = false ∧
    badTarget (s.me.getS 8).val = true ∧ s.me.execLanes ≠ [] ∧
    isNext (fun t => t.me.wait == .spawn 1 && t.me.spawnQ.length == 16 && t.me.getM 1 == lanesBelow 16) (exec (.spawn 1 2 9) s) = true := by decide +kernel

/-- A thread that arrives where a bin is free and where none is; one that waits there, and is placed; one that has waited its time,
behind one that has not. -/
theorem witness_kindling :
    let t : SpawnThread := { entry := 0x3004, arg := 9, launch := 0, lane := 3, fork := { agent := 128, launch := 0, teamid := 0, seq := 0 } }
    let at_ (q : List SpawnThread) : State := (team 16 4).updMe fun a => { a with wait := .spawn 1, spawnQ := q }
    let late : SpawnThread := { t with arrived := some 0 }
    let fresh : SpawnThread := { t with lane := 2, arrived := some 100 }
    let s := at_ [t]
    let roomy := s.wr (partBase 0 + 0x104) 4 0x100
    let waits := at_ [late]
    let two : State := { at_ [fresh, late] with time := 4096 }
    (s.switchTo 128).isSome = true ∧ s.me.wait = .spawn 1 ∧ s.me.spawnQ.find? (·.arrived.isNone) = some t ∧ (s.placeThread t).isNone = true ∧
    roomy.me = s.me ∧ (match roomy.placeThread t with | some v => decide (v.me = roomy.me) | none => false) = true ∧
    waits.me.spawnQ = [] ++ late :: [] ∧ waits.me.spawnQ.all (·.arrived.isSome) = true ∧
    two.me.spawnQ = [fresh] ++ late :: [] ∧ two.expires 4096 = true ∧ two.expires 4196 = false ∧ (two.placeThread late).isNone = true ∧
    isNext (fun u => u.me.spawnQ.length == 1 && u.me.getM 1 == 0) (exec (.kindlingDrop 128) two) = true := by decide +kernel

/-! ### Launches, placement, saving, migration -/

/-- A host thread of partition 0, which owns cluster 0 and one image slot, and the launch descriptor of R308's example at 0x2000 (s10). -/
def launchThread : State :=
  let s := part0 (mapped (thread.updMe fun a => a.setS 10 { val := 0x2000 }))
  let s := ((s.wr (partBase 0 + 0xC0) 8 1).wr (partBase 0 + 0xF8) 8 0x400000).wr (partBase 0 + 0x100) 4 1
  [0x0000004000010000, 0x0420010000000004, 0x0000000002200040, 0x0000000000000009, 0x0000004100000000, 0x00FD000000100000, 0, 0].zipIdx.foldl
    (fun s (c : Nat × Nat) => s.wr (0x80002000 + 8 * c.2) 8 c.1) s

def launched : State := match exec (.launch 4 10 5) launchThread with | .next t => t | _ => launchThread
def placed : State := match exec (.teamPlacement 0) launched with | .next t => t | _ => launched

/-- R308's example: LAUNCH answers 1, and the class-2 queue of the partition holds 4 teams of the descriptor's shape. -/
theorem test_launch : sv launched 4 = 1 ∧ launched.launches.map (fun l => [l.desc.teams, l.desc.lanes, l.desc.gw, l.desc.bv, l.desc.bs, l.desc.ba, l.desc.cls,
      l.desc.arg.toNat, l.liveTeams]) = [[4, 256, 32, 64, 32, 4, 2, 0x4100000000, 4]] := by decide +kernel

theorem test_launch_misaligned : isNext (fun t => sv t 4 == 0x82) (exec (.launch 4 10 5) (launchThread.updMe fun a => a.setS 10 { val := 0x2020 })) = true := by
  decide +kernel

/-- R72, R74, R310: the first team is placed at core 0, with ARG in s1, PC at word 1 of its first bundle, and TEAMID 0. -/
theorem test_placement : (placed.agent? 128).any (fun a => (a.getS 1).val == 0x4100000000 && a.pc == 0x4000010004 && a.teamid == 0 && a.regs.mode == 9 &&
      a.lanes == 256 && !a.regs.priv) = true ∧ placed.launches.map (·.placed) = [1] := by decide +kernel

theorem witness_launches : let s := launchThread
    Free s (scalars s [4, 5, 10]) = true ∧ s.me.allPerformed = true ∧ Unpoisoned s [10] = true ∧ classOf 0x2000 = .global ∧ 0x2000 % 64 = 0 ∧
    s.checkAddrs [{ lane := none, addr := 0x2000, poison := false }] 64 0 accLoad = none ∧
    found s [{ lane := none, addr := 0x2000, poison := false }] 64 accLoad = true ∧
    classOf (2 ^ 56) = .global ∧ (s.checkAddrs [{ lane := none, addr := 0x100000000000000, poison := false }] 64 0 accLoad).isSome = true ∧
    notMapped s [{ lane := none, addr := 2 ^ 40, poison := false }] 64 accLoad = true ∧ s.partValid 0 = true ∧ (s.part 0).resetting = false ∧
    s.partOf s.me = some 0 ∧ s.freeEntry 0 2 = some 0 ∧ s.me.wait = .none ∧
    (let full : State := { s with launches := (List.range 64).map fun i => { handle := BitVec.ofNat 64 (i * 128 + 32), index := i, desc := { cls := 2 } } }
     full.freeEntry 0 2 = none) := by decide +kernel

theorem witness_placement : let cs := (launched.candidates 0).foldl (fun l c => insertCand c l) []
    launched.partValid 0 = true ∧ (launched.part 0).resetting = false ∧ cs.length = 1 ∧
    cs.all (fun c => (launched.candSpot 0 c).isSome && ((launched.wr (partBase 0 + 0xC0) 8 0).candSpot 0 c).isNone &&
      ((launched.wr (partBase 0 + 0xC0) 8 0).askFor 0 c).isNone) = true := by decide +kernel

/-- A team of two launch entries' worth of partition 0, at rest, with an image slot free. -/
def restTeam : State :=
  let s := part0 (mapped ((team 16 4 [] [(9, 0x3004)]).updMe fun a => { a with bv := 2, bs := 16, ba := 0, grant := 0 }))
  { ((s.wr (partBase 0 + 0xC0) 8 1).wr (partBase 0 + 0xF8) 8 0x400000).wr (partBase 0 + 0x100) 4 1 with
    launches := [{ handle := 0, index := 0, desc := { teams := 1 }, placed := 1, liveTeams := 1 }] }

/-- R198: the last lanes' EXIT ends the team, whose launch has no live team left; on a deeper stack it goes on at the entry below. -/
theorem test_exit : isNext (fun t => t.agent? 128 == none && t.launches.map (·.liveTeams) == [0]) (exec .exit restTeam) = true ∧
    isNext (fun t => t.me.pc == 0x2004 && t.me.active == 0xFF00) (exec .exit (restTeam.updMe fun a => { a with regs := { a.regs with
      top := { a.regs.top with mask := 0xFF }, rest := [{ pc := 0x2004, mask := 0xFFFF }] } })) = true := by decide +kernel

/-- R201: YIELD with a free image slot saves the team, with PC at its target, and it leaves; the record waits for its object. -/
theorem test_yield : isNext (fun t => t.agent? 128 == none && t.resume.length == 1) (exec (.yield 9 0) restTeam) = true := by decide +kernel

theorem witness_exits_yields : let s := restTeam
    let y := s.setS 10 { val := 0xFD000000100000 }
    Free s [] = true ∧ s.me.isTeam = true ∧ s.me.regs.rest = [] ∧ s.me.allPerformed = true ∧ s.ownChannels = [] ∧ s.heldRanges = [] ∧ s.me.preq = none ∧
    s.others.length = 1 ∧ Free s (scalars s [9, 10]) = true ∧ Unpoisoned s [9, 10] = true ∧ badTarget (s.me.getS 9).val = false ∧
    badTarget (s.me.getS 10).val = true ∧ y.yieldObject 0xFD000000100000 = some (some 0x100000) ∧ s.yieldObject 0 = some none ∧ s.yieldObject 3 = none ∧
    s.me.ldcnt = 0 ∧ s.inFlight s.meId s.me = false ∧ s.opsRunning = false ∧ s.freeImage 0 = some 0 ∧
    (s.wr (partBase 0 + 0x100) 4 0).freeImage 0 = none ∧ (s.saveTeam false true 0 none).isSome = true := by decide +kernel

theorem witness_forced_save : let s := restTeam.updMe fun a => { a with preq := some (100, 0) }
    s.switchTo 128 = some s ∧ s.me.preq = some (100, 0) ∧ 100 ≤ s.time.toNat ∧ s.me.sketch = none ∧ s.me.pendingTrap = none ∧
    s.matrixBusy s.meId = false ∧ s.me.storeQ.any (·.sup) = false ∧ (s.saveTeam true false 0 none).isSome = true := by decide +kernel

/-- A team of the supervisor whose s10 names 0x8000. -/
def saver : State := (restTeam.setS 10 { val := 0x8000 }).updMe fun a => { a with regs := { a.regs with priv := true } }

/-- R223, R224: CTXSAVE and CTXLOAD at an address off 64 bytes answer 0x81, and CTXLOAD of bytes that are no image 0x82 (an image holds the
package's own ID, an unread value, so that the two are run together in no kernel test). -/
theorem test_ctxsave_ctxload :
    isNext (fun t => sv t 4 == 0x81) (exec (.ctxsave 4 10) (saver.setS 10 { val := 0x8020 })) = true ∧
    isNext (fun t => sv t 4 == 0x81) (exec (.ctxload 4 10) (saver.setS 10 { val := 0x8020 })) = true ∧
    isNext (fun t => sv t 4 == 0x82) (exec (.ctxload 4 10) saver) = true := by decide +kernel

theorem witness_images : let s := saver
    Free s (scalars s [4, 10]) = true ∧ s.me.allPerformed = true ∧ Unpoisoned s [10] = true ∧ s.me.regs.priv = true ∧ s.me.isTeam = true ∧
    restTeam.me.regs.priv = false ∧ classOf 0x8000 = .global ∧ 0x8000 % 64 = 0 ∧ saver.mayLoad 0 = true ∧
    (saver.launchEntry 0).isSome = true := by decide +kernel

/-- R316: TMIG to another core of the cluster sets out, and MIGRATION_ARRIVAL gives the team 1 there; to its own place it answers 1. -/
theorem test_tmig :
    isNext (fun t => t.agent? 128 == none && t.transit.length == 1 && isNext (fun u => (u.agent? 160).any fun a => (a.getS 4).val == 1 && a.core == 1)
      (exec (.migrationArrival 0) t)) (exec (.tmig 4 10) (restTeam.setS 10 { val := 0b100 })) = true ∧
    isNext (fun t => sv t 4 == 1) (exec (.tmig 4 10) restTeam) = true := by decide +kernel

theorem witness_migration : let s := restTeam.setS 10 { val := 4 }
    Free s (scalars s [4, 10]) = true ∧ Unpoisoned s [10] = true ∧ s.me.ldcnt = 0 ∧ (tmigTarget 4).1 ≠ s.me.core ∧ s.mayMove (tmigTarget 4).1 = true ∧
    (s.moveSpot (tmigTarget 4).1 (tmigTarget 4).2).isSome = true ∧ s.mayMove (tmigTarget (2 ^ 8)).1 = false ∧ s.me.sketch = none ∧
    s.me.wait = .none ∧ s.me.pendingTrap = none := by decide +kernel

theorem witness_joins : let s := restTeam
    let l : LaunchEntry := { handle := 0, index := 0, desc := { teams := 1 }, placed := 1, liveTeams := 0 }
    let u : State := { thread with launches := [l], parts := [(0, { wdog := [(2, 0)] })], time := BitVec.ofNat 64 (2 ^ 28) }
    u.launchEntry l.handle = some l ∧ l.pendingOf = none ∧ u.launchLive l = false ∧ (u.part 0).wdog.find? 2 = some 0 ∧ 0 + 2 ^ 28 ≤ u.time.toNat ∧
    Instr.roomRegs (.launch 4 10 5) = some (4, 5) ∧
    (let r : StoreReq := { kind := .qrsv 5 1, addr := 0, size := 16, since := some 0 }
     let q := s.updMe fun a => { a with storeQ := [r] }
     q.switchTo 128 = some q ∧ q.me.wait = .none ∧ q.me.storeQ = [r]) := by decide +kernel

theorem witness_bins : let t : SpawnThread := { entry := 0x3004, arg := 9, launch := 0, lane := 3, fork := { agent := 128, launch := 0, teamid := 0, seq := 0 }, arrived := some 0 }
    let b : Bin := { die := 0, part := 0, launch := 0, entry := 0x3004, threads := [t] }
    let s : State := { restTeam with bins := [b], time := BitVec.ofNat 64 (2 ^ 21) }
    (s.bins.filter fun c => c.die = 0)[0]? = some b ∧ (s.binDue b).any (fun due => decide (due ≤ s.time.toNat)) = true ∧ b.threads ≠ [] ∧
    (∀ x ∈ b.threads, x.pendingOf = none) ∧ isNext (fun u => u.lits.length == 1) (exec (.kindlingTimer 0 0) s) = true := by decide +kernel

/-! ### Storage and translation -/

/-- Partition 0 with a frame table at 0x60000000, a stack of 64 KiB pages of die 0, and two pages on it. -/
def pageTeam : State :=
  let s := ((restTeam.wr frameTblAddr 8 0x60000001).wr (partBase 0 + 0x120) 8 4).wr (partBase 0 + 0x128) 8 4
  let s := (s.wr (partBase 0 + 0x1A0) 8 (0x70000000 + 4 * 2 ^ 48)).updPart 0 fun q => { q with freePages := [(0, [0x90000000, 0x90010000])] }
  [0x9000, 0x9001].foldl (fun s k => s.wr (0x60000000 + 32 * k) 1 16) s

def popped : State := match exec (.poppg 4 0) (pageTeam.wr 0x90000010 4 7) with | .next t => t | _ => pageTeam

/-- R370, R371: POPPG gives the top page, which reads zero and is marked USER in user mode; PUSHPG gives it back. -/
theorem test_poppg_pushpg : sv popped 4 = 0x90000000 ∧ popped.rd 0x90000010 4 = 0 ∧ frameState (popped.frame 0x90000000) = 2 ∧
    isNext (fun t => t.stack 0 0 == [0x90000000, 0x90010000] && frameState (t.frame 0x90000000) == 0) (exec (.pushpg 4 0) popped) = true := by decide +kernel

theorem witness_pages : let s := pageTeam
    Free s (scalars s [4]) = true ∧ s.me.allPerformed = true ∧ s.partOf s.me = some 0 ∧ s.framesValid = true ∧ s.allocated 0 = (0, 0) ∧
    pageBytes 0 / 65536 = 1 ∧ (s.popPage 0 (stackOrder 0 0)).isSome = true ∧ (s.popPage 0 (stackOrder 0 1)).isNone = true ∧ (2 : BitVec 3).toNat < 3 ∧
    3 ≤ (3 : BitVec 3).toNat ∧ popped.framesIn (subPages 0x90000000 0) 0 [2] = true ∧ popped.stackPresent 0 (stackKey (homeDie 0x90000000) 0) = true := by
  decide +kernel

theorem witness_write_backs : let e : DirEntry := { dirty := true }
    let s : State := { pageTeam with dir := [(0x90000000 / 128, e)], granules := [] }
    s.dir.find? (0x90000000 / 128) = some e ∧ e.dirty = true ∧ e.st ≠ .held ∧ targetOf 0x90000000 = .hbm ∧ s.pageOwner 0x90000000 = some 0 ∧
    s.pageOwner 0x80000000 = none ∧ (s.part 0).exhausted = none ∧ s.granules.get 0 (0x90000000 / 512) = 0 := by decide +kernel

theorem witness_balloon :
    let p : PaletteState := { learning := true, sampled := 2 ^ 20 }
    let s : State := { pageTeam.wr (partBase 0 + 0x140) 4 1 with palettes := [(0, p)], parts := [(0, { episode := some 0 })], time := BitVec.ofNat 64 2500000 }
    let x : State := { s with parts := [(0, { exhausted := some 0 })], time := BitVec.ofNat 64 125000000 }
    (s.palette 0 0).learning = true ∧ 2 ^ 20 ≤ (s.palette 0 0).sampled ∧ (s.palette 0 0).gen0.count = 0 ∧ (s.part 0).episode = some 0 ∧
    (s.part 0).exhausted = none ∧ 0 + s.partDefault 0 0x1C 4 2500000 ≤ s.time.toNat ∧ (x.part 0).exhausted = some 0 ∧ (x.part 0).stuckSent = false ∧
    0 + x.partDefault 0 0x138 4 125000000 ≤ x.time.toNat ∧ s.ballooning 0 = true ∧
    ({ pageTeam with time := BitVec.ofNat 64 (2 ^ 24) } : State).time.toNat % 2 ^ 24 = 0 ∧ Memory.wf pageTeam.mem = true := by decide +kernel

/-- R378: heat 9 becomes 4 at a multiple of 2^24 cycles. -/
theorem test_heat_halving : isNext (fun t => t.rd (0x60000000 + 32 * 0x9000 + 1) 1 == 0x24)
    (exec .heatHalving { pageTeam.wr (0x60000000 + 32 * 0x9000 + 1) 1 0x29 with time := BitVec.ofNat 64 (2 ^ 24) }) = true := by decide +kernel

/-- R358's example: the walk of 0x00123456789ABCDE reads the entry of level 0 at 0x130CD0, which is zero: not mapped at level 0; with a leaf
there, the page is found. -/
def walkState : State :=
  let s := (thread.wr asidTblAddr 8 0x40000001).wr (0x40000000 + 8 * 0x42) 8 (0x100000 + 16)
  ((s.wr 0x101230 8 0x120001).wr 0x128AC8 8 0x130201).wr 0x1303C0 8 0x130801

theorem test_walk : walkState.walk { asid := 0x42 } 0x00123456789ABCDE = .fault 0x20 0 ∧
    (match (walkState.wr 0x130CD0 8 0x9000003F).walk { asid := 0x42 } 0x00123456789ABCDE with
      | .leaf page level _ _ => [page, level]
      | _ => []) = [0x90000000, 0] := by decide +kernel

theorem witness_walks : let s := walkState.wr 0x130CD0 8 0x9000003F
    s.tlbFind 0x42 0x00123456789ABCDE = none ∧ (s.tlbInstall 0x42 0x00123456789ABCDE 0x90000000 0 {} 0x9000003F).tlbFind 0x42 0x00123456789ABCDE ≠ none ∧
    (mapped thread).switchTo 0 = some (mapped thread) ∧
    (match (mapped thread).locate (mapped thread).who 0x2000 1 accStore false with | (.at m _ _, _) => m == 0x80002000 | _ => false) = true ∧
    (0, 0) ∉ thread.failedChannels ∧ (0, 0) ∈ ({ thread with failedChannels := [(0, 0)] } : State).failedChannels ∧
    (0x42 : Nat) < 2 ^ 16 ∧ 0x90000000 % 2 ^ levelShift 0 = 0 := by decide +kernel

/-! ### On-chip tables, commands, starts and resets -/

/-- R357: the first and last place of each row of the on-chip map, and the places beside them. -/
theorem witness_regions : thread.switchTo 0 = some thread ∧
    [0x30C000000000, 0x30C000007FFF, 0x30C000008000, 0x30C000010000, 0x30C000010004, 0x30C000020000, 0x30C000023FFF, 0x30C000024000,
      0x30C000040000, 0x30C00004FFFF, 0x30C000050000, 0x30C000060000, 0x30C00007FFFF, 0x30C000080000, 0x30C00008007F, 0x30C000080080,
      0x30C000080200, 0x30C00008027F].map regionOf =
    [.proxy 0, .proxy 1023, .none, .doorbell, .none, .partition 0, .partition 15, .none, .intMap 0, .intMap 4095, .none, .binding 0, .binding 4095,
      .invTail 0, .invTail 15, .none, .balAck 0, .balAck 15] ∧
    [0x30C000080100, 0x30C000080108, 0x30C000090000, 0x30C000090BFF, 0x30C0000A0000, 0x30C000100000, 0x30C000100040, 0x30C000100800,
      0x30C00011FFFF, 0x30C000120000].map regionOf =
    [.asidTbl, .frameTbl, .keySlot, .keySlot, .exportTable, .control 0 0, .control 0 0x40, .control 0 0x800, .control 31 0xFFF, .none] ∧
    0x30C000080080 % 8 = 0 ∧ user.mayWrite .frameTbl 0x108 8 = false ∧ thread.mayWrite .frameTbl 0x108 8 = true := by decide +kernel

/-- R339, R381: a registration beside its binding, valid and not. -/
def tableState : State :=
  let s := (part0 thread).wr (bindBase 7) 8 (0x0042 * 2 ^ 32 + 3 * 2 ^ 24 + 0xF0 * 2 ^ 16 + 0x0123)
  ((s.wr (proxyBase 0) 8 0x300C00000000).wr (proxyBase 0 + 8) 4 0x100000).wr (proxyBase 0 + 0x0C) 2 0x006

theorem test_registration_valid : let t := tableState.writeRegistration 0 (proxyBase 0 + 0x0D) 1 1
    regValid tableState 0 = false ∧ regValid t 0 = true ∧ regValid (t.writeRegistration 0 (proxyBase 0 + 0x0C) 2 0) 0 = true ∧
    regPaused (t.writeRegistration 0 (proxyBase 0 + 0x0C) 2 0x200) 0 = true ∧
    regValid (tableState.writeRegistration 0 (proxyBase 0 + 0x0C) 2 0x100) 0 = false := by decide +kernel

theorem witness_tables : let s := thread.wr asidTblAddr 8 0x40000001
    bitOf (s.rd asidTblAddr 8) 0 = true ∧ 0x50000000 / 2 ≠ s.rd asidTblAddr 8 / 2 ∧ bitOf (thread.rd asidTblAddr 8) 0 = false ∧
    bitsOf 0x50000001 15 1 = 0 ∧ bindValid tableState 7 = true ∧ bindPart tableState 7 = 0 ∧ tableState.boundFn 3 0x0123 = some 7 := by decide +kernel

/-- Host firmware beside partition 0 and its one team, which a command may name. -/
def firmware : State :=
  let s := restTeam
  { s with meId := 0, me := { resetThread 0 with regs := { (resetThread 0).regs with priv := true } }, others := [(128, s.me)], bootStep := 27 }

theorem test_pre_empt : isNext (fun t => (t.agent? 128).any (fun a => a.preq.isSome) && t.pstat == 2) (exec (.preEmptTeam 0 0) firmware) = true := by
  decide +kernel

/-- The write that ran a command leaves PCMD holding OP and PART; an absent partition is refused with reason 1 (R400). -/
theorem test_command_refused : isNext (fun t => t.rd pstatAddr 8 == 0x103 && t.rd pcmdAddr 8 == 0x31) (exec (.preEmptTeam 0 3) firmware) = true ∧
    isNext (fun t => t.rd pstatAddr 8 == 0x403) (exec (.pcmdReservedOp 0 0 6) firmware) = true := by decide +kernel

theorem witness_commands : let s := firmware
    let bare : State := { s with others := [] }
    s.switchTo 0 = some s ∧ s.me.isFirmware = true ∧ s.pstat ≠ 1 ∧ s.partValid 0 = true ∧ s.partValid 15 = false ∧ (s.cmdTeam 0).isSome = true ∧
    (bare.cmdTeam 0).isNone = true ∧
    (match s.cmdTeam 0 with | some g => g.preq == none && (s.request g).isSome &&
        ((s.wr (partBase 0 + 0x100) 4 0).request g).isNone | none => false) = true ∧
    (let b := (s.wr pstatAddr 8 1).wr pcmdAddr 8 1
     b.pstat = 1 ∧ b.pcmdOp = 1 ∧ b.pcmdPart = 0 ∧ b.runCommand.pstat ≠ 1) ∧
    s.launches.any (fun l => l.handle.toNat = s.rd popndAddr 8 && l.desc.part = 0) = true := by decide +kernel

theorem witness_kills : let s := firmware.updAgent 128 fun a => { a with killed := true }
    ((s.switchTo 128).any fun u => u.me.killed && u.me.isTeam && u.me.wait == .none && u.me.pendingTrap.isNone && !u.exitNext) = true ∧
    (let r : State := ({ firmware with others := [] } : State).updPart 0 fun q => { q with resetting := true }
     (r.part 0).resetting = true ∧ (r.agents.all fun c => !(c.2.isTeam && c.2.part == 0)) = true ∧ r.transit = []) := by decide +kernel

/-- R406, R407: a start's first step is begun, and ends; a step 1 that has failed three times takes recovery. -/
theorem test_start : isNext (fun t => t.bootStep == 1 && t.stepBegun && t.stepRecord.get 0 1 == 1) (exec (.startStep 1 none) State.reset) = true ∧
    isNext (fun t => t.bootStep == 2 && t.stepRecord.get 0 1 == 2)
      (exec (.startStep 1 (some {})) { State.reset with stepBegun := true, stepRecord := [(1, 1)] }) = true ∧
    (stepAction 1 (recWord 3 0 3 0)).1 = .recovery := by decide +kernel

theorem witness_starts : let s : State := { State.reset with bootStep := 1, stepRecord := [(1, recWord 3 0 2 0), (3, recWord 5 0 0 0)] }
    s.bootStep = 1 ∧ s.stepRecord.rising = true ∧ recOut (s.stepRecord.get 0 1) = 3 ∧ stepRequired 1 = true ∧
    (List.range 27).any (fun i => i ≠ 0 && !stepRequired i) = true := by decide +kernel

theorem test_package_reset : isNext (fun t => t.bootStep == 0 || t.bootStep == 1) (exec .packageReset firmware) = true := by decide +kernel

/-! ### Input and output, endpoints and peer links -/

/-- A thread with an ASID table that maps the page of s9 to the on-chip map, and the next GiB to a port. -/
def ioThread : State :=
  let s := ((mapped thread).wr (0x40110000 + 8 * 1) 8 (0x30C000000000 + 0x3F)).wr (0x40110000 + 8 * 2) 8 (0x300C00000000 + 0x3F)
  (s.setS 9 { val := 0x40100818 }).setS 5 { val := 0x1122 }

theorem witness_uncached : let s := ioThread
    let va := (s.me.getS 9).val
    let xs : List LaneAddr := [{ lane := none, addr := va, poison := false }]
    Free s (scalars s [5, 9]) = true ∧ s.me.allPerformed = true ∧ Unpoisoned s [9, 5] = true ∧ s.checkAddrs xs 8 1 accLoad = none ∧
    (s.checkAddrs [{ lane := none, addr := va + 4, poison := false }] 8 1 accLoad).isSome = true ∧ classOf va.toNat = .global ∧
    classOf 0xFD000000100000 ≠ .global ∧
    (match s.locate s.who 0x80002000 8 accLoad true with | (.at m _ _, u) => decide (targetOf m ≠ .chip) && decide (u.me = s.me) | _ => false) = true ∧
    (match s.locate s.who (2 ^ 43) 8 accLoad true with | (.fault .., _) => true | _ => false) = true ∧
    isEcam 0x308000000000 = true ∧ isEcam 0x307FFFFFFFFF = false ∧
    (let w := s.updMe fun a => { a with wait := .iord 5 4 true 0x302030000000 0x100000 8 0 }
     w.switchTo 0 = some w) := by decide +kernel

/-- R267, R337: a signed device read ends with its value extended, and one that fails with all ones, poisoned. -/
theorem test_iord_ends : let w := thread.updMe fun a => { a with wait := .iord 5 1 true 0x302030000000 0x100000 8 0 }
    isNext (fun t => sv t 5 == 2 ^ 64 - 1 && !(t.me.getS 5).poison && t.me.pc == 8) (exec (.mmioCompletion 0 true 0xFF) w) = true ∧
    isNext (fun t => sv t 5 == 2 ^ 64 - 1 && (t.me.getS 5).poison) (exec (.iordCompletionTimeout 0) { w with time := 1250000 }) = true := by decide +kernel

/-- A bound function 7 (requester 0x123 on port 3, ASID 0) of partition 0, whose page 0x2000 lies at 0x80002000. -/
def boundState : State :=
  let s := (part0 (mapped thread)).wr (bindBase 7) 8 (3 * 2 ^ 24 + 0xF0 * 2 ^ 16 + 0x0123)
  s.wr (intMapBase 9) 8 (0x100000 * 2 ^ 32 + 1)

/-- R335, R348: an endpoint's write, its read's completion, and a FetchAdd, which answers the old value. -/
theorem test_endpoint :
    isNext (fun t => t.rd 0x80002000 2 == 0x2211 &&
      isNext (fun u => u.replies == [[0, 0x11, 0x22]]) (exec (.dmaRead 3 0x123 none false 0x2000 2) t))
      (exec (.dmaWrite 3 0x123 none false 0x2000 [0x11, 0x22]) boundState) = true ∧
    isNext (fun t => t.rd 0x80002000 4 == 9 && t.replies == [[0, 7, 0, 0, 0]])
      (exec (.atomicopRequest 3 0x123 none false 0x2000 0 4 2 0) (boundState.wr 0x80002000 4 7)) = true := by decide +kernel

theorem witness_endpoints : let s := boundState
    s.boundFn 3 0x123 = some 7 ∧ State.reset.boundFn 4 0x123 = none ∧
    (match s.dmaKeys 3 0x123 none false 0x2000 4 accAtomic with
      | (.keys ks, u) => (ks == (List.range 4).map (0x80002000 + ·) && !(u.readKeys ks).2)
      | _ => false) = true ∧
    (match s.dmaKeys 3 0x123 none true 0x80002000 4 accLoad with
      | (.bad _, _) => true
      | _ => false) = true ∧
    bitOf (bindFlags s 7) 5 = true ∧ bitOf (bindFlags s 7) 6 = true ∧ (s.part (bindPart s 7)).closed = false ∧ s.rd asidTblAddr 8 % 2 = 1 ∧
    classOf 0x2000 = .global ∧ s.dmaAsid 7 none = some 0 ∧
    (match s.atsLook 0 0 0x2000 with
      | (.leaf page level p, _) => (page == 0x80000000 && level == 2 && p.u)
      | _ => false) = true ∧
    (s.atsLook 0 0 (2 ^ 43)).1 = .none ∧ (match s.firstTouch 7 0 0x2000 with | .passed => true | _ => false) = true ∧
    s.msixOk 7 9 4 = true ∧ s.msixOk 7 9 8 = false ∧ bitOf (s.rd (intMapBase 9) 4) 2 = false := by decide +kernel

/-- R350: the first touch of a lazy page takes one from the partition's stack, and its entry names it. -/
theorem witness_first_touch :
    let s := ((pageTeam.wr (bindBase 7) 8 (3 * 2 ^ 24 + 0xF0 * 2 ^ 16 + 0x0123)).wr 0x40110000 8 0x40120001).wr 0x40120000 8 0x40130001
    let s := s.wr (0x40130000) 8 0x13C
    (match s.firstTouch 7 0 0x100 with | .mapped t => t.rd 0x40130000 8 == 0x9000003F | _ => false) = true := by decide +kernel

/-- The invalidate queue of partition 0 at 0x50000000, its first command the whole of ASID 0. -/
def invState : State := ((boundState.wr (partBase 0 + 0x208) 8 0x50000000).wr (invTailAddr 0) 4 1).wr (0x50000000 + 0x12) 1 3

theorem test_invalidate :
    isNext (fun t => t.rd 0x50000014 4 == 0x84) (exec (.invalidateCommand 0) (invState.wr 0x50000010 2 0x42)) = true ∧
    isNext (fun t => t.rd 0x50000014 4 == 0x82) (exec (.invalidateCommand 0) (invState.wr 0x50000000 8 4)) = true ∧
    isNext (fun t => t.rd 0x50000014 4 == 1 && (t.part 0).invDone == 1)
      (exec (.invalidateCommand 0) (invState.updPart 0 fun q => { q with invActive := true })) = true := by decide +kernel

theorem witness_invalidation : let s := invState
    s.partField 0 0x208 8 ≠ 0 ∧ (s.part 0).invDone % 2 ^ 32 ≠ s.rd (invTailAddr 0) 4 ∧ (s.part 0).invActive = false ∧ s.asidPart 0 = some 0 ∧
    s.asidPart 0x42 ≠ some 0 ∧ s.finished (s.part 0).invWaits = true ∧ s.rd 0x50000012 1 ≤ 3 ∧ s.rangeWritten 0 0 (2 ^ 56) = true ∧
    (let w : State := { s with atsWait := [(7, 0, 0)], time := BitVec.ofNat 64 62500 }
     w.atsWait.find? (fun c => c.1 = 7) = some (7, 0, 0) ∧ 0 + 62500 ≤ w.time.toNat) ∧
    (let e : EventRec := { time := 5, code := 9, part := 0, extra := 1, operand := 2 }
     let v : State := { s.wr evctlAddr 8 0x60000001 with events := [e] }
     v.events = [e] ∧ v.rd evctlAddr 8 % 2 = 1 ∧
     isNext (fun t => t.rd 0x60000000 8 == 1 && t.rd 0x60000040 8 == 5 && t.rd 0x60000048 1 == 9 && t.rd 0x6000004C 4 == 2) (exec .eventWrite v) = true) := by
  decide +kernel

/-- A link that is up, with a key in its first send and receive slots. -/
def linked : State := ({ thread with links := [(0, { st := .up })], portModes := [.ntb] }.wr (keySlotBase 0 + 0x24) 4 3).wr (keySlotBase 2 + 0x24) 4 3

/-- R352: a flit takes the next sequence number and uses its slot's counter, and waits for its acknowledgement. -/
theorem test_flit_send : isNext (fun t => (t.link? 0).txSeq == 1 && (t.link? 0).replay.length == 1 && t.keyCount 0 == 1)
    (exec (.flitSend 0 0 []) linked) = true := by decide +kernel

theorem witness_links : let s := linked
    s.maySend 0 0 = true ∧ s.maySend 1 0 = false ∧ (s.link? 0).st = .up ∧ (s.link? 1).st = .down ∧
    (s.updLink 1 fun l => { l with st := .training }).link? 1 = { st := .training } ∧ bitOf (s.keyFlags (keyOf 0 true (s.link? 0).rxSlot)) 0 = true ∧
    (let f := flitHeader 0 false 0 ++ List.replicate 248 0
     f.length = 256 ∧ flitKind f = 0 ∧ flitSlot f = 0 ∧ flitSeq f = (s.link? 0).rxSeq) ∧ (List.replicate 32 (0 : Byte)).length = 32 := by decide +kernel

/-- The address of a scalar access, clean. -/
def lane0 (a : Nat) : List LaneAddr := [{ lane := none, addr := BitVec.ofNat 64 a, poison := false }]

/-- Windows: the first and last dword of the grant, and of the partition's Hearth range. -/
theorem witness_windows : ∀ a ∈ [scratchWindow, scratchWindow + 65536 - 8], InGrant (team 16 4) (lane0 a) 8 := by
  simp only [InGrant]; decide +kernel

theorem witness_hearth : ∀ a ∈ [hearthWindow + 0x100000, hearthWindow + 0x10FFF8], InHearth (barTeam 0) (lane0 a) 8 :=
  fun a h => ⟨0, by decide +kernel, by revert a h; decide +kernel⟩

/-- Agents that wait for nothing while no sketch is open. -/
theorem witness_quiet : ∀ s ∈ [launchThread, ioThread, saver, pageTeam, popped, memTeam 16 4, cpyTeam], Quiet s := by
  simp only [Quiet]; decide +kernel

/-- MWAIT of a Hearth dword that was written since its reference point. -/
theorem witness_mwait_hearth :
    ((barTeam 0).updMe fun a => { a with refs := [(unitOf (hearthKey 0x100000), true)] }).me.refs.get false (unitOf (hearthKey 0x100000)) = true := by
  decide +kernel

/-- An on-chip register that may be read, one that may not, and a device address that may be written. -/
theorem witness_uncached_places : let s := ioThread
    (match s.locate s.who 0x40100818 8 accLoad true with
      | (.at m _ _, u) => decide (targetOf m = .chip) && u.mayRead (regionOf m) (m % 0x1000) 8 && !u.mayRead (regionOf m) (m % 0x1000) 1
      | _ => false) = true ∧
    (match s.locate s.who 0x80002000 8 accStore true with
      | (.at m _ _, _) => decide (targetOf m ≠ .chip) && !isEcam m
      | _ => false) = true ∧
    (let v := s.updMe fun a => { a with wait := .iord 5 4 true 0x302030000000 0x100000 8 0 }
     let w : State := { v with time := 1250000 }
     portOf 0x302030000000 ≠ none ∧ w.expires 1250000 = true) := by decide +kernel

/-- The smallest image of R216's layout: 16 lanes in one group, 2 v registers and 1 s register, one base entry at 0x1004 with every lane,
bit type and no replay, spawn, object or scratchpad. -/
def restImage : List Byte :=
  let z (n : Nat) : List Byte := List.replicate n 0
  leBytes 4 0x7A370001 ++ leBytes 4 0xC80 ++ leBytes 4 1 ++ z 4 ++ leBytes 2 16 ++ leBytes 1 16 ++ z 1 ++ leBytes 2 2 ++ leBytes 1 1 ++
  z (0x2C - 0x17) ++ leBytes 4 1 ++ z (0x48 - 0x30) ++ leBytes 4 0xC0 ++ leBytes 4 0x180 ++ leBytes 4 0xB40 ++
  (List.replicate 4 (leBytes 4 0xC80)).flatten ++ z (0x80 - 0x64) ++ leBytes 4 4 ++ z (0x90 - 0x84) ++ leBytes 8 0x1004 ++ z (0xC0 - 0x98) ++
  leBytes 8 0x1004 ++ leBytes 8 (2 ^ 64 - 1) ++ leBytes 4 4 ++ z (0xE0 - 0xD4) ++ leBytes 2 0xFFFF ++ z (0xC80 - 0xE2)

/-- A team that finds it at 0x8000. -/
def loader : State :=
  [(0, 4, 0x7A370001), (4, 4, 0xC80), (8, 4, 1), (0x10, 2, 16), (0x12, 1, 16), (0x14, 2, 2), (0x16, 1, 1), (0x2C, 4, 1), (0x48, 4, 0xC0),
   (0x4C, 4, 0x180), (0x50, 4, 0xB40), (0x54, 4, 0xC80), (0x58, 4, 0xC80), (0x5C, 4, 0xC80), (0x60, 4, 0xC80), (0x80, 4, 4), (0x90, 8, 0x1004),
   (0xC0, 8, 0x1004), (0xC8, 8, 2 ^ 64 - 1), (0xD0, 4, 4), (0xE0, 2, 0xFFFF)].foldl
    (fun (s : State) (c : Nat × Nat × Nat) => s.wr (0x80008000 + c.1) c.2.1 c.2.2) saver

/-- R224: the premises under which CTXLOAD accepts an image: its size and its bytes are found in memory, it is whole, and its launch has
a team. (In parts: one evaluation of the instruction reads 3,200 bytes many times over.) -/
theorem witness_image_lines : (match State.engineLines loader.who accLoad 2 0x8000 8 loader with
    | (.keys ks, u) => leValue ((ks.drop 4).map (Memory.read u.mem)) == 0xC80 &&
      (match State.engineLines u.who accLoad 27 0x8000 0xC80 u with
      | (.keys ls, v) => ls == (List.range 0xC80).map (0x80008000 + ·) && v.mayLoad 0 && (v.launchEntry 0).isSome && v.mem == loader.mem
      | _ => false)
    | _ => false) = true := by decide +kernel

/-- Quarter i of the bytes at 0x8000 is quarter i of the image. -/
def imageQuarter (i : Nat) : Bool :=
  ((List.range 800).map fun j => Memory.read loader.mem (0x80008000 + 800 * i + j)) == (restImage.drop (800 * i)).take 800

theorem witness_image_bytes0 : imageQuarter 0 = true := by decide +kernel
theorem witness_image_bytes1 : imageQuarter 1 = true := by decide +kernel
theorem witness_image_bytes2 : imageQuarter 2 = true := by decide +kernel
theorem witness_image_bytes3 : imageQuarter 3 = true := by decide +kernel

theorem test_ctxload : (readImage restImage).any (fun p => p.agent.launch == 0 && p.agent.part == 0 && p.flags == 1) = true := by
  decide +kernel

/-- Line i of the image at 0x8000, owned by the saving team. -/
def imageLine (i : Nat) : DirEntry :=
  { st := .owned, dies := 1, cl := 1, vline := 0x100 + i, dirty := true, perms := { x := true, w := true, r := true, u := true }, level := 2 }

/-- The saving team with the lines of its image in its caches. -/
def dirSaver : State := { saver with dir := (List.range 26).map fun i => (0x1000100 + i, imageLine i) }

/-- What storing lines of the image leaves as it is. -/
def Saves (s : State) : Prop :=
  Quiet s ∧ s.me = dirSaver.me ∧ s.meId = dirSaver.meId ∧ s.dir = dirSaver.dir ∧ s.ranges = dirSaver.ranges ∧
  ∀ k, k < 0x80000000 ∨ 0x80010000 ≤ k → Memory.read s.mem k = Memory.read dirSaver.mem k

theorem who_eq {s t : State} (h : s.me = t.me) (h' : s.meId = t.meId) : s.who = t.who := by simp only [State.who, h, h']

theorem Saves.line {s : State} (h : Saves s) (i n : Nat) (hi : i < 26) :
    s.engineByte s.who (0x8000 + 128 * i) n accStore = (.keys [0x80008000 + 128 * i], s) := by
  obtain ⟨-, hme, hid, hdir, hrange, hM⟩ := h
  have hd : ∀ i < 26, dirSaver.cachedAs 0 (0x100 + i) = some (0x1000100 + i, imageLine i) ∧ dirSaver.dir.find? (0x1000100 + i) = some (imageLine i) ∧
      dirSaver.dir.insert (0x1000100 + i) (imageLine i) = dirSaver.dir := by decide +kernel
  obtain ⟨hc, hf, hins⟩ := hd i hi
  rw [← hdir] at hf hins
  have rd (a n : Nat) (h : a + n ≤ 0x80000000 ∨ 0x80010000 ≤ a) : s.rd a n = dirSaver.rd a n := by
    simp only [State.rd, Memory.readNat, Memory.readBytes]
    congr 1
    apply List.map_congr_left
    intro j hj
    rw [List.mem_range] at hj
    exact hM _ (by omega)
  have hw : s.who = { id := some 128, part := some 0, asid := 0, user := false, die := some 0, cluster := 0, holder := some (0, 0, 0#64, 0#32) } := by
    rw [who_eq hme hid]
    decide +kernel
  have ha : s.asidFault s.who = none := by
    have h1 : s.rd asidTblAddr 8 = 0x40000001 := by rw [rd _ _ (.inr (by decide))]; decide +kernel
    have h2 : s.rd 0x40000000 8 = 0x40100010 := by rw [rd _ _ (.inl (by decide))]; decide +kernel
    simp only [State.asidFault, State.asidEntry, h1, hw]
    simp only [show (0x40000001 % 2 = 0) = False from by decide, if_false, show 0x40000001 / 65536 % 2 ^ 32 * 65536 + 8 * 0 = 0x40000000 from by decide, h2]
    decide
  have hv : (0x8000 + 128 * i) / 128 = 0x100 + i := by omega
  have hm' : (0x1000100 + i) * 128 = 0x80008000 + 128 * i := by omega
  have hroom : s.l2Room s.who (0x1000100 + i) (0x100 + i) true = .room := by
    simp [State.l2Room, hw, hdir, dirSaver, sliceLines]
  have hforeign : s.foreignAsid s.who = false := by
    have h1 : s.rd asidTblAddr 8 = 0x40000001 := by rw [rd _ _ (.inr (by decide))]; decide +kernel
    have h2 : s.rd 0x40000000 8 = 0x40100010 := by rw [rd _ _ (.inl (by decide))]; decide +kernel
    simp only [State.foreignAsid, State.asidEntry, h1, hw]
    simp only [show (0x40000001 % 2 = 0) = False from by decide, if_false, show 0x40000001 / 65536 % 2 ^ 32 * 65536 + 8 * 0 = 0x40000000 from by decide, h2]
    decide
  have hfill : s.fill s.who (0x1000100 + i) (0x100 + i) (imageLine i).perms (imageLine i).level true = (true, s) := by
    simp only [State.fill, hroom]
    simp only [hf, hw]
    simp only [imageLine, DirEntry.take] at hins ⊢
    simp
    exact congrArg (fun d => { s with dir := d }) hins
  have hcache : s.cachedAs s.who.asid (0x100 + i) = some (0x1000100 + i, imageLine i) := by
    rw [hw]; simp only [State.cachedAs, hdir] at hc ⊢; exact hc
  have hout : s.checkedOut s.who (0x80008000 + 128 * i) n = false := by
    have hr : s.ranges = [] := by rw [hrange]; decide +kernel
    simp [State.checkedOut, hr]
  have hdie : s.who.die = some 0 := by rw [hw]
  have hloc : s.locate s.who (0x8000 + 128 * i) n accStore false = (.at (0x80008000 + 128 * i) (imageLine i).perms (imageLine i).level, s) := by
    simp only [State.locate, hdie, hv, hcache, hforeign]
    rw [hw] at hout hfill
    simp only [imageLine] at hfill
    have hf : ((none : Option Nat) != some 33) = true := rfl
    have hk : (accStore != 0) = true := rfl
    simp [imageLine, Perms.allows, hw, Option.filter, hm', hk, hout, hfill]
  simp only [State.engineByte, hloc]
  rw [if_neg (by omega)]

theorem Saves.free {s : State} (h : Saves s) (n : Nat) : Saves { s with freeCount := n } := h

/-- The image's lines are stored, whatever its bytes are: one is an unread value (R217). -/
theorem Saves.stores (f : Nat) {bytes : List Byte} {i : Nat} {s : State} (h : Saves s) (hi : 128 * i + bytes.length ≤ 128 * 26) :
    ∃ t, State.storeLines f (0x8000 + 128 * i) bytes s = (some true, t) := by
  induction f generalizing bytes i s with
  | zero => exact ⟨s, rfl⟩
  | succ f ih =>
    unfold State.storeLines
    split
    · exact ⟨s, rfl⟩
    · rename_i he
      have hl : 0 < bytes.length := List.length_pos_iff.mpr (by simpa using he)
      have hmod : (0x8000 + 128 * i) % 128 = 0 := by omega
      simp only [hmod, Nat.sub_zero]
      rw [h.line i _ (by omega)]
      dsimp only
      have hlen : (bytes.take (min bytes.length 128)).length = min bytes.length 128 := by simp
      generalize hk : (List.range (min bytes.length 128)).map (([0x80008000 + 128 * i] : List Nat).headD 0 + ·) = keys
      have hin : ∀ k ∈ keys, 0x80000000 ≤ k ∧ k < 0x80010000 := by
        intro k h; rw [← hk] at h
        obtain ⟨j, hj, rfl⟩ := List.mem_map.mp h
        simp only [List.mem_range, List.headD_cons] at hj ⊢; omega
      have hq : Quiet (s.writeKeys keys (bytes.take (min bytes.length 128)) false) := h.1
      have hn := Laws.kept_notifyWrite (s.writeKeys keys (bytes.take (min bytes.length 128)) false) (keys.map unitOf).eraseDups hq
      have hs : Saves ((s.writeKeys keys (bytes.take (min bytes.length 128)) false).notifyWrite (some s.meId) (keys.map unitOf).eraseDups) := by
        refine ⟨hn.2, hn.1.trans h.2.1, ?_, ?_, ?_, ?_⟩
        all_goals simp only [State.notifyWrite, Laws.eraseReaders_quiet hq]
        · exact h.2.2.1
        · exact h.2.2.2.1
        · exact h.2.2.2.2.1
        · intro k hk
          rw [← h.2.2.2.2.2 k hk]
          simp only [State.writeKeys]
          have : ∀ (xs : List (Nat × Byte)) (m : List Host.Cell), (∀ c ∈ xs, c.1 ≠ k) →
              Memory.read (xs.foldl (fun m c => Memory.write m c.1 c.2) m) k = Memory.read m k := by
            intro xs
            induction xs with
            | nil => intro m _; rfl
            | cons x xs ih =>
              intro m hx
              rw [List.foldl_cons, ih _ fun c hc => hx c (List.mem_cons_of_mem _ hc), Machine.Memory.read_write,
                if_neg fun e => hx x List.mem_cons_self e.symm]
          refine this _ _ fun c hc => ?_
          have := hin _ (List.of_mem_zip hc).1
          omega
      by_cases hb : bytes.length ≤ 128
      · have hd : bytes.drop (min bytes.length 128) = [] := by rw [List.drop_eq_nil_iff]; omega
        rw [hd]
        cases f with
        | zero => exact ⟨_, rfl⟩
        | succ f => unfold State.storeLines; exact ⟨_, rfl⟩
      · have hmin : min bytes.length 128 = 128 := by omega
        rw [hmin] at hs ⊢
        have := ih (bytes := bytes.drop 128) (i := i + 1) hs (by simp; omega)
        rw [show 0x8000 + 128 * i + 128 = 0x8000 + 128 * (i + 1) by omega]
        exact this

/-- R223: so CTXSAVE of that team stores its image. -/
theorem witness_ctxsave : let s := dirSaver
    let saved := (s.setS 4 (clean 2)).updMe fun g => g.setPc (g.next false)
    ∃ t, State.storeLines ((saved.imageOf false false none).1.length / 128 + 2) 0x8000 (saved.imageOf false false none).1
      { s with freeCount := (saved.imageOf false false none).2.freeCount } = (some true, t) := by
  intro s saved
  refine Saves.stores (i := 0) _ ?_ ?_
  · exact Saves.free ⟨by simp only [Quiet]; decide +kernel, rfl, rfl, rfl, rfl, fun k _ => rfl⟩ _
  · decide +kernel

/-! ### Places that cannot be reached, limits, and moves -/

/-- A stack of d entries below the top, of a team whose spill area is not mapped. -/
def deepTeam (d : Nat) : State := (team 16 4).updMe fun a => { a with spill := 2 ^ 50, regs := { a.regs with
  rest := List.replicate d { pc := 0x2004, mask := 0xFFFF } } }

/-- R192: 32 entries need no spill area; 33 do, where BRV, a pop, a trap's push, RETT and EXIT stop the team. -/
theorem witness_spill_unreachable :
    let s := (deepTeam 40).updMe fun a => a.setM 3 1
    let due := (deepTeam 40).updMe fun a => { a with regs := { a.regs with top := { a.regs.top with kind := .path, rpc := some 0x1004 } } }
    let waits := (deepTeam 40).updMe fun a => { a with pendingTrap := some (0x104, 0) }
    let sup := (deepTeam 40).updMe fun a => { a with regs := { a.regs with priv := true, top := { a.regs.top with kind := .frame } } }
    let part := (deepTeam 40).updMe fun a => { a with regs := { a.regs with top := { a.regs.top with mask := 0xFF } } }
    let lost (s : State) : Bool := decide (32 < s.me.depth) &&
      match s.translate { s.who with user := false } s.me.spill.toNat accStore with | (.fault .., _) => true | _ => false
    lost s = true ∧ Free s [.m 3] = true ∧ s.me.depth + 2 ≤ 255 ∧ s.me.active &&& s.me.getM 3 ≠ 0 ∧
    s.me.active &&& ~~~(s.me.getM 3) ≠ 0 ∧ due.switchTo 128 = some due ∧ lost due = true ∧
    waits.switchTo 128 = some waits ∧ waits.vectorReady = true ∧ lost waits = true ∧
    Free sup [] = true ∧ sup.me.replayQ = [] ∧ lost sup = true ∧ Free part [] = true ∧ lost part = true ∧
    dropEmpty ((part.me.regs.top :: part.me.regs.rest).map fun e => { e with mask := e.mask &&& ~~~part.me.regs.top.mask }) ≠ [] := by
  decide +kernel

/-- R42: a handler at word 0 of a bundle, and a thread's resume address there. -/
theorem witness_bad_handler :
    let waits := user.updMe fun a => { a with hvec := 0x1C, pendingTrap := some (0x104, 0) }
    waits.switchTo 0 = some waits ∧ waits.vectorReady = true ∧ waits.me.depth + 1 ≤ 32 ∧ badTarget waits.vectorTarget = true ∧
    badTarget user.vectorTarget = false ∧ (thread.updMe fun a => { a with upc := 0x100 }).me.upc = 0x100 ∧ badTarget (0x100#64) = true := by
  decide +kernel

/-- R392: limits that are reached, at the cycle's end. -/
theorem witness_limits :
    let late (n : Nat) (s : State) : State := { s with time := BitVec.ofNat 64 n }
    let w := (restTeam.updMe fun a => { a with wait := .mwait 0x1008 5 0x2000 100 false })
    (late (2 ^ 28) { thread with parts := [(0, { wdog := [(2, 0)] })] }).expires (0 + 2 ^ 28) = true ∧
    w.switchTo 128 = some w ∧ (late 100 w).expires 100 = true ∧ (late 99 w).expires 100 = false ∧
    (late 25000 (ioThread.updMe fun a => { a with kind := .queue })).expires (0 + 25000) = true ∧ (late 1250000 ioThread).expires (0 + 1250000) = true ∧
    restTeam.checksPending = false ∧ (restTeam.updMe fun a => { a with preq := some (99, 0) }).me.killed = false ∧
    (let v : State := { pageTeam with time := BitVec.ofNat 64 (2 ^ 24) }
     v.framesValid = true ∧ v.expires ((v.halvings + 1) * 2 ^ 24) = true) := by decide +kernel

/-- R341: a QRSV at the head of the queue that meets no room waits, and its last attempt is kept. -/
theorem witness_qrsv_waits :
    let r : StoreReq := { kind := .qrsv 5 62, addr := BitVec.ofNat 64 (hearthWindow + 0x100000), size := 16,
                          keys := (List.range 16).map fun j => hearthKey (0x100000 + j) }
    let s := object (proxyTeam.updMe fun a => { a with storeQ := [r] }) 12 10 63 0
    s.switchTo 128 = some s ∧ s.me.storeQ[0]? = some r ∧ s.storeReady 0 r = true ∧
    (match s.performReq r with | .wait v => v.noRoom 5 == 2 ^ 63 + 61 | _ => false) = true := by decide +kernel

/-- R214, R309: the record that a save makes: the lines of its image are found. -/
theorem witness_save_record : (match restTeam.imageOf true false none with
    | (img, v) => match State.engineLines (v.svWho 0) accStore (img.length / 128 + 2) (v.partField 0 0xF8 8 + 2 ^ 22 * 0) img.length v with
      | (.keys ks, _) => ks.length == img.length
      | _ => false) = true := by decide +kernel

/-- Partition 0 in an episode: controller 0 is below its goal; the page 0x90000000 of ASID 0 is mapped at 0 and may move; one page of
CXL lies on the partition's stack. -/
def coldTeam : State :=
  let s := ((pageTeam.wr (partBase 0 + 0x140) 4 1).updPart 0 fun q => { q with episode := some 0, freePages := [(12, [0x100000000000])] })
  let s := ((s.wr 0x40130000 8 0x9000003F).wr (0x60000000 + 32 * 0x9000) 4 0x2030).wr (0x60000000 + 32 * 0x9000 + 8) 8 0x40130000
  s.wr (partBase 0 + 0x1A0 + 12 * 8) 8 (0x70001000 + 4 * 2 ^ 48)

/-- That page while it moves, its invalidate command done. -/
def movingTeam : State :=
  { (coldTeam.frameSet [0x90000000] 3).devWrite 0x40130000 8 (movingEntry 0x9000003F) with
    moves := [{ page := 0x90000000, pageOut := false, part := 0, pteAddr := 0x40130000, oldPte := 0x9000003F }] }

theorem witness_page_moves : let s := coldTeam
    s.ballooning 0 = true ∧ s.eligible 0x90000000 = some (0, 0x40130000) ∧ (s.frameAddr 0x90000000).isSome = true ∧
    s.readyMove 0x90000000 false = none ∧ s.balloonStep 0 3 = true ∧ s.moveRoom 0 false = true ∧
    (movingTeam.readyMove 0x90000000 false).any (fun m => (({ movingTeam with moves := [] } : State).popPage m.part [12]).isSome &&
      movingTeam.stillMoving m && !(movingTeam.wr 0x40130000 8 0).stillMoving m) = true := by decide +kernel

/-- R377: a FAST granule of zeros is freed at step 2, and one whose entry is of the other generation coded again at step 1; at the end
chunks are asked for. -/
theorem witness_balloon_steps :
    let g := 0x90001000 / 512
    let coded : State := { coldTeam with granules := [(g, BitVec.ofNat 64 (2 ^ 62))],
                                         palettes := [(granuleHome g / 6, { current := true, gen1 := { count := 1 } })] }
    let fast : State := { coldTeam with granules := [(g, BitVec.ofNat 64 (2 ^ 51))] }
    let bare : State := pageTeam.wr (partBase 0 + 0x140) 4 1 |>.updPart 0 fun q => { q with episode := some 0 }
    coded.balloonStep 0 1 = true ∧ coded.oldCode g = true ∧ coded.storeFits 0 g false = true ∧ (coded.storeGranule 0 g (4 * g) 0 false).isSome = true ∧
    fast.balloonStep 0 2 = true ∧ (fast.granuleWords g).all (· == 0) = true ∧ bare.balloonStep 0 7 = true ∧
    bare.partField 0 0x140 4 ≠ 0 ∧ bare.freeAt 0 0 < bare.partDefault 0 0x130 4 16384 + bare.partDefault 0 0x134 4 65536 := by decide +kernel

/-- R243: a line of which a block is lost, and one of which none is. -/
theorem witness_lost_words :
    let s : State := { thread with badBlocks := [(0, 0, 0)] }
    (s.badBlocks ≠ [] ∧ thread.failedChannels = [] ∧ thread.badBlocks = []) ∧ (0, 0, 1) ∉ s.badBlocks ∧ s.lostWords (2 ^ 43) = [] := by decide +kernel

/-- R351 to R354: a link in training with both fresh keys; one flit that has failed three times. -/
theorem witness_training : let s := linked
    let t := s.updLink 0 fun l => { l with st := .training, txFresh := true, rxFresh := true }
    let f := s.updLink 0 fun l => { l with fails := 3, ahead := some 0 }
    s.hasLink 0 = true ∧ (t.link? 0).st = .training ∧ (t.link? 0).txFresh = true ∧ (t.link? 0).rxFresh = true ∧
    4 ≤ (f.link? 0).fails + 1 := by decide +kernel

/-! ### Waits, losses and begun steps -/

/-- R169: FLAGRD while an older instruction of fixed latency has not ended it. -/
theorem witness_flagrd : let s := (team 16 9).updMe fun a => { a with arithUntil := 200 }
    s.coreNow < s.me.arithUntil ∧ (team 16 9).me.arithUntil ≤ (team 16 9).coreNow ∧ s.inFlight s.meId s.me = false ∧ Free s (scalars s [4]) = true := by
  decide +kernel

/-- R173, R180: an AST in the unit; its team issues nothing, and its words reach the scratchpad when it completes. -/
theorem witness_ast :
    let o : MatrixOp := { (team 16 9).matrixOp 3 [] 0 false with stores := [(scratchKey 0 4, { val := 7 }), (scratchKey 0 0, { val := 9, poison := true })] }
    let s := (team 16 9).addMatrixOp o
    (s.matrix.get [] s.me.core).map (·.stores) = [o.stores] ∧ (s.matrix.get [] s.me.core).all (fun p => p.members.isEmpty && decide (p.agent = s.meId)) = true ∧
    s.agents.all (fun c => c.2.sketch.isNone) = true ∧ (∀ c ∈ o.stores, c.1 % 4 = 0) ∧ (o.stores.map (·.1)).Nodup ∧ s.mayIssue = false ∧
    isNext (fun t => t.rd (scratchKey 0 4) 4 == 7 && t.rd (scratchKey 0 0) 4 == 9 && t.poison.get false (scratchKey 0 0 / 4))
      (exec (.matrixOpComplete 0) s) = true := by decide +kernel

/-- R182: a member of a gang that slot 2 leads. -/
theorem witness_gang_led : let s := (team 16 0).updMe fun a => { a with slot := 5, regs := { a.regs with gang := 0x24 } }
    s.me.isTeam = true ∧ s.me.regs.gang ≠ 0 ∧ s.me.exec ≠ 0 ∧ s.me.led = true ∧ s.me.inBudget (.a 15) = true ∧ s.settled = true ∧
    Free s s.me.guardReg = true ∧ (s.updMe fun g => { g with slot := 2 }).me.led = false := by decide +kernel

/-- R184: operations that a core's pipe runs: of XCRC, and of XDEC with its one lane. -/
theorem witness_transform_replies :
    let x : TransformOp := { regs := [.v 8], cores := [0], runningOn := [0], writes := [{ reg := .v 8, lane := 1, val := { val := 7 } }] }
    let d : TransformOp := { cores := [0], runningOn := [0], lanes := [(1, (team 16 4).me.xlane 8 2 4 1)] }
    let s := (team 16 4).updMe fun a => { a with transforms := [x] }
    let u := (team 16 4).updMe fun a => { a with transforms := [d] }
    s.switchTo 128 = some s ∧ x.runningOn.head? = some 0 ∧ x.lanes = [] ∧ s.me.sketch = none ∧
    isNext (fun t => vw t 8 1 == 7 && t.me.transforms.isEmpty) (exec (.transformReply 128 0) s) = true ∧
    u.switchTo 128 = some u ∧ d.runningOn = [u.me.coreOf 1] ∧ d.cores = [u.me.coreOf 1] ∧ d.stats = [] ∧ u.cutPending u.me = false := by decide +kernel

/-- An EXCLUSIVE check-out of 128 bytes by another team. -/
def barring (m : Nat) : RangeRec :=
  { cid := 9, mode := 1, part := 0, cluster := 5, launch := 7, teamid := 1, asid := 0, pieces := [(m, 128)], vbase := 0, vlen := 128, soff := 0, swz := 0,
    scratchBase := 0 }

/-- R246: a load whose bytes another team has checked out since its issue. -/
theorem witness_load_barred :
    let p : PendingLoad := { dst := .vec 3 false, signed := true, sectors := [0x4000100], seq := 0, lanes := [{ lane := some 15, keys := [0x80002000] }] }
    let u : State := { (memTeam 16 4).updMe fun a => { a with loads := [p] } with ranges := [barring 0x80002000] }
    u.switchTo 128 = some u ∧ u.me.loads[0]? = some p ∧ [0x80002000].any (u.keyBarred u.who) = true ∧
    isNext (fun t => t.me.loads.length == 1 && t.ranges.all (·.waitSince.isSome)) (exec (.sectorReturn 128 0 0x4000100) u) = true := by decide +kernel

/-- R17, R272: CINVA of the root-of-trust core. -/
theorem witness_root_core : let s : State := { thread with meId := rootId, me := { thread.me with kind := .root } }
    s.me.kind = .root ∧ thread.me.kind ≠ .root ∧ Free s (scalars s [9, 5]) = true ∧ Unpoisoned s [9, 5] = true ∧ s.me.wait = .none := by decide +kernel

/-- R284, R285: the load that opens a sketch finds room for its lines. -/
theorem witness_sketch_room :
    let s := (memTeam 16 4).updMe fun a => { a with storeQ := [{ kind := .store, addr := 0x3000, size := 4, data := { val := 7 } }] }
    let xs := s.me.scalarAddr 9 0
    s.tooWide xs 8 = false ∧ (match s.locateAll xs 8 accLoad with | (.keys ks, u) => !u.l1Bars ks | _ => false) = true := by decide +kernel

/-- A started copy to m of eight bytes. -/
def copyTo (m : Nat) (o : EngineOp) : EngineOp := { o with dst := (List.range 8).map (m + ·) }

/-- R246, R354: a copy whose STATUS word, and one whose destination, another team has checked out; one that needs a link which is down. -/
theorem witness_engine_waits :
    let s : State := { cpyStarted with ranges := [barring 0x80002000] }
    let d : State := { cpyStarted with ranges := [barring 0x80004000] }
    let far : State := { cpyStarted with engines := cpyStarted.engines.map (copyTo 0x220000000000) }
    s.engines.all (fun o => o.started && (match (s.engineKeys o (o.cmd.toNat + o.statusOff) 4 0 accStore).1 with | .wait => true | _ => false)) = true ∧
    d.engines.all (fun o => o.dst.any (d.keyBarred o.who) && !d.linkLost o) = true ∧
    isNext (fun t => t.ranges.all (·.waitSince.isSome) && t.rd 0x80004004 8 == 0) (exec (.engineCompletion 0 [] .fine) d) = true ∧
    far.engines.all (fun o => far.linkLost o && far.reachesOut o) = true := by decide +kernel

/-- An allgather of two ranks of one package, both there. -/
def gatherOp : EngineOp :=
  { id := 0, kind := .coll, queue := 128, agent := 128, launch := 0, teamid := 0, part := 0, asid := 0, sup := false, cluster := 0, scratchBase := 0,
    grant := 65536, cmd := 0x2000, completion := none, seq := 0, started := true,
    bytes := List.replicate 0x18 0 ++ leBytes 4 4 ++ leBytes 4 0x402 ++ List.replicate 0x20 0,
    data := List.replicate 4 (1, false), dst := (List.range 8).map (0x80004000 + ·), grp := (7, 2), ranks := [0, 0], got := [(1, List.replicate 4 (2, false))] }

/-- R324, R325, R355: ranks whose commands agree, and do not; a rank of another package, reached through an adapter. -/
theorem witness_collective :
    let s : State := { cmdTeam [] with engines := [gatherOp] }
    let terms : Config.CollTerms := { rank := 1, kind := 2, op := 0, ty := 4, rnd := 0, len := 8, root := 0, count := 2 }
    let away : EngineOp := { gatherOp with ranks := [0, 5] }
    s.linkLost gatherOp = false ∧ s.reachesOut gatherOp = false ∧ gatherOp.posts = [] ∧ gatherOp.dst ≠ [] ∧ (collOf gatherOp.bytes).len = 4 ∧
    gatherOp.dst.any (s.keyBarred gatherOp.who) = false ∧ gatherOp.disagreesFar [terms] = true ∧
    isNext (fun t => t.rd 0x80004000 8 == 0x0202020201010101 && t.rd 0x80002030 4 == 1) (exec (.engineCompletion 0 [] .fine) s) = true ∧
    isNext (fun t => t.rd 0x80004000 8 == 0 && t.rd 0x80002030 4 == 8) (exec (.engineCompletion 0 [] (.ranks [terms])) s) = true ∧
    s.reachesOut away = true ∧ s.linkLost away = false := by decide +kernel

/-- R247: a check-in after a recall, of a dirty word that another team has checked out. -/
theorem witness_chkin_waits :
    let hot : State := { (outDone.wr (scratchKey 0 0x404) 4 0xAABBCCDD) with
      dirty := [((scratchKey 0 0x404) / 4, true)], engines := [], ranges := outDone.ranges.map fun r => { r with recalled := true } }
    isNext (fun t => let v : State := { t with ranges := t.ranges ++ [barring 0x80003000] }
      v.engines.all (fun o => v.opReady o) && isNext (fun u => u.ranges.length == 2 && u.rd 0x80003000 8 == 0x1122334455667788)
        (exec (.engineStart { id := 1 }) v)) (exec (.chkin 5 9 10) hot) = true := by decide +kernel

/-- R192: a spill area that is mapped, and one whose page is being moved. -/
theorem witness_spill_reached :
    let s := mapped ((deepTeam 40).updMe fun a => { a with spill := 0x3000 })
    let m := (((s.wr 0x40110000 8 0x40120001).wr 0x40120000 8 0x40130001).wr 0x40130000 8 (movingEntry 0x9000003F)).updMe fun a => { a with spill := 0x100 }
    32 < s.me.depth ∧ (match s.translate { s.who with user := false } s.me.spill.toNat accStore with | (.at m _ _, _) => targetOf m == .hbm | _ => false) = true ∧
    (match m.translate { m.who with user := false } m.me.spill.toNat accStore with | (.wait, _) => true | _ => false) = true := by decide +kernel

/-- R198, R213: a team with a store left that exits, asked to leave; a pre-empted team whose trap is still to be delivered. -/
theorem witness_leaving :
    let s := restTeam.updMe fun a => { a with storeQ := [{ kind := .store, addr := 0x2000, size := 4 }], preq := some (100, 0) }
    let t := restTeam.updMe fun a => { a with preq := some (50, 0), pendingTrap := some (0x1004, 0) }
    Free s [] = true ∧ s.me.allPerformed = false ∧ isNext (fun u => u.me.preq.isNone) (exec .exit s) = true ∧
    t.switchTo 128 = some t ∧ t.me.sketch = none ∧ t.vectorReady = true ∧ t.me.depth + 1 ≤ 32 ∧ restTeam.opsOnGrant = false ∧
    ((thread.updPart 0 fun q => { q with resetting := true }).part 0).resetting = true ∧ (thread.part 0).resetting = false := by
  decide +kernel

/-- R313: a ring with an entry, and a bin for its thread. -/
theorem witness_ring :
    let s := (((mapped (part0 thread)).wr (partBase 0 + 0x108) 8 0x5000).wr (partBase 0 + 0x104) 4 0x104).wr 0x80005000 8 0x3004
    let s := s.updPart 0 fun q => { q with ringTail := 1 }
    (s.part 0).ringHead < (s.part 0).ringTail ∧ s.ringVoid 0 0 = false ∧
    (s.ringThread 0 0).any (fun t => t.1.entry == 0x3004 && t.2 == 0 && (s.intoBin t.2 0 t.1).isSome) = true ∧
    isNext (fun t => t.bins.length == 1 && (t.part 0).ringHead == 1) (exec (.kindlingRingRefill 0) s) = true := by decide +kernel

/-- R378: a page that goes out: its registration has room, and a slot is free. -/
def outgoing : State :=
  let s := ((movingTeam.wr (proxyBase 5 + 8) 4 0x100000).wr (proxyBase 5 + 0x0C) 2 0x106).wr (partBase 0 + 0xE0) 4 0x810
  let s := ((object s 0 0 63 0).wr (partBase 0 + 0x210) 2 5).wr (partBase 0 + 0x220) 8 0x6000
  let s := (s.wr 0x80006000 4 1).wr 0x80006004 4 0x2A
  { s with moves := s.moves.map fun m => { m with pageOut := true } }

theorem witness_page_out :
    (outgoing.readyMove 0x90000000 true).any (fun m =>
      let t : State := { outgoing with moves := [] }
      t.stillMoving m && (match t.reserveSlots none (t.partField m.part 0x210 2) 1 with
        | (some k, u) => decide (k < 2 ^ 63) && u.acceptsSlot (some m.part) (t.partField m.part 0x210 2) k &&
          (u.popSlot m.part).any fun v => v.2.stillMoving m && isNext (fun w => w.swapWrites.map (·.cid) == [0x2A]) (exec (.pageOut 0x90000000) outgoing)
        | _ => false)) = true := by decide +kernel

/-- R335, R337: device places behind a port under containment. -/
theorem witness_contained :
    (List.range 32).any (fun n => ({ ioThread with contained := [n] } : State).shutOff 0x302030000000) = true ∧
    ioThread.shutOff 0x302030000000 = false ∧ targetOf 0x302030000000 ≠ .chip := by decide +kernel

/-- R337, R354: an error that contains a peer port takes its link down. -/
theorem witness_peer_port_error : let s := linked
    s.ntbPorts.idxOf? 0 = some 0 ∧ (s.link? 0).st ≠ .down ∧ s.contained.contains 0 = false ∧
    isNext (fun t => (t.link? 0).st == .down && t.contained == [0]) (exec (.aerError 0 0 { header := 0, contain := true }) s) = true := by decide +kernel

/-- R405: a package without a link that is up; one with. -/
theorem witness_unlock : (List.range 8).all (fun n => !State.reset.hasLink n) = true ∧ linked.hasLink 0 = true ∧
    (∀ n, n < 8 → State.reset.ideUp n = false) := by decide +kernel

/-- R406 to R408: a step that has begun by its primary way, and one by its alternate; a record whose FAILS and ALT have been cleared. -/
theorem witness_begun : let s : State := { State.reset with stepBegun := true, stepRecord := [(1, recWord 1 0 0 0)] }
    s.bootStep = 1 ∧ s.stepBegun = true ∧ s.recovery = false ∧ recWay (s.stepRecord.get 0 1) = 0 ∧ recWay (recWord 1 1 1 1) = 1 ∧
    (stepAction 4 (recWord 3 0 0 0)).1 = .primary ∧ (stepAction 4 (recWord 4 1 0 0)).1 = .primary ∧ (stepAction 4 (recWord 4 1 0 1)).1 = .alternate ∧
    isNext (fun t => t.bootStep == 28 && t.stepRecord.get 0 1 == recWord 3 0 1 0) (exec (.startStep 1 none) s) = true := by decide +kernel

/-- R17: the root-of-trust core runs from its ROM while no other core does: SLI at its first word to be fetched. -/
theorem test_root_core_runs : (match State.reset.switchTo rootId with
    | some s => isNext (fun t => t.meId == rootId && t.me.pc == 8 && sv t 20 == 0x24) (step (atTurn (s.wr (rootKey 4) 4 0x14280024)))
    | none => false) = true := by decide +kernel

end Sys2Proof.Tests
end

section
/-! PROOFS. R113 among the members of a gang (R182): whether a decay form meets i8 inputs is decided by the leader's MODE, so a
member that another slot leads arrives at the latch whatever its own MODE.TYPE is. -/
namespace Sys2Proof.Proofs
open Sys2Proof.Machine Sys2Proof.Safety Sys2Proof.Laws

/-- The agent whose turn it is waits at its core's rendezvous latch with an instruction (R182). -/
def arrivedWith (i : Instr) (s : State) : State := s.updMe fun a => { a with wait := .gang i }

/-- A gang member that another slot leads, held back by nothing, arrives at the latch with MMA.decay: its own MODE.TYPE is not
judged (R182, log 39). -/
theorem exec_mmaDecay_arrives_of_led {s : State} {d : BitVec 4} {t : Bool} {a b : BitVec 8} {l : BitVec 7}
    (hteam : s.me.isTeam = true) (hgang : s.me.regs.gang ≠ 0) (hled : s.me.led = true)
    (htile : s.me.inBudget (.a d.toNat) = true) (hfree : Free s (s.me.sRegs l.toNat ++ s.me.guardReg) = true)
    (hexec : s.me.exec ≠ 0) (hslots : s.slotsUsed s.me.core < 4) (hsettled : s.settled = true)
    (hmissing : (arrivedWith (.mmaDecay d t true a b l) s).gangMembers = none) :
    exec (.mmaDecay d t true a b l) s = .next (arrivedWith (.mmaDecay d t true a b l) s) := by
  change mma (.mmaDecay d t true a b l) s = _
  unfold mma
  refine (issue_free _ ?_ ?_ ?_ (pipeHeld_none ?_)).trans ?_
  · simpa [mmaArgs, hled] using hfree
  · simpa [mmaArgs, hled, hteam, htile] using hgang
  · simp
  · rfl
  · rw [if_neg hexec]
    simp only [mmaArgs, reduceIte, Bool.false_eq_true]
    rw [waitInk_free (free_sketch hfree)]
    unfold arrivedWith at hmissing ⊢
    simp [Nat.not_le.mpr hslots, hsettled, hmissing]

/-- A team of slot 5 under MODE.TYPE i8, in the gang of slots 2 and 5: slot 2, which has not arrived, leads it. -/
def ledI8Team : State :=
  let a := loadedTeam 0 State.reset.me
  { State.reset with me := { a with slot := 5, regs := { a.regs with mode := 0, gang := 0x24 } } }

/-- MMA.decay of a gang, under i8 inputs if the team's own MODE decided them. -/
abbrev gangDecay : Instr := .mmaDecay 0 true true 0 8 20

theorem exec_gangDecay_ledI8Team : exec gangDecay ledI8Team = .next (arrivedWith gangDecay ledI8Team) := by
  apply exec_mmaDecay_arrives_of_led <;> decide +kernel

/-- The arrival is no trap: it does not yet count as issued, which a trapping instruction does (R395, log 41). -/
theorem ledI8Team_not_traps : ¬ Traps gangDecay ledI8Team .illegal ledI8Team.me.active := by
  intro htraps
  have hstates : arrivedWith gangDecay ledI8Team = ledI8Team.issued.raise .illegal ledI8Team.me.active ledI8Team.me.pc :=
    Host.Outcome.next.inj (exec_gangDecay_ledI8Team.symm.trans htraps)
  have hseq : (arrivedWith gangDecay ledI8Team).me.seq ≠
      (ledI8Team.issued.raise .illegal ledI8Team.me.active ledI8Team.me.pc).me.seq := by decide +kernel
  exact hseq (congrArg (·.me.seq) hstates)

/-- Refutes O22: under i8, MMA.decay of a gang member that another slot leads raises no ILLEGAL but arrives at the latch, since the
joint operation takes its MODE and ctl from the leader (R182). -/
theorem not_integerMatrixElement : ¬ Obligations.IntegerMatrixElement := by
  unfold Obligations.IntegerMatrixElement
  rintro ⟨-, hillegal⟩
  have htype : ledI8Team.me.ty = 0x00 := by decide +kernel
  have hwait : ledI8Team.awaitsExceptions = false := by decide +kernel
  exact ledI8Team_not_traps (hillegal ledI8Team 0 true true 0 8 0 0 20 htype hwait).1

end Sys2Proof.Proofs
end

section
/-! PROOFS. Elementwise integer arithmetic, logic on whole units, and moves (R131 to R133, R136): results, poison and frame. -/
namespace Sys2Proof.Proofs
open Sys2Proof.Machine Sys2Proof.Safety Sys2Proof.Laws

/-! ### The meaning that each instruction has -/

section
variable (d a b c tab : BitVec 8) (m : BitVec 4) (r : BitVec 7) (i h : BitVec 16) (hi : Bool) (s : State)

theorem exec_vadd : exec (.vadd d a b) s = execVadd d a b s := rfl
theorem exec_vsub : exec (.vsub d a b) s = execVsub d a b s := rfl
theorem exec_vmul : exec (.vmul d a b) s = execVmul d a b s := rfl
theorem exec_vmulh : exec (.vmulh d a b) s = execVmulh d a b s := rfl
theorem exec_vmad : exec (.vmad d a b c) s = execVmad d a b c s := rfl
theorem exec_vmin : exec (.vmin d a b) s = execVmin d a b s := rfl
theorem exec_vmax : exec (.vmax d a b) s = execVmax d a b s := rfl
theorem exec_vabsd : exec (.vabsd d a b) s = execVabsd d a b s := rfl
theorem exec_vand : exec (.vand d a b) s = execVand d a b s := rfl
theorem exec_vor : exec (.vor d a b) s = execVor d a b s := rfl
theorem exec_vxor : exec (.vxor d a b) s = execVxor d a b s := rfl
theorem exec_vlogt : exec (.vlogt d a b c tab) s = execVlogt d a b c tab s := rfl
theorem exec_vshl : exec (.vshl d a b) s = execVshl d a b s := rfl
theorem exec_vshr : exec (.vshr d a b) s = execVshr d a b s := rfl
theorem exec_vsar : exec (.vsar d a b) s = execVsar d a b s := rfl
theorem exec_vfun : exec (.vfun d a b c) s = execVfun d a b c s := rfl
theorem exec_vsel : exec (.vsel d a b m) s = execVsel d a b m s := rfl
theorem exec_vmov : exec (.vmov d a) s = execVmov d a s := rfl
theorem exec_vbcast : exec (.vbcast d r hi) s = execVbcast d r hi s := rfl
theorem exec_vli : exec (.vli d i) s = execVli d i s := rfl
theorem exec_vliExt : exec (.vliExt d i h) s = execVliExt d i h s := rfl
theorem exec_vlih : exec (.vlih d i) s = execVlih d i s := rfl

end

/-! ### The elementwise body (R131) -/

/-- What the elementwise body writes from clean sources. -/
theorem does_vecUnits {i : Instr} {ok ext : Bool} {lat : Nat} {srcs : List (BitVec 8)} {f : List Nat → Nat} {d : BitVec 8} {s : State}
    (hi : exec i s = vecUnits ok lat ext srcs f d s) (hok : ok = true)
    (hfree : VecFree s (isWideType s.me.ty) (srcs ++ [d]) = true) (hclean : poisonedLanes s (isWideType s.me.ty) srcs = []) :
    Does ext i s (writeLanes (isWideType s.me.ty) d.toNat (fun l =>
      clean (BitVec.ofNat 64 (f (srcs.map fun r => (s.me.getUnit (isWideType s.me.ty) r.toNat l).val.toNat)))) s) :=
  does_vec hi ((vecUnits_next hok hfree).1 hclean) rfl (writeLanes_next ..)

/-- A poisoned source traps in the lanes that meet it, and nothing is written. -/
theorem traps_vecUnits {i : Instr} {ok ext : Bool} {lat : Nat} {srcs : List (BitVec 8)} {f : List Nat → Nat} {d : BitVec 8} {s : State}
    (hi : exec i s = vecUnits ok lat ext srcs f d s) (hok : ok = true)
    (hfree : VecFree s (isWideType s.me.ty) (srcs ++ [d]) = true) (hbad : poisonedLanes s (isWideType s.me.ty) srcs ≠ []) :
    Traps i s .poison (maskOf (poisonedLanes s (isWideType s.me.ty) srcs)) :=
  traps_of (hi.trans ((vecUnits_next hok hfree).2 hbad))

/-! ### Elementwise integer arithmetic (R131, R133) -/

/-- The arithmetic of two sources is the elementwise body under the integer types. -/
theorem exec_arith2 {d a b : BitVec 8} {i : Instr} (s : State)
    (hi : i ∈ [Instr.vadd d a b, .vsub d a b, .vmul d a b, .vmulh d a b, .vmin d a b, .vmax d a b, .vabsd d a b, .vshl d a b,
      .vshr d a b, .vsar d a b]) :
    ∃ lat f, exec i s = vecElems lat false [a, b] f d s := by
  simp only [List.mem_cons, List.not_mem_nil, or_false] at hi
  rcases hi with rfl | rfl | rfl | rfl | rfl | rfl | rfl | rfl | rfl | rfl
  · exact ⟨_, _, exec_vadd ..⟩
  · exact ⟨_, _, exec_vsub ..⟩
  · exact ⟨_, _, exec_vmul ..⟩
  · exact ⟨_, _, exec_vmulh ..⟩
  · exact ⟨_, _, exec_vmin ..⟩
  · exact ⟨_, _, exec_vmax ..⟩
  · exact ⟨_, _, exec_vabsd ..⟩
  · exact ⟨_, _, exec_vshl ..⟩
  · exact ⟨_, _, exec_vshr ..⟩
  · exact ⟨_, _, exec_vsar ..⟩

/-- The arithmetic of three sources is the elementwise body under the integer types. -/
theorem exec_arith3 {d a b c : BitVec 8} {i : Instr} (s : State) (hi : i ∈ [Instr.vmad d a b c, .vfun d a b c]) :
    ∃ lat f, exec i s = vecElems lat true [a, b, c] f d s := by
  simp only [List.mem_cons, List.not_mem_nil, or_false] at hi
  rcases hi with rfl | rfl
  · exact ⟨_, _, exec_vmad ..⟩
  · exact ⟨_, _, exec_vfun ..⟩

/-- Settles O17: every instruction is the elementwise body with its own function of the elements. `(_ :)` takes that function from
the instruction's meaning, before it is compared with the statement's. -/
theorem vectorIntegerResults : Obligations.VectorIntegerResults := by
  unfold Obligations.VectorIntegerResults
  intro s d a b c hty
  refine ⟨fun hfree hclean => ⟨?_, ?_, ?_, ?_, ?_, ?_, ?_, ?_, ?_, ?_⟩, fun hfree hbad i hi => ?_, fun hfree hclean => ⟨?_, ?_⟩,
    fun hfree hbad i hi => ?_⟩
  · exact (does_vecUnits (exec_vadd ..) hty hfree hclean :)
  · exact (does_vecUnits (exec_vsub ..) hty hfree hclean :)
  · exact (does_vecUnits (exec_vmul ..) hty hfree hclean :)
  · exact (does_vecUnits (exec_vmulh ..) hty hfree hclean :)
  · exact (does_vecUnits (exec_vmin ..) hty hfree hclean :)
  · exact (does_vecUnits (exec_vmax ..) hty hfree hclean :)
  · exact (does_vecUnits (exec_vabsd ..) hty hfree hclean :)
  · exact (does_vecUnits (exec_vshl ..) hty hfree hclean :)
  · exact (does_vecUnits (exec_vshr ..) hty hfree hclean :)
  · exact (does_vecUnits (exec_vsar ..) hty hfree hclean :)
  · obtain ⟨lat, f, h⟩ := exec_arith2 s hi
    exact traps_vecUnits h hty hfree hbad
  · exact (does_vecUnits (exec_vmad ..) hty hfree hclean :)
  · exact (does_vecUnits (exec_vfun ..) hty hfree hclean :)
  · obtain ⟨lat, f, h⟩ := exec_arith3 s hi
    exact traps_vecUnits h hty hfree hbad

/-! ### Logic on whole units (R132) -/

/-- A fold that ORs in words has a bit where one of them has it. -/
theorem getLsbD_foldl_or {α : Type} {w : Nat} (p : α → Bool) (f : α → BitVec w) (xs : List α) (r : BitVec w) (j : Nat) :
    (xs.foldl (fun r x => if p x then r ||| f x else r) r).getLsbD j = (r.getLsbD j || xs.any fun x => p x && (f x).getLsbD j) := by
  induction xs generalizing r with
  | nil => simp only [List.foldl_nil, List.any_nil, Bool.or_false]
  | cons x xs ih =>
    rw [List.foldl_cons, ih, List.any_cons]
    cases p x with
    | false => simp only [Bool.false_eq_true, ↓reduceIte, Bool.false_and, Bool.false_or]
    | true => simp only [↓reduceIte, BitVec.getLsbD_or, Bool.or_assoc, Bool.true_and]

/-- The minterm of a row of VLOGT's table: the bits at which the sources are the bits of the row's number. -/
def minterm (a b c : Dword) (n : Nat) : Dword :=
  (if bitOf n 2 then a else ~~~a) &&& (if bitOf n 1 then b else ~~~b) &&& (if bitOf n 0 then c else ~~~c)

theorem truthTable_eq (t : Nat) (a b c : Dword) :
    truthTable t a b c = (List.range 8).foldl (fun r n => if bitOf t n then r ||| minterm a b c n else r) 0 := rfl

theorem getLsbD_minterm (a b c : Dword) {n j : Nat} (hn : n < 8) (hj : j < 64) :
    (minterm a b c n).getLsbD j = (n == 4 * (a.getLsbD j).toNat + 2 * (b.getLsbD j).toNat + (c.getLsbD j).toNat) := by
  have hsel (p : Bool) (x : Dword) : (if p then x else ~~~x).getLsbD j = (p == x.getLsbD j) := by
    cases p with
    | false => simp only [Bool.false_eq_true, ↓reduceIte, BitVec.getLsbD_not, hj, decide_true, Bool.true_and, Bool.false_beq]
    | true => simp only [↓reduceIte, Bool.true_beq]
  simp only [minterm, BitVec.getLsbD_and, hsel]
  generalize a.getLsbD j = x, b.getLsbD j = y, c.getLsbD j = z
  revert x y z n
  decide

/-- The row that the sources' bits name gives the result's bit (R132). -/
theorem getLsbD_truthTable (t : BitVec 8) (a b c : Dword) {j : Nat} (hj : j < 64) :
    (truthTable t.toNat a b c).getLsbD j =
      t.getLsbD (4 * (a.getLsbD j).toNat + 2 * (b.getLsbD j).toNat + (c.getLsbD j).toNat) := by
  have hrow : 4 * (a.getLsbD j).toNat + 2 * (b.getLsbD j).toNat + (c.getLsbD j).toNat < 8 := by
    have := Bool.toNat_le (a.getLsbD j); have := Bool.toNat_le (b.getLsbD j); have := Bool.toNat_le (c.getLsbD j); omega
  rw [truthTable_eq, getLsbD_foldl_or, Bool.eq_iff_iff]
  generalize hk : 4 * (a.getLsbD j).toNat + 2 * (b.getLsbD j).toNat + (c.getLsbD j).toNat = k at hrow ⊢
  have hminterm {n : Nat} (hn : n < 8) : (minterm a b c n).getLsbD j = (n == k) := hk ▸ getLsbD_minterm a b c hn hj
  have hbit : bitOf t.toNat k = t.getLsbD k := (Nat.testBit_eq_decide_div_mod_eq ..).symm
  simp only [BitVec.ofNat_eq_ofNat, BitVec.getLsbD_zero, Bool.false_or, List.any_eq_true, List.mem_range, Bool.and_eq_true, ← hbit]
  constructor
  · rintro ⟨n, hn, htab, hmin⟩
    rw [hminterm hn, beq_iff_eq] at hmin
    exact hmin ▸ htab
  · exact fun htab => ⟨k, hrow, htab, by rw [hminterm hrow, beq_self_eq_true]⟩

/-- Bitwise logic of two sources is the elementwise body on whole units, under every type. -/
theorem exec_logic2 {d a b : BitVec 8} {i : Instr} (s : State) (hi : i ∈ [Instr.vand d a b, .vor d a b, .vxor d a b]) :
    ∃ f, exec i s = vecLogic false [a, b] f d s := by
  simp only [List.mem_cons, List.not_mem_nil, or_false] at hi
  rcases hi with rfl | rfl | rfl
  · exact ⟨_, exec_vand ..⟩
  · exact ⟨_, exec_vor ..⟩
  · exact ⟨_, exec_vxor ..⟩

/-- What logic on whole units writes from clean sources, `g` being its function of the units as words. -/
theorem does_vecLogic {i : Instr} {ext : Bool} {srcs : List (BitVec 8)} {f : List Nat → Nat} {d : BitVec 8} {s : State} {g : Nat → Dword}
    (hi : exec i s = vecLogic ext srcs f d s)
    (hfree : VecFree s (isWideType s.me.ty) (srcs ++ [d]) = true) (hclean : poisonedLanes s (isWideType s.me.ty) srcs = [])
    (hg : ∀ l, f (srcs.map fun r => (s.me.getUnit (isWideType s.me.ty) r.toNat l).val.toNat) = (g l).toNat) :
    Does ext i s (writeLanes (isWideType s.me.ty) d.toNat (fun l => clean (g l)) s) := by
  have hdoes := does_vecUnits hi rfl hfree hclean
  simpa only [hg, BitVec.ofNat_toNat, BitVec.setWidth_eq] using hdoes

/-! ### Moves (R136) -/

@[simp] theorem vecNeed_reads (a : Agent) (ok wide ext : Bool) (ds ss : List Nat) (lat : Nat) :
    (a.vecNeed ok wide ds ss lat ext).reads = ss.flatMap (vRegs wide) ++ a.guardReg := by
  simp only [Agent.vecNeed, Agent.vecNeedOf, List.flatMap_map]

@[simp] theorem vecNeed_writes (a : Agent) (ok wide ext : Bool) (ds ss : List Nat) (lat : Nat) :
    (a.vecNeed ok wide ds ss lat ext).writes = ds.flatMap (vRegs wide) := by
  simp only [Agent.vecNeed, Agent.vecNeedOf, List.flatMap_map]

section
variable {s : State} {d a b : BitVec 8} {m : BitVec 4} {r : BitVec 7} {i : BitVec 16}

theorem execVmov_next (hfree : VecFree s (isWideType s.me.ty) [a, d] = true) :
    execVmov d a s = .next (retire (s.me.vecNeed true (isWideType s.me.ty) [d.toNat] [a.toNat] 2 false)
      (writeLanes (isWideType s.me.ty) d.toNat (fun l => s.me.getUnit (isWideType s.me.ty) a.toNat l) s)) := by
  unfold execVmov
  exact takes_issue _ (takes_vec (ds := [d]) (ss := [a]) rfl hfree)

/-- The need of VSEL: the mask is a source beside the two units. -/
def vselNeed (a : Agent) (wide : Bool) (d x y m : Nat) : Need :=
  let n := a.vecNeed true wide [d] [x, y] 2 true
  { n with reads := .m m :: n.reads }

theorem execVsel_next (hfree : VecFree s (isWideType s.me.ty) [a, b, d] [.m m.toNat] = true) :
    execVsel d a b m s = .next (retire (vselNeed s.me (isWideType s.me.ty) d.toNat a.toNat b.toNat m.toNat)
      (writeLanes (isWideType s.me.ty) d.toNat
        (fun l => s.me.getUnit (isWideType s.me.ty) (if (s.me.getM m.toNat).getLsbD l then a.toNat else b.toNat) l) s)) := by
  unfold execVsel
  refine takes_issue _ (takes_vecMore (ds := [d]) (ss := [a, b]) (lat := 2) (ext := true) rfl hfree rfl rfl fun q hq => ?_)
  simpa only [List.map_cons, List.map_nil, vecNeed_reads, vecNeed_writes, List.flatMap_cons, List.flatMap_nil, List.append_nil,
    List.cons_append, List.mem_append, List.mem_cons, List.not_mem_nil, false_or, or_assoc, or_comm, or_left_comm] using hq

/-- The need of VBCAST: the scalar register is its source. -/
def vbcastNeed (a : Agent) (d r : Nat) : Need :=
  let n := a.vecNeed true false [d] [] 6 false
  { n with reads := a.sRegs r ++ n.reads }

theorem execVbcast_next (hi : Bool) (hfree : VecFree s false [d] (s.me.sRegs r.toNat) = true) :
    execVbcast d r hi s = .next (retire (vbcastNeed s.me d.toNat r.toNat) (writeLanes false d.toNat (fun _ =>
      { val := if hi then (s.me.getS r.toNat).val >>> 32 else (s.me.getS r.toNat).val, poison := (s.me.getS r.toNat).poison }) s)) := by
  unfold execVbcast
  refine takes_issue _ (takes_vecMore (ds := [d]) (ss := []) (lat := 6) (ext := false) rfl hfree rfl rfl fun q hq => ?_)
  simpa only [List.map_cons, List.map_nil, vecNeed_reads, vecNeed_writes, List.flatMap_cons, List.flatMap_nil, List.append_nil,
    List.nil_append, List.mem_append, or_assoc, or_comm, or_left_comm] using hq

theorem vecLoad_next {lat : Nat} {ext : Bool} {f : Agent → Nat → Dword} (hfree : VecFree s false [d] = true) :
    vecLoad lat ext f d s =
      .next (retire (s.me.vecNeed true false [d.toNat] [] lat ext) (writeLanes false d.toNat (fun l => clean (f s.me l)) s)) := by
  unfold vecLoad
  exact takes_issue _ (takes_vec (ds := [d]) (ss := []) rfl hfree)

theorem execVlih_next (hfree : VecFree s false [d] = true) :
    execVlih d i s = .next (retire (s.me.vecNeed true false [d.toNat] [d.toNat] 2 false) (writeLanes false d.toNat (fun l =>
      { val := (i ++ (s.me.getV d.toNat l).val.setWidth 16).setWidth 64, poison := (s.me.getV d.toNat l).poison }) s)) := by
  unfold execVlih
  refine takes_issue _ (takes_vecMore (ds := [d]) (ss := []) (lat := 2) (ext := false) rfl hfree rfl rfl fun q hq => ?_)
  simpa only [List.map_cons, List.map_nil, vecNeed_reads, vecNeed_writes, List.flatMap_cons, List.flatMap_nil, List.append_nil,
    List.nil_append, List.mem_append, or_assoc, or_comm, or_self_left] using hq

end

/-- Settles O18: logic is the elementwise body on whole units, whose VLOGT takes each bit from the table's row; moves write the units
that they read, poison with them. -/
theorem vectorLogicAndMoves : Obligations.VectorLogicAndMoves := by
  unfold Obligations.VectorLogicAndMoves
  intro s d a b c tab m r i h wide u
  refine ⟨fun hfree hclean => ⟨?_, ?_, ?_⟩, fun hfree hclean => ?_, fun hfree hbad i hi => ?_, fun hfree hbad => ?_, fun hfree => ?_,
    fun hfree => ?_, fun hfree hi => ?_, fun hfree => ⟨?_, ?_, ?_⟩⟩
  · exact does_vecLogic (exec_vand ..) hfree hclean fun l => (BitVec.toNat_and (u a l) (u b l)).symm
  · exact does_vecLogic (exec_vor ..) hfree hclean fun l => (BitVec.toNat_or (u a l) (u b l)).symm
  · exact does_vecLogic (exec_vxor ..) hfree hclean fun l => (BitVec.toNat_xor (u a l) (u b l)).symm
  · refine ⟨fun l => truthTable tab.toNat (u a l) (u b l) (u c l), ?_, fun l j hj => getLsbD_truthTable tab _ _ _ hj⟩
    exact does_vecLogic (exec_vlogt ..) hfree hclean fun l => by
      simp only [of3, List.map_cons, List.map_nil, BitVec.ofNat_toNat, BitVec.setWidth_eq, u, wide]
  · obtain ⟨f, hlogic⟩ := exec_logic2 s hi
    exact traps_vecUnits hlogic rfl hfree hbad
  · exact traps_vecUnits (exec_vlogt ..) rfl hfree hbad
  · exact does_vec (exec_vmov ..) (execVmov_next hfree) rfl (writeLanes_next ..)
  · exact does_vec (exec_vsel ..) (execVsel_next hfree) rfl (writeLanes_next ..)
  · exact does_vec (exec_vbcast ..) (execVbcast_next hi hfree) rfl (writeLanes_next ..)
  · exact does_vec (exec_vli ..) (vecLoad_next hfree) rfl (writeLanes_next ..)
  · exact does_vec (exec_vliExt ..) (vecLoad_next hfree) rfl (writeLanes_next ..)
  · exact does_vec (exec_vlih ..) (execVlih_next hfree) rfl (writeLanes_next ..)

end Sys2Proof.Proofs
end

section
/-! PROOFS. Float compares, same-quantum tests and format conversions (R92 to R94, R109, R110, R157, R159, R161): results,
exceptions, mask bits and the illegal types. -/
namespace Sys2Proof.Proofs
open Sys2Proof.Machine Sys2Proof.Safety Sys2Proof.Laws

/-! ### What the hypotheses say (R76, R148) -/

theorem free_settled {s : State} {rs : List Reg} (h : Free s rs = true) : s.awaitsExceptions = false := by
  simp only [Free, Bool.and_eq_true, Bool.not_eq_true'] at h; exact h.1.2

theorem ne_decimal_of_isFloatType {t : Nat} (h : isFloatType t = true) : t ≠ 0x0E := by
  have := of_decide_eq_true h; omega

/-! ### The close of exceptions (R109, R110, R150) -/

section
variable {es : List (Nat × Nat)} {body : State → Res} {s : State}

/-- With no enabled exception FLAGS takes them all. -/
theorem commitLanes_flags (h : es.filter (fun c => s.me.enabled c.2 != 0) = []) :
    commitLanes es body s = body (s.orFlags (orExc es)) := by
  simp only [commitLanes, h, List.isEmpty_nil, ↓reduceIte]

/-- The lanes that meet an enabled exception trap with their enabled ones. -/
theorem commitLanes_traps (h : es.filter (fun c => s.me.enabled c.2 != 0) ≠ []) :
    commitLanes es body s = trapIn (.arith (s.me.enabled (orExc (es.filter fun c => s.me.enabled c.2 != 0))))
      (maskOf ((es.filter fun c => s.me.enabled c.2 != 0).map (·.1))) s := by
  simp only [commitLanes, List.isEmpty_iff, h, ↓reduceIte]

end

/-- Rounding changes neither the registers nor the legality of a need, so free datapaths take it as well. -/
theorem takes_rounding {s : State} {n : Need} (pass : Nat) (h : Takes s n = true) (hpipes : PipesFree s = true) :
    Takes s (n.rounding pass) = true := by
  simp only [Takes, Bool.and_eq_true] at h ⊢
  exact ⟨h.1, by rw [pipeHeld_free hpipes]; rfl⟩

/-- The body of R150 from clean sources closes as commit_arith does. -/
theorem closes_vecExc {i : Instr} {n : Need} {wideD wideS : Bool} {srcs : List (BitVec 8)} {f : List Nat → Nat × Nat} {d : BitVec 8}
    {s : State} (hi : exec i s = vecExc n wideD wideS srcs f d s) (htakes : Takes s n = true)
    (hclean : poisonedLanes s wideS srcs = []) :
    Closes n.ext i s wideD d fun l => f (srcs.map fun r => (s.me.getUnit wideS r.toNat l).val.toNat) := by
  have hsources (l : Nat) : (srcs.map (·.toNat)).map (fun r => (s.me.getUnit wideS r l).val.toNat) =
      srcs.map fun r => (s.me.getUnit wideS r.toNat l).val.toNat := List.map_map ..
  have hpoison : s.me.execLanes.filter (fun l => (srcs.map (·.toNat)).any fun r => (s.me.getUnit wideS r l).poison) = [] := by
    simp only [List.any_map]; exact hclean
  unfold vecExc at hi
  rw [takes_issue _ htakes, consumeLanes_clean hpoison] at hi
  simp only [hsources] at hi
  exact ⟨fun hnone => does_vec hi (commitLanes_flags hnone) rfl (writeLanes_next ..),
    fun hsome => traps_of (hi.trans (commitLanes_traps hsome))⟩

/-! ### Masks (R71, R118) -/

theorem getLsbD_lanesBelow {n l : Nat} (hl : l < 1024) : (lanesBelow n).getLsbD l = decide (l < n) := by
  simp only [lanesBelow, BitVec.getLsbD_ofNat, hl, decide_true, Bool.true_and, Nat.testBit_two_pow_sub_one]

theorem lt_lanes_of_exec {a : Agent} {l : Nat} (hl : l < 1024) (h : a.exec.getLsbD l = true) : l < a.lanes := by
  have hmask : (a.active &&& lanesBelow a.lanes).getLsbD l = true := by
    unfold Agent.exec at h
    split at h
    · rw [BitVec.getLsbD_and, Bool.and_eq_true] at h; exact h.1
    · exact h
  rw [BitVec.getLsbD_and, getLsbD_lanesBelow hl, Bool.and_eq_true, decide_eq_true_eq] at hmask
  exact hmask.2

theorem mem_execLanes {a : Agent} {l : Nat} : l ∈ a.execLanes ↔ l < a.lanes ∧ a.exec.getLsbD l = true := by
  simp only [Agent.execLanes, lanesOf, List.mem_filter, List.mem_range]

theorem maskOf_eq (ls : List Nat) : maskOf ls = ls.foldl (fun m l => if true then m ||| BitVec.twoPow 1024 l else m) 0 := rfl

theorem getLsbD_maskOf (ls : List Nat) {l : Nat} (hl : l < 1024) : (maskOf ls).getLsbD l = decide (l ∈ ls) := by
  rw [maskOf_eq, getLsbD_foldl_or (fun _ => true), Bool.eq_iff_iff]
  simp only [BitVec.ofNat_eq_ofNat, BitVec.getLsbD_zero, Bool.false_or, Bool.true_and, List.any_eq_true, BitVec.getLsbD_twoPow,
    Bool.and_eq_true, decide_eq_true_eq]
  exact ⟨fun ⟨x, hx, _, h⟩ => h ▸ hx, fun h => ⟨l, h, hl, rfl⟩⟩

/-- Writing a mask's bits for the exec lanes is writing the mask that has them there and the old bits elsewhere. -/
theorem writeMask_eq_setM {s : State} {m : Nat} {f : Nat → Bool} {new : LaneMask}
    (hnew : ∀ l, l < 1024 → new.getLsbD l = if l < s.me.lanes ∧ s.me.exec.getLsbD l = true then f l else (s.me.getM m).getLsbD l) :
    writeMask m f s = s.updMe fun g => g.setM m new := by
  have hbits : (s.me.getM m &&& ~~~s.me.exec) ||| maskOf (s.me.execLanes.filter f) = new := by
    refine BitVec.eq_of_getLsbD_eq fun l hl => ?_
    rw [hnew l hl, BitVec.getLsbD_or, BitVec.getLsbD_and, BitVec.getLsbD_not, getLsbD_maskOf _ hl]
    simp only [List.mem_filter, mem_execLanes]
    cases hexec : s.me.exec.getLsbD l with
    | true => simp only [lt_lanes_of_exec hl hexec, hl, decide_true, Bool.not_true, Bool.and_false, Bool.false_or, and_self,
        true_and, Bool.decide_eq_true, ↓reduceIte]
    | false => simp only [hl, decide_true, Bool.not_false, Bool.and_true, Bool.false_eq_true, and_false, false_and, decide_false,
        Bool.or_false, ↓reduceIte]
  unfold writeMask
  rw [← hbits]

/-! ### Tests of elements (R157, R161) -/

/-- The relation of element e of two sources in a lane, with its exceptions. -/
def elemTest (s : State) (f : Nat → Nat → Bool × Nat) (a b : BitVec 8) (l e : Nat) : Bool × Nat :=
  let el (v : BitVec 8) : Nat := elemOf (typeWidth s.me.ty) (s.me.getUnit (isWideType s.me.ty) v.toNat l).val.toNat e
  f (el a) (el b)

/-- Whether every element of a lane holds the relation. -/
def laneHolds (s : State) (f : Nat → Nat → Bool × Nat) (a b : BitVec 8) (l : Nat) : Bool :=
  (List.range (elemCount (typeWidth s.me.ty))).all fun e => (elemTest s f a b l e).1

/-- The exceptions of a test in each exec lane, over all elements. -/
def testExceptions (s : State) (f : Nat → Nat → Bool × Nat) (a b : BitVec 8) : List (Nat × Nat) :=
  s.me.execLanes.map fun l =>
    (l, (List.range (elemCount (typeWidth s.me.ty))).foldl (fun x e => x ||| (elemTest s f a b l e).2) 0)

/-- The need of a test: a mask register is written. -/
def testNeed (g : Agent) (ok : Bool) (lat : Nat) (m : BitVec 4) (a b : BitVec 8) : Need :=
  let n := g.vecNeed ok (isWideType g.ty) [] [a.toNat, b.toNat] lat false
  ({ n with writes := [.m m.toNat] } : Need).rounding (floatPass lat)

theorem takes_test {s : State} {m : BitVec 4} {a b : BitVec 8} (lat : Nat)
    (hfree : VecFree s (isWideType s.me.ty) [a, b] [.m m.toNat] = true) : Takes s (testNeed s.me true lat m a b) = true := by
  refine takes_rounding _ (takes_vecMore (ds := []) (ss := [a, b]) (lat := lat) (ext := false) rfl hfree rfl rfl fun q hq => ?_)
    (vecFree_pipes hfree)
  simpa only [List.map_cons, List.map_nil, vecNeed_reads, vecNeed_writes, List.flatMap_nil, List.append_nil] using hq

theorem vecTest_illegal {ok : Bool} (lat : Nat) (f : Nat → Nat → Bool × Nat) (m : BitVec 4) (a b : BitVec 8) {s : State}
    (hok : ok = false) (hwait : s.awaitsExceptions = false) : vecTest ok lat f m a b s = trap .illegal s := by
  subst hok
  unfold vecTest
  exact issue_illegal (by simp only [Need.rounding, Agent.vecNeed, Agent.vecNeedOf, Bool.and_false, Bool.false_and]) hwait

/-- A test on clean sources closes its exceptions and then writes the mask bits of the exec lanes. -/
theorem vecTest_clean {lat : Nat} {f : Nat → Nat → Bool × Nat} {m : BitVec 4} {a b : BitVec 8} {s : State}
    (hfree : VecFree s (isWideType s.me.ty) [a, b] [.m m.toNat] = true)
    (hclean : poisonedLanes s (isWideType s.me.ty) [a, b] = []) :
    vecTest true lat f m a b s = commitLanes (testExceptions s f a b)
      (fun u => .next (retire (testNeed s.me true lat m a b) (writeMask m.toNat (laneHolds s f a b) u))) s := by
  have hpoison : s.me.execLanes.filter (fun l => (s.me.getUnit (isWideType s.me.ty) a.toNat l).poison ||
      (s.me.getUnit (isWideType s.me.ty) b.toNat l).poison) = [] := by
    simpa only [poisonedLanes, List.any_cons, List.any_nil, Bool.or_false] using hclean
  unfold vecTest
  exact (takes_issue _ (takes_test lat hfree)).trans (consumeLanes_clean hpoison)

/-- A test on clean sources: with no enabled exception FLAGS takes them all and the mask its bits, and otherwise the lanes that meet
one trap. -/
theorem closes_vecTest {i : Instr} {lat : Nat} {f : Nat → Nat → Bool × Nat} {m : BitVec 4} {a b : BitVec 8} {s : State}
    {new : LaneMask} (hi : exec i s = vecTest true lat f m a b s)
    (hfree : VecFree s (isWideType s.me.ty) [a, b] [.m m.toNat] = true)
    (hclean : poisonedLanes s (isWideType s.me.ty) [a, b] = []) :
    let bad := (testExceptions s f a b).filter fun c => s.me.enabled c.2 != 0
    (bad = [] → (∀ l, l < 1024 → new.getLsbD l = if l < s.me.lanes ∧ s.me.exec.getLsbD l = true
        then laneHolds s f a b l else (s.me.getM m.toNat).getLsbD l) →
      Does false i s ((s.orFlags (orExc (testExceptions s f a b))).updMe fun g => g.setM m.toNat new)) ∧
    (bad ≠ [] → Traps i s (.arith (s.me.enabled (orExc bad))) (maskOf (bad.map (·.1)))) := by
  rw [vecTest_clean hfree hclean] at hi
  refine ⟨fun hnone hnew => ?_, fun hsome => traps_of (hi.trans (commitLanes_traps hsome))⟩
  rw [← writeMask_eq_setM (s := s.orFlags _) hnew]
  exact does_vec hi (commitLanes_flags hnone) rfl (writeMask_next ..)

/-- VFCMP of a binary type compares the values read (R157). -/
theorem exec_vfcmp_binary {r m : BitVec 4} {a b : BitVec 8} {s : State} (hty : isFloatType s.me.ty = true) (hr : r.toNat < 8) :
    exec (.vfcmp r m a b) s = vecTest true (floatLat s.me.ty 16) (fun x y =>
      ((fmtOf s.me.ty).read (modeFtz s.me.regs.mode) x).rel r.toNat ((fmtOf s.me.ty).read (modeFtz s.me.regs.mode) y)) m a b s := by
  have hdec := ne_decimal_of_isFloatType hty
  change execVfcmp r m a b s = _
  simp only [execVfcmp, isFloatOrDec, hty, hr, hdec, ↓reduceIte, Bool.true_or, decide_true, Bool.and_self]

/-- VFCMP of d64 compares the decimal values (R101, R157). -/
theorem exec_vfcmp_decimal {r m : BitVec 4} {a b : BitVec 8} {s : State} (hty : s.me.ty = 0x0E) (hr : r.toNat < 8) :
    exec (.vfcmp r m a b) s =
      vecTest true (floatLat s.me.ty 16) (fun x y => (Dec.read x).rel r.toNat (Dec.read y)) m a b s := by
  change execVfcmp r m a b s = _
  simp only [execVfcmp, isFloatOrDec, hty, hr, ↓reduceIte, beq_self_eq_true, Bool.or_true, decide_true, Bool.and_self]

theorem exec_vfcmp_reserved {r m : BitVec 4} {a b : BitVec 8} {s : State} (hr : 8 ≤ r.toNat) (hwait : s.awaitsExceptions = false) :
    exec (.vfcmp r m a b) s = trap .illegal s := by
  have hok : (isFloatOrDec s.me.ty && decide (r.toNat < 8)) = false := by
    simp only [Nat.not_lt.mpr hr, decide_false, Bool.and_false]
  change execVfcmp r m a b s = _
  unfold execVfcmp
  exact vecTest_illegal _ _ m a b hok hwait

theorem exec_vdsame_decimal {m : BitVec 4} {a b : BitVec 8} {s : State} (hty : s.me.ty = 0x0E) :
    exec (.vdsame m a b) s = vecTest true 8 (fun x y => (decSame (Dec.read x) (Dec.read y), 0)) m a b s := by
  change execVdsame m a b s = _
  simp only [execVdsame, hty, beq_self_eq_true]

theorem exec_vdsame_other {m : BitVec 4} {a b : BitVec 8} {s : State} (hty : s.me.ty ≠ 0x0E) (hwait : s.awaitsExceptions = false) :
    exec (.vdsame m a b) s = trap .illegal s := by
  change execVdsame m a b s = _
  unfold execVdsame
  exact vecTest_illegal _ _ m a b (beq_eq_false_iff_ne.mpr hty) hwait

theorem floatCompares : Claims.FloatCompares := by
  intro s r m a b new t wide w ftz el tests hfree hclean _
  have hwait : s.awaitsExceptions = false := free_settled (vecFree_free hfree)
  refine ⟨fun hty hr => ?_, fun hty hr => ?_, fun hty => ?_, fun hr => ?_, fun hty => ?_⟩
  · exact closes_vecTest (exec_vfcmp_binary hty hr) hfree hclean
  · exact closes_vecTest (exec_vfcmp_decimal hty hr) hfree hclean
  · exact closes_vecTest (exec_vdsame_decimal hty) hfree hclean
  · exact traps_of (exec_vfcmp_reserved hr hwait)
  · exact traps_of (exec_vdsame_other hty hwait)

/-! ### Conversions (R92 to R94, R159) -/

theorem joinElems_congr {w n : Nat} {g h : Nat → Nat} (heq : ∀ e, e < n → g e = h e) : joinElems w n g = joinElems w n h :=
  List.foldl_rel (r := (· = ·)) rfl fun e he acc acc' hacc => by rw [hacc, heq e (List.mem_range.mp he)]

/-- An element that has no source is zero (R159): below the destination's count, the source's alone decides. -/
theorem convElems_eq (src dst : Nat) (f : Nat → Nat) (u : Nat) :
    convElems src dst f u = joinElems (typeWidth dst) (elemCount (typeWidth dst)) fun e =>
      if e < elemCount (typeWidth src) then f (elemOf (typeWidth src) u e) else 0 :=
  joinElems_congr fun e he => by simp only [Nat.lt_min, he, and_true]

/-- A converted lane with its exceptions: each element that has a source is converted, the others are zero. -/
def converted (s : State) (dst : Nat) (f : Nat → Nat × Nat) (a : BitVec 8) (l : Nat) : Nat × Nat :=
  let el (e : Nat) : Nat := elemOf (typeWidth s.me.ty) (s.me.getUnit (isWideType s.me.ty) a.toNat l).val.toNat e
  (joinElems (typeWidth dst) (elemCount (typeWidth dst)) fun e => if e < elemCount (typeWidth s.me.ty) then (f (el e)).1 else 0,
   (List.range (min (elemCount (typeWidth s.me.ty)) (elemCount (typeWidth dst)))).foldl (fun x e => x ||| (f (el e)).2) 0)

/-- The need of a conversion: each operand has its own type's width. -/
def convNeed (g : Agent) (ok : Bool) (dst : Nat) (d a : BitVec 8) : Need :=
  (g.vecNeedOf ok [(d.toNat, isWideType dst)] [(a.toNat, isWideType g.ty)] (convLat g.ty dst) false).rounding
    (floatPass (convLat g.ty dst))

/-- Nothing holds back a conversion of the type in force to another type. -/
structure ConvFree (s : State) (dst : Nat) (d a : BitVec 8) : Prop where
  team : s.me.isTeam = true
  pipes : PipesFree s = true
  source : isWideType s.me.ty = true → a.toNat % 2 = 0
  dest : isWideType dst = true → d.toNat % 2 = 0
  free : Free s (vRegs (isWideType s.me.ty) a.toNat ++ s.me.guardReg ++ vRegs (isWideType dst) d.toNat) = true

theorem takes_conv {s : State} {dst : Nat} {d a : BitVec 8} (h : ConvFree s dst d a) : Takes s (convNeed s.me true dst d a) = true := by
  have heven {wide : Bool} {n : Nat} (hn : wide = true → n % 2 = 0) : (!wide || n % 2 == 0) = true := by
    cases wide with
    | false => rfl
    | true => simp only [hn rfl, beq_self_eq_true, Bool.or_true]
  refine takes_rounding _ (takes_of ?_ rfl ?_ (pipeHeld_free h.pipes)) h.pipes
  · simp only [Agent.vecNeedOf, h.team, List.cons_append, List.nil_append, List.all_cons, List.all_nil, heven h.source, heven h.dest,
      Bool.and_self]
  · simpa only [Agent.vecNeedOf, List.flatMap_cons, List.flatMap_nil, List.append_nil] using h.free

theorem vecConv_eq (ok : Bool) (dst : Nat) (f : Rounding → Nat → Nat × Nat) (d a : BitVec 8) (s : State) :
    vecConv ok dst f d a s = vecExc (convNeed s.me ok dst d a) (isWideType dst) (isWideType s.me.ty) [a] (fun us =>
      (convElems s.me.ty dst (fun x => (f s.me.rounding x).1) (us.headD 0),
        (List.range (min (elemCount (typeWidth s.me.ty)) (elemCount (typeWidth dst)))).foldl
          (fun x e => x ||| (f s.me.rounding (elemOf (typeWidth s.me.ty) (us.headD 0) e)).2) 0)) d s := by
  unfold vecConv convNeed
  rfl

/-- A conversion of a clean source closes as commit_arith does. -/
theorem closes_vecConv {i : Instr} {dst : Nat} {f : Rounding → Nat → Nat × Nat} {d a : BitVec 8} {s : State}
    (hi : exec i s = vecConv true dst f d a s) (hfree : ConvFree s dst d a) (hclean : poisonedLanes s (isWideType s.me.ty) [a] = []) :
    Closes false i s (isWideType dst) d (converted s dst (f s.me.rounding) a) := by
  have hcloses := closes_vecExc (hi.trans (vecConv_eq ..)) (takes_conv hfree) hclean
  simp only [convElems_eq] at hcloses
  exact hcloses

theorem vecConv_illegal {ok : Bool} (dst : Nat) (f : Rounding → Nat → Nat × Nat) (d a : BitVec 8) {s : State} (hok : ok = false)
    (hwait : s.awaitsExceptions = false) : vecConv ok dst f d a s = trap .illegal s := by
  subst hok
  unfold vecConv vecExc
  exact issue_illegal (by simp only [Need.rounding, Agent.vecNeedOf, Bool.and_false, Bool.false_and]) hwait

section
variable {s : State} {d a : BitVec 8} {k : BitVec 5}

/-- VFCVT between binary types rounds the value read to the destination's format (R92). -/
theorem exec_vfcvt_binary (hsrc : isFloatType s.me.ty = true) (hdst : isFloatType k.toNat = true) :
    exec (.vfcvt d a k) s = vecConv true k.toNat
      (fun r x => (fmtOf k.toNat).round r.rnd r.ftz ((fmtOf s.me.ty).read r.ftz x)) d a s := by
  change execVfcvt d a k s = _
  simp only [execVfcvt, hsrc, hdst, ne_decimal_of_isFloatType hsrc, ne_decimal_of_isFloatType hdst, Bool.and_self, Bool.true_or,
    ↓reduceIte]

/-- VFCVT from d64 to f64 rounds the decimal value once (R103). -/
theorem exec_vfcvt_fromDecimal (hsrc : s.me.ty = 0x0E) (hdst : k.toNat = 0x08) :
    exec (.vfcvt d a k) s = vecConv true k.toNat (fun r x => (fmtOf k.toNat).round r.rnd r.ftz (Dec.read x).toNum) d a s := by
  change execVfcvt d a k s = _
  simp only [execVfcvt, hsrc, hdst, beq_self_eq_true, Bool.and_self, Bool.or_true, Bool.true_or, ↓reduceIte]

/-- VFCVT from f64 to d64 places the exact value, with preferred exponent 0 (R103). -/
theorem exec_vfcvt_toDecimal (hsrc : s.me.ty = 0x08) (hdst : k.toNat = 0x0E) :
    exec (.vfcvt d a k) s = vecConv true k.toNat (fun r x => ((fmtOf s.me.ty).read r.ftz x).toDec.place r.rnd 0) d a s := by
  change execVfcvt d a k s = _
  simp only [execVfcvt, hsrc, hdst, beq_self_eq_true, Bool.and_self, Bool.or_true, Nat.reduceEqDiff, ↓reduceIte]

/-- VFI2F to a binary type rounds the integer's value (R93). -/
theorem exec_vfi2f_binary (hsrc : isIntType s.me.ty = true) (hdst : isFloatType k.toNat = true) :
    exec (.vfi2f d a k) s = vecConv true k.toNat
      (fun r x => (fmtOf k.toNat).round r.rnd r.ftz (Machine.Num.ofInt (readInt s.me.ty x))) d a s := by
  change execVfi2f d a k s = _
  simp only [execVfi2f, hsrc, hdst, ne_decimal_of_isFloatType hdst, Bool.true_or, Bool.and_self, ↓reduceIte]

/-- VFI2F of a 64-bit integer to d64 places its value, with preferred exponent 0 (R103). -/
theorem exec_vfi2f_decimal (hsrc : s.me.ty = 0x06 ∨ s.me.ty = 0x07) (hdst : k.toNat = 0x0E) :
    exec (.vfi2f d a k) s = vecConv true k.toNat (fun r x =>
      (Dec.exact (decide (readInt s.me.ty x < 0)) (readInt s.me.ty x).natAbs 0).place r.rnd 0) d a s := by
  have hint : isIntType s.me.ty = true := decide_eq_true (by omega)
  have hwide : 0x06 ≤ s.me.ty := by omega
  change execVfi2f d a k s = _
  simp only [execVfi2f, hint, hwide, hdst, decide_true, beq_self_eq_true, Bool.and_self, Bool.or_true, ↓reduceIte]

/-- VFF2I of a binary type rounds the value read into the integer type (R94). -/
theorem exec_vff2i_binary (hsrc : isFloatType s.me.ty = true) (hdst : isIntType k.toNat = true) :
    exec (.vff2i d a k) s = vecConv true k.toNat (fun r x => ((fmtOf s.me.ty).read r.ftz x).toIntType r.rnd k.toNat) d a s := by
  change execVff2i d a k s = _
  simp only [execVff2i, hsrc, hdst, ne_decimal_of_isFloatType hsrc, Bool.true_or, Bool.and_self, ↓reduceIte]

/-- VFF2I of d64 rounds the decimal value into a 64-bit integer type (R94, R103). -/
theorem exec_vff2i_decimal (hsrc : s.me.ty = 0x0E) (hdst : k.toNat = 0x06 ∨ k.toNat = 0x07) :
    exec (.vff2i d a k) s = vecConv true k.toNat (fun r x => (Dec.read x).toIntType r.rnd k.toNat) d a s := by
  have hint : isIntType k.toNat = true := decide_eq_true (by omega)
  have hwide : 0x06 ≤ k.toNat := by omega
  change execVff2i d a k s = _
  simp only [execVff2i, hint, hwide, hsrc, decide_true, beq_self_eq_true, Bool.and_self, Bool.or_true, ↓reduceIte]

/-- VFCVT takes no integer type. -/
theorem exec_vfcvt_integer (hty : isIntType s.me.ty = true ∨ isIntType k.toNat = true) (hwait : s.awaitsExceptions = false) :
    exec (.vfcvt d a k) s = trap .illegal s := by
  have hok : ((isFloatType s.me.ty && isFloatType k.toNat) || (s.me.ty == 0x0E && k.toNat == 0x08) ||
      (s.me.ty == 0x08 && k.toNat == 0x0E)) = false := by
    simp only [decide_eq_true_eq] at hty
    simp only [Bool.eq_false_iff, ne_eq, Bool.or_eq_true, Bool.and_eq_true, decide_eq_true_eq, beq_iff_eq]
    omega
  change execVfcvt d a k s = _
  unfold execVfcvt
  exact vecConv_illegal _ _ d a hok hwait

/-- VFI2F takes an integer type to one that is not. -/
theorem exec_vfi2f_illegal (hty : isIntType s.me.ty = false ∨ isIntType k.toNat = true) (hwait : s.awaitsExceptions = false) :
    exec (.vfi2f d a k) s = trap .illegal s := by
  have hok : (isIntType s.me.ty && (isFloatType k.toNat || (k.toNat == 0x0E && decide (0x06 ≤ s.me.ty)))) = false := by
    simp only [decide_eq_true_eq, decide_eq_false_iff_not] at hty
    simp only [Bool.eq_false_iff, ne_eq, Bool.or_eq_true, Bool.and_eq_true, decide_eq_true_eq, beq_iff_eq]
    omega
  change execVfi2f d a k s = _
  unfold execVfi2f
  exact vecConv_illegal _ _ d a hok hwait

/-- VFF2I takes a type that is not an integer's to one that is. -/
theorem exec_vff2i_illegal (hty : isIntType k.toNat = false ∨ isIntType s.me.ty = true) (hwait : s.awaitsExceptions = false) :
    exec (.vff2i d a k) s = trap .illegal s := by
  have hok : (isIntType k.toNat && (isFloatType s.me.ty || (s.me.ty == 0x0E && decide (0x06 ≤ k.toNat)))) = false := by
    simp only [decide_eq_true_eq, decide_eq_false_iff_not] at hty
    simp only [Bool.eq_false_iff, ne_eq, Bool.or_eq_true, Bool.and_eq_true, decide_eq_true_eq, beq_iff_eq]
    omega
  change execVff2i d a k s = _
  unfold execVff2i
  exact vecConv_illegal _ _ d a hok hwait

end

theorem formatConversions : Claims.FormatConversions := by
  intro s d a k t u rnd ftz conv
  refine ⟨fun hteam hpipes hsource hdest hfree hclean => ?_, fun hwait hty => ?_, fun hwait hty => ?_, fun hwait hty => ?_⟩
  · have hready : ConvFree s k.toNat d a := ⟨hteam, hpipes, hsource, hdest, hfree⟩
    refine ⟨fun hsrc hdst => ?_, fun hsrc hdst => ?_, fun hsrc hdst => ?_, fun hsrc hdst => ?_, fun hsrc hdst => ?_, fun hsrc hdst => ?_,
      fun hsrc hdst => ?_⟩
    · exact (closes_vecConv (exec_vfcvt_binary hsrc hdst) hready hclean :)
    · exact (closes_vecConv (exec_vfcvt_fromDecimal hsrc hdst) hready hclean :)
    · exact (closes_vecConv (exec_vfcvt_toDecimal hsrc hdst) hready hclean :)
    · exact (closes_vecConv (exec_vfi2f_binary hsrc hdst) hready hclean :)
    · exact (closes_vecConv (exec_vfi2f_decimal hsrc hdst) hready hclean :)
    · exact (closes_vecConv (exec_vff2i_binary hsrc hdst) hready hclean :)
    · exact (closes_vecConv (exec_vff2i_decimal hsrc hdst) hready hclean :)
  · exact traps_of (exec_vfcvt_integer hty hwait)
  · exact traps_of (exec_vfi2f_illegal hty hwait)
  · exact traps_of (exec_vff2i_illegal hty hwait)

/-- Settles O39: a compare is the mask test with its type's relation, a conversion the body of R150 with its pair's rounding; a reserved
relation, or a type that the instruction does not take, is illegal. -/
theorem floatComparesAndConversions : Obligations.FloatComparesAndConversions := by
  unfold Obligations.FloatComparesAndConversions
  exact ⟨floatCompares, formatConversions⟩

end Sys2Proof.Proofs
end

section
/-! PROOFS. MODE, the sticky flags, PRCHK, NOP, WFI and HALT (R75, R78, R111, R169, R199, R200, R202). -/
namespace Sys2Proof.Proofs
open Sys2Proof.Machine Sys2Proof.Safety Sys2Proof.Laws

/-! ### What issues free of anything that holds it back -/

/-- A scalar instruction is free to issue when the registers of its s fields are. -/
theorem takes_scalarNeed {s : State} {srcs dsts : List (BitVec 7)} (lat : Nat) (h : Free s (scalars s (srcs ++ dsts)) = true) :
    Takes s (s.me.scalarNeed (dsts.map (·.toNat)) (srcs.map (·.toNat)) lat) = true := by
  refine takes_of rfl rfl ?_
  simpa [Agent.scalarNeed, scalars, List.flatMap_map] using h

/-! ### The sticky flags (R111, R169) -/

section
variable {s : State} {d a : BitVec 7}

/-- FLAGRD that nothing else holds back: it waits for results in flight, then for the end of fixed latencies, then reads. -/
theorem execFlagrd_next (h : Free s (scalars s [d]) = true) :
    execFlagrd d s =
      if s.inFlight s.meId s.me then hold s
      else if s.coreNow < s.me.arithUntil then holdUntil s.me.arithUntil s
      else .next (retire (s.me.scalarNeed [d.toNat] [] 1) (s.setS d.toNat (clean ((s.me.regs.flags &&& 0x1F).setWidth 64)))) := by
  have hready : Takes s (s.me.scalarNeed [d.toNat] [] 1) = true := takes_scalarNeed (srcs := []) (dsts := [d]) 1 h
  unfold execFlagrd
  exact takes_issue _ hready

/-- FLAGCLR of a clean source that nothing else holds back: it waits for results in flight, then clears. -/
theorem execFlagclr_next (h : Free s (scalars s [a]) = true) (hp : Unpoisoned s [a] = true) :
    execFlagclr a s =
      if s.inFlight s.meId s.me then hold s
      else .next (retire (s.me.scalarNeed [] [a.toNat]) (withRegs s fun r => { r with flags :=
        s.me.regs.flags &&& ~~~((s.me.getS a.toNat).val.setWidth 32 &&& 0x1F) })) := by
  have hready : Takes s (s.me.scalarNeed [] [a.toNat]) = true := takes_scalarNeed (srcs := [a]) (dsts := []) 1 h
  have hvalue : [s.me.getS a.toNat].all (fun v => !v.poison) = true := hp
  unfold execFlagclr
  exact (takes_issue _ hready).trans (consume_clean hvalue)

end

theorem stickyFlags : Claims.StickyFlags := by
  intro s d a flags
  refine ⟨fun hfree => ⟨fun hnone => ⟨fun hended => ?_, fun hrunning => ?_⟩, fun hsome => ?_⟩,
    fun hfree hclean => ⟨fun hnone => ?_, fun hsome => ?_⟩⟩
  · exact does_via (execFlagrd_next hfree) (by rw [hnone, if_neg Bool.false_ne_true, if_neg (Nat.not_lt.mpr hended)])
      (setS_state_next ..)
  · exact (execFlagrd_next hfree).trans (by rw [hnone, if_neg Bool.false_ne_true, if_pos hrunning]; rfl)
  · exact (execFlagrd_next hfree).trans (if_pos hsome)
  · exact does_via (execFlagclr_next hfree hclean) (by rw [hnone, if_neg Bool.false_ne_true]) rfl
  · exact (execFlagclr_next hfree hclean).trans (if_pos hsome)

/-! ### PRCHK, NOP, WFI and HALT (R200, R202) -/

section
variable {s : State}

/-- A supervisor thread that WFI finds free waits while no interrupt is pending. -/
theorem execWfi_next (h : Free s [] = true) (hthread : s.me.isTeam = false) (hsup : s.me.regs.priv = true) :
    execWfi s = if s.me.intrs.isEmpty then .next (s.updMe fun a => { a with wait := .wfi }) else .next (retire {} s) := by
  have hready : Takes s { legal := !s.me.isTeam, sup := true } = true := takes_sup (by rw [hthread]; rfl) hsup h
  exact takes_issue _ hready

/-- The state in which HALT leaves its agent: retired, stopped for good, its event sent. -/
def haltState (s : State) : State :=
  ((retire {} s).updMe fun a => { a with wait := .halted }).sendEvent 0x03 (s.partOf s.me) 0
    (BitVec.ofNat 32 (agentOperand s.meId s.me))

theorem execHalt_next (h : Free s [] = true) (hsup : s.me.regs.priv = true) : execHalt s = .next (haltState s) :=
  (takes_issue _ (takes_sup (n := { sup := true }) rfl hsup h)).trans (waitInk_free (free_sketch h))

/-- HALT changes its agent, the event counters and the events, and nothing else of the package. -/
theorem haltState_frame (s : State) :
    haltState s = { s with me := (haltState s).me, counters := (haltState s).counters, events := (haltState s).events } := by
  unfold haltState retire retireTo
  rw [count_eq]
  rfl

/-- Of its agent HALT moves the PC and the place in its order, and sets the wait that never ends. -/
theorem haltState_me (s : State) :
    (haltState s).me = { s.me with regs := atPc s.me.regs (s.me.next false), seq := s.me.seq + 1, waited := false,
                                   wait := .halted, score := (haltState s).me.score } := by
  unfold haltState retire retireTo
  rw [count_eq]
  rfl

theorem haltState_events (s : State) : ∃ e, (haltState s).events = s.events ++ [e] ∧ e.code = 0x03 ∧ e.time = s.time := by
  unfold haltState retire retireTo
  rw [count_eq]
  exact ⟨_, rfl, rfl, rfl⟩

end

theorem smallSystemInstructions : Claims.SmallSystemInstructions := by
  intro s d
  refine ⟨fun hfree => ?_, fun hfree => ?_, fun hfree hthread hsup => ⟨fun hpending => ?_, fun hnone => ?_⟩, fun hfree hsup => ?_⟩
  · exact does_via (readInto_next hfree : execPrchk d s = _) rfl (setS_state_next ..)
  · exact does_of {} (takes_issue _ (takes_of rfl rfl hfree) : execNop s = _) rfl
  · exact does_via (execWfi_next hfree hthread hsup) (if_neg (by simpa using hpending)) rfl
  · exact (execWfi_next hfree hthread hsup).trans (if_pos (by simpa using hnone))
  · exact ⟨haltState s, execHalt_next hfree hsup, haltState_frame s, haltState_me s, haltState_events s⟩

/-! ### MODE (R75, R78, R199) -/

/-- The bits that SETMODE may change: 12:0, 23:21, and TRAPEN (20:16) while LOCK (24) is 0. -/
theorem getLsbD_settable (m : Word32) {i : Nat} (hi : i < 32) : (settable m).getLsbD i =
    (decide (i < 13) || decide (21 ≤ i ∧ i < 24) || (decide (16 ≤ i ∧ i < 21) && !m.getLsbD 24)) := by
  unfold settable
  cases m.getLsbD 24 <;> revert i <;> decide

/-- The MODE that SETMODE makes of an old one with a value and a mask. -/
def modeSet (old : Word32) (x y : Dword) : Word32 :=
  let f := y.setWidth 32 &&& settable old
  (old &&& ~~~f) ||| (x.setWidth 32 &&& f)

theorem getLsbD_modeSet (old : Word32) (x y : Dword) {i : Nat} (hi : i < 32) :
    (modeSet old x y).getLsbD i = if y.getLsbD i && (settable old).getLsbD i then x.getLsbD i else old.getLsbD i := by
  simp only [modeSet, BitVec.getLsbD_or, BitVec.getLsbD_and, BitVec.getLsbD_not, BitVec.getLsbD_setWidth, hi, decide_true,
    Bool.true_and]
  cases y.getLsbD i && (settable old).getLsbD i <;> simp

/-- A word with SETMODE's bits is the word that SETMODE makes. -/
theorem eq_modeSet {old new : Word32} {x y : Dword} (hbits : ∀ i, i < 32 → new.getLsbD i =
      if y.getLsbD i && (decide (i < 13) || decide (21 ≤ i ∧ i < 24) || (decide (16 ≤ i ∧ i < 21) && !old.getLsbD 24))
      then x.getLsbD i else old.getLsbD i) : new = modeSet old x y :=
  BitVec.eq_of_getLsbD_eq fun i hi => by rw [hbits i hi, getLsbD_modeSet _ _ _ hi, getLsbD_settable _ hi]

theorem modeOk_iff (m : Word32) : modeOk m = true ↔
    m.toNat % 32 ≤ 0x10 ∧ m.toNat / 32 % 8 ≤ 4 ∧ (m.getLsbD 12 = false → m.toNat / 256 % 16 = 0) := by
  simp only [modeOk, Bool.and_eq_true, Bool.or_eq_true, decide_eq_true_eq, beq_iff_eq, and_assoc]
  cases m.getLsbD 12 <;> simp

/-- SETMODE of clean sources that nothing holds back takes a well-formed MODE, and traps on another. -/
theorem execSetmode_next {s : State} {a b : BitVec 7} (h : Free s (scalars s [a, b]) = true) (hp : Unpoisoned s [a, b] = true) :
    let new := modeSet s.me.regs.mode (s.me.getS a.toNat).val (s.me.getS b.toNat).val
    execSetmode a b s = if modeOk new then
      .next (retire (s.me.scalarNeed [] [a.toNat, b.toNat]) (withRegs s fun r => { r with mode := new })) else trap .illegal s := by
  have hready : Takes s (s.me.scalarNeed [] [a.toNat, b.toNat]) = true := takes_scalarNeed (srcs := [a, b]) (dsts := []) 1 h
  have hvalues : [s.me.getS a.toNat, s.me.getS b.toNat].all (fun v => !v.poison) = true := hp
  unfold execSetmode
  exact (takes_issue _ hready).trans (consume_clean hvalues)

theorem modeChanges : Claims.ModeChanges := by
  intro s d a b new x y old
  refine ⟨fun hfree => ?_, fun hfree hclean hbits => ?_⟩
  · exact does_via (readInto_next hfree : execGetmode d s = _) rfl (setS_state_next ..)
  · obtain rfl : new = modeSet old x.val y.val := eq_modeSet hbits
    have hexec := execSetmode_next hfree hclean
    split
    case isTrue hok => exact does_via hexec (if_pos ((modeOk_iff _).mpr hok)) rfl
    case isFalse hbad => exact traps_of (hexec.trans (if_neg fun hok => hbad ((modeOk_iff _).mp hok)))

/-- Settles O30: with nothing that holds it back, each instruction comes to its own meaning; SETMODE's word is the one with the
stated bits, and it is taken exactly when it is well-formed. -/
theorem modeAndSystem : Obligations.ModeAndSystem := by
  unfold Obligations.ModeAndSystem
  exact ⟨stickyFlags, smallSystemInstructions, modeChanges⟩

end Sys2Proof.Proofs
end
